-- ==== Sys2Proof/Word.lean ====
section
/-! DEFINITION. The two word types of the hardware (00_scope.md R9, R19): bytes and 16-bit addresses. -/

namespace Sys2Proof

/-- A byte: the data bus, the 8-bit registers, a memory cell (R9). -/
abbrev Byte := BitVec 8

/-- A 16-bit address or register pair (R9). -/
abbrev Addr := BitVec 16

end Sys2Proof
end

