-- ==== Sys2Proof/Syntax.lean ====
section
/-! DEFINITION. The instructions of both instruction sets as syntax: 30_encoding.md R81, R92 (MOS6502-NMOS) and
48_i8080.md R422, R431, R435 (i8080). One constructor for each (instruction set, mnemonic), with the operand form as
its arguments; SBC 0xEB (47_illegal.md R383) and the undocumented NOPs (R385) have rules of their own and constructors of
their own. Every row of spec/opcode_table.json is one constructor applied to its operand form.

A 6502 instruction is its opcode byte and nothing more (R80: the opcode byte alone selects the instruction, its mode
and its length; 40_engine.md R120: the dispatcher is a function of the opcode and the step): its operand bytes are
read by its own microcode, one bus cycle each (41_addressing.md), and so are no part of the term (log entry 21). An
8080 instruction carries its immediate, port or address (48_i8080.md R431).

The constructors of the 8080 core begin with `i80`. Where one instruction has several words, an argument says which
(`k`, `dup`), so that no two words of one instruction set are the same term. -/

namespace Sys2Proof

/-- The three processors (00_scope.md R2): the 6502-family engine, the same engine with decimal mode disabled (the
console-integrated variant, R3), and the 8080-family core. -/
inductive Processor where
  | mos6502
  | mos6502NoDecimal
  | i8080
deriving DecidableEq, Repr

/-- The addressing modes of the 6502 (30_encoding.md R81). -/
inductive Mode where
  | impl | acc | imm | zp | zpx | zpy | abs | absx | absy | izx | izy | rel | ind
deriving DecidableEq, Repr

/-- The 8080's register operand codes (48_i8080.md R422); `m` names the memory byte at HL. -/
inductive Reg8 where
  | b | c | d | e | h | l | m | a
deriving DecidableEq, Repr

/-- The 8080's register pairs (48_i8080.md R422). -/
inductive RegPair where
  | bc | de | hl | sp
deriving DecidableEq, Repr

/-- The pairs PUSH and POP name (48_i8080.md R422: code 3 is PSW there). -/
inductive StackPair where
  | bc | de | hl | psw
deriving DecidableEq, Repr

/-- The pairs LDAX and STAX name (48_i8080.md R447, R448: only BC and DE). -/
inductive IndexPair where
  | bc | de
deriving DecidableEq, Repr

/-- The instructions. -/
inductive Instr where
  -- 42_load_store.md
  | lda (m : Mode) | ldx (m : Mode) | ldy (m : Mode)
  | sta (m : Mode) | stx (m : Mode) | sty (m : Mode)
  | tax | tay | txa | tya | tsx | txs
  -- 43_alu.md
  | adc (m : Mode) | sbc (m : Mode) | and (m : Mode) | ora (m : Mode) | eor (m : Mode)
  | cmp (m : Mode) | cpx (m : Mode) | cpy (m : Mode) | bit (m : Mode)
  -- 44_rmw.md
  | asl (m : Mode) | lsr (m : Mode) | rol (m : Mode) | ror (m : Mode) | inc (m : Mode) | dec (m : Mode)
  | inx | iny | dex | dey
  -- 45_control.md
  | bpl | bmi | bvc | bvs | bcc | bcs | bne | beq
  | jmp (m : Mode) | jsr | rts | rti | brk
  -- 46_stack_flags.md
  | pha | php | pla | plp
  | clc | sec | cli | sei | cld | sed | clv
  | nop
  -- 47_illegal.md
  | slo (m : Mode) | rla (m : Mode) | sre (m : Mode) | rra (m : Mode) | dcp (m : Mode) | isc (m : Mode)
  | sax (m : Mode) | lax (m : Mode)
  | anc (dup : Bool) | alr | arr | sbx | sbcDup | las
  | nopU (m : Mode) (k : Fin 6)
  | ane | lxa | sha (m : Mode) | shx | shy | tas
  | jam (k : Fin 12)
  -- 48_i8080.md: data transfer
  | i80Mov (d s : Reg8) | i80Mvi (d : Reg8) (v : Byte) | i80Lxi (rp : RegPair) (v : Addr)
  | i80Lda (a : Addr) | i80Sta (a : Addr) | i80Lhld (a : Addr) | i80Shld (a : Addr)
  | i80Ldax (p : IndexPair) | i80Stax (p : IndexPair) | i80Xchg
  -- 48_i8080.md: arithmetic
  | i80Add (s : Reg8) | i80Adc (s : Reg8) | i80Adi (v : Byte) | i80Aci (v : Byte)
  | i80Sub (s : Reg8) | i80Sbb (s : Reg8) | i80Sui (v : Byte) | i80Sbi (v : Byte)
  | i80Inr (d : Reg8) | i80Dcr (d : Reg8)
  | i80Inx (rp : RegPair) | i80Dcx (rp : RegPair) | i80Dad (rp : RegPair) | i80Daa
  -- 48_i8080.md: logic, compare, rotate
  | i80Ana (s : Reg8) | i80Ani (v : Byte) | i80Xra (s : Reg8) | i80Xri (v : Byte)
  | i80Ora (s : Reg8) | i80Ori (v : Byte) | i80Cmp (s : Reg8) | i80Cpi (v : Byte)
  | i80Rlc | i80Rrc | i80Ral | i80Rar | i80Cma | i80Cmc | i80Stc
  -- 49_i8080_control.md
  | i80Jmp (dup : Bool) (a : Addr)
  | i80Jnz (a : Addr) | i80Jz (a : Addr) | i80Jnc (a : Addr) | i80Jc (a : Addr)
  | i80Jpo (a : Addr) | i80Jpe (a : Addr) | i80Jp (a : Addr) | i80Jm (a : Addr)
  | i80Call (k : BitVec 2) (a : Addr)
  | i80Cnz (a : Addr) | i80Cz (a : Addr) | i80Cnc (a : Addr) | i80Cc (a : Addr)
  | i80Cpo (a : Addr) | i80Cpe (a : Addr) | i80Cp (a : Addr) | i80Cm (a : Addr)
  | i80Ret (dup : Bool)
  | i80Rnz | i80Rz | i80Rnc | i80Rc | i80Rpo | i80Rpe | i80Rp | i80Rm
  | i80Rst (n : BitVec 3)
  | i80Pchl | i80Push (p : StackPair) | i80Pop (p : StackPair) | i80Xthl | i80Sphl
  | i80In (p : Byte) | i80Out (p : Byte) | i80Ei | i80Di | i80Hlt | i80Nop (k : BitVec 3)
deriving DecidableEq, Repr

end Sys2Proof
end

