-- ==== Sys2Proof/WellFormed.lean ====
section
/-! DEFINITION. Which terms of `Instr` are instructions of the hardware: those that some word of their instruction set
encodes. A 6502 mnemonic exists in the modes its rule lists (30_encoding.md R92); `MOV M,M` does not exist
(48_i8080.md R440). -/

namespace Sys2Proof

/-- The modes of the accumulator ALU instructions (43_alu.md R240 to R245) and of LDA (42_load_store.md R201). -/
def aluModes : List Mode := [.imm, .zp, .zpx, .abs, .absx, .absy, .izx, .izy]

/-- The modes of the shifts and rotates (44_rmw.md R271 to R274). -/
def shiftModes : List Mode := [.acc, .zp, .zpx, .abs, .absx]

/-- The modes of INC and DEC (44_rmw.md R275, R276). -/
def incModes : List Mode := [.zp, .zpx, .abs, .absx]

/-- The modes of the combined read-modify-write instructions (47_illegal.md R371 to R376). -/
def comboModes : List Mode := [.izx, .zp, .abs, .izy, .zpx, .absy, .absx]

/-- How many words encode the undocumented NOP of a mode (47_illegal.md R385). -/
def nopUCount : Mode → Nat
  | .impl => 6
  | .imm => 5
  | .zp => 3
  | .zpx => 6
  | .abs => 1
  | .absx => 6
  | .acc | .zpy | .absy | .izx | .izy | .rel | .ind => 0

/-- The term is an instruction of the hardware. -/
def Instr.wf : Instr → Bool
  | .lda m | .adc m | .sbc m | .and m | .ora m | .eor m | .cmp m => aluModes.contains m
  | .ldx m => [Mode.imm, .zp, .zpy, .abs, .absy].contains m
  | .ldy m => [Mode.imm, .zp, .zpx, .abs, .absx].contains m
  | .sta m => [Mode.zp, .zpx, .abs, .absx, .absy, .izx, .izy].contains m
  | .stx m => [Mode.zp, .zpy, .abs].contains m
  | .sty m => [Mode.zp, .zpx, .abs].contains m
  | .cpx m | .cpy m => [Mode.imm, .zp, .abs].contains m
  | .bit m => [Mode.zp, .abs].contains m
  | .asl m | .lsr m | .rol m | .ror m => shiftModes.contains m
  | .inc m | .dec m => incModes.contains m
  | .jmp m => [Mode.abs, .ind].contains m
  | .slo m | .rla m | .sre m | .rra m | .dcp m | .isc m => comboModes.contains m
  | .sax m => [Mode.izx, .zp, .abs, .zpy].contains m
  | .lax m => [Mode.izx, .zp, .abs, .izy, .zpy, .absy].contains m
  | .sha m => [Mode.absy, .izy].contains m
  | .nopU m k => decide (k.val < nopUCount m)
  | .i80Mov d s => !(d == .m && s == .m)
  | .tax | .tay | .txa | .tya | .tsx | .txs | .inx | .iny | .dex | .dey
  | .bpl | .bmi | .bvc | .bvs | .bcc | .bcs | .bne | .beq | .jsr | .rts | .rti | .brk
  | .pha | .php | .pla | .plp | .clc | .sec | .cli | .sei | .cld | .sed | .clv | .nop
  | .anc _ | .alr | .arr | .sbx | .sbcDup | .las | .ane | .lxa | .shx | .shy | .tas | .jam _ => true
  | .i80Mvi _ _ | .i80Lxi _ _ | .i80Lda _ | .i80Sta _ | .i80Lhld _ | .i80Shld _ | .i80Ldax _ | .i80Stax _ | .i80Xchg
  | .i80Add _ | .i80Adc _ | .i80Adi _ | .i80Aci _ | .i80Sub _ | .i80Sbb _ | .i80Sui _ | .i80Sbi _
  | .i80Inr _ | .i80Dcr _ | .i80Inx _ | .i80Dcx _ | .i80Dad _ | .i80Daa
  | .i80Ana _ | .i80Ani _ | .i80Xra _ | .i80Xri _ | .i80Ora _ | .i80Ori _ | .i80Cmp _ | .i80Cpi _
  | .i80Rlc | .i80Rrc | .i80Ral | .i80Rar | .i80Cma | .i80Cmc | .i80Stc
  | .i80Jmp _ _ | .i80Jnz _ | .i80Jz _ | .i80Jnc _ | .i80Jc _ | .i80Jpo _ | .i80Jpe _ | .i80Jp _ | .i80Jm _
  | .i80Call _ _ | .i80Cnz _ | .i80Cz _ | .i80Cnc _ | .i80Cc _ | .i80Cpo _ | .i80Cpe _ | .i80Cp _ | .i80Cm _
  | .i80Ret _ | .i80Rnz | .i80Rz | .i80Rnc | .i80Rc | .i80Rpo | .i80Rpe | .i80Rp | .i80Rm
  | .i80Rst _ | .i80Pchl | .i80Push _ | .i80Pop _ | .i80Xthl | .i80Sphl
  | .i80In _ | .i80Out _ | .i80Ei | .i80Di | .i80Hlt | .i80Nop _ => true

end Sys2Proof
end

