-- ==== Sys2Proof/Decode.lean ====
section
/-! DEFINITION. Decoding and encoding.

The decoder of the 6502 is the opcode map of 30_encoding.md R92, read by the opcode byte alone (R80); the decoder of the
8080 takes the fields of 48_i8080.md R431, R434 out of the opcode byte and then its operand bytes, low byte first. The
encoder is written from other places of the spec: the opcodes that each 6502 instruction's own rule lists, and the bit
patterns that each 8080 instruction's own rule gives. That the two agree is a theorem, so that a slip in one of them
shows.

Both instruction sets use every first byte (R88; 48_i8080.md R433), so a decoder rejects only bytes that are missing.
Which instruction set a byte belongs to is the instance's `Processor`. -/

namespace Sys2Proof

/-! ### The 6502: the opcode map (30_encoding.md R92), one row for each value of bits 7:4 -/

def mapRow0 : List Instr :=
  [.brk, .ora .izx, .jam 0, .slo .izx, .nopU .zp 0, .ora .zp, .asl .zp, .slo .zp,
   .php, .ora .imm, .asl .acc, .anc false, .nopU .abs 0, .ora .abs, .asl .abs, .slo .abs]

def mapRow1 : List Instr :=
  [.bpl, .ora .izy, .jam 1, .slo .izy, .nopU .zpx 0, .ora .zpx, .asl .zpx, .slo .zpx,
   .clc, .ora .absy, .nopU .impl 0, .slo .absy, .nopU .absx 0, .ora .absx, .asl .absx, .slo .absx]

def mapRow2 : List Instr :=
  [.jsr, .and .izx, .jam 2, .rla .izx, .bit .zp, .and .zp, .rol .zp, .rla .zp,
   .plp, .and .imm, .rol .acc, .anc true, .bit .abs, .and .abs, .rol .abs, .rla .abs]

def mapRow3 : List Instr :=
  [.bmi, .and .izy, .jam 3, .rla .izy, .nopU .zpx 1, .and .zpx, .rol .zpx, .rla .zpx,
   .sec, .and .absy, .nopU .impl 1, .rla .absy, .nopU .absx 1, .and .absx, .rol .absx, .rla .absx]

def mapRow4 : List Instr :=
  [.rti, .eor .izx, .jam 4, .sre .izx, .nopU .zp 1, .eor .zp, .lsr .zp, .sre .zp,
   .pha, .eor .imm, .lsr .acc, .alr, .jmp .abs, .eor .abs, .lsr .abs, .sre .abs]

def mapRow5 : List Instr :=
  [.bvc, .eor .izy, .jam 5, .sre .izy, .nopU .zpx 2, .eor .zpx, .lsr .zpx, .sre .zpx,
   .cli, .eor .absy, .nopU .impl 2, .sre .absy, .nopU .absx 2, .eor .absx, .lsr .absx, .sre .absx]

def mapRow6 : List Instr :=
  [.rts, .adc .izx, .jam 6, .rra .izx, .nopU .zp 2, .adc .zp, .ror .zp, .rra .zp,
   .pla, .adc .imm, .ror .acc, .arr, .jmp .ind, .adc .abs, .ror .abs, .rra .abs]

def mapRow7 : List Instr :=
  [.bvs, .adc .izy, .jam 7, .rra .izy, .nopU .zpx 3, .adc .zpx, .ror .zpx, .rra .zpx,
   .sei, .adc .absy, .nopU .impl 3, .rra .absy, .nopU .absx 3, .adc .absx, .ror .absx, .rra .absx]

def mapRow8 : List Instr :=
  [.nopU .imm 0, .sta .izx, .nopU .imm 1, .sax .izx, .sty .zp, .sta .zp, .stx .zp, .sax .zp,
   .dey, .nopU .imm 2, .txa, .ane, .sty .abs, .sta .abs, .stx .abs, .sax .abs]

def mapRow9 : List Instr :=
  [.bcc, .sta .izy, .jam 8, .sha .izy, .sty .zpx, .sta .zpx, .stx .zpy, .sax .zpy,
   .tya, .sta .absy, .txs, .tas, .shy, .sta .absx, .shx, .sha .absy]

def mapRowA : List Instr :=
  [.ldy .imm, .lda .izx, .ldx .imm, .lax .izx, .ldy .zp, .lda .zp, .ldx .zp, .lax .zp,
   .tay, .lda .imm, .tax, .lxa, .ldy .abs, .lda .abs, .ldx .abs, .lax .abs]

def mapRowB : List Instr :=
  [.bcs, .lda .izy, .jam 9, .lax .izy, .ldy .zpx, .lda .zpx, .ldx .zpy, .lax .zpy,
   .clv, .lda .absy, .tsx, .las, .ldy .absx, .lda .absx, .ldx .absy, .lax .absy]

def mapRowC : List Instr :=
  [.cpy .imm, .cmp .izx, .nopU .imm 3, .dcp .izx, .cpy .zp, .cmp .zp, .dec .zp, .dcp .zp,
   .iny, .cmp .imm, .dex, .sbx, .cpy .abs, .cmp .abs, .dec .abs, .dcp .abs]

def mapRowD : List Instr :=
  [.bne, .cmp .izy, .jam 10, .dcp .izy, .nopU .zpx 4, .cmp .zpx, .dec .zpx, .dcp .zpx,
   .cld, .cmp .absy, .nopU .impl 4, .dcp .absy, .nopU .absx 4, .cmp .absx, .dec .absx, .dcp .absx]

def mapRowE : List Instr :=
  [.cpx .imm, .sbc .izx, .nopU .imm 4, .isc .izx, .cpx .zp, .sbc .zp, .inc .zp, .isc .zp,
   .inx, .sbc .imm, .nop, .sbcDup, .cpx .abs, .sbc .abs, .inc .abs, .isc .abs]

def mapRowF : List Instr :=
  [.beq, .sbc .izy, .jam 11, .isc .izy, .nopU .zpx 5, .sbc .zpx, .inc .zpx, .isc .zpx,
   .sed, .sbc .absy, .nopU .impl 5, .isc .absy, .nopU .absx 5, .sbc .absx, .inc .absx, .isc .absx]

/-- The sixteen rows of the map. -/
def opcodeMap : List (List Instr) :=
  [mapRow0, mapRow1, mapRow2, mapRow3, mapRow4, mapRow5, mapRow6, mapRow7] ++
  [mapRow8, mapRow9, mapRowA, mapRowB, mapRowC, mapRowD, mapRowE, mapRowF]

/-- The instruction of an opcode byte (R92): row bits 7:4, column bits 3:0. The map is full, so the defaults are never
taken. -/
def decode6502 (op : Byte) : Instr :=
  (opcodeMap.getD (op.toNat / 16) []).getD (op.toNat % 16) .brk

/-- The number of operand bytes that follow the opcode in a mode (R81, R84). -/
def Mode.operandBytes : Mode → Nat
  | .impl | .acc => 0
  | .imm | .zp | .zpx | .zpy | .izx | .izy | .rel => 1
  | .abs | .absx | .absy | .ind => 2

/-- The addressing mode of a 6502 instruction: the mode in its cell of the map (R92). An 8080 instruction has none. -/
def Instr.mode : Instr → Option Mode
  | .lda m | .ldx m | .ldy m | .sta m | .stx m | .sty m
  | .adc m | .sbc m | .and m | .ora m | .eor m | .cmp m | .cpx m | .cpy m | .bit m
  | .asl m | .lsr m | .rol m | .ror m | .inc m | .dec m | .jmp m
  | .slo m | .rla m | .sre m | .rra m | .dcp m | .isc m | .sax m | .lax m | .nopU m _ | .sha m => some m
  | .tax | .tay | .txa | .tya | .tsx | .txs | .inx | .iny | .dex | .dey | .rts | .rti | .brk
  | .pha | .php | .pla | .plp | .clc | .sec | .cli | .sei | .cld | .sed | .clv | .nop | .jam _ => some .impl
  | .bpl | .bmi | .bvc | .bvs | .bcc | .bcs | .bne | .beq => some .rel
  | .anc _ | .alr | .arr | .sbx | .sbcDup | .ane | .lxa => some .imm
  | .jsr => some .abs
  | .las | .shx | .tas => some .absy
  | .shy => some .absx
  | .i80Mov _ _ | .i80Mvi _ _ | .i80Lxi _ _ | .i80Lda _ | .i80Sta _ | .i80Lhld _ | .i80Shld _ | .i80Ldax _
  | .i80Stax _ | .i80Xchg | .i80Add _ | .i80Adc _ | .i80Adi _ | .i80Aci _ | .i80Sub _ | .i80Sbb _ | .i80Sui _
  | .i80Sbi _ | .i80Inr _ | .i80Dcr _ | .i80Inx _ | .i80Dcx _ | .i80Dad _ | .i80Daa | .i80Ana _ | .i80Ani _
  | .i80Xra _ | .i80Xri _ | .i80Ora _ | .i80Ori _ | .i80Cmp _ | .i80Cpi _ | .i80Rlc | .i80Rrc | .i80Ral | .i80Rar
  | .i80Cma | .i80Cmc | .i80Stc | .i80Jmp _ _ | .i80Jnz _ | .i80Jz _ | .i80Jnc _ | .i80Jc _ | .i80Jpo _ | .i80Jpe _
  | .i80Jp _ | .i80Jm _ | .i80Call _ _ | .i80Cnz _ | .i80Cz _ | .i80Cnc _ | .i80Cc _ | .i80Cpo _ | .i80Cpe _
  | .i80Cp _ | .i80Cm _ | .i80Ret _ | .i80Rnz | .i80Rz | .i80Rnc | .i80Rc | .i80Rpo | .i80Rpe | .i80Rp | .i80Rm
  | .i80Rst _ | .i80Pchl | .i80Push _ | .i80Pop _ | .i80Xthl | .i80Sphl | .i80In _ | .i80Out _ | .i80Ei | .i80Di
  | .i80Hlt | .i80Nop _ => none

/-- The number of operand bytes in memory that the term does not carry: those of a 6502 instruction's mode; none of an 8080
instruction, whose term holds its operand (log entry 21). -/
def Instr.operandBytes (i : Instr) : Nat :=
  match i.mode with
  | some m => m.operandBytes
  | none => 0

/-- The length of a 6502 instruction, 1 to 3 bytes, from its opcode alone (R84): the bytes of its mode; 1 for JAM. -/
def length6502 (op : Byte) : Nat := 1 + (decode6502 op).operandBytes

/-! ### The 8080: fields of the opcode byte (48_i8080.md R431) -/

/-- `op[5:3]`: the fields ddd, ccc and nnn, and the operation within a class (R431, R434). -/
def field53 (op : Byte) : BitVec 3 := op.extractLsb' 3 3

/-- `op[2:0]`: the field sss, and the group within a class (R431, R434). -/
def field20 (op : Byte) : BitVec 3 := op.extractLsb' 0 3

/-- `op[5:4]`: the field rp (R431). -/
def field54 (op : Byte) : BitVec 2 := op.extractLsb' 4 2

/-- `op[7:6]`: the class (R434). -/
def field76 (op : Byte) : BitVec 2 := op.extractLsb' 6 2

/-- `h:l` as a 16-bit value, from the two operand bytes (R428: low byte first). -/
def operand16 (l h : Byte) : Addr := h ++ l

/-- The register of a code (R422). -/
def Reg8.ofCode (c : BitVec 3) : Reg8 :=
  [Reg8.b, .c, .d, .e, .h, .l, .m, .a].getD c.toNat .a

/-- The pair of a code (R422). -/
def RegPair.ofCode (c : BitVec 2) : RegPair :=
  [RegPair.bc, .de, .hl, .sp].getD c.toNat .sp

/-- The pair of a code in PUSH and POP (R422). -/
def StackPair.ofCode (c : BitVec 2) : StackPair :=
  [StackPair.bc, .de, .hl, .psw].getD c.toNat .psw

/-- Class 00 (R434): no operation, immediates, 16-bit operations, loads and stores by address, INR, DCR, MVI,
rotates. -/
def decodeClass0 (op d8 : Byte) (d16 : Addr) : Instr :=
  let ddd := Reg8.ofCode (field53 op)
  let rp := RegPair.ofCode (field54 op)
  match (field20 op).toNat with
  | 0 => .i80Nop (field53 op)
  | 1 => if op.getLsbD 3 then .i80Dad rp else .i80Lxi rp d16
  | 2 => [Instr.i80Stax .bc, .i80Ldax .bc, .i80Stax .de, .i80Ldax .de, .i80Shld d16, .i80Lhld d16, .i80Sta d16,
      .i80Lda d16].getD (field53 op).toNat (.i80Lda d16)
  | 3 => if op.getLsbD 3 then .i80Dcx rp else .i80Inx rp
  | 4 => .i80Inr ddd
  | 5 => .i80Dcr ddd
  | 6 => .i80Mvi ddd d8
  | _ => [Instr.i80Rlc, .i80Rrc, .i80Ral, .i80Rar, .i80Daa, .i80Cma, .i80Stc, .i80Cmc].getD (field53 op).toNat .i80Cmc

/-- Class 01 (R434): MOV, but for 0x76, which is HLT. -/
def decodeClass1 (op : Byte) : Instr :=
  if op = 0x76 then .i80Hlt else .i80Mov (Reg8.ofCode (field53 op)) (Reg8.ofCode (field20 op))

/-- Class 10 (R434): the accumulator operations with a register source. -/
def decodeClass2 (op : Byte) : Instr :=
  let s := Reg8.ofCode (field20 op)
  [Instr.i80Add s, .i80Adc s, .i80Sub s, .i80Sbb s, .i80Ana s, .i80Xra s, .i80Ora s, .i80Cmp s].getD (field53 op).toNat
    (.i80Cmp s)

/-- Class 11 (R434): control, stack, I/O and immediate operations. -/
def decodeClass3 (op d8 : Byte) (d16 : Addr) : Instr :=
  let n := (field53 op).toNat
  match (field20 op).toNat with
  | 0 => [Instr.i80Rnz, .i80Rz, .i80Rnc, .i80Rc, .i80Rpo, .i80Rpe, .i80Rp, .i80Rm].getD n .i80Rm
  | 1 =>
    if op.getLsbD 3 then
      [Instr.i80Ret false, .i80Ret true, .i80Pchl, .i80Sphl].getD (field54 op).toNat .i80Sphl
    else .i80Pop (StackPair.ofCode (field54 op))
  | 2 => [Instr.i80Jnz d16, .i80Jz d16, .i80Jnc d16, .i80Jc d16, .i80Jpo d16, .i80Jpe d16, .i80Jp d16,
      .i80Jm d16].getD n (.i80Jm d16)
  | 3 => [Instr.i80Jmp false d16, .i80Jmp true d16, .i80Out d8, .i80In d8, .i80Xthl, .i80Xchg, .i80Di, .i80Ei].getD n .i80Ei
  | 4 => [Instr.i80Cnz d16, .i80Cz d16, .i80Cnc d16, .i80Cc d16, .i80Cpo d16, .i80Cpe d16, .i80Cp d16,
      .i80Cm d16].getD n (.i80Cm d16)
  | 5 => if op.getLsbD 3 then .i80Call (field54 op) d16 else .i80Push (StackPair.ofCode (field54 op))
  | 6 => [Instr.i80Adi d8, .i80Aci d8, .i80Sui d8, .i80Sbi d8, .i80Ani d8, .i80Xri d8, .i80Ori d8, .i80Cpi d8].getD n
      (.i80Cpi d8)
  | _ => .i80Rst (field53 op)

/-- The instruction of an opcode byte and the two bytes after it (R434, R435); a form with fewer operand bytes does
not look at the rest. -/
def decode8080 (op b1 b2 : Byte) : Instr :=
  match (field76 op).toNat with
  | 0 => decodeClass0 op b1 (operand16 b1 b2)
  | 1 => decodeClass1 op
  | 2 => decodeClass2 op
  | _ => decodeClass3 op b1 (operand16 b1 b2)

/-- The length of an 8080 instruction, 1 to 3 bytes, from its opcode alone (R431): 3 for LXI, the direct loads and
stores, and every jump and call; 2 for MVI, the immediate operations, IN and OUT. -/
def length8080 (op : Byte) : Nat :=
  match (field76 op).toNat, (field20 op).toNat with
  | 0, 1 => if op.getLsbD 3 then 1 else 3
  | 0, 2 => if op.getLsbD 5 then 3 else 1
  | 0, 6 => 2
  | 3, 2 => 3
  | 3, 3 => if (field53 op).toNat < 2 then 3 else if (field53 op).toNat < 4 then 2 else 1
  | 3, 4 => 3
  | 3, 5 => if op.getLsbD 3 then 3 else 1
  | 3, 6 => 2
  | _, _ => 1

/-! ### Decoding any bytes -/

/-- Why bytes are no instruction. -/
inductive DecodeError where
  /-- there is no byte to decode -/
  | noBytes
  /-- the bytes end inside the operand of this opcode -/
  | truncated (op : Byte)
deriving DecidableEq, Repr

/-- What decoding answers: an instruction with the bytes after it, or a rejection by name. -/
inductive Decoded where
  | instr (i : Instr) (rest : List Byte)
  | rejected (e : DecodeError)
deriving DecidableEq, Repr

/-- Decode the first instruction of a list of 8080 bytes (R431). -/
def decodeBytes8080 : List Byte → Decoded
  | [] => .rejected .noBytes
  | [op] => if length8080 op = 1 then .instr (decode8080 op 0 0) [] else .rejected (.truncated op)
  | [op, b1] =>
    if length8080 op = 1 then .instr (decode8080 op 0 0) [b1]
    else if length8080 op = 2 then .instr (decode8080 op b1 0) []
    else .rejected (.truncated op)
  | op :: b1 :: b2 :: rest =>
    if length8080 op = 1 then .instr (decode8080 op 0 0) (b1 :: b2 :: rest)
    else if length8080 op = 2 then .instr (decode8080 op b1 0) (b2 :: rest)
    else .instr (decode8080 op b1 b2) rest

/-- Decode the first instruction of a list of 6502 bytes, and take its whole length off (30_encoding.md R80, R84). The opcode
byte alone selects the term; the operand bytes are no part of it, since the instruction's microcode reads them (log entry
21). -/
def decodeBytes6502 : List Byte → Decoded
  | [] => .rejected .noBytes
  | op :: rest =>
    if length6502 op ≤ rest.length + 1 then .instr (decode6502 op) (rest.drop (length6502 op - 1))
    else .rejected (.truncated op)

/-- Decode the first instruction of a list of bytes, as the instance's processor reads it. Total on any bytes. -/
def decode (p : Processor) (bytes : List Byte) : Decoded :=
  match p with
  | .mos6502 | .mos6502NoDecimal => decodeBytes6502 bytes
  | .i8080 => decodeBytes8080 bytes

/-! ### The encoder -/

/-- The opcode that a rule's list gives for a mode. -/
def pick (m : Mode) : List (Mode × Byte) → Option Byte
  | [] => none
  | (m', op) :: t => if m = m' then some op else pick m t

/-- The twelve JAM opcodes (47_illegal.md R395). -/
def jamOpcodes : List Byte := [0x02, 0x12, 0x22, 0x32, 0x42, 0x52, 0x62, 0x72, 0x92, 0xB2, 0xD2, 0xF2]

/-- The opcodes of the undocumented NOP of a mode (47_illegal.md R385). -/
def nopUOpcodes : Mode → List Byte
  | .impl => [0x1A, 0x3A, 0x5A, 0x7A, 0xDA, 0xFA]
  | .imm => [0x80, 0x82, 0x89, 0xC2, 0xE2]
  | .zp => [0x04, 0x44, 0x64]
  | .zpx => [0x14, 0x34, 0x54, 0x74, 0xD4, 0xF4]
  | .abs => [0x0C]
  | .absx => [0x1C, 0x3C, 0x5C, 0x7C, 0xDC, 0xFC]
  | .acc | .zpy | .absy | .izx | .izy | .rel | .ind => []

/-- The opcode byte of a 6502 instruction, from the opcodes its own rule lists (42_load_store.md R201 to R212,
43_alu.md R240 to R248, 44_rmw.md R271 to R280, 45_control.md R304 to R317, 46_stack_flags.md R340 to R351,
47_illegal.md R371 to R395); `none` for a form that does not exist and for an 8080 instruction. -/
def opcode6502 : Instr → Option Byte
  | .lda m => pick m [(.imm, 0xA9), (.zp, 0xA5), (.zpx, 0xB5), (.abs, 0xAD), (.absx, 0xBD), (.absy, 0xB9), (.izx, 0xA1), (.izy, 0xB1)]
  | .ldx m => pick m [(.imm, 0xA2), (.zp, 0xA6), (.zpy, 0xB6), (.abs, 0xAE), (.absy, 0xBE)]
  | .ldy m => pick m [(.imm, 0xA0), (.zp, 0xA4), (.zpx, 0xB4), (.abs, 0xAC), (.absx, 0xBC)]
  | .sta m => pick m [(.zp, 0x85), (.zpx, 0x95), (.abs, 0x8D), (.absx, 0x9D), (.absy, 0x99), (.izx, 0x81), (.izy, 0x91)]
  | .stx m => pick m [(.zp, 0x86), (.zpy, 0x96), (.abs, 0x8E)]
  | .sty m => pick m [(.zp, 0x84), (.zpx, 0x94), (.abs, 0x8C)]
  | .tax => some 0xAA
  | .tay => some 0xA8
  | .txa => some 0x8A
  | .tya => some 0x98
  | .tsx => some 0xBA
  | .txs => some 0x9A
  | .adc m => pick m [(.imm, 0x69), (.zp, 0x65), (.zpx, 0x75), (.abs, 0x6D), (.absx, 0x7D), (.absy, 0x79), (.izx, 0x61), (.izy, 0x71)]
  | .sbc m => pick m [(.imm, 0xE9), (.zp, 0xE5), (.zpx, 0xF5), (.abs, 0xED), (.absx, 0xFD), (.absy, 0xF9), (.izx, 0xE1), (.izy, 0xF1)]
  | .and m => pick m [(.imm, 0x29), (.zp, 0x25), (.zpx, 0x35), (.abs, 0x2D), (.absx, 0x3D), (.absy, 0x39), (.izx, 0x21), (.izy, 0x31)]
  | .ora m => pick m [(.imm, 0x09), (.zp, 0x05), (.zpx, 0x15), (.abs, 0x0D), (.absx, 0x1D), (.absy, 0x19), (.izx, 0x01), (.izy, 0x11)]
  | .eor m => pick m [(.imm, 0x49), (.zp, 0x45), (.zpx, 0x55), (.abs, 0x4D), (.absx, 0x5D), (.absy, 0x59), (.izx, 0x41), (.izy, 0x51)]
  | .cmp m => pick m [(.imm, 0xC9), (.zp, 0xC5), (.zpx, 0xD5), (.abs, 0xCD), (.absx, 0xDD), (.absy, 0xD9), (.izx, 0xC1), (.izy, 0xD1)]
  | .cpx m => pick m [(.imm, 0xE0), (.zp, 0xE4), (.abs, 0xEC)]
  | .cpy m => pick m [(.imm, 0xC0), (.zp, 0xC4), (.abs, 0xCC)]
  | .bit m => pick m [(.zp, 0x24), (.abs, 0x2C)]
  | .asl m => pick m [(.acc, 0x0A), (.zp, 0x06), (.zpx, 0x16), (.abs, 0x0E), (.absx, 0x1E)]
  | .lsr m => pick m [(.acc, 0x4A), (.zp, 0x46), (.zpx, 0x56), (.abs, 0x4E), (.absx, 0x5E)]
  | .rol m => pick m [(.acc, 0x2A), (.zp, 0x26), (.zpx, 0x36), (.abs, 0x2E), (.absx, 0x3E)]
  | .ror m => pick m [(.acc, 0x6A), (.zp, 0x66), (.zpx, 0x76), (.abs, 0x6E), (.absx, 0x7E)]
  | .inc m => pick m [(.zp, 0xE6), (.zpx, 0xF6), (.abs, 0xEE), (.absx, 0xFE)]
  | .dec m => pick m [(.zp, 0xC6), (.zpx, 0xD6), (.abs, 0xCE), (.absx, 0xDE)]
  | .inx => some 0xE8
  | .iny => some 0xC8
  | .dex => some 0xCA
  | .dey => some 0x88
  | .bpl => some 0x10
  | .bmi => some 0x30
  | .bvc => some 0x50
  | .bvs => some 0x70
  | .bcc => some 0x90
  | .bcs => some 0xB0
  | .bne => some 0xD0
  | .beq => some 0xF0
  | .jmp m => pick m [(.abs, 0x4C), (.ind, 0x6C)]
  | .jsr => some 0x20
  | .rts => some 0x60
  | .rti => some 0x40
  | .brk => some 0x00
  | .pha => some 0x48
  | .php => some 0x08
  | .pla => some 0x68
  | .plp => some 0x28
  | .clc => some 0x18
  | .sec => some 0x38
  | .cli => some 0x58
  | .sei => some 0x78
  | .cld => some 0xD8
  | .sed => some 0xF8
  | .clv => some 0xB8
  | .nop => some 0xEA
  | .slo m => pick m [(.izx, 0x03), (.zp, 0x07), (.abs, 0x0F), (.izy, 0x13), (.zpx, 0x17), (.absy, 0x1B), (.absx, 0x1F)]
  | .rla m => pick m [(.izx, 0x23), (.zp, 0x27), (.abs, 0x2F), (.izy, 0x33), (.zpx, 0x37), (.absy, 0x3B), (.absx, 0x3F)]
  | .sre m => pick m [(.izx, 0x43), (.zp, 0x47), (.abs, 0x4F), (.izy, 0x53), (.zpx, 0x57), (.absy, 0x5B), (.absx, 0x5F)]
  | .rra m => pick m [(.izx, 0x63), (.zp, 0x67), (.abs, 0x6F), (.izy, 0x73), (.zpx, 0x77), (.absy, 0x7B), (.absx, 0x7F)]
  | .dcp m => pick m [(.izx, 0xC3), (.zp, 0xC7), (.abs, 0xCF), (.izy, 0xD3), (.zpx, 0xD7), (.absy, 0xDB), (.absx, 0xDF)]
  | .isc m => pick m [(.izx, 0xE3), (.zp, 0xE7), (.abs, 0xEF), (.izy, 0xF3), (.zpx, 0xF7), (.absy, 0xFB), (.absx, 0xFF)]
  | .sax m => pick m [(.izx, 0x83), (.zp, 0x87), (.abs, 0x8F), (.zpy, 0x97)]
  | .lax m => pick m [(.izx, 0xA3), (.zp, 0xA7), (.abs, 0xAF), (.izy, 0xB3), (.zpy, 0xB7), (.absy, 0xBF)]
  | .anc dup => some (if dup then 0x2B else 0x0B)
  | .alr => some 0x4B
  | .arr => some 0x6B
  | .sbx => some 0xCB
  | .sbcDup => some 0xEB
  | .las => some 0xBB
  | .nopU m k => (nopUOpcodes m)[k.val]?
  | .ane => some 0x8B
  | .lxa => some 0xAB
  | .sha m => pick m [(.absy, 0x9F), (.izy, 0x93)]
  | .shx => some 0x9E
  | .shy => some 0x9C
  | .tas => some 0x9B
  | .jam k => jamOpcodes[k.val]?
  | .i80Mov _ _ | .i80Mvi _ _ | .i80Lxi _ _ | .i80Lda _ | .i80Sta _ | .i80Lhld _ | .i80Shld _ | .i80Ldax _
  | .i80Stax _ | .i80Xchg | .i80Add _ | .i80Adc _ | .i80Adi _ | .i80Aci _ | .i80Sub _ | .i80Sbb _ | .i80Sui _
  | .i80Sbi _ | .i80Inr _ | .i80Dcr _ | .i80Inx _ | .i80Dcx _ | .i80Dad _ | .i80Daa | .i80Ana _ | .i80Ani _
  | .i80Xra _ | .i80Xri _ | .i80Ora _ | .i80Ori _ | .i80Cmp _ | .i80Cpi _ | .i80Rlc | .i80Rrc | .i80Ral | .i80Rar
  | .i80Cma | .i80Cmc | .i80Stc | .i80Jmp _ _ | .i80Jnz _ | .i80Jz _ | .i80Jnc _ | .i80Jc _ | .i80Jpo _ | .i80Jpe _
  | .i80Jp _ | .i80Jm _ | .i80Call _ _ | .i80Cnz _ | .i80Cz _ | .i80Cnc _ | .i80Cc _ | .i80Cpo _ | .i80Cpe _
  | .i80Cp _ | .i80Cm _ | .i80Ret _ | .i80Rnz | .i80Rz | .i80Rnc | .i80Rc | .i80Rpo | .i80Rpe | .i80Rp | .i80Rm
  | .i80Rst _ | .i80Pchl | .i80Push _ | .i80Pop _ | .i80Xthl | .i80Sphl | .i80In _ | .i80Out _ | .i80Ei | .i80Di
  | .i80Hlt | .i80Nop _ => none

/-- The code of a register (48_i8080.md R422). -/
def Reg8.code : Reg8 → BitVec 3
  | .b => 0
  | .c => 1
  | .d => 2
  | .e => 3
  | .h => 4
  | .l => 5
  | .m => 6
  | .a => 7

/-- The code of a pair (R422). -/
def RegPair.code : RegPair → BitVec 2
  | .bc => 0
  | .de => 1
  | .hl => 2
  | .sp => 3

/-- The code of a pair in PUSH and POP (R422). -/
def StackPair.code : StackPair → BitVec 2
  | .bc => 0
  | .de => 1
  | .hl => 2
  | .psw => 3

/-- The code of a pair in LDAX and STAX (R447, R448). -/
def IndexPair.code : IndexPair → BitVec 2
  | .bc => 0
  | .de => 1

/-- An opcode byte from a class, a middle and a low field, `xx yyy zzz` (R431, R434). -/
def opFields (c : BitVec 2) (y z : BitVec 3) : Byte := c ++ y ++ z

/-- An opcode byte from a class, a pair, one bit and a low field, `xx rp b zzz` (R431). -/
def opPair (c rp : BitVec 2) (b : BitVec 1) (z : BitVec 3) : Byte := c ++ rp ++ b ++ z

/-- An opcode byte followed by the two bytes of a 16-bit operand, low byte first (R428, R431). -/
def with16 (op : Byte) (a : Addr) : List Byte := [op, a.extractLsb' 0 8, a.extractLsb' 8 8]

/-- The bytes of an 8080 instruction, from the bit pattern or opcode its own rule gives (48_i8080.md R440 to R478,
49_i8080_control.md R500 to R517); `none` for MOV M,M and for a 6502 instruction. -/
def encode8080 : Instr → Option (List Byte)
  | .i80Mov d s => if d = .m ∧ s = .m then none else some [opFields 0b01 d.code s.code]
  | .i80Mvi d v => some [opFields 0b00 d.code 0b110, v]
  | .i80Lxi rp v => some (with16 (opPair 0b00 rp.code 0 0b001) v)
  | .i80Lda a => some (with16 0x3A a)
  | .i80Sta a => some (with16 0x32 a)
  | .i80Lhld a => some (with16 0x2A a)
  | .i80Shld a => some (with16 0x22 a)
  | .i80Ldax p => some [opPair 0b00 p.code 1 0b010]
  | .i80Stax p => some [opPair 0b00 p.code 0 0b010]
  | .i80Xchg => some [0xEB]
  | .i80Add s => some [opFields 0b10 0b000 s.code]
  | .i80Adc s => some [opFields 0b10 0b001 s.code]
  | .i80Adi v => some [0xC6, v]
  | .i80Aci v => some [0xCE, v]
  | .i80Sub s => some [opFields 0b10 0b010 s.code]
  | .i80Sbb s => some [opFields 0b10 0b011 s.code]
  | .i80Sui v => some [0xD6, v]
  | .i80Sbi v => some [0xDE, v]
  | .i80Inr d => some [opFields 0b00 d.code 0b100]
  | .i80Dcr d => some [opFields 0b00 d.code 0b101]
  | .i80Inx rp => some [opPair 0b00 rp.code 0 0b011]
  | .i80Dcx rp => some [opPair 0b00 rp.code 1 0b011]
  | .i80Dad rp => some [opPair 0b00 rp.code 1 0b001]
  | .i80Daa => some [0x27]
  | .i80Ana s => some [opFields 0b10 0b100 s.code]
  | .i80Ani v => some [0xE6, v]
  | .i80Xra s => some [opFields 0b10 0b101 s.code]
  | .i80Xri v => some [0xEE, v]
  | .i80Ora s => some [opFields 0b10 0b110 s.code]
  | .i80Ori v => some [0xF6, v]
  | .i80Cmp s => some [opFields 0b10 0b111 s.code]
  | .i80Cpi v => some [0xFE, v]
  | .i80Rlc => some [0x07]
  | .i80Rrc => some [0x0F]
  | .i80Ral => some [0x17]
  | .i80Rar => some [0x1F]
  | .i80Cma => some [0x2F]
  | .i80Cmc => some [0x3F]
  | .i80Stc => some [0x37]
  | .i80Jmp dup a => some (with16 (if dup then 0xCB else 0xC3) a)
  | .i80Jnz a => some (with16 0xC2 a)
  | .i80Jz a => some (with16 0xCA a)
  | .i80Jnc a => some (with16 0xD2 a)
  | .i80Jc a => some (with16 0xDA a)
  | .i80Jpo a => some (with16 0xE2 a)
  | .i80Jpe a => some (with16 0xEA a)
  | .i80Jp a => some (with16 0xF2 a)
  | .i80Jm a => some (with16 0xFA a)
  | .i80Call k a => some (with16 (opPair 0b11 k 1 0b101) a)
  | .i80Cnz a => some (with16 0xC4 a)
  | .i80Cz a => some (with16 0xCC a)
  | .i80Cnc a => some (with16 0xD4 a)
  | .i80Cc a => some (with16 0xDC a)
  | .i80Cpo a => some (with16 0xE4 a)
  | .i80Cpe a => some (with16 0xEC a)
  | .i80Cp a => some (with16 0xF4 a)
  | .i80Cm a => some (with16 0xFC a)
  | .i80Ret dup => some [if dup then 0xD9 else 0xC9]
  | .i80Rnz => some [0xC0]
  | .i80Rz => some [0xC8]
  | .i80Rnc => some [0xD0]
  | .i80Rc => some [0xD8]
  | .i80Rpo => some [0xE0]
  | .i80Rpe => some [0xE8]
  | .i80Rp => some [0xF0]
  | .i80Rm => some [0xF8]
  | .i80Rst n => some [opFields 0b11 n 0b111]
  | .i80Pchl => some [0xE9]
  | .i80Push p => some [opPair 0b11 p.code 0 0b101]
  | .i80Pop p => some [opPair 0b11 p.code 0 0b001]
  | .i80Xthl => some [0xE3]
  | .i80Sphl => some [0xF9]
  | .i80In p => some [0xDB, p]
  | .i80Out p => some [0xD3, p]
  | .i80Ei => some [0xFB]
  | .i80Di => some [0xF3]
  | .i80Hlt => some [0x76]
  | .i80Nop k => some [opFields 0b00 k 0b000]
  | .lda _ | .ldx _ | .ldy _ | .sta _ | .stx _ | .sty _ | .tax | .tay | .txa | .tya | .tsx | .txs
  | .adc _ | .sbc _ | .and _ | .ora _ | .eor _ | .cmp _ | .cpx _ | .cpy _ | .bit _
  | .asl _ | .lsr _ | .rol _ | .ror _ | .inc _ | .dec _ | .inx | .iny | .dex | .dey
  | .bpl | .bmi | .bvc | .bvs | .bcc | .bcs | .bne | .beq | .jmp _ | .jsr | .rts | .rti | .brk
  | .pha | .php | .pla | .plp | .clc | .sec | .cli | .sei | .cld | .sed | .clv | .nop
  | .slo _ | .rla _ | .sre _ | .rra _ | .dcp _ | .isc _ | .sax _ | .lax _ | .anc _ | .alr | .arr | .sbx | .sbcDup
  | .las | .nopU _ _ | .ane | .lxa | .sha _ | .shx | .shy | .tas | .jam _ => none

/-- The bytes of an instruction that its term determines: the opcode byte of a 6502 instruction, the whole of an 8080
instruction; `none` for a term that is no instruction. -/
def encode (i : Instr) : Option (List Byte) :=
  match opcode6502 i with
  | some op => some [op]
  | none => encode8080 i

/-- Whether an instruction is one of a processor's instruction set. -/
def Instr.isFor (i : Instr) : Processor → Bool
  | .mos6502 | .mos6502NoDecimal => (opcode6502 i).isSome
  | .i8080 => (encode8080 i).isSome

/-! ### The table's words -/

/-- `n` bytes of a number, the least significant first: how spec/opcode_table.json numbers an instruction's bits. -/
def bytesOf : Nat → Nat → List Byte
  | 0, _ => []
  | n + 1, w => BitVec.ofNat 8 w :: bytesOf n (w / 256)

/-- The bytes of a table word of `nbits` bits, every bit above them 0, up to the longest instruction (three bytes). -/
def tableBytes (nbits w : Nat) : List Byte :=
  bytesOf (max 3 ((nbits + 7) / 8)) (w % 2 ^ nbits)

/-- The instruction that the decoder reads from an instruction whose bits are `w`, as the table numbers them. The table
gives each word to BOTH instruction sets and the word does not say which is meant; this decodes for the processor of
`State.reset`, the 6502-family engine (log entry 1). -/
def decodeTableWord (nbits w : Nat) : Option Instr :=
  match decode .mos6502 (tableBytes nbits w) with
  | .instr i _ => some i
  | .rejected _ => none

end Sys2Proof
end

