-- ==== Sys2Proof/Config.lean ====
section
/-! DEFINITION. What is fixed for one instance and never changes while it runs (10_state.md R38), and the free
values. The open parameters of 00_scope.md R10 are opaque constants: they have no body, so whatever is proved holds
for every value of them (92_eei_decisions.md D12, D15, D16, D18, D30; log entry 9). -/

namespace Sys2Proof

/-- The construction parameter `compatMode` (00_scope.md R7, R8). `invalid` stands for every value that is neither of the
two the source names. -/
inductive CompatMode where
  | normal
  | referenceTrace
  | invalid
deriving DecidableEq, Repr

namespace Config

/-- 47_illegal.md R386: the constant of ANE, open. -/
opaque aneConst : Byte

/-- 47_illegal.md R387: the constant of LXA, open. -/
opaque lxaConst : Byte

/-- 70_reset_and_hazards.md R581: the address on the bus while reset is held, a draw fixed for the run. -/
opaque resetAddr : Addr

/-- 47_illegal.md R395: the address on the bus while the core is jammed, a draw fixed for the run. -/
opaque jamAddr : Addr

/-- 45_control.md R303: whether a taken branch that does not cross a page polls interrupts one cycle earlier, open. -/
opaque branchIrqQuirk : Bool

/-- Which of the eleven admitted counts `m2LeadCount` is, open. -/
opaque m2LeadIndex : Fin 11

/-- 60_exceptions.md R560: the count at which m2 rises, `1 <= m2LeadCount <= 11`. -/
def m2LeadCount : Nat := m2LeadIndex.val + 1

/-- 48_i8080.md R429; 93_implementation_defined.md item 20: what `PortIn(p)` answers at the `n`-th port read for which
the host has queued no byte, a free value. -/
opaque portIn : Byte → Nat → Byte

end Config

end Sys2Proof
end

