-- ==== Sys2Proof/Machine/Bits.lean ====
section
/-! DEFINITION. The bit-field, sign-extension and byte-order helpers (00_scope.md R11, R12). -/

namespace Sys2Proof.Machine

/-- `lo(a) = a[7:0]` (R11). -/
def lo (a : Addr) : Byte := a.extractLsb' 0 8

/-- `hi(a) = a[15:8]` (R11). -/
def hi (a : Addr) : Byte := a.extractLsb' 8 8

/-- `h:l`, the 16-bit value `(h << 8) | l` (R11). -/
def cat (h l : Byte) : Addr := h ++ l

/-- `0x00:b`, an address in the zero page (20_memory.md R62). -/
def zp (b : Byte) : Addr := cat 0x00 b

/-- `0x01:b`, an address in the stack page (20_memory.md R62). -/
def stk (b : Byte) : Addr := cat 0x01 b

/-- `sext_16(b)` (R12). -/
def sext16 (b : Byte) : Addr := b.signExtend 16

/-- `zext_16(b)` (R12). -/
def zext16 (b : Byte) : Addr := b.zeroExtend 16

/-- A bit as a number, 0 or 1. -/
def bitNat (b : Bool) : Nat := if b then 1 else 0

/-- A bit at position `k` of a byte. -/
def bitAt (b : Bool) (k : Nat) : Byte := BitVec.ofNat 8 (bitNat b * 2 ^ k)

end Sys2Proof.Machine
end

