-- ==== Sys2Proof/Machine/State.lean ====
section
/-! DEFINITION. The state of one instance, as plain data, and why a step can stop. Every field is listed under
'## State' of INVENTORY.md with the rule that names it. One `State` serves the three processors of 00_scope.md R2: `proc`
says which one the instance is, the 6502-family engine's fields are the state of 10_state.md R20 to R36, and `i80` is that
of 48_i8080.md R420. -/

namespace Sys2Proof.Machine

/-- The six flags of the 6502 (10_state.md R28): six independent booleans. Bits 4 and 5 of the packed byte are not
stored. -/
structure Flags where
  C : Bool
  Z : Bool
  I : Bool
  D : Bool
  V : Bool
  N : Bool
deriving DecidableEq, Repr

/-- The pin record (10_state.md R20). `rw`: true is a read. `resN`, `irqN`, `nmiN`: line levels, active low. `rdy`: true is
asserted (R22). -/
structure Pins where
  addr : Addr
  data : Byte
  rw : Bool
  sync : Bool
  resN : Bool
  irqN : Bool
  nmiN : Bool
  rdy : Bool
deriving DecidableEq, Repr

/-- The interrupt and reset intent register (10_state.md R34; 00_scope.md R17). -/
inductive Intent where
  | none
  | irq
  | nmi
  | reset
deriving DecidableEq, Repr

/-- The System Clock Divider of the console configuration (60_exceptions.md R560): `divCnt`, 0 to 11, and the output m2. -/
structure Divider where
  cnt : Fin 12
  m2 : Bool
deriving DecidableEq, Repr

/-- One bus cycle as the platform sees it (20_memory.md R60): the address, the direction, whether it fetches an opcode,
and the byte moved. -/
structure BusCycle where
  addr : Addr
  rw : Bool
  sync : Bool
  data : Byte
deriving DecidableEq, Repr

/-- What the caller does before one bus cycle: its calls of `set_reset` in order (70_reset_and_hazards.md R584), the levels
it puts on the other input lines (40_engine.md R110), the writes another bus master makes between the core's cycles
(20_memory.md R65), and, where the cycle is a read that something else than plain memory answers (R54, R60), the byte. -/
structure CallerInput where
  resetCalls : List Bool
  irqN : Bool
  nmiN : Bool
  rdy : Bool
  busWrites : List Host.Cell
  readByte : Option Byte
deriving DecidableEq, Repr

/-- The state of the 8080-family core (48_i8080.md R420), with the host's interrupt request beside it
(49_i8080_control.md R518): the level, the supplied instruction byte and its operand bytes. -/
structure I8080 where
  A : Byte
  B : Byte
  C : Byte
  D : Byte
  E : Byte
  H : Byte
  L : Byte
  SP : Addr
  PC : Addr
  fS : Bool
  fZ : Bool
  fAC : Bool
  fP : Bool
  fCY : Bool
  INTE : Bool
  eiPending : Bool
  halted : Bool
  intrRequested : Bool
  intrOpcode : Byte
  intrLo : Byte
  intrHi : Byte
deriving DecidableEq, Repr

/-- What the 8080's host sets before one `step8080`: whether it calls `reset8080` (49_i8080_control.md R519) and the
interrupt request (R518). -/
structure HostInput where
  resetCall : Bool
  intrRequested : Bool
  intrOpcode : Byte
  intrLo : Byte
  intrHi : Byte
deriving DecidableEq, Repr

/-- The 8080's ports (48_i8080.md R429): the bytes `PortIn` will answer, how many reads found none queued, and the calls
`PortOut(p, v)` made so far, oldest first. -/
structure Ports where
  inQ : List Byte
  inCount : Nat
  outs : List (Byte × Byte)
deriving DecidableEq, Repr

/-- Memory (20_memory.md R50; 48_i8080.md R427): (address, byte) pairs in one canonical form, `Memory.wf` in
Machine/Ops.lean. -/
abbrev Memory := List Host.Cell

/-- The state of one instance. The names are the spec's. -/
structure State where
  /-- which processor the instance is (00_scope.md R2) -/
  proc : Processor
  A : Byte
  X : Byte
  Y : Byte
  S : Byte
  PC : Addr
  P : Flags
  pins : Pins
  /-- the logical clock level, true is high (R34) -/
  phase : Bool
  /-- the opcode register (R34) -/
  IR : Byte
  /-- the timing-step counter (R34) -/
  T : Nat
  /-- the internal address latch (R34) -/
  AD : Addr
  /-- the operand latch (R35) -/
  TMP : Byte
  /-- the stack-pointer shadow, read and written by no rule (R37) -/
  SS : Byte
  /-- the deferred write-back slots (R34; 40_engine.md R118) -/
  pendA : Option Byte
  pendX : Option Byte
  pendY : Option Byte
  pendS : Option Byte
  /-- the data-output latch (R34) -/
  dout : Option Byte
  /-- the reset-in-progress counter, 0 to 2 (R34) -/
  rstCnt : Nat
  /-- the interrupt latches, 16 bits each (R36) -/
  nmiLatch : BitVec 16
  irqLatch : BitVec 16
  /-- the NMI level at the previous low-going transition (R35) -/
  nmiPrev : Bool
  intent : Intent
  /-- the engine is in the reset-held state (R35) -/
  resHeld : Bool
  /-- a JAM opcode has stopped the engine (R35) -/
  jammed : Bool
  divider : Divider
  mem : Memory
  /-- the model's own: what the caller does before each coming bus cycle (log entry 7) -/
  callerQ : List CallerInput
  /-- the model's own: the bus cycles of the last step, oldest first (log entry 15) -/
  trace : List BusCycle
  i80 : I8080
  /-- the model's own: what the 8080's host sets before each coming `step8080` (log entry 7) -/
  hostQ : List HostInput
  io : Ports
deriving DecidableEq, Repr

/-- Why the machine stops: 00_scope.md R15, tier (a), fail fast. -/
inductive Fault where
  /-- Raised by the engine when its dispatcher has no entry for the (opcode, step) pair (00_scope.md R15; 40_engine.md R125),
  and by the meaning of a 6502 term that no opcode encodes. Safe: the machine stops, and no step of an opcode's own
  sequence reaches it. -/
  | programmingError
  /-- Raised by `construct` for an invalid compatibility-mode value (00_scope.md R7; 93_implementation_defined.md item 2).
  Safe: no instance exists. -/
  | invalidCompatMode
deriving DecidableEq, Repr

/-- Why the model gives no meaning. -/
inductive Refusal where
  /-- Answered by an arm of `exec` whose instruction is not modelled yet. Safe: the model stops. -/
  | notModelled (mnemonic : String)
  /-- Answered by `construct` for the compatibility mode ReferenceTrace, whose adjustment the source does not name
  (00_scope.md R8: a refused configuration). Safe: the model stops. -/
  | referenceTrace
  /-- Answered by the engine when a stalled cycle runs before the write of SHA, SHX, SHY or TAS (47_illegal.md R392: "This
  spec refuses that case"). Safe: the model stops. -/
  | unstableStoreStalled
  /-- Answered by the meaning of MOV M,M, which does not exist (48_i8080.md R440). Safe: the model stops, and no bytes
  decode to it. -/
  | noEncoding
deriving DecidableEq, Repr

/-- The power-on draws of the 8080 core (48_i8080.md R426): a value for each register and flag that its reset leaves as it
was. -/
structure I8080Draw where
  A : Byte
  B : Byte
  C : Byte
  D : Byte
  E : Byte
  H : Byte
  L : Byte
  SP : Addr
  fS : Bool
  fZ : Bool
  fAC : Bool
  fP : Bool
  fCY : Bool
deriving DecidableEq, Repr

/-- The draw with every value zero, which State.reset takes (log entry 4). -/
def I8080Draw.zero : I8080Draw :=
  { A := 0, B := 0, C := 0, D := 0, E := 0, H := 0, L := 0, SP := 0,
    fS := false, fZ := false, fAC := false, fP := false, fCY := false }

/-- What construction takes as input: the draw `powerOn` (70_reset_and_hazards.md R580), a value for each of the fields that
construction leaves unspecified, and the 8080 core's draws (48_i8080.md R426). -/
structure PowerOn where
  A : Byte
  X : Byte
  Y : Byte
  S : Byte
  PC : Addr
  P : Flags
  IR : Byte
  T : Nat
  AD : Addr
  TMP : Byte
  SS : Byte
  addr : Addr
  data : Byte
  i80 : I8080Draw
deriving DecidableEq, Repr

/-- The draw with every value zero, which State.reset takes (log entries 3 and 4). -/
def PowerOn.zero : PowerOn :=
  { A := 0, X := 0, Y := 0, S := 0, PC := 0, P := ⟨false, false, false, false, false, false⟩, IR := 0, T := 0, AD := 0,
    TMP := 0, SS := 0, addr := 0, data := 0, i80 := I8080Draw.zero }

/-- The 8080 core as a model constructs it (49_i8080_control.md R519): the draws in the registers and flags that reset leaves
alone, then `reset8080`'s values in PC, INTE, eiPending and halted (48_i8080.md R426). No interrupt is requested (log entry
5). -/
def I8080.constructed (d : I8080Draw) : I8080 :=
  { A := d.A, B := d.B, C := d.C, D := d.D, E := d.E, H := d.H, L := d.L, SP := d.SP, PC := 0,
    fS := d.fS, fZ := d.fZ, fAC := d.fAC, fP := d.fP, fCY := d.fCY,
    INTE := false, eiPending := false, halted := false,
    intrRequested := false, intrOpcode := 0, intrLo := 0, intrHi := 0 }

/-- The 8080 core after its reset, with the values the model names for its power-on draws (log entry 4). -/
def I8080.reset : I8080 := I8080.constructed I8080Draw.zero

/-- The instance right after construction (10_state.md R40, column "at construction"; 70_reset_and_hazards.md R580, R582):
reset is armed, so that the first cycle starts the reset sequence. The input lines are inactive (log entry 5). The 8080 core
is constructed from its own draws (48_i8080.md R426). -/
def State.constructed (proc : Processor) (po : PowerOn) (mem : Memory) : State :=
  { proc := proc
    A := po.A, X := po.X, Y := po.Y, S := po.S, PC := po.PC, P := po.P
    pins := { addr := po.addr, data := po.data, rw := true, sync := true,
              resN := true, irqN := true, nmiN := true, rdy := false }
    phase := false
    IR := po.IR, T := po.T, AD := po.AD, TMP := po.TMP, SS := po.SS
    pendA := none, pendX := none, pendY := none, pendS := none, dout := none
    rstCnt := 2, nmiLatch := 0, irqLatch := 0, nmiPrev := true
    intent := .reset, resHeld := false, jammed := false
    divider := { cnt := 0, m2 := false }
    mem := mem, callerQ := [], trace := []
    i80 := I8080.constructed po.i80, hostQ := [], io := { inQ := [], inCount := 0, outs := [] } }

/-- The machine right after reset: 10_state.md R40, column "after reset sequence", that is, the first `sync` cycle after
the reset sequence of 70_reset_and_hazards.md R585, from the draw `PowerOn.zero` and memory that lists nothing (log
entries 1 to 5). `trace` holds the seven cycles of that sequence. The 8080 core is as 48_i8080.md R426 leaves it. -/
def State.reset : State :=
  { proc := .mos6502
    A := 0x00, X := 0x00, Y := 0x00, S := 0xFD, PC := 0x0000
    P := { C := false, Z := false, I := true, D := false, V := false, N := false }
    pins := { addr := 0x0000, data := 0x00, rw := true, sync := true,
              resN := true, irqN := true, nmiN := true, rdy := false }
    phase := true
    IR := 0x00, T := 7, AD := 0xFFFC, TMP := 0x00, SS := 0x00
    pendA := none, pendX := none, pendY := none, pendS := none, dout := none
    rstCnt := 0, nmiLatch := 0, irqLatch := 0, nmiPrev := true
    intent := .none, resHeld := false, jammed := false
    divider := { cnt := 0, m2 := false }
    mem := [], callerQ := []
    trace :=
      [⟨0x0000, true, false, 0x00⟩, ⟨0x0100, true, false, 0x00⟩, ⟨0x01FF, true, false, 0x00⟩,
       ⟨0x01FE, true, false, 0x00⟩, ⟨0xFFFC, true, false, 0x00⟩, ⟨0xFFFD, true, false, 0x00⟩,
       ⟨0x0000, true, true, 0x00⟩]
    i80 := I8080.reset, hostQ := [], io := { inQ := [], inCount := 0, outs := [] } }

end Sys2Proof.Machine
end

