-- ==== Sys2Proof/Machine/Flags.lean ====
section
/-! DEFINITION. Every flag computation of the spec: the packed flag bytes of both cores, the ALU laws of the 6502
(43_alu.md R230 to R236, 44_rmw.md R270, 47_illegal.md R381) and those of the 8080 (48_i8080.md R421, R424, R438, R463). -/

namespace Sys2Proof.Machine

/-! ### The 6502's flag byte -/

/-- `pack(P, brk)`: `N<<7 | V<<6 | 1<<5 | brk<<4 | D<<3 | I<<2 | Z<<1 | C` (10_state.md R31). -/
def pack (p : Flags) (brk : Bool) : Byte :=
  bitAt p.N 7 ||| bitAt p.V 6 ||| bitAt true 5 ||| bitAt brk 4 ||| bitAt p.D 3 ||| bitAt p.I 2 ||| bitAt p.Z 1 ||| bitAt p.C 0

/-- `unpack(b)`: bits 4 and 5 are ignored (10_state.md R30). -/
def unpack (b : Byte) : Flags :=
  { C := b.getLsbD 0, Z := b.getLsbD 1, I := b.getLsbD 2, D := b.getLsbD 3, V := b.getLsbD 6, N := b.getLsbD 7 }

/-- `setNZ(v)` (42_load_store.md R200). -/
def setNZ (v : Byte) (p : Flags) : Flags :=
  { p with Z := decide (v = 0x00), N := v.getLsbD 7 }

/-! ### The 6502's ALU -/

/-- The result and the four flags of an addition or a subtraction (43_alu.md R230 to R233). -/
structure AluResult where
  r : Byte
  C : Bool
  V : Bool
  N : Bool
  Z : Bool
deriving DecidableEq, Repr

/-- `adcBin(a, m, c)` (R230). -/
def adcBin (a m : Byte) (c : Bool) : AluResult :=
  let s := a.toNat + m.toNat + bitNat c
  let r := BitVec.ofNat 8 s
  { r := r
    C := decide (s ≥ 0x100)
    V := (~~~(a ^^^ m) &&& (a ^^^ r)).getLsbD 7
    N := r.getLsbD 7
    Z := decide (r = 0x00) }

/-- `adcDec(a, m, c)`, the NMOS behaviour (R231). -/
def adcDec (a m : Byte) (c : Bool) : AluResult :=
  let al0 := (a &&& 0x0F).toNat + (m &&& 0x0F).toNat + bitNat c
  let al := if al0 ≥ 0x0A then (al0 + 0x06) % 16 + 0x10 else al0
  let s0 := (a &&& 0xF0).toNat + (m &&& 0xF0).toNat + al
  let ss : Int := (a &&& 0xF0).toInt + (m &&& 0xF0).toInt + al
  let s := if s0 ≥ 0xA0 then s0 + 0x60 else s0
  { r := BitVec.ofNat 8 s
    C := decide (s ≥ 0x100)
    V := decide (ss < -128 ∨ ss > 127)
    N := s0.testBit 7
    Z := (adcBin a m c).Z }

/-- `sbcBin(a, m, c)` is `adcBin(a, ~m, c)` (R232). -/
def sbcBin (a m : Byte) (c : Bool) : AluResult := adcBin a (~~~m) c

/-- `sbcDec(a, m, c)`, the NMOS behaviour: the flags are those of `sbcBin` (R233). -/
def sbcDec (a m : Byte) (c : Bool) : AluResult :=
  let al0 : Int := ((a &&& 0x0F).toNat : Int) - (m &&& 0x0F).toNat + bitNat c - 1
  let al := if al0 < 0 then (al0 - 0x06) % 16 - 0x10 else al0
  let s0 : Int := ((a &&& 0xF0).toNat : Int) - (m &&& 0xF0).toNat + al
  let s := if s0 < 0 then s0 - 0x60 else s0
  { sbcBin a m c with r := BitVec.ofInt 8 s }

/-- The addition that ADC and RRA perform, by the gate of R236. -/
def adcGated (decimal : Bool) (a m : Byte) (c : Bool) : AluResult :=
  if decimal then adcDec a m c else adcBin a m c

/-- The subtraction that SBC and ISC perform, by the gate of R236. -/
def sbcGated (decimal : Bool) (a m : Byte) (c : Bool) : AluResult :=
  if decimal then sbcDec a m c else sbcBin a m c

/-- The four flags of an addition or a subtraction written to P (R240, R241). -/
def setAlu (x : AluResult) (p : Flags) : Flags :=
  { p with C := x.C, V := x.V, N := x.N, Z := x.Z }

/-- `cmp(r, m)` written to P (R234). -/
def setCmp (r m : Byte) (p : Flags) : Flags :=
  { p with C := decide (r.toNat ≥ m.toNat), Z := decide (r = m), N := (r - m).getLsbD 7 }

/-- BIT's three flags (R248). -/
def setBit (a m : Byte) (p : Flags) : Flags :=
  { p with Z := decide (a &&& m = 0x00), N := m.getLsbD 7, V := m.getLsbD 6 }

/-- `asl(m)`: the result and the carry (44_rmw.md R270). -/
def asl (m : Byte) : Byte × Bool := (m <<< 1, m.getLsbD 7)

/-- `lsr(m)` (R270). -/
def lsr (m : Byte) : Byte × Bool := (m >>> 1, m.getLsbD 0)

/-- `rol(m, c)` (R270). -/
def rol (m : Byte) (c : Bool) : Byte × Bool := ((m <<< 1) ||| bitAt c 0, m.getLsbD 7)

/-- `ror(m, c)` (R270). -/
def ror (m : Byte) (c : Bool) : Byte × Bool := ((m >>> 1) ||| bitAt c 7, m.getLsbD 0)

/-- The carry of a shift written to P. -/
def setC (c : Bool) (p : Flags) : Flags := { p with C := c }

/-- ARR (47_illegal.md R381): the result and the flags, from A, the operand and P before the instruction. -/
def arrResult (decimal : Bool) (a m : Byte) (p : Flags) : Byte × Flags :=
  let t := a &&& m
  let r := (t >>> 1) ||| bitAt p.C 7
  if decimal then
    let low := (t &&& 0x0F).toNat
    let high := t.toNat / 16
    let r1 := if low + low % 2 > 5 then (r &&& 0xF0) ||| ((r + 6) &&& 0x0F) else r
    let c := decide (high + high % 2 > 5)
    let r2 := if c then r1 + 0x60 else r1
    (r2, { p with N := p.C, Z := decide (r = 0x00), V := t.getLsbD 6 != r.getLsbD 6, C := c })
  else
    (r, { setNZ r p with C := r.getLsbD 6, V := r.getLsbD 6 != r.getLsbD 5 })

/-! ### The 8080's flags -/

/-- `packF`, bits `S Z 0 AC 0 P 1 CY` (48_i8080.md R421). -/
def packF (c : I8080) : Byte :=
  bitAt c.fS 7 ||| bitAt c.fZ 6 ||| bitAt c.fAC 4 ||| bitAt c.fP 2 ||| bitAt true 1 ||| bitAt c.fCY 0

/-- `unpackF(b)`: bits 5, 3 and 1 are ignored (R421). -/
def unpackF (b : Byte) (c : I8080) : I8080 :=
  { c with fS := b.getLsbD 7, fZ := b.getLsbD 6, fAC := b.getLsbD 4, fP := b.getLsbD 2, fCY := b.getLsbD 0 }

/-- `parity(v)`: the byte has an even number of 1 bits (R424). -/
def parity (v : Byte) : Bool :=
  ((List.range 8).countP (fun k => v.getLsbD k)) % 2 == 0

/-- `setSZP(v)` (R424). -/
def setSZP (v : Byte) (c : I8080) : I8080 :=
  { c with fS := v.getLsbD 7, fZ := decide (v = 0x00), fP := parity v }

/-- The sum `add8(a, v, c)` returns (R438). -/
def add8 (a v : Byte) (c : Bool) : Byte := BitVec.ofNat 8 (a.toNat + v.toNat + bitNat c)

/-- The flags `add8(a, v, c)` writes (R438). -/
def add8Flags (a v : Byte) (c : Bool) (st : I8080) : I8080 :=
  { setSZP (add8 a v c) st with
    fCY := decide (a.toNat + v.toNat + bitNat c > 0xFF)
    fAC := decide ((a &&& 0x0F).toNat + (v &&& 0x0F).toNat + bitNat c > 0x0F) }

/-- The difference `sub8(a, v, b)` returns, `b` the borrow in (R438). -/
def sub8 (a v : Byte) (b : Bool) : Byte := BitVec.ofNat 8 (a.toNat + (~~~v).toNat + bitNat (!b))

/-- The flags `sub8(a, v, b)` writes: AC is the carry out of bit 3 of the complement addition (R438). -/
def sub8Flags (a v : Byte) (b : Bool) (st : I8080) : I8080 :=
  { setSZP (sub8 a v b) st with
    fCY := decide (a.toNat + (~~~v).toNat + bitNat (!b) ≤ 0xFF)
    fAC := decide ((a &&& 0x0F).toNat + (~~~v &&& 0x0F).toNat + bitNat (!b) > 0x0F) }

/-- The flags of ANA and ANI (R464, R465): AC from the operands before the AND, CY = 0. -/
def andFlags (a v : Byte) (st : I8080) : I8080 :=
  { setSZP (a &&& v) st with fAC := (a ||| v).getLsbD 3, fCY := false }

/-- The flags of XRA, XRI, ORA and ORI for their result `r` (R466 to R469): AC = 0, CY = 0. -/
def logicFlags (r : Byte) (st : I8080) : I8080 :=
  { setSZP r st with fAC := false, fCY := false }

/-- The flags of INR for the old value `v` (R458); CY unchanged. -/
def inrFlags (v : Byte) (st : I8080) : I8080 :=
  { setSZP (v + 1) st with fAC := decide (v &&& 0x0F = 0x0F) }

/-- The flags of DCR for the old value `v` (R459); CY unchanged. -/
def dcrFlags (v : Byte) (st : I8080) : I8080 :=
  { setSZP (v - 1) st with fAC := decide (¬ ((v - 1) &&& 0x0F = 0x0F)) }

/-- DAA's correction and carry (R463), from A, AC and CY. -/
def daaCorrection (a : Byte) (ac cy : Bool) : Byte × Bool :=
  let low := (a &&& 0x0F).toNat
  let high := a.toNat / 16
  let c1 : Byte := if ac || decide (low > 9) then 0x06 else 0x00
  if cy || decide (high > 9) || (decide (high ≥ 9) && decide (low > 9)) then (c1 ||| 0x60, true) else (c1, cy)

end Sys2Proof.Machine
end

