-- ==== Sys2Proof/Machine/Ops.lean ====
section
/-! DEFINITION. The named operations over memory, pins and registers: plain memory (20_memory.md R50, R55), the bus
primitives (00_scope.md R14), deferred write-back (40_engine.md R116, R118), the stack primitives (41_addressing.md R174),
the interrupt latches and arbitration (60_exceptions.md R523 to R527), taking an exception as one shared sequence
(45_control.md R309) with the return from one beside it (R308), and the reset line (70_reset_and_hazards.md R581 to
R584). -/

namespace Sys2Proof.Machine

/-! ### Memory -/

/-- What an address that no cell lists reads as (log entry 2). -/
def unlistedByte : Byte := 0x00

/-- The byte a list of cells holds at an address. -/
def Memory.lookup : Memory → Nat → Byte
  | [], _ => unlistedByte
  | (k, v) :: rest, a => if k = a then v else Memory.lookup rest a

/-- The cells with a byte put at an address, in the canonical form. -/
def Memory.store : Memory → Nat → Byte → Memory
  | [], a, v => if v = unlistedByte then [] else [(a, v)]
  | (k, w) :: rest, a, v =>
    if k < a then (k, w) :: Memory.store rest a v
    else if k = a then (if v = unlistedByte then rest else (a, v) :: rest)
    else if v = unlistedByte then (k, w) :: rest
    else (a, v) :: (k, w) :: rest

/-- The canonical form above an address: addresses strictly rising and inside the address space, no cell equal to what an
unlisted address reads as. -/
def Memory.wfFrom : Nat → Memory → Bool
  | _, [] => true
  | n, (k, v) :: rest =>
    decide (n ≤ k) && decide (k < 65536) && decide (v ≠ unlistedByte) && Memory.wfFrom (k + 1) rest

/-- The canonical form. -/
def Memory.wf (m : Memory) : Bool := Memory.wfFrom 0 m

/-- `MemRead(a, 1)` (20_memory.md R55; 48_i8080.md R427). -/
def Memory.read (m : Memory) (a : Addr) : Byte := Memory.lookup m a.toNat

/-- `MemWrite(a, 1, v)` (20_memory.md R55; 48_i8080.md R427). -/
def Memory.write (m : Memory) (a : Addr) (v : Byte) : Memory := Memory.store m a.toNat v

/-- A list of writes in order, each address taken modulo 2^16 (R50: one space of 2^16 bytes). -/
def Memory.writeCells (m : Memory) : List Host.Cell → Memory
  | [] => m
  | (k, v) :: rest => Memory.writeCells (Memory.write m (BitVec.ofNat 16 k) v) rest

/-! ### Configuration of the instance -/

/-- `decimalEnabled` (00_scope.md R6): false for the console-integrated variant (R3; log entry 10). -/
def decimalEnabled (s : State) : Bool := s.proc != .mos6502NoDecimal

/-- `decimal = decimalEnabled and P.D` (43_alu.md R236). -/
def decimal (s : State) : Bool := decimalEnabled s && s.P.D

/-- Construction (00_scope.md R7, R8; 70_reset_and_hazards.md R580, R582): only the mode Normal builds an instance. -/
def construct (proc : Processor) (compat : CompatMode) (po : PowerOn) (mem : Memory) : Host.Outcome State Fault Refusal :=
  match compat with
  | .normal => .next (State.constructed proc po mem)
  | .referenceTrace => .refused .referenceTrace
  | .invalid => .fault .invalidCompatMode

/-! ### Registers -/

/-- `A` at an instruction boundary (10_state.md R39): the pending value if one is pending, for the commit of the next
low-going transition makes it the register's (log entry 14). -/
def regA (s : State) : Byte := s.pendA.getD s.A

/-- `X` at an instruction boundary (R39). -/
def regX (s : State) : Byte := s.pendX.getD s.X

/-- `Y` at an instruction boundary (R39). -/
def regY (s : State) : Byte := s.pendY.getD s.Y

/-- `S` at an instruction boundary (R39). -/
def regS (s : State) : Byte := s.pendS.getD s.S

/-- The packed-flags accessor: `pack(P, 1)` (10_state.md R24). -/
def statusByte (s : State) : Byte := pack s.P true

/-- `commit` (40_engine.md R116): each pending value becomes its register's, in the order A, X, Y, S. -/
def commit (s : State) : State :=
  { s with
    A := s.pendA.getD s.A, pendA := none
    X := s.pendX.getD s.X, pendX := none
    Y := s.pendY.getD s.Y, pendY := none
    S := s.pendS.getD s.S, pendS := none }

/-- `A <=d v` (40_engine.md R118). -/
def deferA (v : Byte) (s : State) : State := { s with pendA := some v }

/-- `X <=d v` (R118). -/
def deferX (v : Byte) (s : State) : State := { s with pendX := some v }

/-- `Y <=d v` (R118). -/
def deferY (v : Byte) (s : State) : State := { s with pendY := some v }

/-- `S <=d v` (R118; 41_addressing.md R175). -/
def deferS (v : Byte) (s : State) : State := { s with pendS := some v }

/-- A write of the flags, immediate (40_engine.md R118). -/
def setP (p : Flags) (s : State) : State := { s with P := p }

/-! ### Bus primitives (00_scope.md R14) -/

/-- `busRead(a)`. -/
def busRead (a : Addr) (s : State) : State :=
  { s with pins := { s.pins with addr := a, rw := true } }

/-- `busWrite(a, v)`. -/
def busWrite (a : Addr) (v : Byte) (s : State) : State :=
  { s with pins := { s.pins with addr := a, rw := false }, dout := some v }

/-- `fetch(a)`: a read with `sync`. -/
def fetch (a : Addr) (s : State) : State :=
  { s with pins := { s.pins with addr := a, rw := true, sync := true } }

/-- `busRead(PC); PC <- PC + 1`: the read of an operand byte (41_addressing.md R162 to R171), PC modulo 2^16
(10_state.md R27). -/
def readOperand (s : State) : State := { busRead s.PC s with PC := s.PC + 1 }

/-- `push(v)` (41_addressing.md R174). -/
def push (v : Byte) (s : State) : State := { busWrite (stk s.S) v s with S := s.S - 1 }

/-- `stackDummy` (R174). -/
def stackDummy (s : State) : State := busRead (stk s.S) s

/-- `pullInc` (R174). -/
def pullInc (s : State) : State := { busRead (stk s.S) s with S := s.S + 1 }

/-- `pullLast` (R174). -/
def pullLast (s : State) : State := busRead (stk s.S) s

/-- The stack cycle of the reset sequence, a read where a hijack pushes (45_control.md R309): `busRead(0x01:S); S <- S - 1`. -/
def resetStackRead (s : State) : State := { busRead (stk s.S) s with S := s.S - 1 }

/-! ### Interrupt latches and arbitration (60_exceptions.md) -/

/-- `irqSample` (R524): the line is low and I is clear. -/
def irqSample (s : State) : Bool := !s.pins.irqN && !s.P.I

/-- The NMI edge since the previous sample (R523). -/
def nmiEdge (s : State) : Bool := s.nmiPrev && !s.pins.nmiN

/-- A latch shifted by one with a new sample in bit 0 (R523); a bit shifted past bit 15 is lost (10_state.md R36). -/
def shiftIn (latch : BitVec 16) (b : Bool) : BitVec 16 := (latch <<< 1) ||| BitVec.ofNat 16 (bitNat b)

/-- `latchShiftAndSample` (R523). -/
def latchShiftAndSample (s : State) : State :=
  { s with irqLatch := shiftIn s.irqLatch (irqSample s), nmiLatch := shiftIn s.nmiLatch (nmiEdge s), nmiPrev := s.pins.nmiN }

/-- `nmiRecognized` (R525). -/
def nmiRecognized (s : State) : Bool := decide (s.nmiLatch &&& 0xFFFC ≠ 0)

/-- `irqRecognized` (R525). -/
def irqRecognized (s : State) : Bool := s.irqLatch.getLsbD 1

/-- The intent that an arbitration leaves: Reset stays, then NMI, then IRQ (R526). -/
def arbitrated (i : Intent) (nmi irq : Bool) : Intent :=
  match i with
  | .reset => .reset
  | .none | .irq | .nmi => if nmi then .nmi else if irq then .irq else .none

/-- `arbitrate` (R526) with the masking of R527. -/
def arbitrate (s : State) : State :=
  { s with
    intent := arbitrated s.intent (nmiRecognized s) (irqRecognized s)
    nmiLatch := s.nmiLatch &&& 0x3
    irqLatch := s.irqLatch &&& 0x3 }

/-- The arbitration of a taken branch that does not cross a page when `branchIrqQuirk` is true (45_control.md R303): on
the latches as they stood one cycle earlier. -/
def arbitrateQuirk (s : State) : State :=
  { s with
    intent := arbitrated s.intent (decide (s.nmiLatch &&& 0xFFF8 ≠ 0)) (s.irqLatch.getLsbD 2)
    nmiLatch := s.nmiLatch &&& 0x7
    irqLatch := s.irqLatch &&& 0x7 }

/-- What the open parameter of R303 makes of a field: the value of the earlier poll or that of the usual one. Where the two
are equal the parameter does not matter, and the value can be computed. -/
def byQuirk {α : Type} [DecidableEq α] (early usual : α) : α :=
  if early = usual then usual else bif Config.branchIrqQuirk then early else usual

/-- The arbitration of R303, by the open parameter: written field by field, so that every other field of the answer is
seen without it. -/
def arbitrateBranch (s : State) : State :=
  { s with
    intent := byQuirk (arbitrateQuirk s).intent (arbitrate s).intent
    nmiLatch := byQuirk (arbitrateQuirk s).nmiLatch (arbitrate s).nmiLatch
    irqLatch := byQuirk (arbitrateQuirk s).irqLatch (arbitrate s).irqLatch }

/-- `fetchNext` (41_addressing.md R160): the opcode fetch of the next instruction, then the arbitration of R526. -/
def fetchNext (s : State) : State := arbitrate (fetch s.PC s)

/-- The `fetchNext` of a taken branch that does not cross a page (45_control.md R300, R303). -/
def fetchNextBranch (s : State) : State := arbitrateBranch (fetch s.PC s)

/-! ### Microcode -/

/-- How a step leaves the step counter (40_engine.md R121): to the next step, past it, or where it is (a JAM step). -/
inductive Advance where
  | next
  | skip
  | hold
deriving DecidableEq, Repr

/-- One instruction's column of the dispatcher's table (40_engine.md R120, R125): what its step `T` does to the state and to
the step counter; `none` where the table has no entry. -/
abbrev Micro := Nat → State → Option (State × Advance)

/-- The Microcode Dispatcher (40_engine.md R120): the microcode of an opcode. -/
abbrev Dispatcher := Byte → Micro

/-- A step that goes on to the next one. -/
def go (s : State) : Option (State × Advance) := some (s, .next)

/-! ### Taking an exception (45_control.md R309; 60_exceptions.md R521, R528 to R533) -/

/-- `vectorSelect` (60_exceptions.md R531): the vector. -/
def vectorAddr (s : State) : Addr :=
  match s.intent with
  | .reset => 0xFFFC
  | .nmi => 0xFFFA
  | .none | .irq => if nmiRecognized s then 0xFFFA else 0xFFFE

/-- `vectorSelect` (R531): its effect. An NMI recognized during a BRK or IRQ sequence is consumed and takes the sequence
over. -/
def vectorTake (s : State) : State :=
  match s.intent with
  | .reset | .nmi => s
  | .none | .irq => if nmiRecognized s then { s with nmiLatch := s.nmiLatch &&& 0x3, intent := .nmi } else s

/-- `if intent = Reset then rstCnt <- rstCnt - 1` (45_control.md R309, steps 4 and 5). -/
def countReset (s : State) : State :=
  match s.intent with
  | .reset => { s with rstCnt := s.rstCnt - 1 }
  | .none | .irq | .nmi => s

/-- Steps 1 to 3 of R309: a push, or a stack read under a reset. -/
def breakPush (v : Byte) (s : State) : State :=
  match s.intent with
  | .reset => resetStackRead s
  | .none | .irq | .nmi => push v s

/-- Taking an exception: the shared break sequence (45_control.md R309), run by BRK and by every hijack; `intent` tells
them apart (60_exceptions.md R528). It saves PCH, PCL and P on the stack, sets I and goes to the vector (R529, R533). -/
def breakSequence : Micro
  | 0, s => go (match s.intent with
    | .none => readOperand s
    | .irq | .nmi | .reset => busRead s.PC s)
  | 1, s => go (breakPush (hi s.PC) s)
  | 2, s => go (breakPush (lo s.PC) s)
  | 3, s => go (breakPush (pack s.P (decide (s.intent = .none))) s)
  | 4, s =>
    let v := vectorAddr s
    let s := vectorTake s
    go (countReset { busRead v { s with AD := v } with P := { s.P with I := true } })
  | 5, s => go (countReset { busRead (s.AD + 1) s with TMP := s.pins.data })
  | 6, s => go (fetchNext { s with PC := cat s.pins.data s.TMP, intent := .none })
  | _, _ => none

/-- Returning from an exception: the sequence of RTI (45_control.md R308; 60_exceptions.md R540). The restored PC is not
incremented. -/
def returnSequence : Micro
  | 0, s => go (busRead s.PC s)
  | 1, s => go (pullInc s)
  | 2, s => go (pullInc s)
  | 3, s => go (pullInc { s with P := unpack s.pins.data })
  | 4, s => go (pullLast { s with TMP := s.pins.data })
  | 5, s => go (fetchNext { s with PC := cat s.pins.data s.TMP })
  | _, _ => none

/-! ### The reset line (70_reset_and_hazards.md) -/

/-- `set_reset(level)`: false asserts reset (R584). -/
def setReset (level : Bool) (s : State) : State :=
  { s with
    intent := if level then s.intent else .reset
    rstCnt := if level && !s.pins.resN then 2 else s.rstCnt
    pins := { s.pins with resN := level } }

/-- `resetHeldCycle`, the whole of `onLow` while reset is held (R581). -/
def resetHeldCycle (s : State) : State :=
  { s with
    intent := .reset, resHeld := true, jammed := false
    pins := { s.pins with rw := true, sync := false, addr := Config.resetAddr }
    dout := none, nmiLatch := 0, irqLatch := 0, nmiPrev := s.pins.nmiN }

/-- `resetRelease` (R583): it makes the `opcodeLoad` of the same transition force the break sequence. -/
def resetRelease (s : State) : State :=
  { s with resHeld := false, intent := .reset, rstCnt := 2, pins := { s.pins with sync := true } }

/-! ### The 8080 core's registers, memory and ports -/

/-- A change of the 8080 core's registers. -/
def withI80 (s : State) (c : I8080) : State := { s with i80 := c }

/-- `reset8080` (49_i8080_control.md R519; 48_i8080.md R426): everything else unchanged. -/
def reset8080 (s : State) : State :=
  { s with i80 := { s.i80 with PC := 0x0000, INTE := false, eiPending := false, halted := false } }

/-- `MemRead(a, 1)` (48_i8080.md R427). -/
def memRead (s : State) (a : Addr) : Byte := s.mem.read a

/-- `MemWrite(a, 1, v)` (48_i8080.md R427). -/
def memWrite (a : Addr) (v : Byte) (s : State) : State := { s with mem := s.mem.write a v }

/-- `PortIn(p)` (48_i8080.md R429): the next byte the host has queued; where it has queued none, a free value
(93_implementation_defined.md item 20; log entry 16). -/
def portIn (p : Byte) (s : State) : Byte :=
  match s.io.inQ with
  | v :: _ => v
  | [] => Config.portIn p s.io.inCount

/-- The ports after `PortIn`: the byte is consumed, or one more free value is (log entry 16). -/
def portInDone (s : State) : State :=
  { s with io :=
      match s.io.inQ with
      | _ :: rest => { s.io with inQ := rest }
      | [] => { s.io with inCount := s.io.inCount + 1 } }

/-- `PortOut(p, v)` (48_i8080.md R429): the host's call, kept in order (log entry 17). -/
def portOut (p v : Byte) (s : State) : State :=
  { s with io := { s.io with outs := s.io.outs ++ [(p, v)] } }

end Sys2Proof.Machine
end

