-- ==== Sys2Proof/Machine/Operands.lean ====
section
/-! DEFINITION. Every operand form of both instruction sets: the address arithmetic and the bus-cycle sequences of the
6502's addressing modes (41_addressing.md R161 to R171, 45_control.md R300), as microcode with the hooks of R172 left open,
and the register, pair and condition operands of the 8080 (48_i8080.md R422, R423). In a step, `s.pins.data` is the byte
that the previous step's cycle read (00_scope.md R14, `data`). -/

namespace Sys2Proof.Machine

/-! ### Address arithmetic -/

/-- A zero-page address plus an index, modulo 256 within page 0x00 (R164, R169). -/
def indexZp (b i : Byte) : Addr := zp (b + i)

/-- `base + zext_16(I)`, modulo 2^16 (R166, R167, R170). -/
def indexAbs (base : Addr) (i : Byte) : Addr := base + zext16 i

/-- `hi(base):lo(AD)`: the address before the high byte is fixed (R166, R167, R170). -/
def unfixed (base : Addr) (i : Byte) : Addr := cat (hi base) (lo (indexAbs base i))

/-- Page crossing (R173). -/
def pageCrossed (base : Addr) (i : Byte) : Bool := decide (hi (indexAbs base i) ≠ hi base)

/-- The address of a pointer's second byte, within the pointer's page (45_control.md R307; R61). -/
def samePageNext (a : Addr) : Addr := cat (hi a) (lo a + 1)

/-- `PC + sext_16(TMP)` (45_control.md R300). -/
def branchTarget (pc : Addr) (off : Byte) : Addr := pc + sext16 off

/-- The byte SHA, SHX, SHY and TAS store: `reg & ((H + 1) mod 256)` (47_illegal.md R392). -/
def unstableValue (reg : Byte) (base : Addr) : Byte := reg &&& (hi base + 1)

/-- The address SHA, SHX, SHY and TAS store to: on a page crossing the high byte is the stored value (R392). -/
def unstableAddr (value : Byte) (base ad : Addr) : Addr :=
  if hi ad ≠ hi base then cat value (lo ad) else ad

/-- The index register of a mode (R164, R166, R167). -/
def indexOf (m : Mode) (s : State) : Byte :=
  match m with
  | .zpx | .absx | .izx => s.X
  | .zpy | .absy | .izy => s.Y
  | .impl | .acc | .imm | .zp | .abs | .rel | .ind => 0

/-! ### The address steps that the columns of a mode share -/

/-- Step 1 of zp, zpx and zpy: `AD <- 0x00:data; busRead(AD)` (R163, R164). -/
def readZp (s : State) : State := busRead (zp s.pins.data) { s with AD := zp s.pins.data }

/-- Step 1 of abs and abs indexed: `TMP <- data; busRead(PC); PC <- PC + 1` (R165 to R167). -/
def readHigh (s : State) : State := readOperand { s with TMP := s.pins.data }

/-- `AD <- 0x00:data` (R163, the write column). -/
def setZp (s : State) : State := { s with AD := zp s.pins.data }

/-- `AD <- 0x00:(lo(AD) + I)` (R164). -/
def setZpIndexed (i : Byte) (s : State) : State := { s with AD := indexZp (lo s.AD) i }

/-- `AD <- data:TMP` (R165). -/
def setAbs (s : State) : State := { s with AD := cat s.pins.data s.TMP }

/-- `AD <- data:lo(AD)` (R169). -/
def setPointed (s : State) : State := { s with AD := cat s.pins.data (lo s.AD) }

/-- `busRead(AD)`. -/
def readAD (s : State) : State := busRead s.AD s

/-- The indexing step: `AD <- base + zext_16(I); busRead(hi(base):lo(AD))` (R166, R167, R170, R171). -/
def readUnfixed (base : Addr) (i : Byte) (s : State) : State :=
  busRead (unfixed base i) { s with AD := indexAbs base i }

/-- Steps 0 to 3 of izx (R169), the same for every class. -/
def izxPointer : Micro
  | 0, s => go (readOperand s)
  | 1, s => go (busRead (zp s.pins.data) { s with TMP := s.pins.data })
  | 2, s => go (busRead (zp (s.TMP + s.X)) { s with TMP := s.TMP + s.X })
  | 3, s => go (busRead (zp (s.TMP + 1)) { s with AD := zp s.pins.data })
  | _, _ => none

/-- Steps 0 to 2 of izy (R170, R171), the same for every class. -/
def izyPointer : Micro
  | 0, s => go (readOperand s)
  | 1, s => go (busRead (zp s.pins.data) { s with TMP := s.pins.data })
  | 2, s => go (busRead (zp (s.TMP + 1)) { s with AD := zp s.pins.data })
  | _, _ => none

/-! ### The hooks' steps (R172) -/

/-- The last step of a read: `exec(data); fetchNext`. -/
def readEnd (exec : Byte → State → State) (s : State) : State := fetchNext (exec s.pins.data s)

/-- `busWrite(AD, value())`, value() from committed registers. -/
def storeValue (value : State → Byte) (s : State) : State := busWrite s.AD (value s) s

/-- The write step of SHA, SHX, SHY and TAS (47_illegal.md R392). `base` is the unindexed address, which the step has as
`AD - zext_16(I)` (log entry 12). -/
def storeUnstable (reg i : State → Byte) (s : State) : State :=
  let base := s.AD - zext16 (i s)
  let v := unstableValue (reg s) base
  let a := unstableAddr v base s.AD
  busWrite a v { s with AD := a }

/-- `TMP <- data; busWrite(AD, TMP)`: the dummy write (R168). -/
def rmwDummy (s : State) : State := busWrite s.AD s.pins.data { s with TMP := s.pins.data }

/-- `TMP <- modify(TMP); busWrite(AD, TMP)`, with the flags of the operation (R168). -/
def rmwWrite (modify : Byte → Flags → Byte × Flags) (s : State) : State :=
  busWrite s.AD (modify s.TMP s.P).1 { s with TMP := (modify s.TMP s.P).1, P := (modify s.TMP s.P).2 }

/-- `finish(r); fetchNext`, r the byte of the final write (R172; 47_illegal.md R370). -/
def rmwEnd (finish : Byte → State → State) (s : State) : State := fetchNext (finish s.TMP s)

/-! ### Sequences without a data address -/

/-- Implied and accumulator modes (R161). -/
def implSeq (exec : State → State) : Micro
  | 0, s => go (busRead s.PC s)
  | 1, s => go (fetchNext (exec s))
  | _, _ => none

/-- Immediate mode (R162). -/
def immSeq (exec : Byte → State → State) : Micro
  | 0, s => go (readOperand s)
  | 1, s => go (readEnd exec s)
  | _, _ => none

/-! ### Read class -/

/-- Zero page, read (R163). -/
def zpRead (exec : Byte → State → State) : Micro
  | 0, s => go (readOperand s)
  | 1, s => go (readZp s)
  | 2, s => go (readEnd exec s)
  | _, _ => none

/-- Zero page indexed, read (R164). -/
def zpIndexedRead (m : Mode) (exec : Byte → State → State) : Micro
  | 0, s => go (readOperand s)
  | 1, s => go (readZp s)
  | 2, s => go (readAD (setZpIndexed (indexOf m s) s))
  | 3, s => go (readEnd exec s)
  | _, _ => none

/-- Absolute, read (R165). -/
def absRead (exec : Byte → State → State) : Micro
  | 0, s => go (readOperand s)
  | 1, s => go (readHigh s)
  | 2, s => go (readAD (setAbs s))
  | 3, s => go (readEnd exec s)
  | _, _ => none

/-- Absolute indexed, read (R166): step 3 only when the page was crossed. -/
def absIndexedRead (m : Mode) (exec : Byte → State → State) : Micro
  | 0, s => go (readOperand s)
  | 1, s => go (readHigh s)
  | 2, s =>
    let base := cat s.pins.data s.TMP
    some (readUnfixed base (indexOf m s) s, if pageCrossed base (indexOf m s) then .next else .skip)
  | 3, s => go (readAD s)
  | 4, s => go (readEnd exec s)
  | _, _ => none

/-- Indexed indirect, read (R169). -/
def izxRead (exec : Byte → State → State) : Micro
  | 4, s => go (readAD (setPointed s))
  | 5, s => go (readEnd exec s)
  | t, s => izxPointer t s

/-- Indirect indexed, read (R170): step 4 only when the page was crossed. -/
def izyRead (exec : Byte → State → State) : Micro
  | 3, s =>
    let base := cat s.pins.data (lo s.AD)
    some (readUnfixed base s.Y s, if pageCrossed base s.Y then .next else .skip)
  | 4, s => go (readAD s)
  | 5, s => go (readEnd exec s)
  | t, s => izyPointer t s

/-- The read-class sequence of a mode; no entry for a mode without one. -/
def readSeq (m : Mode) (exec : Byte → State → State) : Micro :=
  match m with
  | .imm => immSeq exec
  | .zp => zpRead exec
  | .zpx => zpIndexedRead .zpx exec
  | .zpy => zpIndexedRead .zpy exec
  | .abs => absRead exec
  | .absx => absIndexedRead .absx exec
  | .absy => absIndexedRead .absy exec
  | .izx => izxRead exec
  | .izy => izyRead exec
  | .impl | .acc | .rel | .ind => fun _ _ => none

/-! ### Write class -/

/-- Zero page, write (R163). -/
def zpWrite (store fin : State → State) : Micro
  | 0, s => go (readOperand s)
  | 1, s => go (store (setZp s))
  | 2, s => go (fetchNext (fin s))
  | _, _ => none

/-- Zero page indexed, write (R164). -/
def zpIndexedWrite (m : Mode) (store fin : State → State) : Micro
  | 0, s => go (readOperand s)
  | 1, s => go (readZp s)
  | 2, s => go (store (setZpIndexed (indexOf m s) s))
  | 3, s => go (fetchNext (fin s))
  | _, _ => none

/-- Absolute, write (R165). -/
def absWrite (store fin : State → State) : Micro
  | 0, s => go (readOperand s)
  | 1, s => go (readHigh s)
  | 2, s => go (store (setAbs s))
  | 3, s => go (fetchNext (fin s))
  | _, _ => none

/-- Absolute indexed, write (R167): the dummy read always happens. -/
def absIndexedWrite (m : Mode) (store fin : State → State) : Micro
  | 0, s => go (readOperand s)
  | 1, s => go (readHigh s)
  | 2, s => go (readUnfixed (cat s.pins.data s.TMP) (indexOf m s) s)
  | 3, s => go (store s)
  | 4, s => go (fetchNext (fin s))
  | _, _ => none

/-- Indexed indirect, write (R169). -/
def izxWrite (store fin : State → State) : Micro
  | 4, s => go (store (setPointed s))
  | 5, s => go (fetchNext (fin s))
  | t, s => izxPointer t s

/-- Indirect indexed, write (R171): the dummy read always happens. -/
def izyWrite (store fin : State → State) : Micro
  | 3, s => go (readUnfixed (cat s.pins.data (lo s.AD)) s.Y s)
  | 4, s => go (store s)
  | 5, s => go (fetchNext (fin s))
  | t, s => izyPointer t s

/-- The write-class sequence of a mode, `store` its write step and `fin` what the last step does before `fetchNext`
(47_illegal.md R391); no entry for a mode without one. -/
def writeSeq (m : Mode) (store fin : State → State) : Micro :=
  match m with
  | .zp => zpWrite store fin
  | .zpx => zpIndexedWrite .zpx store fin
  | .zpy => zpIndexedWrite .zpy store fin
  | .abs => absWrite store fin
  | .absx => absIndexedWrite .absx store fin
  | .absy => absIndexedWrite .absy store fin
  | .izx => izxWrite store fin
  | .izy => izyWrite store fin
  | .impl | .acc | .imm | .rel | .ind => fun _ _ => none

/-! ### Read-modify-write class (R168) -/

/-- Zero page, read-modify-write (R163). -/
def zpRmw (modify : Byte → Flags → Byte × Flags) (finish : Byte → State → State) : Micro
  | 0, s => go (readOperand s)
  | 1, s => go (readZp s)
  | 2, s => go (rmwDummy s)
  | 3, s => go (rmwWrite modify s)
  | 4, s => go (rmwEnd finish s)
  | _, _ => none

/-- Zero page indexed, read-modify-write (R164). -/
def zpIndexedRmw (m : Mode) (modify : Byte → Flags → Byte × Flags) (finish : Byte → State → State) : Micro
  | 0, s => go (readOperand s)
  | 1, s => go (readZp s)
  | 2, s => go (readAD (setZpIndexed (indexOf m s) s))
  | 3, s => go (rmwDummy s)
  | 4, s => go (rmwWrite modify s)
  | 5, s => go (rmwEnd finish s)
  | _, _ => none

/-- Absolute, read-modify-write (R165). -/
def absRmw (modify : Byte → Flags → Byte × Flags) (finish : Byte → State → State) : Micro
  | 0, s => go (readOperand s)
  | 1, s => go (readHigh s)
  | 2, s => go (readAD (setAbs s))
  | 3, s => go (rmwDummy s)
  | 4, s => go (rmwWrite modify s)
  | 5, s => go (rmwEnd finish s)
  | _, _ => none

/-- Absolute indexed, read-modify-write (R167): the dummy read always happens. -/
def absIndexedRmw (m : Mode) (modify : Byte → Flags → Byte × Flags) (finish : Byte → State → State) : Micro
  | 0, s => go (readOperand s)
  | 1, s => go (readHigh s)
  | 2, s => go (readUnfixed (cat s.pins.data s.TMP) (indexOf m s) s)
  | 3, s => go (readAD s)
  | 4, s => go (rmwDummy s)
  | 5, s => go (rmwWrite modify s)
  | 6, s => go (rmwEnd finish s)
  | _, _ => none

/-- Indexed indirect, read-modify-write (R169). -/
def izxRmw (modify : Byte → Flags → Byte × Flags) (finish : Byte → State → State) : Micro
  | 4, s => go (readAD (setPointed s))
  | 5, s => go (rmwDummy s)
  | 6, s => go (rmwWrite modify s)
  | 7, s => go (rmwEnd finish s)
  | t, s => izxPointer t s

/-- Indirect indexed, read-modify-write (R171): the dummy read always happens. -/
def izyRmw (modify : Byte → Flags → Byte × Flags) (finish : Byte → State → State) : Micro
  | 3, s => go (readUnfixed (cat s.pins.data (lo s.AD)) s.Y s)
  | 4, s => go (readAD s)
  | 5, s => go (rmwDummy s)
  | 6, s => go (rmwWrite modify s)
  | 7, s => go (rmwEnd finish s)
  | t, s => izyPointer t s

/-- The read-modify-write sequence of a mode; no entry for a mode without one. -/
def rmwSeq (m : Mode) (modify : Byte → Flags → Byte × Flags) (finish : Byte → State → State) : Micro :=
  match m with
  | .zp => zpRmw modify finish
  | .zpx => zpIndexedRmw .zpx modify finish
  | .abs => absRmw modify finish
  | .absx => absIndexedRmw .absx modify finish
  | .absy => absIndexedRmw .absy modify finish
  | .izx => izxRmw modify finish
  | .izy => izyRmw modify finish
  | .impl | .acc | .imm | .zpy | .rel | .ind => fun _ _ => none

/-! ### Branches (45_control.md R300) -/

/-- The branch sequence for a condition on P (R300). -/
def branchSeq (cond : Flags → Bool) : Micro
  | 0, s => go (readOperand s)
  | 1, s =>
    if cond s.P then
      go { busRead s.PC { s with TMP := s.pins.data, AD := branchTarget s.PC s.pins.data } with
        PC := cat (hi s.PC) (lo (branchTarget s.PC s.pins.data)) }
    else go (fetchNext { s with TMP := s.pins.data })
  | 2, s =>
    if hi s.AD = hi s.PC then go (fetchNextBranch s)
    else go { busRead s.PC s with PC := s.AD }
  | 3, s => go (fetchNext s)
  | _, _ => none

/-! ### The 8080's operands (48_i8080.md R422, R423) -/

/-- `HL`, high byte first (R420). -/
def regHL (s : State) : Addr := cat s.i80.H s.i80.L

/-- `reg(r)`; M is the byte at HL (R422). -/
def i80Reg (r : Reg8) (s : State) : Byte :=
  match r with
  | .b => s.i80.B
  | .c => s.i80.C
  | .d => s.i80.D
  | .e => s.i80.E
  | .h => s.i80.H
  | .l => s.i80.L
  | .m => memRead s (regHL s)
  | .a => s.i80.A

/-- `reg(r) <- v`; M is the byte at HL (R422). -/
def setI80Reg (r : Reg8) (v : Byte) (s : State) : State :=
  match r with
  | .b => withI80 s { s.i80 with B := v }
  | .c => withI80 s { s.i80 with C := v }
  | .d => withI80 s { s.i80 with D := v }
  | .e => withI80 s { s.i80 with E := v }
  | .h => withI80 s { s.i80 with H := v }
  | .l => withI80 s { s.i80 with L := v }
  | .m => memWrite (regHL s) v s
  | .a => withI80 s { s.i80 with A := v }

/-- `pair(rp)` (R422). -/
def i80Pair (rp : RegPair) (s : State) : Addr :=
  match rp with
  | .bc => cat s.i80.B s.i80.C
  | .de => cat s.i80.D s.i80.E
  | .hl => cat s.i80.H s.i80.L
  | .sp => s.i80.SP

/-- `pair(rp) <- v` (R422). -/
def setI80Pair (rp : RegPair) (v : Addr) (s : State) : State :=
  match rp with
  | .bc => withI80 s { s.i80 with B := hi v, C := lo v }
  | .de => withI80 s { s.i80 with D := hi v, E := lo v }
  | .hl => withI80 s { s.i80 with H := hi v, L := lo v }
  | .sp => withI80 s { s.i80 with SP := v }

/-- The pair of LDAX and STAX (R447, R448). -/
def i80Index (p : IndexPair) (s : State) : Addr :=
  match p with
  | .bc => cat s.i80.B s.i80.C
  | .de => cat s.i80.D s.i80.E

/-- The pair PUSH pushes; PSW is A and the flag byte (R421, R422; 49_i8080_control.md R508). -/
def i80StackPair (p : StackPair) (s : State) : Addr :=
  match p with
  | .bc => cat s.i80.B s.i80.C
  | .de => cat s.i80.D s.i80.E
  | .hl => cat s.i80.H s.i80.L
  | .psw => cat s.i80.A (packF s.i80)

/-- The pair POP writes (R509). -/
def setI80StackPair (p : StackPair) (v : Addr) (s : State) : State :=
  match p with
  | .bc => withI80 s { s.i80 with B := hi v, C := lo v }
  | .de => withI80 s { s.i80 with D := hi v, E := lo v }
  | .hl => withI80 s { s.i80 with H := hi v, L := lo v }
  | .psw => withI80 s { unpackF (lo v) s.i80 with A := hi v }

/-- `push16(v)` (49_i8080_control.md): the high byte at SP - 1, the low byte at SP - 2. -/
def push16 (v : Addr) (s : State) : State :=
  let s := withI80 s { s.i80 with SP := s.i80.SP - 1 }
  let s := memWrite s.i80.SP (hi v) s
  let s := withI80 s { s.i80 with SP := s.i80.SP - 1 }
  memWrite s.i80.SP (lo v) s

/-- The value `pop16()` returns (49_i8080_control.md). -/
def pop16 (s : State) : Addr := cat (memRead s (s.i80.SP + 1)) (memRead s s.i80.SP)

/-- SP after `pop16()`. -/
def popped16 (s : State) : State := withI80 s { s.i80 with SP := s.i80.SP + 2 }

/-- `PC <- a`. -/
def setI80PC (a : Addr) (s : State) : State := withI80 s { s.i80 with PC := a }

end Sys2Proof.Machine
end

