-- ==== Sys2Proof/Machine/Engine.lean ====
section
/-! DEFINITION. How the engine moves: the two phase handlers and the entry points (40_engine.md R110 to R127), the System
Clock Divider that drives them in the console configuration (60_exceptions.md R560), the system composition with plain
memory (20_memory.md R55), and the run of one instruction that `exec` performs (log entry 6). The dispatcher is an argument
throughout, so that a meaning runs the engine on its own microcode; Machine/Dispatcher.lean joins the columns to the whole
table. -/

namespace Sys2Proof.Machine

/-- What an entry point of the engine answers. -/
abbrev Outcome := Host.Outcome State Fault Refusal

/-- Go on from an outcome. -/
def andThen (o : Outcome) (f : State → Outcome) : Outcome :=
  match o with
  | .next s => f s
  | .fault r => .fault r
  | .refused r => .refused r

/-! ### The high-to-low handler (40_engine.md R114) -/

/-- The opcodes and write steps for which a stalled cycle before the write has no meaning (47_illegal.md R392). -/
def unstableWriteStep (ir : Byte) (t : Nat) : Bool :=
  (decide (ir = 0x93) && t == 4) ||
  ((decide (ir = 0x9B) || decide (ir = 0x9C) || decide (ir = 0x9E) || decide (ir = 0x9F)) && t == 3)

/-- `stallCycle` (R122). A stall before the write of SHA, SHX, SHY or TAS is refused (47_illegal.md R392): `sync` is false
there, for an opcode fetch reads no operand of the instruction in IR. -/
def stallCycle (s : State) : Outcome :=
  if !s.pins.sync && unstableWriteStep s.IR s.T then .refused .unstableStoreStalled
  else .next { s with
    irqLatch := shiftIn s.irqLatch (irqSample s)
    nmiLatch := if nmiEdge s then s.nmiLatch ||| 1 else s.nmiLatch
    nmiPrev := s.pins.nmiN }

/-- `opcodeLoad` (R117): the opcode from the data pin, or the BRK encoding under a hijack (60_exceptions.md R528). -/
def opcodeLoad (s : State) : State :=
  { s with
    pins := { s.pins with sync := false }
    IR := if s.intent = .none then s.pins.data else 0x00
    PC := if s.intent = .none then s.PC + 1 else s.PC
    T := 0 }

/-- `opcodeLoad` when the cycle now ending was an opcode fetch (R114). -/
def loadIfSync (s : State) : State := if s.pins.sync then opcodeLoad s else s

/-- `st.pins.rw <- true; st.dout <- none` (R119). -/
def defaultRead (s : State) : State := { s with pins := { s.pins with rw := true }, dout := none }

/-- The stages of `onLow` before the dispatch (R114). -/
def prepare (s : State) : State := defaultRead (loadIfSync (latchShiftAndSample (commit s)))

/-- `advanceStep` (R121). -/
def advanceStep (a : Advance) (s : State) : State :=
  match a with
  | .next => { s with T := s.T + 1 }
  | .skip => { s with T := s.T + 2 }
  | .hold => s

/-- `dispatch` and `advanceStep` (R114, R120); an (opcode, step) pair outside the table is a programming error (R125). -/
def dispatchStep (D : Dispatcher) (s : State) : Outcome :=
  match D s.IR s.T s with
  | some (t, a) => .next (advanceStep a t)
  | none => .fault .programmingError

/-- `onLow` (R114). -/
def onLow (D : Dispatcher) (s : State) : Outcome :=
  if !s.pins.resN then .next (resetHeldCycle s)
  else if s.resHeld then dispatchStep D (prepare (resetRelease s))
  else if s.pins.rdy && s.pins.rw then stallCycle s
  else dispatchStep D (prepare s)

/-- `onHigh` (R113): a pending output value is driven onto the data pin. -/
def onHigh (s : State) : State :=
  { s with pins := { s.pins with data := s.dout.getD s.pins.data } }

/-! ### Entry points (R110 to R112) -/

/-- `set_phase(h)` (R111). -/
def setPhase (D : Dispatcher) (h : Bool) (s : State) : Outcome :=
  if h = s.phase then .next s
  else if h then .next (onHigh { s with phase := true })
  else onLow D { s with phase := false }

/-- `tick()` (R112). -/
def tick (D : Dispatcher) (s : State) : Outcome := andThen (setPhase D true s) (setPhase D false)

/-! ### The System Clock Divider (60_exceptions.md R560) -/

/-- m2 with a new level. -/
def setM2 (b : Bool) (s : State) : State := { s with divider := { s.divider with m2 := b } }

/-- The divider at count `c`, m2 raised where the count is `m2LeadCount` and the core's phase is low. -/
def countTo (c : Fin 12) (lead : Bool) (s : State) : State :=
  { s with divider := { cnt := c, m2 := if lead && !s.phase then true else s.divider.m2 } }

/-- m2 falls with the core's falling phase. -/
def fallM2 (h : Bool) (s : State) : State := if h then s else setM2 false s

/-- `masterEdge` (R560). The count 12 and its reset to 0 are one change of `cnt`. -/
def masterEdge (D : Dispatcher) (s : State) : Outcome :=
  let n := s.divider.cnt.val + 1
  let lead := n == Config.m2LeadCount
  if h : n < 12 then .next (countTo ⟨n, h⟩ lead s)
  else
    let level := !s.phase
    andThen (setPhase D level (countTo 0 lead s)) fun t => .next (fallM2 level t)

/-- `n` master-clock edges. -/
def masterEdges (D : Dispatcher) : Nat → State → Outcome
  | 0, s => .next s
  | n + 1, s => andThen (masterEdge D s) (masterEdges D n)

/-- A half-cycle to the level `h`, as the instance's caller drives it: the console configuration through the divider, which
toggles the phase at its next full count, the others by `set_phase` (R561; 40_engine.md R112; log entry 23). -/
def clockTo (D : Dispatcher) (h : Bool) (s : State) : Outcome :=
  match s.proc with
  | .mos6502NoDecimal => if h = s.phase then .next s else masterEdges D (12 - s.divider.cnt.val) s
  | .mos6502 | .i8080 => setPhase D h s

/-! ### The system composition (20_memory.md R55) -/

/-- The caller's calls of `set_reset`, in order. -/
def callResets : List Bool → State → State
  | [], s => s
  | l :: rest, s => callResets rest (setReset l s)

/-- What the caller does before a bus cycle (log entries 7 and 28); with nothing queued the lines keep their levels. -/
def callerActs (s : State) : State :=
  match s.callerQ with
  | [] => s
  | c :: rest =>
    let t := callResets c.resetCalls s
    { t with
      callerQ := rest
      pins := { t.pins with irqN := c.irqN, nmiN := c.nmiN, rdy := c.rdy }
      mem := t.mem.writeCells c.busWrites }

/-- The byte that something else than plain memory answers in the next cycle, if any (R54; log entry 8). -/
def outsideByte (s : State) : Option Byte :=
  match s.callerQ with
  | [] => none
  | c :: _ => c.readByte

/-- A read is answered: by plain memory (R55), or by the byte the outside places (R54). -/
def answerRead (b : Option Byte) (s : State) : State :=
  if s.pins.rw then { s with pins := { s.pins with data := b.getD (s.mem.read s.pins.addr) } } else s

/-- A write is performed (R53, R55). -/
def performWrite (s : State) : State :=
  if s.pins.rw then s else memWrite s.pins.addr s.pins.data s

/-- The cycle, as the platform saw it (log entry 15). -/
def record (s : State) : State :=
  { s with trace := s.trace ++ [⟨s.pins.addr, s.pins.rw, s.pins.sync, s.pins.data⟩] }

/-- One bus cycle, from a state whose phase is high (R55). -/
def systemCycle (D : Dispatcher) (s : State) : Outcome :=
  andThen (clockTo D false (callerActs s)) fun t =>
  andThen (clockTo D true (answerRead (outsideByte s) t)) fun u =>
  .next (record (performWrite u))

/-! ### The run of one instruction (log entry 6) -/

/-- Where a run ends: at the opcode fetch of the next instruction, when the core is jammed or held in reset, and when the
ready line is asserted. -/
def stops (s : State) : Bool := s.pins.sync || s.jammed || s.resHeld || s.pins.rdy

/-- Bus cycles until a run ends, at most `fuel` of them. -/
def runCycles (D : Dispatcher) : Nat → State → Outcome
  | 0, s => .next s
  | fuel + 1, s => andThen (systemCycle D s) fun t => if stops t then .next t else runCycles D fuel t

/-- The longest instruction is 8 cycles (30_encoding.md R87). -/
def longestRun : Nat := 8

/-- The opcode on the data pins, where the cycle now ending fetches it (40_engine.md R117). -/
def supplyOpcode (op : Byte) (s : State) : State :=
  if s.pins.sync then { s with pins := { s.pins with data := op } } else s

/-- A fresh trace. -/
def clearTrace (s : State) : State := { s with trace := [] }

/-- The priming call of R55, which brings a state whose phase is low to the precondition of `systemCycle` (log entry 31). -/
def primed (D : Dispatcher) (s : State) : Outcome :=
  if s.phase then .next s else andThen (clockTo D true s) fun t => .next (performWrite t)

/-- The part of the dispatcher that one instruction's run can reach: its own microcode, and that of opcode 0x00, which
every hijack forces (60_exceptions.md R528). -/
def ownDispatcher (op : Byte) (μ : Micro) : Dispatcher := fun ir => if ir = op then μ else breakSequence

/-- Run a 6502 instruction from its opcode fetch (or, where a run ended in the middle of it, from there): its opcode is
loaded as 40_engine.md R117 loads it, and its microcode runs until the run ends. A term that no opcode encodes is a
programming error (00_scope.md R15). -/
def runInstr (i : Instr) (μ : Micro) (s : State) : Outcome :=
  match opcode6502 i with
  | none => .fault .programmingError
  | some op =>
    andThen (primed (ownDispatcher op μ) (clearTrace (supplyOpcode op s)))
      (runCycles (ownDispatcher op μ) longestRun)

end Sys2Proof.Machine
end

