-- ==== Sys2Proof/Machine/Control.lean ====
section
/-! DEFINITION. Branches, jumps, subroutines, returns and BRK (45_control.md R300 to R317). -/

namespace Sys2Proof.Machine

/-! ### Conditional branches (R300 to R303) -/

/-- BPL (R310). -/
def microBpl : Micro := branchSeq fun p => !p.N

/-- BPL (R310). -/
def execBpl (s : State) : Outcome := runInstr .bpl microBpl s

/-- BMI (R311). -/
def microBmi : Micro := branchSeq fun p => p.N

/-- BMI (R311). -/
def execBmi (s : State) : Outcome := runInstr .bmi microBmi s

/-- BVC (R312). -/
def microBvc : Micro := branchSeq fun p => !p.V

/-- BVC (R312). -/
def execBvc (s : State) : Outcome := runInstr .bvc microBvc s

/-- BVS (R313). -/
def microBvs : Micro := branchSeq fun p => p.V

/-- BVS (R313). -/
def execBvs (s : State) : Outcome := runInstr .bvs microBvs s

/-- BCC (R314). -/
def microBcc : Micro := branchSeq fun p => !p.C

/-- BCC (R314). -/
def execBcc (s : State) : Outcome := runInstr .bcc microBcc s

/-- BCS (R315). -/
def microBcs : Micro := branchSeq fun p => p.C

/-- BCS (R315). -/
def execBcs (s : State) : Outcome := runInstr .bcs microBcs s

/-- BNE (R316). -/
def microBne : Micro := branchSeq fun p => !p.Z

/-- BNE (R316). -/
def execBne (s : State) : Outcome := runInstr .bne microBne s

/-- BEQ (R317). -/
def microBeq : Micro := branchSeq fun p => p.Z

/-- BEQ (R317). -/
def execBeq (s : State) : Outcome := runInstr .beq microBeq s

/-! ### Jumps, subroutine call and returns -/

/-- JMP absolute (R304). -/
def jmpAbs : Micro
  | 0, s => go (readOperand s)
  | 1, s => go (busRead s.PC { s with TMP := s.pins.data })
  | 2, s => go (fetchNext { s with PC := cat s.pins.data s.TMP })
  | _, _ => none

/-- JMP indirect, with the page wrap of its pointer (R307). -/
def jmpInd : Micro
  | 0, s => go (readOperand s)
  | 1, s => go (readHigh s)
  | 2, s => go (readAD (setAbs s))
  | 3, s => go (busRead (samePageNext s.AD) { s with TMP := s.pins.data })
  | 4, s => go (fetchNext { s with PC := cat s.pins.data s.TMP })
  | _, _ => none

/-- JMP in its two modes (R304, R307). -/
def microJmp (m : Mode) : Micro :=
  match m with
  | .abs => jmpAbs
  | .ind => jmpInd
  | .impl | .acc | .imm | .zp | .zpx | .zpy | .absx | .absy | .izx | .izy | .rel => fun _ _ => none

/-- JMP (R304, R307). -/
def execJmp (m : Mode) (s : State) : Outcome := runInstr (.jmp m) (microJmp m) s

/-- JSR: the high byte of the target is read after the pushes (R305). -/
def microJsr : Micro
  | 0, s => go (readOperand s)
  | 1, s => go (stackDummy { s with TMP := s.pins.data })
  | 2, s => go (push (hi s.PC) s)
  | 3, s => go (push (lo s.PC) s)
  | 4, s => go (busRead s.PC s)
  | 5, s => go (fetchNext { s with PC := cat s.pins.data s.TMP })
  | _, _ => none

/-- JSR (R305). -/
def execJsr (s : State) : Outcome := runInstr .jsr microJsr s

/-- RTS (R306). -/
def microRts : Micro
  | 0, s => go (busRead s.PC s)
  | 1, s => go (pullInc s)
  | 2, s => go (pullInc s)
  | 3, s => go (pullLast { s with TMP := s.pins.data })
  | 4, s => go (readOperand { s with PC := cat s.pins.data s.TMP })
  | 5, s => go (fetchNext s)
  | _, _ => none

/-- RTS (R306). -/
def execRts (s : State) : Outcome := runInstr .rts microRts s

/-- RTI: the shared return from an exception (R308). -/
def microRti : Micro := returnSequence

/-- RTI: the shared return from an exception (R308). -/
def execRti (s : State) : Outcome := runInstr .rti microRti s

/-- BRK: the shared break sequence (R309). -/
def microBrk : Micro := breakSequence

/-- BRK: the shared break sequence (R309). -/
def execBrk (s : State) : Outcome := runInstr .brk microBrk s

end Sys2Proof.Machine
end

