-- ==== Sys2Proof/Machine/I8080Arith.lean ====
section
/-! DEFINITION. The 8080's arithmetic (48_i8080.md R450 to R463).

A meaning starts from a state whose PC already points past the whole instruction (49_i8080_control.md: `imm8` and `imm16`
advance it); the fetch is in Machine/Fetch.lean. -/

namespace Sys2Proof.Machine

/-- `A <- add8(A, v, c)` (R438). -/
def addI80 (v : Byte) (c : Bool) (s : State) : State :=
  withI80 s { add8Flags s.i80.A v c s.i80 with A := add8 s.i80.A v c }

/-- `A <- sub8(A, v, b)` (R438). -/
def subI80 (v : Byte) (b : Bool) (s : State) : State :=
  withI80 s { sub8Flags s.i80.A v b s.i80 with A := sub8 s.i80.A v b }

/-- The flags of the core replaced. -/
def flagsI80 (f : I8080 → I8080) (s : State) : State := withI80 s (f s.i80)

/-- ADD s (R450). -/
def execI80Add (r : Reg8) (s : State) : Outcome := .next (addI80 (i80Reg r s) false s)

/-- ADC s (R451). -/
def execI80Adc (r : Reg8) (s : State) : Outcome := .next (addI80 (i80Reg r s) s.i80.fCY s)

/-- ADI d8 (R452). -/
def execI80Adi (v : Byte) (s : State) : Outcome := .next (addI80 v false s)

/-- ACI d8 (R453). -/
def execI80Aci (v : Byte) (s : State) : Outcome := .next (addI80 v s.i80.fCY s)

/-- SUB s (R454). -/
def execI80Sub (r : Reg8) (s : State) : Outcome := .next (subI80 (i80Reg r s) false s)

/-- SBB s (R455). -/
def execI80Sbb (r : Reg8) (s : State) : Outcome := .next (subI80 (i80Reg r s) s.i80.fCY s)

/-- SUI d8 (R456). -/
def execI80Sui (v : Byte) (s : State) : Outcome := .next (subI80 v false s)

/-- SBI d8 (R457). -/
def execI80Sbi (v : Byte) (s : State) : Outcome := .next (subI80 v s.i80.fCY s)

/-- INR d: M is read and written at HL (R458). -/
def execI80Inr (dst : Reg8) (s : State) : Outcome := 
  .next (flagsI80 (inrFlags (i80Reg dst s)) (setI80Reg dst (i80Reg dst s + 1) s))

/-- DCR d: M is read and written at HL (R459). -/
def execI80Dcr (dst : Reg8) (s : State) : Outcome := 
  .next (flagsI80 (dcrFlags (i80Reg dst s)) (setI80Reg dst (i80Reg dst s - 1) s))

/-- INX rp (R460). -/
def execI80Inx (rp : RegPair) (s : State) : Outcome := .next (setI80Pair rp (i80Pair rp s + 1) s)

/-- DCX rp (R461). -/
def execI80Dcx (rp : RegPair) (s : State) : Outcome := .next (setI80Pair rp (i80Pair rp s - 1) s)

/-- DAD rp: CY only (R462). -/
def execI80Dad (rp : RegPair) (s : State) : Outcome := 
  let t := setI80Pair .hl (regHL s + i80Pair rp s) s
  .next (withI80 t { t.i80 with fCY := decide ((regHL s).toNat + (i80Pair rp s).toNat > 0xFFFF) })

/-- DAA (R463). -/
def execI80Daa (s : State) : Outcome := 
  let x := daaCorrection s.i80.A s.i80.fAC s.i80.fCY
  let t := addI80 x.1 false s
  .next (withI80 t { t.i80 with fCY := x.2 })

end Sys2Proof.Machine
end

