-- ==== Sys2Proof/Machine/I8080Control.lean ====
section
/-! DEFINITION. The 8080's control transfer, stack, I/O and interrupts (49_i8080_control.md R500 to R517).

A meaning starts from a state whose PC already points past the whole instruction (49_i8080_control.md: `imm8` and `imm16`
advance it); the fetch is in Machine/Fetch.lean. -/

namespace Sys2Proof.Machine

/-- `if c then PC <- a` (R501). -/
def jumpIf (c : Bool) (a : Addr) (s : State) : State := if c then setI80PC a s else s

/-- `push16(PC); PC <- a` (R502, R506). -/
def callTo (a : Addr) (s : State) : State := setI80PC a (push16 s.i80.PC s)

/-- The conditional call: both the push and the jump are conditional (R503). -/
def callIf (c : Bool) (a : Addr) (s : State) : State := if c then callTo a s else s

/-- `PC <- pop16()` (R504). -/
def returnFrom (s : State) : State := setI80PC (pop16 s) (popped16 s)

/-- The conditional return (R505). -/
def returnIf (c : Bool) (s : State) : State := if c then returnFrom s else s

/-- JMP a16 and its duplicate (R500). -/
def execI80Jmp (_dup : Bool) (a : Addr) (s : State) : Outcome := .next (setI80PC a s)

/-- JNZ a16: if fZ = 0 (R501, R423). -/
def execI80Jnz (a : Addr) (s : State) : Outcome := .next (jumpIf (!s.i80.fZ) a s)

/-- JZ a16: if fZ = 1 (R501, R423). -/
def execI80Jz (a : Addr) (s : State) : Outcome := .next (jumpIf s.i80.fZ a s)

/-- JNC a16: if fCY = 0 (R501, R423). -/
def execI80Jnc (a : Addr) (s : State) : Outcome := .next (jumpIf (!s.i80.fCY) a s)

/-- JC a16: if fCY = 1 (R501, R423). -/
def execI80Jc (a : Addr) (s : State) : Outcome := .next (jumpIf s.i80.fCY a s)

/-- JPO a16: if fP = 0 (R501, R423). -/
def execI80Jpo (a : Addr) (s : State) : Outcome := .next (jumpIf (!s.i80.fP) a s)

/-- JPE a16: if fP = 1 (R501, R423). -/
def execI80Jpe (a : Addr) (s : State) : Outcome := .next (jumpIf s.i80.fP a s)

/-- JP a16: if fS = 0 (R501, R423). -/
def execI80Jp (a : Addr) (s : State) : Outcome := .next (jumpIf (!s.i80.fS) a s)

/-- JM a16: if fS = 1 (R501, R423). -/
def execI80Jm (a : Addr) (s : State) : Outcome := .next (jumpIf s.i80.fS a s)

/-- CALL a16 and its duplicates (R502). -/
def execI80Call (_k : BitVec 2) (a : Addr) (s : State) : Outcome := .next (callTo a s)

/-- CNZ a16: if fZ = 0 (R503, R423). -/
def execI80Cnz (a : Addr) (s : State) : Outcome := .next (callIf (!s.i80.fZ) a s)

/-- CZ a16: if fZ = 1 (R503, R423). -/
def execI80Cz (a : Addr) (s : State) : Outcome := .next (callIf s.i80.fZ a s)

/-- CNC a16: if fCY = 0 (R503, R423). -/
def execI80Cnc (a : Addr) (s : State) : Outcome := .next (callIf (!s.i80.fCY) a s)

/-- CC a16: if fCY = 1 (R503, R423). -/
def execI80Cc (a : Addr) (s : State) : Outcome := .next (callIf s.i80.fCY a s)

/-- CPO a16: if fP = 0 (R503, R423). -/
def execI80Cpo (a : Addr) (s : State) : Outcome := .next (callIf (!s.i80.fP) a s)

/-- CPE a16: if fP = 1 (R503, R423). -/
def execI80Cpe (a : Addr) (s : State) : Outcome := .next (callIf s.i80.fP a s)

/-- CP a16: if fS = 0 (R503, R423). -/
def execI80Cp (a : Addr) (s : State) : Outcome := .next (callIf (!s.i80.fS) a s)

/-- CM a16: if fS = 1 (R503, R423). -/
def execI80Cm (a : Addr) (s : State) : Outcome := .next (callIf s.i80.fS a s)

/-- RET and its duplicate (R504). -/
def execI80Ret (_dup : Bool) (s : State) : Outcome := .next (returnFrom s)

/-- RNZ: if fZ = 0 (R505, R423). -/
def execI80Rnz (s : State) : Outcome := .next (returnIf (!s.i80.fZ) s)

/-- RZ: if fZ = 1 (R505, R423). -/
def execI80Rz (s : State) : Outcome := .next (returnIf s.i80.fZ s)

/-- RNC: if fCY = 0 (R505, R423). -/
def execI80Rnc (s : State) : Outcome := .next (returnIf (!s.i80.fCY) s)

/-- RC: if fCY = 1 (R505, R423). -/
def execI80Rc (s : State) : Outcome := .next (returnIf s.i80.fCY s)

/-- RPO: if fP = 0 (R505, R423). -/
def execI80Rpo (s : State) : Outcome := .next (returnIf (!s.i80.fP) s)

/-- RPE: if fP = 1 (R505, R423). -/
def execI80Rpe (s : State) : Outcome := .next (returnIf s.i80.fP s)

/-- RP: if fS = 0 (R505, R423). -/
def execI80Rp (s : State) : Outcome := .next (returnIf (!s.i80.fS) s)

/-- RM: if fS = 1 (R505, R423). -/
def execI80Rm (s : State) : Outcome := .next (returnIf s.i80.fS s)

/-- RST n: `PC <- 8 * n` (R506). -/
def execI80Rst (n : BitVec 3) (s : State) : Outcome := .next (callTo (BitVec.ofNat 16 (8 * n.toNat)) s)

/-- PCHL (R507). -/
def execI80Pchl (s : State) : Outcome := .next (setI80PC (regHL s) s)

/-- PUSH rp (R508). -/
def execI80Push (p : StackPair) (s : State) : Outcome := .next (push16 (i80StackPair p s) s)

/-- POP rp (R509). -/
def execI80Pop (p : StackPair) (s : State) : Outcome := .next (setI80StackPair p (pop16 s) (popped16 s))

/-- XTHL: SP unchanged (R510). -/
def execI80Xthl (s : State) : Outcome := 
  let l := memRead s s.i80.SP
  let h := memRead s (s.i80.SP + 1)
  let t := memWrite (s.i80.SP + 1) s.i80.H (memWrite s.i80.SP s.i80.L s)
  .next (withI80 t { t.i80 with L := l, H := h })

/-- SPHL (R511). -/
def execI80Sphl (s : State) : Outcome := .next (withI80 s { s.i80 with SP := regHL s })

/-- IN p8 (R512). -/
def execI80In (p : Byte) (s : State) : Outcome := 
  let t := portInDone s
  .next (withI80 t { t.i80 with A := portIn p s })

/-- OUT p8 (R513). -/
def execI80Out (p : Byte) (s : State) : Outcome := .next (portOut p s.i80.A s)

/-- EI: no interrupt is accepted at the boundary right after (R514). -/
def execI80Ei (s : State) : Outcome := .next (withI80 s { s.i80 with INTE := true, eiPending := true })

/-- DI (R515). -/
def execI80Di (s : State) : Outcome := .next (withI80 s { s.i80 with INTE := false, eiPending := false })

/-- HLT (R516). -/
def execI80Hlt (s : State) : Outcome := .next (withI80 s { s.i80 with halted := true })

/-- NOP and its duplicates (R517). -/
def execI80Nop (_k : BitVec 3) (s : State) : Outcome := .next s

end Sys2Proof.Machine
end

