-- ==== Sys2Proof/Machine/I8080Data.lean ====
section
/-! DEFINITION. The 8080's data transfer (48_i8080.md R440 to R449).

A meaning starts from a state whose PC already points past the whole instruction (49_i8080_control.md: `imm8` and `imm16`
advance it); the fetch is in Machine/Fetch.lean. -/

namespace Sys2Proof.Machine

/-- MOV d,s; `MOV M,M` does not exist (R440). -/
def execI80Mov (dst src : Reg8) (s : State) : Outcome :=
  if dst = .m ∧ src = .m then .refused .noEncoding else .next (setI80Reg dst (i80Reg src s) s)

/-- MVI d,d8 (R441). -/
def execI80Mvi (dst : Reg8) (v : Byte) (s : State) : Outcome := .next (setI80Reg dst v s)

/-- LXI rp,d16 (R442). -/
def execI80Lxi (rp : RegPair) (v : Addr) (s : State) : Outcome := .next (setI80Pair rp v s)

/-- LDA a16 (R443). -/
def execI80Lda (a : Addr) (s : State) : Outcome := .next (withI80 s { s.i80 with A := memRead s a })

/-- STA a16 (R444). -/
def execI80Sta (a : Addr) (s : State) : Outcome := .next (memWrite a s.i80.A s)

/-- LHLD a16; `a + 1` wraps (R445). -/
def execI80Lhld (a : Addr) (s : State) : Outcome := 
  .next (withI80 s { s.i80 with L := memRead s a, H := memRead s (a + 1) })

/-- SHLD a16 (R446). -/
def execI80Shld (a : Addr) (s : State) : Outcome := 
  .next (memWrite (a + 1) s.i80.H (memWrite a s.i80.L s))

/-- LDAX rp (R447). -/
def execI80Ldax (p : IndexPair) (s : State) : Outcome := .next (withI80 s { s.i80 with A := memRead s (i80Index p s) })

/-- STAX rp (R448). -/
def execI80Stax (p : IndexPair) (s : State) : Outcome := .next (memWrite (i80Index p s) s.i80.A s)

/-- XCHG (R449). -/
def execI80Xchg (s : State) : Outcome := 
  .next (withI80 s { s.i80 with D := s.i80.H, E := s.i80.L, H := s.i80.D, L := s.i80.E })

end Sys2Proof.Machine
end

