-- ==== Sys2Proof/Machine/I8080Logic.lean ====
section
/-! DEFINITION. The 8080's logic, compare and rotates (48_i8080.md R464 to R478).

A meaning starts from a state whose PC already points past the whole instruction (49_i8080_control.md: `imm8` and `imm16`
advance it); the fetch is in Machine/Fetch.lean. -/

namespace Sys2Proof.Machine

/-- ANA and ANI (R464, R465). -/
def andI80 (v : Byte) (s : State) : State :=
  withI80 s { andFlags s.i80.A v s.i80 with A := s.i80.A &&& v }

/-- A result of XRA, XRI, ORA or ORI (R466 to R469). -/
def logicI80 (r : Byte) (s : State) : State := withI80 s { logicFlags r s.i80 with A := r }

/-- CMP and CPI: `sub8` for its flags only (R470, R471). -/
def cmpI80 (v : Byte) (s : State) : State := withI80 s (sub8Flags s.i80.A v false s.i80)

/-- A rotate's result and carry (R472 to R475). -/
def rotateI80 (v : Byte) (c : Bool) (s : State) : State := withI80 s { s.i80 with A := v, fCY := c }

/-- ANA s (R464). -/
def execI80Ana (r : Reg8) (s : State) : Outcome := .next (andI80 (i80Reg r s) s)

/-- ANI d8 (R465). -/
def execI80Ani (v : Byte) (s : State) : Outcome := .next (andI80 v s)

/-- XRA s (R466). -/
def execI80Xra (r : Reg8) (s : State) : Outcome := .next (logicI80 (s.i80.A ^^^ i80Reg r s) s)

/-- XRI d8 (R467). -/
def execI80Xri (v : Byte) (s : State) : Outcome := .next (logicI80 (s.i80.A ^^^ v) s)

/-- ORA s (R468). -/
def execI80Ora (r : Reg8) (s : State) : Outcome := .next (logicI80 (s.i80.A ||| i80Reg r s) s)

/-- ORI d8 (R469). -/
def execI80Ori (v : Byte) (s : State) : Outcome := .next (logicI80 (s.i80.A ||| v) s)

/-- CMP s (R470). -/
def execI80Cmp (r : Reg8) (s : State) : Outcome := .next (cmpI80 (i80Reg r s) s)

/-- CPI d8 (R471). -/
def execI80Cpi (v : Byte) (s : State) : Outcome := .next (cmpI80 v s)

/-- RLC (R472). -/
def execI80Rlc (s : State) : Outcome := 
  .next (rotateI80 ((s.i80.A <<< 1) ||| bitAt (s.i80.A.getLsbD 7) 0) (s.i80.A.getLsbD 7) s)

/-- RRC (R473). -/
def execI80Rrc (s : State) : Outcome := 
  .next (rotateI80 ((s.i80.A >>> 1) ||| bitAt (s.i80.A.getLsbD 0) 7) (s.i80.A.getLsbD 0) s)

/-- RAL (R474). -/
def execI80Ral (s : State) : Outcome := 
  .next (rotateI80 ((s.i80.A <<< 1) ||| bitAt s.i80.fCY 0) (s.i80.A.getLsbD 7) s)

/-- RAR (R475). -/
def execI80Rar (s : State) : Outcome := 
  .next (rotateI80 ((s.i80.A >>> 1) ||| bitAt s.i80.fCY 7) (s.i80.A.getLsbD 0) s)

/-- CMA (R476). -/
def execI80Cma (s : State) : Outcome := .next (withI80 s { s.i80 with A := ~~~s.i80.A })

/-- CMC (R477). -/
def execI80Cmc (s : State) : Outcome := .next (withI80 s { s.i80 with fCY := !s.i80.fCY })

/-- STC (R478). -/
def execI80Stc (s : State) : Outcome := .next (withI80 s { s.i80 with fCY := true })

end Sys2Proof.Machine
end

