-- ==== Sys2Proof/Machine/Alu.lean ====
section
/-! DEFINITION. Arithmetic, logic and compare (43_alu.md R240 to R248). -/

namespace Sys2Proof.Machine

/-- ADC of an operand into A, by the gate of R236 (R240). -/
def addToA (v : Byte) (s : State) : State :=
  let x := adcGated (decimal s) s.A v s.P.C
  deferA x.r (setP (setAlu x s.P) s)

/-- SBC of an operand from A, by the gate of R236 (R241). -/
def subFromA (v : Byte) (s : State) : State :=
  let x := sbcGated (decimal s) s.A v s.P.C
  deferA x.r (setP (setAlu x s.P) s)

/-- A logical result into A, with N and Z from it (R235). -/
def logicA (r : Byte) (s : State) : State := deferA r (setP (setNZ r s.P) s)

/-- A compare of a register's value with an operand: flags only (R234). -/
def compareWith (r v : Byte) (s : State) : State := setP (setCmp r v s.P) s

/-- ADC (R240). -/
def microAdc (m : Mode) : Micro := readSeq m addToA

/-- ADC (R240). -/
def execAdc (m : Mode) (s : State) : Outcome := runInstr (.adc m) (microAdc m) s

/-- SBC (R241). -/
def microSbc (m : Mode) : Micro := readSeq m subFromA

/-- SBC (R241). -/
def execSbc (m : Mode) (s : State) : Outcome := runInstr (.sbc m) (microSbc m) s

/-- AND (R242). -/
def microAnd (m : Mode) : Micro := readSeq m fun v s => logicA (s.A &&& v) s

/-- AND (R242). -/
def execAnd (m : Mode) (s : State) : Outcome := runInstr (.and m) (microAnd m) s

/-- ORA (R243). -/
def microOra (m : Mode) : Micro := readSeq m fun v s => logicA (s.A ||| v) s

/-- ORA (R243). -/
def execOra (m : Mode) (s : State) : Outcome := runInstr (.ora m) (microOra m) s

/-- EOR (R244). -/
def microEor (m : Mode) : Micro := readSeq m fun v s => logicA (s.A ^^^ v) s

/-- EOR (R244). -/
def execEor (m : Mode) (s : State) : Outcome := runInstr (.eor m) (microEor m) s

/-- CMP (R245). -/
def microCmp (m : Mode) : Micro := readSeq m fun v s => compareWith s.A v s

/-- CMP (R245). -/
def execCmp (m : Mode) (s : State) : Outcome := runInstr (.cmp m) (microCmp m) s

/-- CPX (R246). -/
def microCpx (m : Mode) : Micro := readSeq m fun v s => compareWith s.X v s

/-- CPX (R246). -/
def execCpx (m : Mode) (s : State) : Outcome := runInstr (.cpx m) (microCpx m) s

/-- CPY (R247). -/
def microCpy (m : Mode) : Micro := readSeq m fun v s => compareWith s.Y v s

/-- CPY (R247). -/
def execCpy (m : Mode) (s : State) : Outcome := runInstr (.cpy m) (microCpy m) s

/-- BIT: Z from A & M, N and V from M (R248). -/
def microBit (m : Mode) : Micro := readSeq m fun v s => setP (setBit s.A v s.P) s

/-- BIT: Z from A & M, N and V from M (R248). -/
def execBit (m : Mode) (s : State) : Outcome := runInstr (.bit m) (microBit m) s

end Sys2Proof.Machine
end

