-- ==== Sys2Proof/Machine/Rmw.lean ====
section
/-! DEFINITION. Shifts, rotates, increments and decrements (44_rmw.md R270 to R280). -/

namespace Sys2Proof.Machine

/-- A shift as the hook `modify(M)`: the result, with C from the shift and N, Z from the result (R270, R271). -/
def modifyShift (f : Byte → Flags → Byte × Bool) (v : Byte) (p : Flags) : Byte × Flags :=
  ((f v p).1, setNZ (f v p).1 (setC (f v p).2 p))

/-- A shift of the accumulator as the hook `exec()` (R271). -/
def shiftA (f : Byte → Flags → Byte × Bool) (s : State) : State :=
  deferA (f s.A s.P).1 (setP (modifyShift f s.A s.P).2 s)

/-- `modify(M)` of INC: `M + 1 mod 256`, N and Z (R275). -/
def modifyInc (v : Byte) (p : Flags) : Byte × Flags := (v + 1, setNZ (v + 1) p)

/-- `modify(M)` of DEC: `M - 1 mod 256`, N and Z (R276). -/
def modifyDec (v : Byte) (p : Flags) : Byte × Flags := (v - 1, setNZ (v - 1) p)

/-- No `finish` hook: only the combined instructions have one (41_addressing.md R172). -/
def noFinish (_ : Byte) (s : State) : State := s

/-- A shift in its accumulator form (41_addressing.md R161) or a memory form (R168). -/
def shiftSeq (m : Mode) (f : Byte → Flags → Byte × Bool) : Micro :=
  match m with
  | .acc => implSeq (shiftA f)
  | .zp | .zpx | .abs | .absx | .impl | .imm | .zpy | .absy | .izx | .izy | .rel | .ind => rmwSeq m (modifyShift f) noFinish

/-- ASL (R271). -/
def microAsl (m : Mode) : Micro := shiftSeq m fun v _ => asl v

/-- ASL (R271). -/
def execAsl (m : Mode) (s : State) : Outcome := runInstr (.asl m) (microAsl m) s

/-- LSR (R272). -/
def microLsr (m : Mode) : Micro := shiftSeq m fun v _ => lsr v

/-- LSR (R272). -/
def execLsr (m : Mode) (s : State) : Outcome := runInstr (.lsr m) (microLsr m) s

/-- ROL, with the carry before the instruction (R273). -/
def microRol (m : Mode) : Micro := shiftSeq m fun v p => rol v p.C

/-- ROL, with the carry before the instruction (R273). -/
def execRol (m : Mode) (s : State) : Outcome := runInstr (.rol m) (microRol m) s

/-- ROR, with the carry before the instruction (R274). -/
def microRor (m : Mode) : Micro := shiftSeq m fun v p => ror v p.C

/-- ROR, with the carry before the instruction (R274). -/
def execRor (m : Mode) (s : State) : Outcome := runInstr (.ror m) (microRor m) s

/-- INC (R275). -/
def microInc (m : Mode) : Micro := rmwSeq m modifyInc noFinish

/-- INC (R275). -/
def execInc (m : Mode) (s : State) : Outcome := runInstr (.inc m) (microInc m) s

/-- DEC (R276). -/
def microDec (m : Mode) : Micro := rmwSeq m modifyDec noFinish

/-- DEC (R276). -/
def execDec (m : Mode) (s : State) : Outcome := runInstr (.dec m) (microDec m) s

/-- INX (R277). -/
def microInx : Micro := implSeq fun s => deferX (s.X + 1) (setP (setNZ (s.X + 1) s.P) s)

/-- INX (R277). -/
def execInx (s : State) : Outcome := runInstr .inx microInx s

/-- INY (R278). -/
def microIny : Micro := implSeq fun s => deferY (s.Y + 1) (setP (setNZ (s.Y + 1) s.P) s)

/-- INY (R278). -/
def execIny (s : State) : Outcome := runInstr .iny microIny s

/-- DEX (R279). -/
def microDex : Micro := implSeq fun s => deferX (s.X - 1) (setP (setNZ (s.X - 1) s.P) s)

/-- DEX (R279). -/
def execDex (s : State) : Outcome := runInstr .dex microDex s

/-- DEY (R280). -/
def microDey : Micro := implSeq fun s => deferY (s.Y - 1) (setP (setNZ (s.Y - 1) s.P) s)

/-- DEY (R280). -/
def execDey (s : State) : Outcome := runInstr .dey microDey s

end Sys2Proof.Machine
end

