-- ==== Sys2Proof/Machine/Illegal.lean ====
section
/-! DEFINITION. Undocumented opcodes (47_illegal.md R370 to R395). -/

namespace Sys2Proof.Machine

/-! ### Combined read-modify-write operations (R370) -/

/-- A shift whose only flag is C, as the hook `modify(M)` of SLO, RLA, SRE and RRA (R371 to R374). -/
def modifyCarry (f : Byte → Flags → Byte × Bool) (v : Byte) (p : Flags) : Byte × Flags :=
  ((f v p).1, setC (f v p).2 p)

/-- `modify(M)` of DCP: `M - 1 mod 256`, no flag (R375). -/
def modifyDecOnly (v : Byte) (p : Flags) : Byte × Flags := (v - 1, p)

/-- `modify(M)` of ISC: `M + 1 mod 256`, no flag (R376). -/
def modifyIncOnly (v : Byte) (p : Flags) : Byte × Flags := (v + 1, p)

/-- SLO: ASL, then OR into A (R371). -/
def microSlo (m : Mode) : Micro := rmwSeq m (modifyCarry fun v _ => asl v) fun r s => logicA (s.A ||| r) s

/-- SLO: ASL, then OR into A (R371). -/
def execSlo (m : Mode) (s : State) : Outcome := runInstr (.slo m) (microSlo m) s

/-- RLA: ROL, then AND into A (R372). -/
def microRla (m : Mode) : Micro := rmwSeq m (modifyCarry fun v p => rol v p.C) fun r s => logicA (s.A &&& r) s

/-- RLA: ROL, then AND into A (R372). -/
def execRla (m : Mode) (s : State) : Outcome := runInstr (.rla m) (microRla m) s

/-- SRE: LSR, then EOR into A (R373). -/
def microSre (m : Mode) : Micro := rmwSeq m (modifyCarry fun v _ => lsr v) fun r s => logicA (s.A ^^^ r) s

/-- SRE: LSR, then EOR into A (R373). -/
def execSre (m : Mode) (s : State) : Outcome := runInstr (.sre m) (microSre m) s

/-- RRA: ROR, then ADC with the carry the rotate produced (R374). -/
def microRra (m : Mode) : Micro := rmwSeq m (modifyCarry fun v p => ror v p.C) addToA

/-- RRA: ROR, then ADC with the carry the rotate produced (R374). -/
def execRra (m : Mode) (s : State) : Outcome := runInstr (.rra m) (microRra m) s

/-- DCP: decrement, then compare with A (R375). -/
def microDcp (m : Mode) : Micro := rmwSeq m modifyDecOnly fun r s => compareWith s.A r s

/-- DCP: decrement, then compare with A (R375). -/
def execDcp (m : Mode) (s : State) : Outcome := runInstr (.dcp m) (microDcp m) s

/-- ISC: increment, then SBC (R376). -/
def microIsc (m : Mode) : Micro := rmwSeq m modifyIncOnly subFromA

/-- ISC: increment, then SBC (R376). -/
def execIsc (m : Mode) (s : State) : Outcome := runInstr (.isc m) (microIsc m) s

/-! ### Combined stores and loads -/

/-- SAX: `value() = A & X` (R377). -/
def microSax (m : Mode) : Micro := writeSeq m (storeValue fun s => s.A &&& s.X) id

/-- SAX: `value() = A & X` (R377). -/
def execSax (m : Mode) (s : State) : Outcome := runInstr (.sax m) (microSax m) s

/-- A result into A and X, with N and Z from it (R378, R387). -/
def loadAX (v : Byte) (s : State) : State := deferA v (deferX v (setP (setNZ v s.P) s))

/-- LAX: `A <=d M; X <=d M; setNZ(M)` (R378). -/
def microLax (m : Mode) : Micro := readSeq m loadAX

/-- LAX: `A <=d M; X <=d M; setNZ(M)` (R378). -/
def execLax (m : Mode) (s : State) : Outcome := runInstr (.lax m) (microLax m) s

/-! ### Immediate combined operations -/

/-- ANC's hook: AND, then C from bit 7 of the result (R379). -/
def ancHook (v : Byte) (s : State) : State :=
  let r := s.A &&& v
  deferA r (setP (setC (r.getLsbD 7) (setNZ r s.P)) s)

/-- ALR's hook: AND, then LSR (R380). -/
def alrHook (v : Byte) (s : State) : State :=
  let x := lsr (s.A &&& v)
  deferA x.1 (setP (setNZ x.1 (setC x.2 s.P)) s)

/-- ARR's hook (R381). -/
def arrHook (v : Byte) (s : State) : State :=
  let x := arrResult (decimal s) s.A v s.P
  deferA x.1 (setP x.2 s)

/-- SBX's hook: `X <=d (A & X) - M`, flags as a compare (R382). -/
def sbxHook (v : Byte) (s : State) : State :=
  let t := s.A &&& s.X
  deferX (t - v) (setP (setNZ (t - v) (setC (decide (t.toNat ≥ v.toNat)) s.P)) s)

/-- ANC, opcodes 0x0B and 0x2B (R379). -/
def microAnc : Micro := immSeq ancHook

/-- ANC, opcodes 0x0B and 0x2B (R379). -/
def execAnc (dup : Bool) (s : State) : Outcome := runInstr (.anc dup) microAnc s

/-- ALR (R380). -/
def microAlr : Micro := immSeq alrHook

/-- ALR (R380). -/
def execAlr (s : State) : Outcome := runInstr .alr microAlr s

/-- ARR (R381). -/
def microArr : Micro := immSeq arrHook

/-- ARR (R381). -/
def execArr (s : State) : Outcome := runInstr .arr microArr s

/-- SBX (R382). -/
def microSbx : Micro := immSeq sbxHook

/-- SBX (R382). -/
def execSbx (s : State) : Outcome := runInstr .sbx microSbx s

/-- SBC immediate, opcode 0xEB (R383). -/
def microSbcDup : Micro := immSeq subFromA

/-- SBC immediate, opcode 0xEB (R383). -/
def execSbcDup (s : State) : Outcome := runInstr .sbcDup microSbcDup s

/-! ### LAS -/

/-- LAS's hook: `v = M & S` into A, X and S (R384). -/
def lasHook (v : Byte) (s : State) : State :=
  let r := v &&& s.S
  deferA r (deferX r (deferS r (setP (setNZ r s.P) s)))

/-- LAS (R384). -/
def microLas : Micro := readSeq .absy lasHook

/-- LAS (R384). -/
def execLas (s : State) : Outcome := runInstr .las microLas s

/-! ### Undocumented NOPs -/

/-- The undocumented NOP of a mode: the read-class sequence with `exec` doing nothing (R385). -/
def microNopU (m : Mode) : Micro :=
  match m with
  | .impl => implSeq id
  | .imm | .zp | .zpx | .abs | .absx | .acc | .zpy | .absy | .izx | .izy | .rel | .ind => readSeq m fun _ s => s

/-- The undocumented NOPs (R385). -/
def execNopU (m : Mode) (k : Fin 6) (s : State) : Outcome := runInstr (.nopU m k) (microNopU m) s

/-! ### Unstable opcodes -/

/-- ANE: `(A | aneConst) & X & M` (R386). -/
def microAne : Micro := immSeq fun v s => logicA ((s.A ||| Config.aneConst) &&& s.X &&& v) s

/-- ANE: `(A | aneConst) & X & M` (R386). -/
def execAne (s : State) : Outcome := runInstr .ane microAne s

/-- LXA: `(A | lxaConst) & M` into A and X (R387). -/
def microLxa : Micro := immSeq fun v s => loadAX ((s.A ||| Config.lxaConst) &&& v) s

/-- LXA: `(A | lxaConst) & M` into A and X (R387). -/
def execLxa (s : State) : Outcome := runInstr .lxa microLxa s

/-- SHA: `reg = A & X` (R388, R392). -/
def microSha (m : Mode) : Micro := writeSeq m (storeUnstable (fun s => s.A &&& s.X) fun s => s.Y) id

/-- SHA: `reg = A & X` (R388, R392). -/
def execSha (m : Mode) (s : State) : Outcome := runInstr (.sha m) (microSha m) s

/-- SHX: `reg = X` (R389, R392). -/
def microShx : Micro := writeSeq .absy (storeUnstable (fun s => s.X) fun s => s.Y) id

/-- SHX: `reg = X` (R389, R392). -/
def execShx (s : State) : Outcome := runInstr .shx microShx s

/-- SHY: `reg = Y` (R390, R392). -/
def microShy : Micro := writeSeq .absx (storeUnstable (fun s => s.Y) fun s => s.X) id

/-- SHY: `reg = Y` (R390, R392). -/
def execShy (s : State) : Outcome := runInstr .shy microShy s

/-- TAS: `reg = A & X`, and `S <=d A & X` at the last step (R391, R392). -/
def microTas : Micro := writeSeq .absy (storeUnstable (fun s => s.A &&& s.X) fun s => s.Y) fun s => deferS (s.A &&& s.X) s

/-- TAS: `reg = A & X`, and `S <=d A & X` at the last step (R391, R392). -/
def execTas (s : State) : Outcome := runInstr .tas microTas s

/-! ### JAM -/

/-- JAM (R395): step 1 leaves the step counter where it is, and so repeats until reset. -/
def microJam : Micro
  | 0, s => go (busRead s.PC s)
  | 1, s => some (busRead Config.jamAddr { s with jammed := true }, .hold)
  | _, _ => none

/-- JAM (R395). -/
def execJam (k : Fin 12) (s : State) : Outcome := runInstr (.jam k) microJam s

end Sys2Proof.Machine
end

