-- ==== Sys2Proof/Machine/LoadStore.lean ====
section
/-! DEFINITION. Loads, stores and register transfers (42_load_store.md R200 to R212). -/

namespace Sys2Proof.Machine

/-- The result of a load or transfer into A, with N and Z from it (R200). -/
def loadA (v : Byte) (s : State) : State := deferA v (setP (setNZ v s.P) s)

/-- The result of a load or transfer into X, with N and Z from it (R200). -/
def loadX (v : Byte) (s : State) : State := deferX v (setP (setNZ v s.P) s)

/-- The result of a load or transfer into Y, with N and Z from it (R200). -/
def loadY (v : Byte) (s : State) : State := deferY v (setP (setNZ v s.P) s)

/-! ### Loads -/

/-- LDA: `A <=d M; setNZ(M)` (R201). -/
def microLda (m : Mode) : Micro := readSeq m loadA

/-- LDA: `A <=d M; setNZ(M)` (R201). -/
def execLda (m : Mode) (s : State) : Outcome := runInstr (.lda m) (microLda m) s

/-- LDX: `X <=d M; setNZ(M)` (R202). -/
def microLdx (m : Mode) : Micro := readSeq m loadX

/-- LDX: `X <=d M; setNZ(M)` (R202). -/
def execLdx (m : Mode) (s : State) : Outcome := runInstr (.ldx m) (microLdx m) s

/-- LDY: `Y <=d M; setNZ(M)` (R203). -/
def microLdy (m : Mode) : Micro := readSeq m loadY

/-- LDY: `Y <=d M; setNZ(M)` (R203). -/
def execLdy (m : Mode) (s : State) : Outcome := runInstr (.ldy m) (microLdy m) s

/-! ### Stores -/

/-- STA: `value() = A` (R204). -/
def microSta (m : Mode) : Micro := writeSeq m (storeValue fun s => s.A) id

/-- STA: `value() = A` (R204). -/
def execSta (m : Mode) (s : State) : Outcome := runInstr (.sta m) (microSta m) s

/-- STX: `value() = X` (R205). -/
def microStx (m : Mode) : Micro := writeSeq m (storeValue fun s => s.X) id

/-- STX: `value() = X` (R205). -/
def execStx (m : Mode) (s : State) : Outcome := runInstr (.stx m) (microStx m) s

/-- STY: `value() = Y` (R206). -/
def microSty (m : Mode) : Micro := writeSeq m (storeValue fun s => s.Y) id

/-- STY: `value() = Y` (R206). -/
def execSty (m : Mode) (s : State) : Outcome := runInstr (.sty m) (microSty m) s

/-! ### Transfers -/

/-- TAX: `X <=d A; setNZ(A)` (R207). -/
def microTax : Micro := implSeq fun s => loadX s.A s

/-- TAX: `X <=d A; setNZ(A)` (R207). -/
def execTax (s : State) : Outcome := runInstr .tax microTax s

/-- TAY: `Y <=d A; setNZ(A)` (R208). -/
def microTay : Micro := implSeq fun s => loadY s.A s

/-- TAY: `Y <=d A; setNZ(A)` (R208). -/
def execTay (s : State) : Outcome := runInstr .tay microTay s

/-- TXA: `A <=d X; setNZ(X)` (R209). -/
def microTxa : Micro := implSeq fun s => loadA s.X s

/-- TXA: `A <=d X; setNZ(X)` (R209). -/
def execTxa (s : State) : Outcome := runInstr .txa microTxa s

/-- TYA: `A <=d Y; setNZ(Y)` (R210). -/
def microTya : Micro := implSeq fun s => loadA s.Y s

/-- TYA: `A <=d Y; setNZ(Y)` (R210). -/
def execTya (s : State) : Outcome := runInstr .tya microTya s

/-- TSX: `X <=d S; setNZ(S)`, S the committed S (R211). -/
def microTsx : Micro := implSeq fun s => loadX s.S s

/-- TSX: `X <=d S; setNZ(S)`, S the committed S (R211). -/
def execTsx (s : State) : Outcome := runInstr .tsx microTsx s

/-- TXS: `S <=d X`, no flag (R212). -/
def microTxs : Micro := implSeq fun s => deferS s.X s

/-- TXS: `S <=d X`, no flag (R212). -/
def execTxs (s : State) : Outcome := runInstr .txs microTxs s

end Sys2Proof.Machine
end

