-- ==== Sys2Proof/Machine/StackFlags.lean ====
section
/-! DEFINITION. Stack instructions, flag instructions and NOP (46_stack_flags.md R340 to R351). -/

namespace Sys2Proof.Machine

/-- A push sequence (R340, R341). -/
def pushSeq (value : State → Byte) : Micro
  | 0, s => go (busRead s.PC s)
  | 1, s => go (push (value s) s)
  | 2, s => go (fetchNext s)
  | _, _ => none

/-- A pull sequence (R342, R343). -/
def pullSeq (exec : Byte → State → State) : Micro
  | 0, s => go (busRead s.PC s)
  | 1, s => go (pullInc s)
  | 2, s => go (pullLast s)
  | 3, s => go (readEnd exec s)
  | _, _ => none

/-- PHA, A the committed A (R340). -/
def microPha : Micro := pushSeq fun s => s.A

/-- PHA, A the committed A (R340). -/
def execPha (s : State) : Outcome := runInstr .pha microPha s

/-- PHP: `push(pack(P, 1))` (R341). -/
def microPhp : Micro := pushSeq fun s => pack s.P true

/-- PHP: `push(pack(P, 1))` (R341). -/
def execPhp (s : State) : Outcome := runInstr .php microPhp s

/-- PLA (R342). -/
def microPla : Micro := pullSeq fun v s => deferA v (setP (setNZ v s.P) s)

/-- PLA (R342). -/
def execPla (s : State) : Outcome := runInstr .pla microPla s

/-- PLP (R343). -/
def microPlp : Micro := pullSeq fun v s => setP (unpack v) s

/-- PLP (R343). -/
def execPlp (s : State) : Outcome := runInstr .plp microPlp s

/-- CLC: `P.C <- 0` (R344). -/
def microClc : Micro := implSeq fun s => setP { s.P with C := false } s

/-- CLC: `P.C <- 0` (R344). -/
def execClc (s : State) : Outcome := runInstr .clc microClc s

/-- SEC: `P.C <- 1` (R345). -/
def microSec : Micro := implSeq fun s => setP { s.P with C := true } s

/-- SEC: `P.C <- 1` (R345). -/
def execSec (s : State) : Outcome := runInstr .sec microSec s

/-- CLI: `P.I <- 0` (R346). -/
def microCli : Micro := implSeq fun s => setP { s.P with I := false } s

/-- CLI: `P.I <- 0` (R346). -/
def execCli (s : State) : Outcome := runInstr .cli microCli s

/-- SEI: `P.I <- 1` (R347). -/
def microSei : Micro := implSeq fun s => setP { s.P with I := true } s

/-- SEI: `P.I <- 1` (R347). -/
def execSei (s : State) : Outcome := runInstr .sei microSei s

/-- CLD: `P.D <- 0` (R348). -/
def microCld : Micro := implSeq fun s => setP { s.P with D := false } s

/-- CLD: `P.D <- 0` (R348). -/
def execCld (s : State) : Outcome := runInstr .cld microCld s

/-- SED: `P.D <- 1` (R349). -/
def microSed : Micro := implSeq fun s => setP { s.P with D := true } s

/-- SED: `P.D <- 1` (R349). -/
def execSed (s : State) : Outcome := runInstr .sed microSed s

/-- CLV: `P.V <- 0` (R350). -/
def microClv : Micro := implSeq fun s => setP { s.P with V := false } s

/-- CLV: `P.V <- 0` (R350). -/
def execClv (s : State) : Outcome := runInstr .clv microClv s

/-- NOP: `exec()` does nothing (R351). -/
def microNop : Micro := implSeq id

/-- NOP: `exec()` does nothing (R351). -/
def execNop (s : State) : Outcome := runInstr .nop microNop s

end Sys2Proof.Machine
end

