-- ==== Sys2Proof/Machine/Dispatch.lean ====
section
/-! DEFINITION. The meaning of every instruction: one arm per constructor of `Instr`, each one call. A 6502 instruction runs
its microcode from its opcode fetch to the next one (log entry 6); an 8080 instruction acts on the state whose PC already
points past it (49_i8080_control.md). -/

namespace Sys2Proof.Machine

def exec (i : Instr) (s : State) : Host.Outcome State Fault Refusal :=
  match i with
  | .lda m => Sys2Proof.Machine.execLda m s
  | .ldx m => Sys2Proof.Machine.execLdx m s
  | .ldy m => Sys2Proof.Machine.execLdy m s
  | .sta m => Sys2Proof.Machine.execSta m s
  | .stx m => Sys2Proof.Machine.execStx m s
  | .sty m => Sys2Proof.Machine.execSty m s
  | .tax => Sys2Proof.Machine.execTax s
  | .tay => Sys2Proof.Machine.execTay s
  | .txa => Sys2Proof.Machine.execTxa s
  | .tya => Sys2Proof.Machine.execTya s
  | .tsx => Sys2Proof.Machine.execTsx s
  | .txs => Sys2Proof.Machine.execTxs s
  | .adc m => Sys2Proof.Machine.execAdc m s
  | .sbc m => Sys2Proof.Machine.execSbc m s
  | .and m => Sys2Proof.Machine.execAnd m s
  | .ora m => Sys2Proof.Machine.execOra m s
  | .eor m => Sys2Proof.Machine.execEor m s
  | .cmp m => Sys2Proof.Machine.execCmp m s
  | .cpx m => Sys2Proof.Machine.execCpx m s
  | .cpy m => Sys2Proof.Machine.execCpy m s
  | .bit m => Sys2Proof.Machine.execBit m s
  | .asl m => Sys2Proof.Machine.execAsl m s
  | .lsr m => Sys2Proof.Machine.execLsr m s
  | .rol m => Sys2Proof.Machine.execRol m s
  | .ror m => Sys2Proof.Machine.execRor m s
  | .inc m => Sys2Proof.Machine.execInc m s
  | .dec m => Sys2Proof.Machine.execDec m s
  | .inx => Sys2Proof.Machine.execInx s
  | .iny => Sys2Proof.Machine.execIny s
  | .dex => Sys2Proof.Machine.execDex s
  | .dey => Sys2Proof.Machine.execDey s
  | .bpl => Sys2Proof.Machine.execBpl s
  | .bmi => Sys2Proof.Machine.execBmi s
  | .bvc => Sys2Proof.Machine.execBvc s
  | .bvs => Sys2Proof.Machine.execBvs s
  | .bcc => Sys2Proof.Machine.execBcc s
  | .bcs => Sys2Proof.Machine.execBcs s
  | .bne => Sys2Proof.Machine.execBne s
  | .beq => Sys2Proof.Machine.execBeq s
  | .jmp m => Sys2Proof.Machine.execJmp m s
  | .jsr => Sys2Proof.Machine.execJsr s
  | .rts => Sys2Proof.Machine.execRts s
  | .rti => Sys2Proof.Machine.execRti s
  | .brk => Sys2Proof.Machine.execBrk s
  | .pha => Sys2Proof.Machine.execPha s
  | .php => Sys2Proof.Machine.execPhp s
  | .pla => Sys2Proof.Machine.execPla s
  | .plp => Sys2Proof.Machine.execPlp s
  | .clc => Sys2Proof.Machine.execClc s
  | .sec => Sys2Proof.Machine.execSec s
  | .cli => Sys2Proof.Machine.execCli s
  | .sei => Sys2Proof.Machine.execSei s
  | .cld => Sys2Proof.Machine.execCld s
  | .sed => Sys2Proof.Machine.execSed s
  | .clv => Sys2Proof.Machine.execClv s
  | .nop => Sys2Proof.Machine.execNop s
  | .slo m => Sys2Proof.Machine.execSlo m s
  | .rla m => Sys2Proof.Machine.execRla m s
  | .sre m => Sys2Proof.Machine.execSre m s
  | .rra m => Sys2Proof.Machine.execRra m s
  | .dcp m => Sys2Proof.Machine.execDcp m s
  | .isc m => Sys2Proof.Machine.execIsc m s
  | .sax m => Sys2Proof.Machine.execSax m s
  | .lax m => Sys2Proof.Machine.execLax m s
  | .anc dup => Sys2Proof.Machine.execAnc dup s
  | .alr => Sys2Proof.Machine.execAlr s
  | .arr => Sys2Proof.Machine.execArr s
  | .sbx => Sys2Proof.Machine.execSbx s
  | .sbcDup => Sys2Proof.Machine.execSbcDup s
  | .las => Sys2Proof.Machine.execLas s
  | .nopU m k => Sys2Proof.Machine.execNopU m k s
  | .ane => Sys2Proof.Machine.execAne s
  | .lxa => Sys2Proof.Machine.execLxa s
  | .sha m => Sys2Proof.Machine.execSha m s
  | .shx => Sys2Proof.Machine.execShx s
  | .shy => Sys2Proof.Machine.execShy s
  | .tas => Sys2Proof.Machine.execTas s
  | .jam k => Sys2Proof.Machine.execJam k s
  | .i80Mov dst src => Sys2Proof.Machine.execI80Mov dst src s
  | .i80Mvi dst v => Sys2Proof.Machine.execI80Mvi dst v s
  | .i80Lxi rp v => Sys2Proof.Machine.execI80Lxi rp v s
  | .i80Lda a => Sys2Proof.Machine.execI80Lda a s
  | .i80Sta a => Sys2Proof.Machine.execI80Sta a s
  | .i80Lhld a => Sys2Proof.Machine.execI80Lhld a s
  | .i80Shld a => Sys2Proof.Machine.execI80Shld a s
  | .i80Ldax p => Sys2Proof.Machine.execI80Ldax p s
  | .i80Stax p => Sys2Proof.Machine.execI80Stax p s
  | .i80Xchg => Sys2Proof.Machine.execI80Xchg s
  | .i80Add src => Sys2Proof.Machine.execI80Add src s
  | .i80Adc src => Sys2Proof.Machine.execI80Adc src s
  | .i80Adi v => Sys2Proof.Machine.execI80Adi v s
  | .i80Aci v => Sys2Proof.Machine.execI80Aci v s
  | .i80Sub src => Sys2Proof.Machine.execI80Sub src s
  | .i80Sbb src => Sys2Proof.Machine.execI80Sbb src s
  | .i80Sui v => Sys2Proof.Machine.execI80Sui v s
  | .i80Sbi v => Sys2Proof.Machine.execI80Sbi v s
  | .i80Inr dst => Sys2Proof.Machine.execI80Inr dst s
  | .i80Dcr dst => Sys2Proof.Machine.execI80Dcr dst s
  | .i80Inx rp => Sys2Proof.Machine.execI80Inx rp s
  | .i80Dcx rp => Sys2Proof.Machine.execI80Dcx rp s
  | .i80Dad rp => Sys2Proof.Machine.execI80Dad rp s
  | .i80Daa => Sys2Proof.Machine.execI80Daa s
  | .i80Ana src => Sys2Proof.Machine.execI80Ana src s
  | .i80Ani v => Sys2Proof.Machine.execI80Ani v s
  | .i80Xra src => Sys2Proof.Machine.execI80Xra src s
  | .i80Xri v => Sys2Proof.Machine.execI80Xri v s
  | .i80Ora src => Sys2Proof.Machine.execI80Ora src s
  | .i80Ori v => Sys2Proof.Machine.execI80Ori v s
  | .i80Cmp src => Sys2Proof.Machine.execI80Cmp src s
  | .i80Cpi v => Sys2Proof.Machine.execI80Cpi v s
  | .i80Rlc => Sys2Proof.Machine.execI80Rlc s
  | .i80Rrc => Sys2Proof.Machine.execI80Rrc s
  | .i80Ral => Sys2Proof.Machine.execI80Ral s
  | .i80Rar => Sys2Proof.Machine.execI80Rar s
  | .i80Cma => Sys2Proof.Machine.execI80Cma s
  | .i80Cmc => Sys2Proof.Machine.execI80Cmc s
  | .i80Stc => Sys2Proof.Machine.execI80Stc s
  | .i80Jmp dup a => Sys2Proof.Machine.execI80Jmp dup a s
  | .i80Jnz a => Sys2Proof.Machine.execI80Jnz a s
  | .i80Jz a => Sys2Proof.Machine.execI80Jz a s
  | .i80Jnc a => Sys2Proof.Machine.execI80Jnc a s
  | .i80Jc a => Sys2Proof.Machine.execI80Jc a s
  | .i80Jpo a => Sys2Proof.Machine.execI80Jpo a s
  | .i80Jpe a => Sys2Proof.Machine.execI80Jpe a s
  | .i80Jp a => Sys2Proof.Machine.execI80Jp a s
  | .i80Jm a => Sys2Proof.Machine.execI80Jm a s
  | .i80Call k a => Sys2Proof.Machine.execI80Call k a s
  | .i80Cnz a => Sys2Proof.Machine.execI80Cnz a s
  | .i80Cz a => Sys2Proof.Machine.execI80Cz a s
  | .i80Cnc a => Sys2Proof.Machine.execI80Cnc a s
  | .i80Cc a => Sys2Proof.Machine.execI80Cc a s
  | .i80Cpo a => Sys2Proof.Machine.execI80Cpo a s
  | .i80Cpe a => Sys2Proof.Machine.execI80Cpe a s
  | .i80Cp a => Sys2Proof.Machine.execI80Cp a s
  | .i80Cm a => Sys2Proof.Machine.execI80Cm a s
  | .i80Ret dup => Sys2Proof.Machine.execI80Ret dup s
  | .i80Rnz => Sys2Proof.Machine.execI80Rnz s
  | .i80Rz => Sys2Proof.Machine.execI80Rz s
  | .i80Rnc => Sys2Proof.Machine.execI80Rnc s
  | .i80Rc => Sys2Proof.Machine.execI80Rc s
  | .i80Rpo => Sys2Proof.Machine.execI80Rpo s
  | .i80Rpe => Sys2Proof.Machine.execI80Rpe s
  | .i80Rp => Sys2Proof.Machine.execI80Rp s
  | .i80Rm => Sys2Proof.Machine.execI80Rm s
  | .i80Rst n => Sys2Proof.Machine.execI80Rst n s
  | .i80Pchl => Sys2Proof.Machine.execI80Pchl s
  | .i80Push p => Sys2Proof.Machine.execI80Push p s
  | .i80Pop p => Sys2Proof.Machine.execI80Pop p s
  | .i80Xthl => Sys2Proof.Machine.execI80Xthl s
  | .i80Sphl => Sys2Proof.Machine.execI80Sphl s
  | .i80In p => Sys2Proof.Machine.execI80In p s
  | .i80Out p => Sys2Proof.Machine.execI80Out p s
  | .i80Ei => Sys2Proof.Machine.execI80Ei s
  | .i80Di => Sys2Proof.Machine.execI80Di s
  | .i80Hlt => Sys2Proof.Machine.execI80Hlt s
  | .i80Nop k => Sys2Proof.Machine.execI80Nop k s

end Sys2Proof.Machine
end

