-- ==== Sys2Proof/Machine/Fetch.lean ====
section
/-! DEFINITION. Fetching the next instruction and running it: the 6502-family engine's opcode fetch (40_engine.md R117,
41_addressing.md R160) and the 8080's step function (48_i8080.md R437) with its interrupt acceptance
(49_i8080_control.md R518). `step` calls these by processor. -/

namespace Sys2Proof.Machine

/-! ### The 6502-family engine -/

/-- The instruction the engine goes on with: at an opcode fetch the one whose opcode is on the data pins (R117), in the
middle of an instruction the one in IR. Under a hijack the opcode on the pins is discarded by the engine itself
(60_exceptions.md R528). -/
def current6502 (s : State) : Instr :=
  if s.pins.sync then decode6502 s.pins.data else decode6502 s.IR

/-- One step of a 6502-family instance (log entry 6). -/
def step6502 (s : State) : Outcome := exec (current6502 s) s

/-! ### The 8080-family core -/

/-- What the host sets before a `step8080` (R518, R519); with nothing queued the request keeps its level (log entries 7 and
19). -/
def hostActs (s : State) : State :=
  match s.hostQ with
  | [] => s
  | h :: rest =>
    let t := if h.resetCall then reset8080 s else s
    { t with
      hostQ := rest
      i80 := { t.i80 with
        intrRequested := h.intrRequested, intrOpcode := h.intrOpcode, intrLo := h.intrLo, intrHi := h.intrHi } }

/-- An interrupt is accepted: `intr_requested and INTE and not eiPending` (R437). -/
def intrAccepted (s : State) : Bool := s.i80.intrRequested && s.i80.INTE && !s.i80.eiPending

/-- The instruction the interrupting device supplies, with its operand bytes (R518). -/
def suppliedInstr (s : State) : Instr := decode8080 s.i80.intrOpcode s.i80.intrLo s.i80.intrHi

/-- `INTE <- 0; halted <- 0` (R518). -/
def acknowledged (s : State) : State := withI80 s { s.i80 with INTE := false, halted := false }

/-- `acceptInterrupt` (R518): the supplied instruction runs without advancing PC (log entry 18). -/
def acceptInterrupt (s : State) : Outcome := exec (suppliedInstr s) (acknowledged s)

/-- The instruction at PC (R431, R437). -/
def current8080 (s : State) : Instr :=
  decode8080 (memRead s s.i80.PC) (memRead s (s.i80.PC + 1)) (memRead s (s.i80.PC + 2))

/-- The state in which the instruction at PC runs: `eiPending <- 0` and PC past the instruction (R437, R436). -/
def fetched8080 (s : State) : State :=
  withI80 s { s.i80 with
    eiPending := false, PC := s.i80.PC + BitVec.ofNat 16 (length8080 (memRead s s.i80.PC)) }

/-- `step8080` (R437). -/
def step8080 (s : State) : Outcome :=
  let t := hostActs s
  if intrAccepted t then acceptInterrupt t
  else if t.i80.halted then .next t
  else exec (current8080 t) (fetched8080 t)

/-! ### Placing an instruction -/

/-- Bytes put at an address and those after it, modulo 2^16. -/
def placeBytes (m : Memory) (a : Addr) : List Byte → Memory
  | [] => m
  | v :: rest => placeBytes (m.write a v) (a + 1) rest

/-- The state with bytes placed where the engine fetches its next instruction, at PC: the cycle in flight is their opcode
fetch, already answered (20_memory.md R55). -/
def place6502 (bytes : List Byte) (s : State) : State :=
  { s with
    mem := placeBytes s.mem s.PC bytes
    pins := { s.pins with addr := s.PC, data := bytes.headD 0, rw := true, sync := true, resN := true, rdy := false }
    phase := true, intent := .none, resHeld := false, jammed := false, callerQ := [] }

/-- The state with bytes placed where `step8080` fetches its next instruction, at PC, with no interrupt requested. -/
def place8080 (bytes : List Byte) (s : State) : State :=
  { s with
    mem := placeBytes s.mem s.i80.PC bytes
    i80 := { s.i80 with halted := false, intrRequested := false }
    hostQ := [] }

/-- The state with a table word placed where its processor fetches its next instruction. -/
def placeTableWord (s : State) (nbits w : Nat) : State :=
  match s.proc with
  | .mos6502 | .mos6502NoDecimal => place6502 (tableBytes nbits w) s
  | .i8080 => place8080 (tableBytes nbits w) s

end Sys2Proof.Machine
end

