-- ==== Sys2Proof/Machine/Step.lean ====
section
/-! DEFINITION. One step of the machine, and a word placed for it. -/

namespace Sys2Proof.Machine

/-- One step: an instruction, or what the engine does of one before a stall, reset or jam ends the run (log entry 6), on
the 6502-family engine; one `step8080` (48_i8080.md R437) on the 8080-family core. -/
def step (s : State) : Host.Outcome State Fault Refusal :=
  match s.proc with
  | .mos6502 | .mos6502NoDecimal => step6502 s
  | .i8080 => step8080 s

/-- The state with the table word `w` of `nbits` bits as the next instruction (log entry 24). -/
def State.withFetchWord (s : State) (nbits w : Nat) : State := placeTableWord s nbits w

end Sys2Proof.Machine
end

