-- ==== Sys2Proof/Machine/Dispatcher.lean ====
section
/-! DEFINITION. The Microcode Dispatcher's whole table (40_engine.md R120, R125): the microcode of each of the 256 opcodes,
by the map of 30_encoding.md R92. `exec` runs each instruction on its own column; this is the table that joins the
columns, over which the engine's whole-machine statements are made. -/

namespace Sys2Proof.Machine

/-- The microcode of a 6502 instruction; an 8080 instruction has none. -/
def microOf (i : Instr) : Micro :=
  match i with
  | .lda m => microLda m
  | .ldx m => microLdx m
  | .ldy m => microLdy m
  | .sta m => microSta m
  | .stx m => microStx m
  | .sty m => microSty m
  | .tax => microTax
  | .tay => microTay
  | .txa => microTxa
  | .tya => microTya
  | .tsx => microTsx
  | .txs => microTxs
  | .adc m => microAdc m
  | .sbc m => microSbc m
  | .and m => microAnd m
  | .ora m => microOra m
  | .eor m => microEor m
  | .cmp m => microCmp m
  | .cpx m => microCpx m
  | .cpy m => microCpy m
  | .bit m => microBit m
  | .asl m => microAsl m
  | .lsr m => microLsr m
  | .rol m => microRol m
  | .ror m => microRor m
  | .inc m => microInc m
  | .dec m => microDec m
  | .inx => microInx
  | .iny => microIny
  | .dex => microDex
  | .dey => microDey
  | .bpl => microBpl
  | .bmi => microBmi
  | .bvc => microBvc
  | .bvs => microBvs
  | .bcc => microBcc
  | .bcs => microBcs
  | .bne => microBne
  | .beq => microBeq
  | .jmp m => microJmp m
  | .jsr => microJsr
  | .rts => microRts
  | .rti => microRti
  | .brk => microBrk
  | .pha => microPha
  | .php => microPhp
  | .pla => microPla
  | .plp => microPlp
  | .clc => microClc
  | .sec => microSec
  | .cli => microCli
  | .sei => microSei
  | .cld => microCld
  | .sed => microSed
  | .clv => microClv
  | .nop => microNop
  | .slo m => microSlo m
  | .rla m => microRla m
  | .sre m => microSre m
  | .rra m => microRra m
  | .dcp m => microDcp m
  | .isc m => microIsc m
  | .sax m => microSax m
  | .lax m => microLax m
  | .anc _ => microAnc
  | .alr => microAlr
  | .arr => microArr
  | .sbx => microSbx
  | .sbcDup => microSbcDup
  | .las => microLas
  | .nopU m _ => microNopU m
  | .ane => microAne
  | .lxa => microLxa
  | .sha m => microSha m
  | .shx => microShx
  | .shy => microShy
  | .tas => microTas
  | .jam _ => microJam
  | .i80Mov _ _ | .i80Mvi _ _ | .i80Lxi _ _ | .i80Lda _ | .i80Sta _ | .i80Lhld _ | .i80Shld _ | .i80Ldax _
  | .i80Stax _ | .i80Xchg | .i80Add _ | .i80Adc _ | .i80Adi _ | .i80Aci _ | .i80Sub _ | .i80Sbb _ | .i80Sui _
  | .i80Sbi _ | .i80Inr _ | .i80Dcr _ | .i80Inx _ | .i80Dcx _ | .i80Dad _ | .i80Daa | .i80Ana _ | .i80Ani _
  | .i80Xra _ | .i80Xri _ | .i80Ora _ | .i80Ori _ | .i80Cmp _ | .i80Cpi _ | .i80Rlc | .i80Rrc | .i80Ral | .i80Rar
  | .i80Cma | .i80Cmc | .i80Stc | .i80Jmp _ _ | .i80Jnz _ | .i80Jz _ | .i80Jnc _ | .i80Jc _ | .i80Jpo _
  | .i80Jpe _ | .i80Jp _ | .i80Jm _ | .i80Call _ _ | .i80Cnz _ | .i80Cz _ | .i80Cnc _ | .i80Cc _ | .i80Cpo _
  | .i80Cpe _ | .i80Cp _ | .i80Cm _ | .i80Ret _ | .i80Rnz | .i80Rz | .i80Rnc | .i80Rc | .i80Rpo | .i80Rpe | .i80Rp
  | .i80Rm | .i80Rst _ | .i80Pchl | .i80Push _ | .i80Pop _ | .i80Xthl | .i80Sphl | .i80In _ | .i80Out _ | .i80Ei
  | .i80Di | .i80Hlt | .i80Nop _ => fun _ _ => none

/-- The dispatcher: total over the 256 opcodes (R125). -/
def dispatcher : Dispatcher := fun ir => microOf (decode6502 ir)

end Sys2Proof.Machine
end

