-- ==== Sys2Proof/Safety.lean ====
section
/-! DEFINITION. What the claims speak of: the state at an instruction boundary, the architectural view of it, what an
instruction leaves alone, the operand addresses and bus cycles of the addressing modes as closed formulas (30_encoding.md
R81; 41_addressing.md R161 to R171), and the invariant every step keeps. -/

namespace Sys2Proof.Machine

/-! ### The 6502-family engine at an instruction boundary -/

/-- A bus cycle can run from here without the caller acting: the phase is high (the precondition of 20_memory.md R55), reset
is not asserted and not held, the ready line is not asserted, and the caller has nothing queued. -/
structure Quiet (s : State) : Prop where
  phase : s.phase = true
  resN : s.pins.resN = true
  resHeld : s.resHeld = false
  rdy : s.pins.rdy = false
  callerQ : s.callerQ = []

/-- An instruction boundary at which the next instruction runs and no hijack is pending: the cycle in flight is an opcode
fetch (40_engine.md R117), the engine is not jammed, and intent is None. -/
structure Ready (s : State) : Prop extends Quiet s where
  sync : s.pins.sync = true
  rw : s.pins.rw = true
  jammed : s.jammed = false
  intent : s.intent = .none

/-- An instruction boundary at which a hijack is taken: intent is IRQ, NMI or Reset (60_exceptions.md R528). -/
structure Hijacked (s : State) (i : Intent) : Prop extends Quiet s where
  sync : s.pins.sync = true
  rw : s.pins.rw = true
  jammed : s.jammed = false
  intent : s.intent = i
  taken : i ≠ .none

/-- The programmer-visible registers (10_state.md R23) at an instruction boundary (R39). -/
structure Arch where
  A : Byte
  X : Byte
  Y : Byte
  S : Byte
  PC : Addr
  P : Flags
deriving DecidableEq, Repr

/-- The registers of a state at an instruction boundary. -/
def arch (s : State) : Arch := { A := regA s, X := regX s, Y := regY s, S := regS s, PC := s.PC, P := s.P }

/-- What no instruction of the 6502 changes: which processor it is, the input lines, what the caller and the host queue, the
whole 8080 core and its ports, the stack-pointer shadow, and that the engine is neither held in reset nor jammed. -/
structure Untouched (s t : State) : Prop where
  proc : t.proc = s.proc
  resN : t.pins.resN = s.pins.resN
  irqN : t.pins.irqN = s.pins.irqN
  nmiN : t.pins.nmiN = s.pins.nmiN
  rdy : t.pins.rdy = s.pins.rdy
  SS : t.SS = s.SS
  resHeld : t.resHeld = s.resHeld
  jammed : t.jammed = s.jammed
  callerQ : t.callerQ = s.callerQ
  i80 : t.i80 = s.i80
  hostQ : t.hostQ = s.hostQ
  io : t.io = s.io

/-- The cycle in flight is the opcode fetch at PC, answered by memory (41_addressing.md R160; 20_memory.md R55), and the
phase is high. -/
structure AtFetch (t : State) : Prop where
  addr : t.pins.addr = t.PC
  data : t.pins.data = t.mem.read t.PC
  rw : t.pins.rw = true
  sync : t.pins.sync = true
  phase : t.phase = true
  dout : t.dout = none

/-- A read cycle answered by memory. -/
def rd (m : Memory) (a : Addr) : BusCycle := ⟨a, true, false, m.read a⟩

/-- A write cycle. -/
def wr (a : Addr) (v : Byte) : BusCycle := ⟨a, false, false, v⟩

/-- The opcode fetch that ends an instruction (41_addressing.md R160). -/
def fetchCycle (m : Memory) (pc : Addr) : BusCycle := ⟨pc, true, true, m.read pc⟩

/-- An instruction or a hijack that started at `s` has ended at `t`: the registers are `a`, memory is `m`, the bus cycles were
`bus` and then the opcode fetch of the next instruction, and the reset counter is `rc`; nothing else but the engine's own
latches has changed. -/
structure RetiresWith (rc : Nat) (s t : State) (a : Arch) (m : Memory) (bus : List BusCycle) : Prop where
  arch : arch t = a
  mem : t.mem = m
  trace : t.trace = bus ++ [fetchCycle m a.PC]
  fetch : AtFetch t
  rest : Untouched s t
  rstCnt : t.rstCnt = rc

/-- An instruction that started at `s` has ended at `t`, the reset counter unchanged. -/
abbrev Retires (s t : State) (a : Arch) (m : Memory) (bus : List BusCycle) : Prop := RetiresWith s.rstCnt s t a m bus

/-- `exec` of an instruction at `s` answers a next state, at which the instruction has ended with these registers, memory and
bus cycles. -/
def Completes (i : Instr) (s : State) (a : Arch) (m : Memory) (bus : List BusCycle) : Prop :=
  ∃ t, exec i s = .next t ∧ Retires s t a m bus

/-- Memory after writes in order. -/
def writeAll (m : Memory) (ws : List (Addr × Byte)) : Memory := ws.foldl (fun x w => x.write w.1 w.2) m

/-- `Completes` for an instruction that stores: memory is as the writes leave it, and every byte they do not address reads as
before. -/
def CompletesStoring (i : Instr) (s : State) (a : Arch) (ws : List (Addr × Byte)) (bus : List BusCycle) : Prop :=
  ∃ t, exec i s = .next t ∧ Retires s t a (writeAll s.mem ws) bus ∧
    ∀ b, b ∉ ws.map Prod.fst → t.mem.read b = s.mem.read b

/-! ### Results and flags of the 6502, as arithmetic -/

/-- N and Z from a value (42_load_store.md R200). -/
def nz (v : Byte) (p : Flags) : Flags := { p with N := v.getLsbD 7, Z := decide (v = 0x00) }

/-- A carry as a byte, 0 or 1. -/
def carryByte (c : Bool) : Byte := if c then 1 else 0

/-- An integer outside the signed bytes -128 to 127. -/
def overflows (x : Int) : Bool := decide (x < -128 ∨ 127 < x)

/-- The result of a binary addition with carry (43_alu.md R230). -/
def addByte (a m : Byte) (c : Bool) : Byte := a + m + carryByte c

/-- The flags of a binary addition with carry (43_alu.md R230): C its carry out, V its signed overflow. -/
def addFlags (a m : Byte) (c : Bool) (p : Flags) : Flags :=
  { nz (addByte a m c) p with
    C := decide (256 ≤ a.toNat + m.toNat + bitNat c), V := overflows (a.toInt + m.toInt + bitNat c) }

/-- The result of a binary subtraction, the carry an inverted borrow (43_alu.md R232). -/
def subByte (a m : Byte) (c : Bool) : Byte := a - m - carryByte (!c)

/-- The flags of a binary subtraction (43_alu.md R232): C that no borrow comes out, V its signed overflow. -/
def subFlags (a m : Byte) (c : Bool) (p : Flags) : Flags :=
  { nz (subByte a m c) p with
    C := decide (m.toNat + bitNat (!c) ≤ a.toNat), V := overflows (a.toInt - m.toInt - bitNat (!c)) }

/-- The flags of a compare (43_alu.md R234). -/
def cmpFlags (r m : Byte) (p : Flags) : Flags := { nz (r - m) p with C := decide (m.toNat ≤ r.toNat) }

/-- The arithmetic is decimal (43_alu.md R236): the D flag is set and the instance is not the console-integrated variant. -/
def isDecimal (s : State) : Prop := s.proc ≠ .mos6502NoDecimal ∧ s.P.D = true

/-- Both digits of a byte are decimal digits. -/
def IsBcd (b : Byte) : Prop := b.toNat % 16 ≤ 9 ∧ b.toNat / 16 ≤ 9

/-- The number two decimal digits stand for. -/
def bcdValue (b : Byte) : Nat := 10 * (b.toNat / 16) + b.toNat % 16

/-! ### Operands of the 6502 (30_encoding.md R81) -/

/-- The first operand byte of the instruction at the boundary. -/
def op1 (s : State) : Byte := s.mem.read (s.PC + 1)

/-- The second operand byte. -/
def op2 (s : State) : Byte := s.mem.read (s.PC + 2)

/-- The 16-bit operand, low byte first (20_memory.md R57). -/
def op16 (s : State) : Addr := cat (op2 s) (op1 s)

/-- The 16-bit pointer at a zero-page address, its second byte within page 0x00 (20_memory.md R61). -/
def zpPointer (m : Memory) (b : Byte) : Addr := cat (m.read (zp (b + 1))) (m.read (zp b))

/-- The unindexed address of the modes that index a 16-bit address (`base` of R166, R167, R170, R171). -/
def baseAddr (m : Mode) (s : State) : Addr :=
  match m with
  | .izy => zpPointer s.mem (op1 s)
  | .abs | .absx | .absy | .impl | .acc | .imm | .zp | .zpx | .zpy | .izx | .rel | .ind => op16 s

/-- The index register of a mode at an instruction boundary. -/
def indexAt (m : Mode) (s : State) : Byte :=
  match m with
  | .zpx | .absx | .izx => regX s
  | .zpy | .absy | .izy => regY s
  | .impl | .acc | .imm | .zp | .abs | .rel | .ind => 0

/-- The address of the operand in memory (R81). -/
def effAddr (m : Mode) (s : State) : Addr :=
  match m with
  | .zp => zp (op1 s)
  | .zpx => indexZp (op1 s) (regX s)
  | .zpy => indexZp (op1 s) (regY s)
  | .abs => op16 s
  | .absx => indexAbs (op16 s) (regX s)
  | .absy => indexAbs (op16 s) (regY s)
  | .izx => zpPointer s.mem (op1 s + regX s)
  | .izy => indexAbs (zpPointer s.mem (op1 s)) (regY s)
  | .imm | .impl | .acc | .rel | .ind => s.PC + 1

/-- The operand M of the read class: the immediate byte, or the byte at the operand's address. -/
def operandOf (m : Mode) (s : State) : Byte := s.mem.read (effAddr m s)

/-- PC after the instruction: past its operand bytes (10_state.md R27). -/
def pcAfter (m : Mode) (s : State) : Addr := s.PC + 1 + BitVec.ofNat 16 m.operandBytes

/-- The cycles that find the operand's address, before its access (R163 to R171). -/
def addressBus (m : Mode) (s : State) : List BusCycle :=
  let r := rd s.mem
  match m with
  | .imm | .impl | .acc | .rel | .ind => []
  | .zp => [r (s.PC + 1)]
  | .zpx | .zpy => [r (s.PC + 1), r (zp (op1 s))]
  | .abs => [r (s.PC + 1), r (s.PC + 2)]
  | .absx | .absy => [r (s.PC + 1), r (s.PC + 2), r (unfixed (op16 s) (indexAt m s))]
  | .izx => [r (s.PC + 1), r (zp (op1 s)), r (zp (op1 s + regX s)), r (zp (op1 s + regX s + 1))]
  | .izy => [r (s.PC + 1), r (zp (op1 s)), r (zp (op1 s + 1)), r (unfixed (baseAddr m s) (indexAt m s))]

/-- Whether an indexed read spends the extra cycle (R166, R170, R173). -/
def crosses (m : Mode) (s : State) : Bool :=
  match m with
  | .absx | .absy | .izy => pageCrossed (baseAddr m s) (indexAt m s)
  | .imm | .impl | .acc | .rel | .ind | .zp | .zpx | .zpy | .abs | .izx => false

/-- The cycles of the read class before the last step. An indexed read whose page is not crossed has its operand in the cycle
that otherwise is the dummy read. -/
def readBus (m : Mode) (s : State) : List BusCycle :=
  match m with
  | .absx | .absy | .izy =>
    if crosses m s then addressBus m s ++ [rd s.mem (effAddr m s)] else addressBus m s
  | .imm | .impl | .acc | .rel | .ind | .zp | .zpx | .zpy | .abs | .izx => addressBus m s ++ [rd s.mem (effAddr m s)]

/-- The cycles of the write class before the last step, for a write of `v` at `a`. -/
def writeBus (m : Mode) (s : State) (a : Addr) (v : Byte) : List BusCycle := addressBus m s ++ [wr a v]

/-- The cycles of the read-modify-write class before the last step: the operand, written back, then the result (R168). -/
def rmwBus (m : Mode) (s : State) (r : Byte) : List BusCycle :=
  addressBus m s ++ [rd s.mem (effAddr m s), wr (effAddr m s) (operandOf m s), wr (effAddr m s) r]

/-- The cycles of a branch before its last step (45_control.md R300): the offset; when taken, the next opcode; and on a page
crossing, the wrong page. -/
def branchBus (taken : Bool) (s : State) : List BusCycle :=
  if taken then
    if hi (branchTarget (s.PC + 2) (op1 s)) = hi (s.PC + 2) then [rd s.mem (s.PC + 1), rd s.mem (s.PC + 2)]
    else [rd s.mem (s.PC + 1), rd s.mem (s.PC + 2),
      rd s.mem (cat (hi (s.PC + 2)) (lo (branchTarget (s.PC + 2) (op1 s))))]
  else [rd s.mem (s.PC + 1)]

/-- Memory after JSR's two pushes (45_control.md R305). -/
def jsrMem (s : State) : Memory :=
  (s.mem.write (stk (regS s)) (hi (s.PC + 2))).write (stk (regS s - 1)) (lo (s.PC + 2))

/-- The address on the stack: the low byte at S + 1, the high byte at S + 2, within the stack page (45_control.md R306). -/
def stackedPC (s : State) : Addr := cat (s.mem.read (stk (regS s + 2))) (s.mem.read (stk (regS s + 1)))

/-- The modes and opcodes that a rule lists for a 6502 mnemonic: each opcode decodes to the form it is listed for, and the
mnemonic has no other form. -/
def HasOpcodes (w : Mode → Instr) (l : List (Mode × Byte)) : Prop :=
  (∀ p ∈ l, decode6502 p.2 = w p.1) ∧ ∀ m, (w m).wf = true → m ∈ l.map Prod.fst

/-- The 6502 instructions whose own sequence sets PC (45_control.md R300 to R317), but for the twelve JAMs. -/
def controlFlow : List Instr :=
  [.bpl, .bmi, .bvc, .bvs, .bcc, .bcs, .bne, .beq, .jmp .abs, .jmp .ind, .jsr, .rts, .rti, .brk]

/-! ### Exceptions of the 6502 (60_exceptions.md) -/

/-- An NMI is recognized by step 4 of a break sequence that starts here (R531): an edge that the first sample sees, or one
already in the latch, whose low 11 bits the five shifts up to step 4 leave in it (R523). -/
def nmiByStep4 (s : State) : Bool := nmiEdge s || decide (s.nmiLatch &&& 0x07FF ≠ 0)

/-- The vector of an entry of R521. -/
def vectorOf (i : Intent) (s : State) : Addr :=
  match i with
  | .reset => 0xFFFC
  | .nmi => 0xFFFA
  | .none | .irq => if nmiByStep4 s then 0xFFFA else 0xFFFE

/-- The PC an entry saves: past BRK's padding byte (45_control.md R309), or of the instruction not executed (R529). -/
def savedPC (i : Intent) (s : State) : Addr :=
  match i with
  | .none => s.PC + 2
  | .irq | .nmi | .reset => s.PC

/-- Memory after an entry's three stack cycles: PCH, PCL and P pushed, nothing written under a reset (R521, R532). -/
def pushedFrame (i : Intent) (s : State) : Memory :=
  match i with
  | .reset => s.mem
  | .none | .irq | .nmi =>
    ((s.mem.write (stk (regS s)) (hi (savedPC i s))).write (stk (regS s - 1)) (lo (savedPC i s))).write
      (stk (regS s - 2)) (pack s.P (decide (i = .none)))

/-- The three stack cycles of an entry. -/
def frameBus (i : Intent) (s : State) : List BusCycle :=
  match i with
  | .reset => [rd s.mem (stk (regS s)), rd s.mem (stk (regS s - 1)), rd s.mem (stk (regS s - 2))]
  | .none | .irq | .nmi =>
    [wr (stk (regS s)) (hi (savedPC i s)), wr (stk (regS s - 1)) (lo (savedPC i s)),
      wr (stk (regS s - 2)) (pack s.P (decide (i = .none)))]

/-- The cycles of an entry before its last step (R530; 70_reset_and_hazards.md R585). -/
def breakBus (i : Intent) (s : State) : List BusCycle :=
  rd s.mem (match i with | .none => s.PC + 1 | .irq | .nmi | .reset => s.PC) :: frameBus i s ++
    [rd (pushedFrame i s) (vectorOf i s), rd (pushedFrame i s) (vectorOf i s + 1)]

/-- The registers after an entry (R521, R529, R533): S less 3, I set, PC from the vector. -/
def breakArch (i : Intent) (s : State) : Arch :=
  { arch s with
    S := regS s - 3
    P := { s.P with I := true }
    PC := cat ((pushedFrame i s).read (vectorOf i s + 1)) ((pushedFrame i s).read (vectorOf i s)) }

/-- The modes of the read class. -/
def readModes : List Mode := [.imm, .zp, .zpx, .zpy, .abs, .absx, .absy, .izx, .izy]

/-- The modes of the write class. -/
def writeModes : List Mode := [.zp, .zpx, .zpy, .abs, .absx, .absy, .izx, .izy]

/-- The modes of the read-modify-write class. -/
def rmwModes : List Mode := [.zp, .zpx, .abs, .absx, .absy, .izx, .izy]

/-! ### The 8080-family core -/

/-- A byte has an even number of 1 bits (48_i8080.md R424). -/
def evenParity (v : Byte) : Bool :=
  !(v.getLsbD 0 ^^ v.getLsbD 1 ^^ v.getLsbD 2 ^^ v.getLsbD 3 ^^ v.getLsbD 4 ^^ v.getLsbD 5 ^^ v.getLsbD 6 ^^ v.getLsbD 7)

/-- S, Z and P from a value (48_i8080.md R424). -/
def szp (v : Byte) (c : I8080) : I8080 :=
  { c with fS := v.getLsbD 7, fZ := decide (v = 0x00), fP := evenParity v }

/-- The five flags of `a + v + c` (48_i8080.md R438). -/
def addFlags80 (a v : Byte) (c : Bool) (k : I8080) : I8080 :=
  { szp (a + v + carryByte c) k with
    fCY := decide (255 < a.toNat + v.toNat + bitNat c), fAC := decide (15 < a.toNat % 16 + v.toNat % 16 + bitNat c) }

/-- The five flags of `a - v - b`: CY the borrow out, AC that no borrow comes out of the low digit (48_i8080.md R438). -/
def subFlags80 (a v : Byte) (b : Bool) (k : I8080) : I8080 :=
  { szp (a - v - carryByte b) k with
    fCY := decide (a.toNat < v.toNat + bitNat b), fAC := decide (v.toNat % 16 + bitNat b ≤ a.toNat % 16) }

/-- The addresses an 8080 instruction stores to, from the state its meaning starts in. -/
def stored80 (i : Instr) (s : State) : List Addr :=
  let hl := cat s.i80.H s.i80.L
  let pushed (c : Bool) : List Addr := if c then [s.i80.SP - 1, s.i80.SP - 2] else []
  match i with
  | .i80Mov .m _ | .i80Mvi .m _ | .i80Inr .m | .i80Dcr .m => [hl]
  | .i80Sta a => [a]
  | .i80Shld a => [a, a + 1]
  | .i80Stax p => [i80Index p s]
  | .i80Push _ | .i80Rst _ | .i80Call _ _ => pushed true
  | .i80Cnz _ => pushed (!s.i80.fZ)
  | .i80Cz _ => pushed s.i80.fZ
  | .i80Cnc _ => pushed (!s.i80.fCY)
  | .i80Cc _ => pushed s.i80.fCY
  | .i80Cpo _ => pushed (!s.i80.fP)
  | .i80Cpe _ => pushed s.i80.fP
  | .i80Cp _ => pushed (!s.i80.fS)
  | .i80Cm _ => pushed s.i80.fS
  | .i80Xthl => [s.i80.SP, s.i80.SP + 1]
  | _ => []

/-- The three bytes at an address, where an instruction is fetched. -/
def bytesAt (m : Memory) (a : Addr) : List Byte := [m.read a, m.read (a + 1), m.read (a + 2)]

/-- What no instruction of the 8080 changes: the whole 6502-family engine and its platform, the host's interrupt request and
queue. -/
structure Untouched80 (s t : State) : Prop where
  engine : { t with mem := s.mem, i80 := s.i80, io := s.io } = s
  intrRequested : t.i80.intrRequested = s.i80.intrRequested
  intrOpcode : t.i80.intrOpcode = s.i80.intrOpcode
  intrLo : t.i80.intrLo = s.i80.intrLo
  intrHi : t.i80.intrHi = s.i80.intrHi

/-! ### The invariant -/

/-- The last step index of the read class's sequence (R162 to R166, R169, R170); 0 for a mode without one. -/
def readLast (m : Mode) : Nat :=
  match m with
  | .imm => 1
  | .zp => 2
  | .zpx | .zpy | .abs => 3
  | .absx | .absy => 4
  | .izx | .izy => 5
  | .impl | .acc | .rel | .ind => 0

/-- The last step index of the write class's sequence (R163 to R165, R167, R169, R171). -/
def writeLast (m : Mode) : Nat :=
  match m with
  | .zp => 2
  | .zpx | .zpy | .abs => 3
  | .absx | .absy => 4
  | .izx | .izy => 5
  | .imm | .impl | .acc | .rel | .ind => 0

/-- The last step index of the read-modify-write class's sequence (R163 to R165, R167, R169, R171). -/
def rmwLast (m : Mode) : Nat :=
  match m with
  | .zp => 4
  | .zpx | .abs => 5
  | .absx | .absy => 6
  | .izx | .izy => 7
  | .imm | .impl | .acc | .zpy | .rel | .ind => 0

/-- The last step of a 6502 instruction's sequence (40_engine.md R125; the cycle counts of 30_encoding.md R85 with the page
crossing's cycle, less one). -/
def lastStep (i : Instr) : Nat :=
  match i with
  | .lda m | .ldx m | .ldy m | .adc m | .sbc m | .and m | .ora m | .eor m | .cmp m | .cpx m | .cpy m | .bit m
  | .lax m => readLast m
  | .sta m | .stx m | .sty m | .sax m | .sha m => writeLast m
  | .asl m | .lsr m | .rol m | .ror m => if m = .acc then 1 else rmwLast m
  | .inc m | .dec m | .slo m | .rla m | .sre m | .rra m | .dcp m | .isc m => rmwLast m
  | .las => readLast .absy
  | .nopU m _ => if m = .impl then 1 else readLast m
  | .shx | .tas => writeLast .absy
  | .shy => writeLast .absx
  | .tax | .tay | .txa | .tya | .tsx | .txs | .inx | .iny | .dex | .dey
  | .clc | .sec | .cli | .sei | .cld | .sed | .clv | .nop
  | .anc _ | .alr | .arr | .sbx | .sbcDup | .ane | .lxa | .jam _ => 1
  | .bpl | .bmi | .bvc | .bvs | .bcc | .bcs | .bne | .beq => 3
  | .jmp m => if m = .abs then 2 else 4
  | .jsr | .rts | .rti => 5
  | .brk => 6
  | .pha | .php => 2
  | .pla | .plp => 3
  | .i80Mov _ _ | .i80Mvi _ _ | .i80Lxi _ _ | .i80Lda _ | .i80Sta _ | .i80Lhld _ | .i80Shld _ | .i80Ldax _ | .i80Stax _
  | .i80Xchg | .i80Add _ | .i80Adc _ | .i80Adi _ | .i80Aci _ | .i80Sub _ | .i80Sbb _ | .i80Sui _ | .i80Sbi _
  | .i80Inr _ | .i80Dcr _ | .i80Inx _ | .i80Dcx _ | .i80Dad _ | .i80Daa
  | .i80Ana _ | .i80Ani _ | .i80Xra _ | .i80Xri _ | .i80Ora _ | .i80Ori _ | .i80Cmp _ | .i80Cpi _
  | .i80Rlc | .i80Rrc | .i80Ral | .i80Rar | .i80Cma | .i80Cmc | .i80Stc
  | .i80Jmp _ _ | .i80Jnz _ | .i80Jz _ | .i80Jnc _ | .i80Jc _ | .i80Jpo _ | .i80Jpe _ | .i80Jp _ | .i80Jm _
  | .i80Call _ _ | .i80Cnz _ | .i80Cz _ | .i80Cnc _ | .i80Cc _ | .i80Cpo _ | .i80Cpe _ | .i80Cp _ | .i80Cm _
  | .i80Ret _ | .i80Rnz | .i80Rz | .i80Rnc | .i80Rc | .i80Rpo | .i80Rpe | .i80Rp | .i80Rm
  | .i80Rst _ | .i80Pchl | .i80Push _ | .i80Pop _ | .i80Xthl | .i80Sphl
  | .i80In _ | .i80Out _ | .i80Ei | .i80Di | .i80Hlt | .i80Nop _ => 0

/-- What every step keeps: memory is in its canonical form; the reset counter is 0 to 2 (10_state.md R34); an output value is
pending exactly in a write cycle (40_engine.md R113, R119); an opcode fetch is a read (00_scope.md R14); a write-back is
pending only where an instruction has ended or reset abandoned one (40_engine.md R118; 70_reset_and_hazards.md R581); and
the step to be dispatched is in the dispatcher's table (40_engine.md R125). -/
structure Inv (s : State) : Prop where
  mem : s.mem.wf = true
  rstCnt : s.rstCnt ≤ 2
  dout : s.dout.isSome = !s.pins.rw
  sync : s.pins.sync = true → s.pins.rw = true
  pend : s.pins.sync = true ∨ s.resHeld = true ∨
    (s.pendA = none ∧ s.pendX = none ∧ s.pendY = none ∧ s.pendS = none)
  legal : s.pins.sync = true ∨ s.resHeld = true ∨ s.T ≤ lastStep (decode6502 s.IR)

end Sys2Proof.Machine
end

