-- ==== Sys2Proof/Certificates/Slice0/Obligations.lean ====
section
/-! DEFINITION. The statements of this row. Each docstring says which rules of spec/ a statement formalises and, where it rests
on a choice of the model, which log entry. `Ready`, `Hijacked`, `Retires`, `Completes` and the closed formulas of operands,
bus cycles and flags are in Safety.lean: a `Completes` statement says that `exec` answers a next state, which registers,
memory and bus cycles it has, and that everything else of the machine but the engine's own latches is unchanged. -/

open Sys2Proof Sys2Proof.Machine

/-! ### The 6502: loads, transfers, stores -/

/-- 42_load_store.md R201 to R203, 47_illegal.md R378: the loads, in every mode, and the opcodes of their modes. -/
def Obligations.LoadRegister : Prop :=
  ∀ (s : State) (m : Mode), Ready s →
    let v := operandOf m s
    let after : Arch := { arch s with P := nz v s.P, PC := pcAfter m s }
    HasOpcodes .lda
      [(.imm, 0xA9), (.zp, 0xA5), (.zpx, 0xB5), (.abs, 0xAD), (.absx, 0xBD), (.absy, 0xB9), (.izx, 0xA1), (.izy, 0xB1)] ∧
    HasOpcodes .ldx [(.imm, 0xA2), (.zp, 0xA6), (.zpy, 0xB6), (.abs, 0xAE), (.absy, 0xBE)] ∧
    HasOpcodes .ldy [(.imm, 0xA0), (.zp, 0xA4), (.zpx, 0xB4), (.abs, 0xAC), (.absx, 0xBC)] ∧
    HasOpcodes .lax [(.izx, 0xA3), (.zp, 0xA7), (.abs, 0xAF), (.izy, 0xB3), (.zpy, 0xB7), (.absy, 0xBF)] ∧
    ((Instr.lda m).wf = true → Completes (.lda m) s { after with A := v } s.mem (readBus m s)) ∧
    ((Instr.ldx m).wf = true → Completes (.ldx m) s { after with X := v } s.mem (readBus m s)) ∧
    ((Instr.ldy m).wf = true → Completes (.ldy m) s { after with Y := v } s.mem (readBus m s)) ∧
    ((Instr.lax m).wf = true → Completes (.lax m) s { after with A := v, X := v } s.mem (readBus m s))

/-- 42_load_store.md R207 to R212: the transfers; TXS writes no flag. -/
def Obligations.TransferRegister : Prop :=
  ∀ (s : State), Ready s →
    let done (op : Byte) (i : Instr) (a : Arch) : Prop :=
      decode6502 op = i ∧ Completes i s { a with PC := s.PC + 1 } s.mem [rd s.mem (s.PC + 1)]
    done 0xAA .tax { arch s with X := regA s, P := nz (regA s) s.P } ∧
    done 0xA8 .tay { arch s with Y := regA s, P := nz (regA s) s.P } ∧
    done 0x8A .txa { arch s with A := regX s, P := nz (regX s) s.P } ∧
    done 0x98 .tya { arch s with A := regY s, P := nz (regY s) s.P } ∧
    done 0xBA .tsx { arch s with X := regS s, P := nz (regS s) s.P } ∧
    done 0x9A .txs { arch s with S := regX s }

/-- 42_load_store.md R204 to R206, 47_illegal.md R377: the stores, in every mode, and the opcodes of their modes; no register
but PC and no flag changes. -/
def Obligations.StoreRegister : Prop :=
  ∀ (s : State) (m : Mode), Ready s →
    let done (i : Instr) (v : Byte) : Prop :=
      i.wf = true → CompletesStoring i s { arch s with PC := pcAfter m s } [(effAddr m s, v)] (writeBus m s (effAddr m s) v)
    HasOpcodes .sta [(.zp, 0x85), (.zpx, 0x95), (.abs, 0x8D), (.absx, 0x9D), (.absy, 0x99), (.izx, 0x81), (.izy, 0x91)] ∧
    HasOpcodes .stx [(.zp, 0x86), (.zpy, 0x96), (.abs, 0x8E)] ∧ HasOpcodes .sty [(.zp, 0x84), (.zpx, 0x94), (.abs, 0x8C)] ∧
    HasOpcodes .sax [(.izx, 0x83), (.zp, 0x87), (.abs, 0x8F), (.zpy, 0x97)] ∧
    done (.sta m) (regA s) ∧ done (.stx m) (regX s) ∧ done (.sty m) (regY s) ∧ done (.sax m) (regA s &&& regX s)

/-! ### The 6502: arithmetic, logic, compare -/

/-- 43_alu.md R230, R231, R236, R240: ADC, binary and decimal, in every mode. -/
def Obligations.AddWithCarry : Prop :=
  ∀ (s : State) (m : Mode), Ready s → (Instr.adc m).wf = true →
    let v := operandOf m s
    let x := adcDec (regA s) v s.P.C
    (¬ isDecimal s → Completes (.adc m) s
      { arch s with A := addByte (regA s) v s.P.C, P := addFlags (regA s) v s.P.C s.P, PC := pcAfter m s } s.mem (readBus m s)) ∧
    (isDecimal s → Completes (.adc m) s
      { arch s with A := x.r, P := { s.P with C := x.C, V := x.V, N := x.N, Z := x.Z }, PC := pcAfter m s } s.mem (readBus m s))

/-- 43_alu.md R232, R233, R236, R241, 47_illegal.md R383: SBC in every mode, and its duplicate 0xEB; in decimal mode the
flags are those of the binary subtraction. -/
def Obligations.SubtractWithCarry : Prop :=
  ∀ (s : State) (m : Mode), Ready s →
    let v := operandOf m s
    let after (r : Byte) : Arch := { arch s with A := r, P := subFlags (regA s) v s.P.C s.P, PC := pcAfter m s }
    ∀ i : Instr, (i = .sbc m ∧ i.wf = true ∨ i = .sbcDup ∧ m = .imm) →
      (¬ isDecimal s → Completes i s (after (subByte (regA s) v s.P.C)) s.mem (readBus m s)) ∧
      (isDecimal s → Completes i s (after (sbcDec (regA s) v s.P.C).r) s.mem (readBus m s))

/-- Derived from 43_alu.md R231 and R233: on decimal digits the results are the decimal sum and difference, and the carry is
the decimal carry or no borrow. -/
def Obligations.DecimalArithmetic : Prop :=
  ∀ (a m : Byte) (c : Bool), IsBcd a → IsBcd m →
    (IsBcd (adcDec a m c).r ∧ bcdValue (adcDec a m c).r = (bcdValue a + bcdValue m + bitNat c) % 100 ∧
      (adcDec a m c).C = decide (100 ≤ bcdValue a + bcdValue m + bitNat c)) ∧
    (IsBcd (sbcDec a m c).r ∧ bcdValue (sbcDec a m c).r = (bcdValue a + 100 - bcdValue m - bitNat (!c)) % 100 ∧
      (sbcDec a m c).C = decide (bcdValue m + bitNat (!c) ≤ bcdValue a))

/-- 43_alu.md R235, R242 to R244: AND, ORA and EOR, in every mode, and the opcodes of their modes. -/
def Obligations.LogicAccumulator : Prop :=
  ∀ (s : State) (m : Mode), Ready s →
    let done (i : Instr) (r : Byte) : Prop :=
      i.wf = true → Completes i s { arch s with A := r, P := nz r s.P, PC := pcAfter m s } s.mem (readBus m s)
    HasOpcodes .and
      [(.imm, 0x29), (.zp, 0x25), (.zpx, 0x35), (.abs, 0x2D), (.absx, 0x3D), (.absy, 0x39), (.izx, 0x21), (.izy, 0x31)] ∧
    HasOpcodes .ora
      [(.imm, 0x09), (.zp, 0x05), (.zpx, 0x15), (.abs, 0x0D), (.absx, 0x1D), (.absy, 0x19), (.izx, 0x01), (.izy, 0x11)] ∧
    HasOpcodes .eor
      [(.imm, 0x49), (.zp, 0x45), (.zpx, 0x55), (.abs, 0x4D), (.absx, 0x5D), (.absy, 0x59), (.izx, 0x41), (.izy, 0x51)] ∧
    done (.and m) (regA s &&& operandOf m s) ∧ done (.ora m) (regA s ||| operandOf m s) ∧
    done (.eor m) (regA s ^^^ operandOf m s)

/-- 43_alu.md R234, R245 to R248: the compares and BIT write flags only, in every mode, and the opcodes of their modes. -/
def Obligations.CompareAndBit : Prop :=
  ∀ (s : State) (m : Mode), Ready s →
    let v := operandOf m s
    let done (i : Instr) (p : Flags) : Prop :=
      i.wf = true → Completes i s { arch s with P := p, PC := pcAfter m s } s.mem (readBus m s)
    HasOpcodes .cmp
      [(.imm, 0xC9), (.zp, 0xC5), (.zpx, 0xD5), (.abs, 0xCD), (.absx, 0xDD), (.absy, 0xD9), (.izx, 0xC1), (.izy, 0xD1)] ∧
    HasOpcodes .cpx [(.imm, 0xE0), (.zp, 0xE4), (.abs, 0xEC)] ∧ HasOpcodes .cpy [(.imm, 0xC0), (.zp, 0xC4), (.abs, 0xCC)] ∧
    HasOpcodes .bit [(.zp, 0x24), (.abs, 0x2C)] ∧
    done (.cmp m) (cmpFlags (regA s) v s.P) ∧ done (.cpx m) (cmpFlags (regX s) v s.P) ∧
    done (.cpy m) (cmpFlags (regY s) v s.P) ∧
    done (.bit m) { s.P with Z := decide (regA s &&& v = 0x00), N := v.getLsbD 7, V := v.getLsbD 6 }

/-! ### The 6502: shifts, increments -/

/-- 44_rmw.md R270 to R274, accumulator forms. -/
def Obligations.ShiftAccumulator : Prop :=
  ∀ (s : State), Ready s →
    let a := regA s
    let done (i : Instr) (r : Byte) (c : Bool) : Prop :=
      Completes i s { arch s with A := r, P := { nz r s.P with C := c }, PC := s.PC + 1 } s.mem [rd s.mem (s.PC + 1)]
    done (.asl .acc) (a + a) (a.getLsbD 7) ∧ done (.lsr .acc) (a >>> 1) (a.getLsbD 0) ∧
    done (.rol .acc) (a + a + carryByte s.P.C) (a.getLsbD 7) ∧
    done (.ror .acc) ((a >>> 1) + (if s.P.C then 0x80 else 0x00)) (a.getLsbD 0)

/-- 41_addressing.md R168, 44_rmw.md R270 to R276: the shifts, rotates, INC and DEC in their memory forms: the old value is
written back, then the result; and the opcodes of INC and DEC. -/
def Obligations.ModifyMemory : Prop :=
  ∀ (s : State) (m : Mode), Ready s → m ≠ .acc →
    let v := operandOf m s
    let done (i : Instr) (r : Byte) (p : Flags) : Prop :=
      i.wf = true → CompletesStoring i s { arch s with P := nz r p, PC := pcAfter m s }
        [(effAddr m s, v), (effAddr m s, r)] (rmwBus m s r)
    HasOpcodes .inc [(.zp, 0xE6), (.zpx, 0xF6), (.abs, 0xEE), (.absx, 0xFE)] ∧
    HasOpcodes .dec [(.zp, 0xC6), (.zpx, 0xD6), (.abs, 0xCE), (.absx, 0xDE)] ∧
    done (.asl m) (v + v) { s.P with C := v.getLsbD 7 } ∧ done (.lsr m) (v >>> 1) { s.P with C := v.getLsbD 0 } ∧
    done (.rol m) (v + v + carryByte s.P.C) { s.P with C := v.getLsbD 7 } ∧
    done (.ror m) ((v >>> 1) + (if s.P.C then 0x80 else 0x00)) { s.P with C := v.getLsbD 0 } ∧
    done (.inc m) (v + 1) s.P ∧ done (.dec m) (v - 1) s.P

/-- 44_rmw.md R277 to R280: INX, INY, DEX, DEY. -/
def Obligations.CountRegister : Prop :=
  ∀ (s : State), Ready s →
    let done (op : Byte) (i : Instr) (r : Byte) (a : Arch) : Prop :=
      decode6502 op = i ∧ Completes i s { a with P := nz r s.P, PC := s.PC + 1 } s.mem [rd s.mem (s.PC + 1)]
    done 0xE8 .inx (regX s + 1) { arch s with X := regX s + 1 } ∧ done 0xC8 .iny (regY s + 1) { arch s with Y := regY s + 1 } ∧
    done 0xCA .dex (regX s - 1) { arch s with X := regX s - 1 } ∧ done 0x88 .dey (regY s - 1) { arch s with Y := regY s - 1 }

/-! ### The 6502: control -/

/-- 45_control.md R300, R301, R310 to R317: the eight branches, taken or not, and their cycles. -/
def Obligations.ConditionalBranch : Prop :=
  ∀ (s : State), Ready s →
    let done (op : Byte) (i : Instr) (c : Bool) : Prop :=
      decode6502 op = i ∧ Completes i s { arch s with PC := if c then s.PC + 2 + sext16 (op1 s) else s.PC + 2 } s.mem (branchBus c s)
    done 0x10 .bpl (!s.P.N) ∧ done 0x30 .bmi s.P.N ∧ done 0x50 .bvc (!s.P.V) ∧ done 0x70 .bvs s.P.V ∧
    done 0x90 .bcc (!s.P.C) ∧ done 0xB0 .bcs s.P.C ∧ done 0xD0 .bne (!s.P.Z) ∧ done 0xF0 .beq s.P.Z

/-- 45_control.md R304, R307: JMP; the indirect form reads its high byte from the pointer's own page. -/
def Obligations.JumpAbsoluteIndirect : Prop :=
  ∀ (s : State), Ready s →
    let p := op16 s
    let q := cat (hi p) (lo p + 1)
    decode6502 0x4C = .jmp .abs ∧ decode6502 0x6C = .jmp .ind ∧
    Completes (.jmp .abs) s { arch s with PC := p } s.mem [rd s.mem (s.PC + 1), rd s.mem (s.PC + 2)] ∧
    Completes (.jmp .ind) s { arch s with PC := cat (s.mem.read q) (s.mem.read p) } s.mem
      [rd s.mem (s.PC + 1), rd s.mem (s.PC + 2), rd s.mem p, rd s.mem q]

/-- 45_control.md R305: JSR; the high byte of the target is read after the pushes. -/
def Obligations.JumpSubroutine : Prop :=
  ∀ (s : State), Ready s →
    let ws := [(stk (regS s), hi (s.PC + 2)), (stk (regS s - 1), lo (s.PC + 2))]
    let m := writeAll s.mem ws
    decode6502 0x20 = .jsr ∧ CompletesStoring .jsr s { arch s with S := regS s - 2, PC := cat (m.read (s.PC + 2)) (op1 s) } ws
      [rd s.mem (s.PC + 1), rd s.mem (stk (regS s)), wr (stk (regS s)) (hi (s.PC + 2)),
        wr (stk (regS s - 1)) (lo (s.PC + 2)), rd m (s.PC + 2)]

/-- 45_control.md R306: RTS. -/
def Obligations.ReturnSubroutine : Prop :=
  ∀ (s : State), Ready s →
    let r := cat (s.mem.read (stk (regS s + 2))) (s.mem.read (stk (regS s + 1)))
    decode6502 0x60 = .rts ∧ Completes .rts s { arch s with S := regS s + 2, PC := r + 1 } s.mem
      [rd s.mem (s.PC + 1), rd s.mem (stk (regS s)), rd s.mem (stk (regS s + 1)), rd s.mem (stk (regS s + 2)), rd s.mem r]

/-- 45_control.md R308, 60_exceptions.md R540, 10_state.md R30: RTI restores the six flags and PC, PC not incremented. -/
def Obligations.ReturnInterrupt : Prop :=
  ∀ (s : State), Ready s →
    let b := s.mem.read (stk (regS s + 1))
    Completes .rti s
      { arch s with
        S := regS s + 3
        P := { C := b.getLsbD 0, Z := b.getLsbD 1, I := b.getLsbD 2, D := b.getLsbD 3, V := b.getLsbD 6, N := b.getLsbD 7 }
        PC := cat (s.mem.read (stk (regS s + 3))) (s.mem.read (stk (regS s + 2))) } s.mem
      [rd s.mem (s.PC + 1), rd s.mem (stk (regS s)), rd s.mem (stk (regS s + 1)), rd s.mem (stk (regS s + 2)),
        rd s.mem (stk (regS s + 3))]

/-- 45_control.md R309, 60_exceptions.md R521, R531, R533: BRK pushes the address past its padding byte and P with the break
bit set, sets I and goes to the vector at 0xFFFE, or at 0xFFFA where an NMI is recognized by its step 4. -/
def Obligations.SoftwareBreak : Prop :=
  ∀ (s : State), Ready s →
    let v : Addr := if nmiByStep4 s then 0xFFFA else 0xFFFE
    let ws := [(stk (regS s), hi (s.PC + 2)), (stk (regS s - 1), lo (s.PC + 2)), (stk (regS s - 2), pack s.P true)]
    let m := writeAll s.mem ws
    CompletesStoring .brk s
      { arch s with S := regS s - 3, P := { s.P with I := true }, PC := cat (m.read (v + 1)) (m.read v) } ws
      (rd s.mem (s.PC + 1) :: ws.map (fun w => wr w.1 w.2) ++ [rd m v, rd m (v + 1)])

/-! ### The 6502: stack, flags, no operation -/

/-- 46_stack_flags.md R340 to R343, 10_state.md R30: the pushes and pulls. -/
def Obligations.PushAndPull : Prop :=
  ∀ (s : State), Ready s →
    let b := s.mem.read (stk (regS s + 1))
    let pushed (op : Byte) (i : Instr) (v : Byte) : Prop :=
      decode6502 op = i ∧ CompletesStoring i s { arch s with S := regS s - 1, PC := s.PC + 1 } [(stk (regS s), v)]
        [rd s.mem (s.PC + 1), wr (stk (regS s)) v]
    let pulled (op : Byte) (i : Instr) (a : Arch) : Prop :=
      decode6502 op = i ∧ Completes i s { a with S := regS s + 1, PC := s.PC + 1 } s.mem
        [rd s.mem (s.PC + 1), rd s.mem (stk (regS s)), rd s.mem (stk (regS s + 1))]
    pushed 0x48 .pha (regA s) ∧ pushed 0x08 .php (pack s.P true) ∧ pulled 0x68 .pla { arch s with A := b, P := nz b s.P } ∧
    pulled 0x28 .plp { arch s with
      P := { C := b.getLsbD 0, Z := b.getLsbD 1, I := b.getLsbD 2, D := b.getLsbD 3, V := b.getLsbD 6, N := b.getLsbD 7 } }

/-- 46_stack_flags.md R344 to R351: the flag instructions change one flag, NOP none. -/
def Obligations.FlagInstruction : Prop :=
  ∀ (s : State), Ready s →
    let done (op : Byte) (i : Instr) (p : Flags) : Prop :=
      decode6502 op = i ∧ Completes i s { arch s with P := p, PC := s.PC + 1 } s.mem [rd s.mem (s.PC + 1)]
    done 0x18 .clc { s.P with C := false } ∧ done 0x38 .sec { s.P with C := true } ∧
    done 0x58 .cli { s.P with I := false } ∧ done 0x78 .sei { s.P with I := true } ∧
    done 0xD8 .cld { s.P with D := false } ∧ done 0xF8 .sed { s.P with D := true } ∧
    done 0xB8 .clv { s.P with V := false } ∧ done 0xEA .nop s.P

/-! ### The 6502: undocumented opcodes -/

/-- 47_illegal.md R385: the undocumented NOPs run their mode's cycles and change nothing but PC. -/
def Obligations.UndocumentedNop : Prop :=
  ∀ (s : State) (m : Mode) (k : Fin 6), Ready s → (Instr.nopU m k).wf = true →
    if m = .impl then Completes (.nopU m k) s { arch s with PC := s.PC + 1 } s.mem [rd s.mem (s.PC + 1)]
    else Completes (.nopU m k) s { arch s with PC := pcAfter m s } s.mem (readBus m s)

/-- 47_illegal.md R370 to R373, R375: SLO, RLA, SRE and DCP, in every mode, and the opcodes of their modes. -/
def Obligations.CombinedModify : Prop :=
  ∀ (s : State) (m : Mode), Ready s →
    let v := operandOf m s
    let done (i : Instr) (r : Byte) (a : Arch) : Prop :=
      i.wf = true → CompletesStoring i s { a with PC := pcAfter m s } [(effAddr m s, v), (effAddr m s, r)] (rmwBus m s r)
    let l := v + v
    let rl := v + v + carryByte s.P.C
    let sr := v >>> 1
    HasOpcodes .slo [(.izx, 0x03), (.zp, 0x07), (.abs, 0x0F), (.izy, 0x13), (.zpx, 0x17), (.absy, 0x1B), (.absx, 0x1F)] ∧
    HasOpcodes .rla [(.izx, 0x23), (.zp, 0x27), (.abs, 0x2F), (.izy, 0x33), (.zpx, 0x37), (.absy, 0x3B), (.absx, 0x3F)] ∧
    HasOpcodes .sre [(.izx, 0x43), (.zp, 0x47), (.abs, 0x4F), (.izy, 0x53), (.zpx, 0x57), (.absy, 0x5B), (.absx, 0x5F)] ∧
    HasOpcodes .dcp [(.izx, 0xC3), (.zp, 0xC7), (.abs, 0xCF), (.izy, 0xD3), (.zpx, 0xD7), (.absy, 0xDB), (.absx, 0xDF)] ∧
    done (.slo m) l { arch s with A := regA s ||| l, P := nz (regA s ||| l) { s.P with C := v.getLsbD 7 } } ∧
    done (.rla m) rl { arch s with A := regA s &&& rl, P := nz (regA s &&& rl) { s.P with C := v.getLsbD 7 } } ∧
    done (.sre m) sr { arch s with A := regA s ^^^ sr, P := nz (regA s ^^^ sr) { s.P with C := v.getLsbD 0 } } ∧
    done (.dcp m) (v - 1) { arch s with P := cmpFlags (regA s) (v - 1) s.P }

/-- 47_illegal.md R374, R376, 43_alu.md R236: RRA adds the rotated byte with the carry the rotate produced; ISC subtracts the
incremented byte. -/
def Obligations.CombinedArithmetic : Prop :=
  ∀ (s : State) (m : Mode), Ready s →
    let v := operandOf m s
    let done (i : Instr) (r : Byte) (a : Byte) (p : Flags) : Prop :=
      i.wf = true → CompletesStoring i s { arch s with A := a, P := p, PC := pcAfter m s }
        [(effAddr m s, v), (effAddr m s, r)] (rmwBus m s r)
    let q := (v >>> 1) + (if s.P.C then 0x80 else 0x00)
    let x := adcDec (regA s) q (v.getLsbD 0)
    (¬ isDecimal s → done (.rra m) q (addByte (regA s) q (v.getLsbD 0)) (addFlags (regA s) q (v.getLsbD 0) s.P)) ∧
    (isDecimal s → done (.rra m) q x.r { s.P with C := x.C, V := x.V, N := x.N, Z := x.Z }) ∧
    (¬ isDecimal s → done (.isc m) (v + 1) (subByte (regA s) (v + 1) s.P.C) (subFlags (regA s) (v + 1) s.P.C s.P)) ∧
    (isDecimal s → done (.isc m) (v + 1) (sbcDec (regA s) (v + 1) s.P.C).r (subFlags (regA s) (v + 1) s.P.C s.P))

/-- 47_illegal.md R379 to R382, R384: ANC, ALR, ARR (binary and decimal), SBX and LAS. -/
def Obligations.ImmediateCombined : Prop :=
  ∀ (s : State), Ready s →
    let v := operandOf .imm s
    let t := regA s &&& v
    let c := s.P.C
    let r := (t >>> 1) + (if c then 0x80 else 0x00)
    let x := regA s &&& regX s
    let l := operandOf .absy s &&& regS s
    let done (i : Instr) (a : Arch) : Prop := Completes i s { a with PC := pcAfter .imm s } s.mem (readBus .imm s)
    (∀ d, done (.anc d) { arch s with A := t, P := { nz t s.P with C := t.getLsbD 7 } }) ∧
    done .alr { arch s with A := t >>> 1, P := { nz (t >>> 1) s.P with C := t.getLsbD 0 } } ∧
    (¬ isDecimal s →
      done .arr { arch s with A := r, P := { nz r s.P with C := r.getLsbD 6, V := r.getLsbD 6 ^^ r.getLsbD 5 } }) ∧
    (isDecimal s →
      let tl := t.toNat % 16
      let th := t.toNat / 16
      let r1 := if 5 < tl + tl % 2 then (r &&& 0xF0) ||| ((r + 6) &&& 0x0F) else r
      let cy := decide (5 < th + th % 2)
      done .arr { arch s with
        A := if cy then r1 + 0x60 else r1
        P := { s.P with N := c, Z := decide (r = 0x00), V := t.getLsbD 6 ^^ r.getLsbD 6, C := cy } }) ∧
    done .sbx { arch s with X := x - v, P := { nz (x - v) s.P with C := decide (v.toNat ≤ x.toNat) } } ∧
    Completes .las s { arch s with A := l, X := l, S := l, P := nz l s.P, PC := pcAfter .absy s } s.mem (readBus .absy s)

/-- 47_illegal.md R386, R387: ANE and LXA, for every value of their open constants (`Config.aneConst` and
`Config.lxaConst` are opaque). -/
def Obligations.UnstableImmediate : Prop :=
  ∀ (s : State), Ready s →
    let a := (regA s ||| Config.aneConst) &&& regX s &&& operandOf .imm s
    let l := (regA s ||| Config.lxaConst) &&& operandOf .imm s
    Completes .ane s { arch s with A := a, P := nz a s.P, PC := pcAfter .imm s } s.mem (readBus .imm s) ∧
    Completes .lxa s { arch s with A := l, X := l, P := nz l s.P, PC := pcAfter .imm s } s.mem (readBus .imm s)

/-- 47_illegal.md R388 to R392: SHA, SHX, SHY and TAS store `reg & (H + 1)`, on a page crossing at the address whose high byte
is the stored value; TAS sets S. -/
def Obligations.UnstableStore : Prop :=
  ∀ (s : State) (m : Mode), Ready s →
    let done (i : Instr) (m : Mode) (reg : Byte) (a : Arch) : Prop :=
      let v := reg &&& (hi (baseAddr m s) + 1)
      let ea := if crosses m s then cat v (lo (effAddr m s)) else effAddr m s
      CompletesStoring i s { a with PC := pcAfter m s } [(ea, v)] (writeBus m s ea v)
    ((Instr.sha m).wf = true → done (.sha m) m (regA s &&& regX s) (arch s)) ∧
    done .shx .absy (regX s) (arch s) ∧ done .shy .absx (regY s) (arch s) ∧
    done .tas .absy (regA s &&& regX s) { arch s with S := regA s &&& regX s }

/-- 47_illegal.md R395: JAM stops the core at its second step, with no opcode fetch; every later step, whatever interrupts are
asserted, is one read at the jam address and changes no register, flag or memory byte; and so for any number of steps, until the
reset line goes low (ResetLine: a cycle with it low clears the jam). -/
def Obligations.JamStops : Prop :=
  let jammedAt (k : Fin 12) (s : State) : Prop :=
    Quiet s ∧ s.pins.sync = false ∧ s.jammed = true ∧ decode6502 s.IR = .jam k ∧ s.T = 1
  (∀ (s : State) (k : Fin 12), Ready s →
    ∃ t, exec (.jam k) s = .next t ∧ jammedAt k t ∧ t.intent = .none ∧ t.proc = s.proc ∧
      arch t = { arch s with PC := s.PC + 1 } ∧ t.mem = s.mem ∧
      t.trace = [rd s.mem (s.PC + 1), rd s.mem Config.jamAddr]) ∧
  (∀ (s : State) (k : Fin 12), s.proc ≠ .i8080 → jammedAt k s →
    ∃ t, step s = .next t ∧ jammedAt k t ∧ t.intent = s.intent ∧ t.IR = s.IR ∧ t.proc = s.proc ∧
      arch t = arch s ∧ t.mem = s.mem ∧ t.trace = [rd s.mem Config.jamAddr]) ∧
  (∀ (n : Nat) (s : State) (k : Fin 12), s.proc ≠ .i8080 → jammedAt k s →
    ∃ t, Host.Core.run core n s = .next t ∧ jammedAt k t ∧ t.intent = s.intent ∧ t.IR = s.IR ∧ t.proc = s.proc ∧
      arch t = arch s ∧ t.mem = s.mem)

/-! ### The 6502: interrupts, reset, ready -/

/-- 60_exceptions.md R521, R528 to R533, R542, 70_reset_and_hazards.md R584, R585: a hijack by IRQ or NMI runs instead of the
instruction, whichever it was; it saves PC and P with the break bit clear, sets I, goes to the vector, and no IRQ is taken at its
own end. A reset pulse between two cycles leaves the boundary hijacked by Reset, and that hijack reads the stack instead of
writing it and goes to the vector at 0xFFFC. -/
def Obligations.InterruptEntry : Prop :=
  (∀ (s : State) (j : Intent), Hijacked s j → j ≠ .reset → s.proc ≠ .i8080 →
    let v : Addr := if j = .nmi ∨ nmiByStep4 s = true then 0xFFFA else 0xFFFE
    let ws := [(stk (regS s), hi s.PC), (stk (regS s - 1), lo s.PC), (stk (regS s - 2), pack s.P false)]
    let m := writeAll s.mem ws
    ∃ t, step s = .next t ∧
      Retires s t { arch s with S := regS s - 3, P := { s.P with I := true }, PC := cat (m.read (v + 1)) (m.read v) } m
        (rd s.mem s.PC :: ws.map (fun w => wr w.1 w.2) ++ [rd m v, rd m (v + 1)]) ∧
      (∀ b, b ∉ ws.map Prod.fst → t.mem.read b = s.mem.read b) ∧ t.intent ≠ .irq) ∧
  (∀ (s : State), Hijacked s .reset → s.proc ≠ .i8080 →
    let r := rd s.mem
    ∃ t, step s = .next t ∧
      RetiresWith (s.rstCnt - 2) s t
        { arch s with
          S := regS s - 3, P := { s.P with I := true }, PC := cat (s.mem.read 0xFFFD) (s.mem.read 0xFFFC) } s.mem
        [r s.PC, r (stk (regS s)), r (stk (regS s - 1)), r (stk (regS s - 2)), r 0xFFFC, r 0xFFFD] ∧
      t.intent ≠ .irq) ∧
  (∀ (s : State), Quiet s → s.pins.sync = true → s.pins.rw = true → s.jammed = false →
    let t := setReset true (setReset false s)
    Hijacked t .reset ∧ t.rstCnt = 2 ∧ arch t = arch s ∧ t.mem = s.mem)

/-- 70_reset_and_hazards.md R580, R582, R585, R586: from construction, for every power-on draw and every memory, the first
step is the reset sequence. That its cycles are not stalled and that intent is None at its end rest on the input lines that
`State.constructed` leaves inactive (log entry 5, DESIGN CHOICE) and on nothing being queued (log entry 7, DESIGN CHOICE). -/
def Obligations.ResetSequence : Prop :=
  ∀ (p : Processor) (po : PowerOn) (mem : Memory), p ≠ .i8080 →
    ∃ t, step (State.constructed p po mem) = .next t ∧
      arch t = { A := po.A, X := po.X, Y := po.Y, S := po.S - 3, PC := cat (mem.read 0xFFFD) (mem.read 0xFFFC),
                 P := { po.P with I := true } } ∧
      t.mem = mem ∧ t.rstCnt = 0 ∧ t.intent = .none ∧ t.resHeld = false ∧ t.jammed = false ∧ AtFetch t ∧
      t.trace = [rd mem po.PC, rd mem (stk po.S), rd mem (stk (po.S - 1)), rd mem (stk (po.S - 2)), rd mem 0xFFFC,
        rd mem 0xFFFD, fetchCycle mem (cat (mem.read 0xFFFD) (mem.read 0xFFFC))]

/-- 70_reset_and_hazards.md R581, R583 to R586: what `set_reset` does; a cycle with the reset line low suspends everything; the
first cycle with it high again begins the reset sequence, whatever was interrupted. The caller's calls before a cycle come from
the model's own queue (log entry 7, DESIGN CHOICE), of which `callerActs` takes the head: the line is low or high in a cycle as the
last of those calls leaves it, and the cycle's read may be answered from outside (log entry 8, DESIGN CHOICE). -/
def Obligations.ResetLine : Prop :=
  (∀ (s : State),
    setReset false s = { s with intent := .reset, pins := { s.pins with resN := false } } ∧
    setReset true s =
      { s with rstCnt := if s.pins.resN = false then 2 else s.rstCnt, pins := { s.pins with resN := true } }) ∧
  (∀ (s : State), s.callerQ = [] → callerActs s = s) ∧
  (∀ (s : State) (c : CallerInput) (rest : List CallerInput), s.callerQ = c :: rest →
    let r := c.resetCalls.foldl (fun x level => setReset level x) s
    callerActs s = { r with
      callerQ := rest, pins := { r.pins with irqN := c.irqN, nmiN := c.nmiN, rdy := c.rdy },
      mem := s.mem.writeCells c.busWrites } ∧
    (∀ before level, c.resetCalls = before ++ [level] → (callerActs s).pins.resN = level)) ∧
  (∀ (s : State), s.proc ≠ .i8080 → s.phase = true →
    let u := callerActs s
    u.pins.resN = false →
    ∃ t, step s = .next t ∧ t.resHeld = true ∧ t.intent = .reset ∧ t.jammed = false ∧ t.nmiLatch = 0 ∧ t.irqLatch = 0 ∧
      t.nmiPrev = u.pins.nmiN ∧ t.pins.rw = true ∧ t.pins.sync = false ∧ t.pins.addr = Config.resetAddr ∧ t.dout = none ∧
      t.A = s.A ∧ t.X = s.X ∧ t.Y = s.Y ∧ t.S = s.S ∧ t.PC = s.PC ∧ t.P = s.P ∧ t.IR = s.IR ∧ t.T = s.T ∧ t.AD = s.AD ∧
      t.TMP = s.TMP ∧ t.pendA = s.pendA ∧ t.pendX = s.pendX ∧ t.pendY = s.pendY ∧ t.pendS = s.pendS ∧ t.mem = u.mem ∧
      t.pins.resN = false ∧ t.phase = true ∧ t.proc = s.proc ∧ t.callerQ = u.callerQ) ∧
  (∀ (s : State), s.proc ≠ .i8080 → s.phase = true → s.resHeld = true → s.jammed = false →
    let u := callerActs s
    let r := rd u.mem
    let pc := cat (u.mem.read 0xFFFD) (u.mem.read 0xFFFC)
    u.callerQ = [] → u.pins.resN = true → u.pins.rdy = false →
    ∃ t, step s = .next t ∧ t.rstCnt = 0 ∧ t.resHeld = false ∧ t.intent ≠ .irq ∧ AtFetch t ∧ t.mem = u.mem ∧
      arch t = { arch s with S := regS s - 3, P := { s.P with I := true }, PC := pc } ∧
      t.trace = [⟨s.PC, true, false, (outsideByte s).getD (u.mem.read s.PC)⟩, r (stk (regS s)), r (stk (regS s - 1)),
        r (stk (regS s - 2)), r 0xFFFC, r 0xFFFD, fetchCycle u.mem pc])

/-- 40_engine.md R122, R124: after any number of stalled cycles the bus cycle, the registers, the step, the pending
write-backs and memory are as before; one stalled cycle re-issues the read, shifts the IRQ latch and keeps an NMI edge without
a shift. A stall at the write step of SHA, SHX, SHY and TAS is refused (47_illegal.md R392). That it is refused only in a cycle
that is not an opcode fetch, and that a stall in an opcode fetch with such an IR and T goes on, is the model's reading of R392
(log entry 13, DEDUCED). -/
def Obligations.ReadyStall : Prop :=
  let stalls (s : State) : Prop := s.proc ≠ .i8080 ∧ s.phase = true ∧ s.callerQ = [] ∧ s.pins.resN = true ∧
    s.resHeld = false ∧ s.pins.rdy = true ∧ s.pins.rw = true
  (∀ (n : Nat) (s : State), stalls s → s.dout = none → (s.pins.sync = false → unstableWriteStep s.IR s.T = false) →
    ∃ t, Host.Core.run core n s = .next t ∧ t.pins.addr = s.pins.addr ∧ t.pins.rw = s.pins.rw ∧ t.pins.sync = s.pins.sync ∧
      t.A = s.A ∧ t.X = s.X ∧ t.Y = s.Y ∧ t.S = s.S ∧ t.PC = s.PC ∧ t.P = s.P ∧ t.IR = s.IR ∧ t.T = s.T ∧
      t.pendA = s.pendA ∧ t.pendX = s.pendX ∧ t.pendY = s.pendY ∧ t.pendS = s.pendS ∧ t.intent = s.intent ∧ t.mem = s.mem) ∧
  (∀ (s : State), stalls s → s.dout = none → (s.pins.sync = false → unstableWriteStep s.IR s.T = false) →
    ∃ t, step s = .next t ∧ t.trace = [⟨s.pins.addr, true, s.pins.sync, s.mem.read s.pins.addr⟩] ∧
      t.irqLatch.getLsbD 0 = (!s.pins.irqN && !s.P.I) ∧
      t.nmiLatch.getLsbD 0 = (s.nmiLatch.getLsbD 0 || (s.nmiPrev && !s.pins.nmiN)) ∧ t.nmiPrev = s.pins.nmiN ∧
      ∀ k, k < 15 → t.irqLatch.getLsbD (k + 1) = s.irqLatch.getLsbD k ∧ t.nmiLatch.getLsbD (k + 1) = s.nmiLatch.getLsbD (k + 1)) ∧
  (∀ (s : State), stalls s → s.pins.sync = false → unstableWriteStep s.IR s.T = true → step s = .refused .unstableStoreStalled)

/-- 60_exceptions.md R523, R524, R534: what one sample shifts into the latches; with the NMI line held low the next sample sees
no edge. -/
def Obligations.InterruptSampling : Prop :=
  ∀ (s : State) (k : Nat), k < 15 →
    let t := latchShiftAndSample s
    t.nmiLatch.getLsbD 0 = (s.nmiPrev && !s.pins.nmiN) ∧ t.nmiLatch.getLsbD (k + 1) = s.nmiLatch.getLsbD k ∧
    t.irqLatch.getLsbD 0 = (!s.pins.irqN && !s.P.I) ∧ t.irqLatch.getLsbD (k + 1) = s.irqLatch.getLsbD k ∧
    (latchShiftAndSample t).nmiLatch.getLsbD 0 = false ∧
    { t with nmiLatch := s.nmiLatch, irqLatch := s.irqLatch, nmiPrev := s.nmiPrev } = s

/-- 60_exceptions.md R525 to R527: the arbitration's priority Reset, NMI, IRQ, and the masking of both latches. -/
def Obligations.ArbitrationPriority : Prop :=
  ∀ (s : State) (k : Nat), k < 16 →
    let t := arbitrate s
    let nmi := ∃ j, 2 ≤ j ∧ j < 16 ∧ s.nmiLatch.getLsbD j = true
    let irq := s.irqLatch.getLsbD 1 = true
    (s.intent = .reset → t.intent = .reset) ∧
    (s.intent ≠ .reset → nmi → t.intent = .nmi) ∧
    (s.intent ≠ .reset → ¬ nmi → irq → t.intent = .irq) ∧
    (s.intent ≠ .reset → ¬ nmi → ¬ irq → t.intent = .none) ∧
    t.nmiLatch.getLsbD k = (decide (k < 2) && s.nmiLatch.getLsbD k) ∧
    t.irqLatch.getLsbD k = (decide (k < 2) && s.irqLatch.getLsbD k) ∧
    { t with nmiLatch := s.nmiLatch, irqLatch := s.irqLatch, intent := s.intent } = s

/-- 46_stack_flags.md R346, R347, derived there from 60_exceptions.md R524 to R526: an IRQ asserted throughout is not taken
right after the CLI that admits it, and is still taken right after the SEI that masks it. -/
def Obligations.MaskLatency : Prop :=
  ∀ (s : State), Ready s → s.pins.irqN = false →
    (s.P.I = true → ∃ t, exec .cli s = .next t ∧ t.P.I = false ∧ t.intent ≠ .irq) ∧
    (s.P.I = false → s.nmiLatch = 0 → ∃ t, exec .sei s = .next t ∧ t.P.I = true ∧ t.intent = .irq)

/-- 10_state.md R30 to R32: what unpacking a byte gives, every bit of a packed byte, and that unpacking a packed byte restores
the six flags. -/
def Obligations.PackedFlags : Prop :=
  (∀ b : Byte, unpack b =
    { C := b.getLsbD 0, Z := b.getLsbD 1, I := b.getLsbD 2, D := b.getLsbD 3, V := b.getLsbD 6, N := b.getLsbD 7 }) ∧
  ∀ (p : Flags) (b : Bool), unpack (pack p b) = p ∧
    (pack p b).getLsbD 7 = p.N ∧ (pack p b).getLsbD 6 = p.V ∧ (pack p b).getLsbD 5 = true ∧ (pack p b).getLsbD 4 = b ∧
    (pack p b).getLsbD 3 = p.D ∧ (pack p b).getLsbD 2 = p.I ∧ (pack p b).getLsbD 1 = p.Z ∧ (pack p b).getLsbD 0 = p.C

/-- 60_exceptions.md R560: from a count of 0, twelve master edges toggle the core's phase once, through `set_phase`, and return
the count to 0; m2 is high after a rise and low after a fall; fewer edges leave the core alone. -/
def Obligations.ClockDivider : Prop :=
  ∀ (D : Dispatcher) (s : State), s.divider.cnt = 0 →
    (∀ n, n < 12 → ∃ d, masterEdges D n s = .next { s with divider := d } ∧ d.cnt.val = n) ∧
    (s.phase = false → masterEdges D 12 s = setPhase D true { s with divider := { cnt := 0, m2 := true } }) ∧
    (s.phase = true → masterEdges D 12 s = andThen (setPhase D false s) (fun t => .next (setM2 false t)))

/-! ### The 8080 -/

/-- 48_i8080.md R422, R440 to R442: MVI and LXI write the register or pair they name and nothing else, M being the byte at HL;
MOV writes what its source holds. R440 says that MOV M,M does not exist; that the term's meaning is the refusal `noEncoding` is
the model's own choice (log entry 22, DESIGN CHOICE). -/
def Obligations.I80Move : Prop :=
  ∀ (s : State) (v : Byte) (a : Addr),
    let c := s.i80
    let hl := cat c.H c.L
    let set (k : I8080) : Host.Outcome State Fault Refusal := .next { s with i80 := k }
    (exec (.i80Mvi .b v) s = set { c with B := v } ∧ exec (.i80Mvi .c v) s = set { c with C := v } ∧
      exec (.i80Mvi .d v) s = set { c with D := v } ∧ exec (.i80Mvi .e v) s = set { c with E := v } ∧
      exec (.i80Mvi .h v) s = set { c with H := v } ∧ exec (.i80Mvi .l v) s = set { c with L := v } ∧
      exec (.i80Mvi .a v) s = set { c with A := v } ∧ exec (.i80Mvi .m v) s = .next { s with mem := s.mem.write hl v }) ∧
    (i80Reg .b s = c.B ∧ i80Reg .c s = c.C ∧ i80Reg .d s = c.D ∧ i80Reg .e s = c.E ∧ i80Reg .h s = c.H ∧
      i80Reg .l s = c.L ∧ i80Reg .m s = s.mem.read hl ∧ i80Reg .a s = c.A) ∧
    (∀ d r, ¬ (d = .m ∧ r = .m) → exec (.i80Mov d r) s = exec (.i80Mvi d (i80Reg r s)) s) ∧
    exec (.i80Mov .m .m) s = .refused .noEncoding ∧
    (exec (.i80Lxi .bc a) s = set { c with B := hi a, C := lo a } ∧ exec (.i80Lxi .de a) s = set { c with D := hi a, E := lo a } ∧
      exec (.i80Lxi .hl a) s = set { c with H := hi a, L := lo a } ∧ exec (.i80Lxi .sp a) s = set { c with SP := a })

/-- 48_i8080.md R443 to R449: the loads and stores by address, and XCHG. -/
def Obligations.I80LoadStore : Prop :=
  ∀ (s : State) (a : Addr),
    let c := s.i80
    let set (k : I8080) : Host.Outcome State Fault Refusal := .next { s with i80 := k }
    let put (m : Memory) : Host.Outcome State Fault Refusal := .next { s with mem := m }
    exec (.i80Lda a) s = set { c with A := s.mem.read a } ∧
    exec (.i80Sta a) s = put (s.mem.write a c.A) ∧
    exec (.i80Lhld a) s = set { c with L := s.mem.read a, H := s.mem.read (a + 1) } ∧
    exec (.i80Shld a) s = put ((s.mem.write a c.L).write (a + 1) c.H) ∧
    exec (.i80Ldax .bc) s = set { c with A := s.mem.read (cat c.B c.C) } ∧
    exec (.i80Ldax .de) s = set { c with A := s.mem.read (cat c.D c.E) } ∧
    exec (.i80Stax .bc) s = put (s.mem.write (cat c.B c.C) c.A) ∧
    exec (.i80Stax .de) s = put (s.mem.write (cat c.D c.E) c.A) ∧
    exec .i80Xchg s = set { c with D := c.H, E := c.L, H := c.D, L := c.E }

/-- 48_i8080.md R424, R438, R450 to R457, R470, R471: the additions, subtractions and compares, result and five flags. -/
def Obligations.I80AddSubtract : Prop :=
  ∀ (s : State) (r : Reg8) (v : Byte),
    let c := s.i80
    let x := i80Reg r s
    let add (y : Byte) (k : Bool) : Host.Outcome State Fault Refusal :=
      .next { s with i80 := { addFlags80 c.A y k c with A := c.A + y + carryByte k } }
    let sub (y : Byte) (k : Bool) : Host.Outcome State Fault Refusal :=
      .next { s with i80 := { subFlags80 c.A y k c with A := c.A - y - carryByte k } }
    exec (.i80Add r) s = add x false ∧ exec (.i80Adc r) s = add x c.fCY ∧
    exec (.i80Adi v) s = add v false ∧ exec (.i80Aci v) s = add v c.fCY ∧
    exec (.i80Sub r) s = sub x false ∧ exec (.i80Sbb r) s = sub x c.fCY ∧
    exec (.i80Sui v) s = sub v false ∧ exec (.i80Sbi v) s = sub v c.fCY ∧
    exec (.i80Cmp r) s = .next { s with i80 := subFlags80 c.A x false c } ∧
    exec (.i80Cpi v) s = .next { s with i80 := subFlags80 c.A v false c }

/-- 48_i8080.md R458, R459: INR and DCR write the register or the byte at HL, and four flags; CY is unchanged. -/
def Obligations.I80CountByte : Prop :=
  ∀ (s : State) (d : Reg8),
    let v := i80Reg d s
    let up := setI80Reg d (v + 1) s
    let down := setI80Reg d (v - 1) s
    exec (.i80Inr d) s = .next { up with i80 := { szp (v + 1) up.i80 with fAC := decide (v.toNat % 16 = 15) } } ∧
    exec (.i80Dcr d) s = .next { down with i80 := { szp (v - 1) down.i80 with fAC := decide (v.toNat % 16 ≠ 0) } }

/-- 48_i8080.md R422, R460 to R462: INX and DCX change one pair, DAD adds a pair to HL and changes CY, and their opcodes. -/
def Obligations.I80Pairs : Prop :=
  ∀ (s : State),
    let c := s.i80
    let set (k : I8080) : Host.Outcome State Fault Refusal := .next { s with i80 := k }
    let count (w : RegPair → Instr) (n : Addr) : Prop :=
      let bc := cat c.B c.C + n
      let de := cat c.D c.E + n
      let hl := cat c.H c.L + n
      exec (w .bc) s = set { c with B := hi bc, C := lo bc } ∧ exec (w .de) s = set { c with D := hi de, E := lo de } ∧
      exec (w .hl) s = set { c with H := hi hl, L := lo hl } ∧ exec (w .sp) s = set { c with SP := c.SP + n }
    let dad (rp : RegPair) (p : Addr) : Prop :=
      let sum := cat c.H c.L + p
      exec (.i80Dad rp) s = set { c with H := hi sum, L := lo sum, fCY := decide (sum.toNat < p.toNat) }
    (∀ b1 b2 : Byte,
      decode8080 0x03 b1 b2 = .i80Inx .bc ∧ decode8080 0x13 b1 b2 = .i80Inx .de ∧ decode8080 0x23 b1 b2 = .i80Inx .hl ∧
      decode8080 0x33 b1 b2 = .i80Inx .sp ∧ decode8080 0x0B b1 b2 = .i80Dcx .bc ∧ decode8080 0x1B b1 b2 = .i80Dcx .de ∧
      decode8080 0x2B b1 b2 = .i80Dcx .hl ∧ decode8080 0x3B b1 b2 = .i80Dcx .sp ∧ decode8080 0x09 b1 b2 = .i80Dad .bc ∧
      decode8080 0x19 b1 b2 = .i80Dad .de ∧ decode8080 0x29 b1 b2 = .i80Dad .hl ∧ decode8080 0x39 b1 b2 = .i80Dad .sp) ∧
    count .i80Inx 1 ∧ count .i80Dcx (-1) ∧
    dad .bc (cat c.B c.C) ∧ dad .de (cat c.D c.E) ∧ dad .hl (cat c.H c.L) ∧ dad .sp c.SP

/-- 48_i8080.md R463: DAA; and, derived from it, that after the addition of two bytes of decimal digits it leaves their decimal
sum and carry. -/
def Obligations.I80DecimalAdjust : Prop :=
  (∀ (s : State),
    let c := s.i80
    let lowFix := c.fAC || decide (9 < c.A.toNat % 16)
    let highFix := c.fCY || decide (9 < c.A.toNat / 16) || (decide (9 ≤ c.A.toNat / 16) && decide (9 < c.A.toNat % 16))
    let corr : Byte := (if lowFix then 0x06 else 0x00) + (if highFix then 0x60 else 0x00)
    exec .i80Daa s = .next { s with i80 := { addFlags80 c.A corr false c with A := c.A + corr, fCY := highFix } }) ∧
  (∀ (s : State) (v : Byte), IsBcd s.i80.A → IsBcd v →
    ∃ t u, exec (.i80Adi v) s = .next t ∧ exec .i80Daa t = .next u ∧ IsBcd u.i80.A ∧
      bcdValue u.i80.A = (bcdValue s.i80.A + bcdValue v) % 100 ∧
      u.i80.fCY = decide (100 ≤ bcdValue s.i80.A + bcdValue v))

/-- 48_i8080.md R424, R464 to R469: the logic operations, result and five flags. -/
def Obligations.I80Logic : Prop :=
  ∀ (s : State) (r : Reg8) (v : Byte),
    let c := s.i80
    let x := i80Reg r s
    let and (y : Byte) : Host.Outcome State Fault Refusal :=
      .next { s with i80 := { szp (c.A &&& y) c with A := c.A &&& y, fAC := c.A.getLsbD 3 || y.getLsbD 3, fCY := false } }
    let put (y : Byte) : Host.Outcome State Fault Refusal :=
      .next { s with i80 := { szp y c with A := y, fAC := false, fCY := false } }
    exec (.i80Ana r) s = and x ∧ exec (.i80Ani v) s = and v ∧
    exec (.i80Xra r) s = put (c.A ^^^ x) ∧ exec (.i80Xri v) s = put (c.A ^^^ v) ∧
    exec (.i80Ora r) s = put (c.A ||| x) ∧ exec (.i80Ori v) s = put (c.A ||| v)

/-- 48_i8080.md R472 to R478: the rotates, CMA, CMC and STC, and their opcodes. -/
def Obligations.I80Rotate : Prop :=
  ∀ (s : State),
    let c := s.i80
    let a := c.A
    let rot (r : Byte) (k : Bool) : Host.Outcome State Fault Refusal := .next { s with i80 := { c with A := r, fCY := k } }
    (∀ b1 b2 : Byte,
      decode8080 0x07 b1 b2 = .i80Rlc ∧ decode8080 0x0F b1 b2 = .i80Rrc ∧ decode8080 0x17 b1 b2 = .i80Ral ∧
      decode8080 0x1F b1 b2 = .i80Rar ∧ decode8080 0x2F b1 b2 = .i80Cma ∧ decode8080 0x3F b1 b2 = .i80Cmc ∧
      decode8080 0x37 b1 b2 = .i80Stc) ∧
    exec .i80Rlc s = rot (a.rotateLeft 1) (a.getLsbD 7) ∧ exec .i80Rrc s = rot (a.rotateRight 1) (a.getLsbD 0) ∧
    exec .i80Ral s = rot (a + a + carryByte c.fCY) (a.getLsbD 7) ∧
    exec .i80Rar s = rot ((a >>> 1) + (if c.fCY then 0x80 else 0x00)) (a.getLsbD 0) ∧
    exec .i80Cma s = rot (0xFF - a) c.fCY ∧ exec .i80Cmc s = rot a (!c.fCY) ∧ exec .i80Stc s = rot a true

/-- 48_i8080.md R423, 49_i8080_control.md R500, R501, R507: the jumps, taken or not. -/
def Obligations.I80Jump : Prop :=
  ∀ (s : State) (a : Addr),
    let c := s.i80
    let goes (i : Instr) (k : Bool) : Prop := exec i s = .next { s with i80 := { c with PC := if k then a else c.PC } }
    (∀ d, goes (.i80Jmp d a) true) ∧ goes (.i80Jnz a) (!c.fZ) ∧ goes (.i80Jz a) c.fZ ∧ goes (.i80Jnc a) (!c.fCY) ∧
    goes (.i80Jc a) c.fCY ∧ goes (.i80Jpo a) (!c.fP) ∧ goes (.i80Jpe a) c.fP ∧ goes (.i80Jp a) (!c.fS) ∧ goes (.i80Jm a) c.fS ∧
    exec .i80Pchl s = .next { s with i80 := { c with PC := cat c.H c.L } }

/-- 48_i8080.md R423, 49_i8080_control.md R502, R503, R506: the calls, taken or not, and RST push the address of the next
instruction, high byte at SP - 1. -/
def Obligations.I80Call : Prop :=
  ∀ (s : State) (a : Addr),
    let c := s.i80
    let enters (i : Instr) (b : Addr) : Prop :=
      exec i s = .next { s with
        mem := (s.mem.write (c.SP - 1) (hi c.PC)).write (c.SP - 2) (lo c.PC)
        i80 := { c with SP := c.SP - 2, PC := b } }
    let calls (i : Instr) (k : Bool) : Prop := if k then enters i a else exec i s = .next s
    (∀ k, enters (.i80Call k a) a) ∧ (∀ n : BitVec 3, enters (.i80Rst n) (BitVec.ofNat 16 (8 * n.toNat))) ∧
    calls (.i80Cnz a) (!c.fZ) ∧ calls (.i80Cz a) c.fZ ∧ calls (.i80Cnc a) (!c.fCY) ∧ calls (.i80Cc a) c.fCY ∧
    calls (.i80Cpo a) (!c.fP) ∧ calls (.i80Cpe a) c.fP ∧ calls (.i80Cp a) (!c.fS) ∧ calls (.i80Cm a) c.fS

/-- 48_i8080.md R423, 49_i8080_control.md R504, R505: the returns, taken or not. -/
def Obligations.I80Return : Prop :=
  ∀ (s : State),
    let c := s.i80
    let returns (i : Instr) (k : Bool) : Prop :=
      exec i s = .next (if k then { s with i80 := { c with
        SP := c.SP + 2, PC := cat (s.mem.read (c.SP + 1)) (s.mem.read c.SP) } } else s)
    (∀ d, returns (.i80Ret d) true) ∧ returns .i80Rnz (!c.fZ) ∧ returns .i80Rz c.fZ ∧ returns .i80Rnc (!c.fCY) ∧
    returns .i80Rc c.fCY ∧ returns .i80Rpo (!c.fP) ∧ returns .i80Rpe c.fP ∧ returns .i80Rp (!c.fS) ∧ returns .i80Rm c.fS

/-- 48_i8080.md R421, R422, 49_i8080_control.md R508 to R511: PUSH, POP, XTHL and SPHL; the flag byte of PSW has bits
`S Z 0 AC 0 P 1 CY`. -/
def Obligations.I80Stack : Prop :=
  ∀ (s : State),
    let c := s.i80
    let pushes (p : StackPair) (h l : Byte) : Prop :=
      exec (.i80Push p) s = .next { s with
        mem := (s.mem.write (c.SP - 1) h).write (c.SP - 2) l, i80 := { c with SP := c.SP - 2 } }
    let l := s.mem.read c.SP
    let h := s.mem.read (c.SP + 1)
    let pops (p : StackPair) (k : I8080) : Prop := exec (.i80Pop p) s = .next { s with i80 := { k with SP := c.SP + 2 } }
    pushes .bc c.B c.C ∧ pushes .de c.D c.E ∧ pushes .hl c.H c.L ∧
    (∃ f, pushes .psw c.A f ∧ f.getLsbD 7 = c.fS ∧ f.getLsbD 6 = c.fZ ∧ f.getLsbD 5 = false ∧ f.getLsbD 4 = c.fAC ∧
      f.getLsbD 3 = false ∧ f.getLsbD 2 = c.fP ∧ f.getLsbD 1 = true ∧ f.getLsbD 0 = c.fCY) ∧
    pops .bc { c with B := h, C := l } ∧ pops .de { c with D := h, E := l } ∧ pops .hl { c with H := h, L := l } ∧
    pops .psw { c with A := h, fS := l.getLsbD 7, fZ := l.getLsbD 6, fAC := l.getLsbD 4, fP := l.getLsbD 2, fCY := l.getLsbD 0 } ∧
    exec .i80Xthl s = .next { s with
      mem := (s.mem.write c.SP c.L).write (c.SP + 1) c.H, i80 := { c with L := l, H := h } } ∧
    exec .i80Sphl s = .next { s with i80 := { c with SP := cat c.H c.L } }

/-- 48_i8080.md R429, 49_i8080_control.md R512 to R517: IN takes the host's next byte, OUT calls the host, EI, DI, HLT and NOP.
That the host's bytes come from a queue, and a free value where it holds none, is the model's choice (log entries 16 and 17). -/
def Obligations.I80PortsAndControl : Prop :=
  ∀ (s : State) (p : Byte),
    let c := s.i80
    let set (k : I8080) : Host.Outcome State Fault Refusal := .next { s with i80 := k }
    (∀ v q, s.io.inQ = v :: q → exec (.i80In p) s = .next { s with i80 := { c with A := v }, io := { s.io with inQ := q } }) ∧
    (s.io.inQ = [] → exec (.i80In p) s = .next { s with
      i80 := { c with A := Config.portIn p s.io.inCount }, io := { s.io with inCount := s.io.inCount + 1 } }) ∧
    exec (.i80Out p) s = .next { s with io := { s.io with outs := s.io.outs ++ [(p, c.A)] } } ∧
    exec .i80Ei s = set { c with INTE := true, eiPending := true } ∧
    exec .i80Di s = set { c with INTE := false, eiPending := false } ∧
    exec .i80Hlt s = set { c with halted := true } ∧
    ∀ k, exec (.i80Nop k) s = .next s

/-- 48_i8080.md R420, R427 to R429: whatever the 8080 instruction, it leaves the 6502-family engine, the host's interrupt
request and queue, and every byte of memory that it does not store to as they were. -/
def Obligations.I80Frame : Prop :=
  ∀ (i : Instr) (s t : State), i.isFor .i8080 = true → exec i s = .next t →
    Untouched80 s t ∧ ∀ b, b ∉ stored80 i s → t.mem.read b = s.mem.read b

/-- 48_i8080.md R437, 49_i8080_control.md R514, R516, R518, R519, with the model's own queue of the host's calls (log entry 7)
and its reading of where a supplied instruction's operand bytes come from (log entry 18): before a step the host sets the
interrupt request, and its reset call clears PC, INTE, eiPending and halted; an accepted interrupt clears INTE and halted and
runs the supplied instruction with PC where it was; none is accepted with INTE clear or right after EI; a halted core only
waits. -/
def Obligations.I80StepRule : Prop :=
  ∀ (s : State), s.proc = .i8080 →
    (s.hostQ = [] → hostActs s = s) ∧
    (∀ h rest, s.hostQ = h :: rest →
      hostActs s = { s with
        hostQ := rest
        i80 := { s.i80 with
          PC := if h.resetCall = true then 0x0000 else s.i80.PC
          INTE := if h.resetCall = true then false else s.i80.INTE
          eiPending := if h.resetCall = true then false else s.i80.eiPending
          halted := if h.resetCall = true then false else s.i80.halted
          intrRequested := h.intrRequested, intrOpcode := h.intrOpcode, intrLo := h.intrLo, intrHi := h.intrHi } }) ∧
    let u := hostActs s
    let c := u.i80
    (c.intrRequested = true → c.INTE = true → c.eiPending = false →
      step s = exec (decode8080 c.intrOpcode c.intrLo c.intrHi) { u with i80 := { c with INTE := false, halted := false } }) ∧
    ((c.intrRequested = false ∨ c.INTE = false ∨ c.eiPending = true) → c.halted = true → step s = .next u) ∧
    ((c.intrRequested = false ∨ c.INTE = false ∨ c.eiPending = true) → c.halted = false →
      step s = exec (decode8080 (u.mem.read c.PC) (u.mem.read (c.PC + 1)) (u.mem.read (c.PC + 2))) { u with
        i80 := { c with eiPending := false, PC := c.PC + BitVec.ofNat 16 (length8080 (u.mem.read c.PC)) } })

/-! ### The whole machine -/

/-- 30_encoding.md R80, R88, R92, 48_i8080.md R431, R433, R434: encoding and decoding agree, in both directions and for every
operand: a well-formed instruction is what its encoding decodes to, with any operand bytes that a 6502 term does not carry
(R84; log entry 21), whatever follows; and whatever any bytes decode to is well-formed, is of the processor's set, and those
bytes are its encoding, its operand bytes and the rest. -/
def Obligations.EncodeDecode : Prop :=
  (∀ i : Instr, i.wf = true → ∃ p bytes, i.isFor p = true ∧ encode i = some bytes ∧
    ∀ operands rest : List Byte, operands.length = i.operandBytes → decode p (bytes ++ operands ++ rest) = .instr i rest) ∧
  (∀ p bytes i rest, decode p bytes = .instr i rest →
    i.wf = true ∧ i.isFor p = true ∧ ∃ used operands, encode i = some used ∧ operands.length = i.operandBytes ∧
      used ++ operands ++ rest = bytes)

/-- 30_encoding.md R92 and the rules of the instructions, 48_i8080.md R440 to R517: words written out from the spec decode to
their instructions. -/
def Obligations.DecodeWords : Prop :=
  decode6502 0xA9 = .lda .imm ∧ decode6502 0x91 = .sta .izy ∧ decode6502 0x7D = .adc .absx ∧ decode6502 0x5E = .lsr .absx ∧
  decode6502 0x6C = .jmp .ind ∧ decode6502 0x00 = .brk ∧ decode6502 0x28 = .plp ∧ decode6502 0x83 = .sax .izx ∧
  decode6502 0xEB = .sbcDup ∧ decode6502 0x9B = .tas ∧ decode6502 0xF2 = .jam 11 ∧
  decode8080 0x77 0x00 0x00 = .i80Mov .m .a ∧ decode8080 0x76 0x00 0x00 = .i80Hlt ∧ decode8080 0x31 0x00 0x24 = .i80Lxi .sp 0x2400 ∧
  decode8080 0x9D 0x00 0x00 = .i80Sbb .l ∧ decode8080 0xE6 0x0F 0x00 = .i80Ani 0x0F ∧ decode8080 0xDA 0x34 0x12 = .i80Jc 0x1234 ∧
  decode8080 0xF5 0x00 0x00 = .i80Push .psw ∧ decode8080 0xFF 0x00 0x00 = .i80Rst 7 ∧ decode8080 0xDB 0x10 0x00 = .i80In 0x10

/-- 40_engine.md R117, 48_i8080.md R437: a step runs the instruction that the bytes at PC decode to; on the 8080 after the
pending EI has passed and PC has moved past the instruction's bytes. -/
def Obligations.StepRunsDecoded : Prop :=
  ∀ (s : State) (i : Instr) (rest : List Byte),
    (s.proc ≠ .i8080 → s.pins.sync = true → s.pins.data = s.mem.read s.PC →
      decode s.proc (bytesAt s.mem s.PC) = .instr i rest → step s = exec i s) ∧
    (s.proc = .i8080 → s.hostQ = [] → (s.i80.intrRequested && s.i80.INTE && !s.i80.eiPending) = false → s.i80.halted = false →
      decode s.proc (bytesAt s.mem s.i80.PC) = .instr i rest →
      step s = exec i { s with i80 := { s.i80 with
        eiPending := false, PC := s.i80.PC + BitVec.ofNat 16 (3 - rest.length) } })

/-- 40_engine.md R114, R120, R125: running the instruction on its own microcode, as the meanings do, is running the engine on
the whole dispatcher table of 256 opcodes, from every state of a 6502-family instance that the invariant admits. That one step
runs to the next opcode fetch, at most `longestRun` cycles, is the model's own step (log entry 6, DESIGN CHOICE). -/
def Obligations.ExecIsDispatcher : Prop :=
  ∀ (s : State), Inv s → s.proc ≠ .i8080 →
    step s = andThen (primed dispatcher (clearTrace s)) (runCycles dispatcher longestRun)

/-- Every step keeps `Inv` (10_state.md R34; 40_engine.md R113, R118, R119, R125; 20_memory.md R50), from every state, whatever
the caller does, on all three processors. -/
def Obligations.InvariantKept : Prop :=
  ∀ (s t : State), Inv s → step s = .next t → Inv t

/-- `Inv` holds at reset and at construction, whatever the power-on draw. -/
def Obligations.InvariantAtReset : Prop :=
  Inv State.reset ∧ ∀ (p : Processor) (po : PowerOn) (mem : Memory), mem.wf = true → Inv (State.constructed p po mem)

/-- 40_engine.md R125, 60_exceptions.md R520, 48_i8080.md R433, 47_illegal.md R392: from every state with `Inv` a step never
faults, and it is refused only for a stall before the write of an unstable store. -/
def Obligations.StepNeverFaults : Prop :=
  ∀ (s : State), Inv s →
    (∀ r, step s ≠ .fault r) ∧
    (∀ r, step s = .refused r → r = .unstableStoreStalled ∧ s.proc ≠ .i8080)

/-- 10_state.md R40, 48_i8080.md R426: what reset leaves, and that it is what the reset sequence leaves from construction with
the draws of log entries 3 and 4, the memory of log entry 2 and the input lines of log entry 5. The 8080 core is constructed with any draws in its registers and
flags and reset's values elsewhere, and `reset8080` changes only those (49_i8080_control.md R519). -/
def Obligations.ResetState : Prop :=
  step (State.constructed .mos6502 PowerOn.zero []) = .next State.reset ∧
  State.reset.P.I = true ∧ State.reset.S = PowerOn.zero.S - 3 ∧ State.reset.rstCnt = 0 ∧ State.reset.resHeld = false ∧
  State.reset.jammed = false ∧ State.reset.dout = none ∧ State.reset.intent = .none ∧ AtFetch State.reset ∧
  State.reset.pendA = none ∧ State.reset.pendX = none ∧ State.reset.pendY = none ∧ State.reset.pendS = none ∧
  State.reset.PC = cat (State.reset.mem.read 0xFFFD) (State.reset.mem.read 0xFFFC) ∧
  State.reset.i80.PC = 0x0000 ∧ State.reset.i80.INTE = false ∧ State.reset.i80.eiPending = false ∧
  State.reset.i80.halted = false ∧
  (∀ (p : Processor) (po : PowerOn) (mem : Memory), (State.constructed p po mem).i80 =
    { A := po.i80.A, B := po.i80.B, C := po.i80.C, D := po.i80.D, E := po.i80.E, H := po.i80.H, L := po.i80.L,
      SP := po.i80.SP, PC := 0x0000, fS := po.i80.fS, fZ := po.i80.fZ, fAC := po.i80.fAC, fP := po.i80.fP, fCY := po.i80.fCY,
      INTE := false, eiPending := false, halted := false,
      intrRequested := false, intrOpcode := 0, intrLo := 0, intrHi := 0 }) ∧
  (∀ s : State, reset8080 s =
    { s with i80 := { s.i80 with PC := 0x0000, INTE := false, eiPending := false, halted := false } })

/-- 20_memory.md R50, R53: a byte written is read back, every other byte reads as before, and every write keeps memory's
canonical form, equal memories being equal lists. -/
def Obligations.MemoryReadsBack : Prop :=
  ∀ (m : Memory) (a : Addr) (v : Byte), m.wf = true →
    (m.write a v).wf = true ∧ (m.write a v).read a = v ∧ (∀ b, b ≠ a → (m.write a v).read b = m.read b) ∧
    (∀ n : Memory, n.wf = true → (∀ b, n.read b = m.read b) → n = m)

/-- 30_encoding.md R80, R81, R84: the length of a 6502 instruction is that of its opcode's mode, 1 for JAM; and from every boundary
an instruction that does not itself set PC leaves PC that many bytes on, where the next opcode is being fetched. That decoding a
list of bytes takes exactly that many off, answers the term without its operand bytes, and rejects a list that ends before, is the
model's choice of form (log entry 21, DESIGN CHOICE). -/
def Obligations.InstructionLength : Prop :=
  (∀ op : Byte, ∃ m, (decode6502 op).mode = some m ∧
    length6502 op =
      if m ∈ [Mode.impl, .acc] then 1
      else if m ∈ [Mode.imm, .zp, .zpx, .zpy, .izx, .izy, .rel] then 2
      else 3) ∧
  (∀ (op : Byte) (k : Fin 12), decode6502 op = .jam k → length6502 op = 1) ∧
  (∀ (p : Processor) (op : Byte) (operands rest : List Byte), p ≠ .i8080 → operands.length + 1 = length6502 op →
    decode p (op :: operands ++ rest) = .instr (decode6502 op) rest) ∧
  (∀ (p : Processor) (op : Byte) (tail : List Byte), p ≠ .i8080 → tail.length + 1 < length6502 op →
    decode p (op :: tail) = .rejected (.truncated op)) ∧
  (∀ (s : State) (i : Instr) (op : Byte), Ready s → opcode6502 i = some op → i ∉ controlFlow → (∀ k, i ≠ .jam k) →
    ∃ t, exec i s = .next t ∧ t.PC = s.PC + BitVec.ofNat 16 (length6502 op) ∧ AtFetch t)
end

