-- ==== Sys2Proof/Laws/Bits.lean ====
section
/-! SUPPORT. The laws of the byte-order and address helpers. -/

namespace Sys2Proof.Machine

@[simp] theorem lo_cat (h l : Byte) : lo (cat h l) = l := BitVec.extractLsb'_append_eq_right

@[simp] theorem hi_cat (h l : Byte) : hi (cat h l) = h := BitVec.extractLsb'_append_eq_left

@[simp] theorem lo_zp (b : Byte) : lo (zp b) = b := lo_cat _ _

@[simp] theorem cat_hi_lo (a : Addr) : cat (hi a) (lo a) = a := by
  apply BitVec.eq_of_toNat_eq
  unfold cat hi lo
  rw [BitVec.toNat_append]
  simp only [BitVec.extractLsb'_toNat, Nat.shiftRight_eq_div_pow]
  have := a.isLt
  rw [← Nat.shiftLeft_add_eq_or_of_lt (by omega), Nat.shiftLeft_eq]
  omega

theorem add_one_one (a : Addr) : a + 1 + 1 = a + 2 := by rw [BitVec.add_assoc]; rfl

theorem byte_add_one_one (b : Byte) : b + 1 + 1 = b + 2 := by rw [BitVec.add_assoc]; rfl

theorem byte_add_two_one (b : Byte) : b + 2 + 1 = b + 3 := by rw [BitVec.add_assoc]; rfl

theorem byte_sub_two_one (b : Byte) : b - 2 - 1 = b - 3 := by rw [BitVec.sub_sub]; rfl

theorem byte_sub_one_one (b : Byte) : b - 1 - 1 = b - 2 := by rw [BitVec.sub_sub]; rfl

theorem add_two_one (a : Addr) : a + 2 + 1 = a + 3 := by rw [BitVec.add_assoc]; rfl

/-- Where no page is crossed, the address before the high byte is fixed is the address (41_addressing.md R166). -/
theorem unfixed_of_not_crossed {base : Addr} {i : Byte} (h : pageCrossed base i = false) :
    unfixed base i = indexAbs base i := by
  have h1 : hi (indexAbs base i) = hi base := by simpa [pageCrossed] using h
  rw [unfixed, ← h1, cat_hi_lo]

/-- The unindexed address from the indexed one. -/
theorem indexAbs_sub (base : Addr) (i : Byte) : indexAbs base i - zext16 i = base := by
  unfold indexAbs; exact BitVec.add_sub_cancel _ _

end Sys2Proof.Machine
end

