-- ==== Sys2Proof/Laws/Arith.lean ====
section
/-! SUPPORT. The ALU laws of Machine/Flags.lean as the arithmetic of Safety.lean: results as bytes, carries as comparisons,
overflows as integers out of range. -/

namespace Sys2Proof.Machine

theorem msb7 (x : Byte) : x.getLsbD 7 = decide (128 ≤ x.toNat) := by
  have h := BitVec.msb_eq_decide x
  rw [BitVec.msb_eq_getLsbD_last] at h
  simpa using h

theorem toInt8 (x : Byte) : x.toInt = if 128 ≤ x.toNat then (x.toNat : Int) - 256 else x.toNat := by
  rw [BitVec.toInt_eq_toNat_cond]
  have := x.isLt
  split <;> split <;> omega

theorem ofNat_addByte (a m : Byte) (c : Bool) : BitVec.ofNat 8 (a.toNat + m.toNat + bitNat c) = addByte a m c := by
  apply BitVec.eq_of_toNat_eq
  cases c <;> simp [addByte, carryByte, bitNat]

theorem addByte_not (a m : Byte) (c : Bool) : addByte a (~~~m) c = subByte a m c := by
  apply BitVec.eq_of_toNat_eq
  have := m.isLt
  cases c <;> simp [addByte, subByte, carryByte, BitVec.toNat_not] <;> omega

/-- The result of `adcBin` (43_alu.md R230). -/
theorem adcBin_r (a m : Byte) (c : Bool) : (adcBin a m c).r = addByte a m c := ofNat_addByte a m c

/-- The flags of `adcBin` (R230). -/
theorem setAlu_adcBin (a m : Byte) (c : Bool) (p : Flags) : setAlu (adcBin a m c) p = addFlags a m c p := by
  have hV : (~~~(a ^^^ m) &&& (a ^^^ addByte a m c)).getLsbD 7 = overflows (a.toInt + m.toInt + bitNat c) := by
    have hr : (addByte a m c).toNat = (a.toNat + m.toNat + bitNat c) % 256 := by rw [← ofNat_addByte]; rfl
    simp only [BitVec.getLsbD_and, BitVec.getLsbD_not, BitVec.getLsbD_xor, show (7 < 8) = True by simp, decide_true,
      Bool.true_and]
    simp only [msb7, hr, toInt8, overflows]
    have := a.isLt
    have := m.isLt
    have hc : bitNat c ≤ 1 := by cases c <;> decide
    by_cases h1 : 128 ≤ a.toNat <;> by_cases h2 : 128 ≤ m.toNat <;>
      by_cases h3 : 128 ≤ (a.toNat + m.toNat + bitNat c) % 256 <;>
      simp only [h1, h2, h3, decide_true, decide_false, if_true, if_false, Bool.xor_self, Bool.not_false, Bool.not_true,
        Bool.true_and, Bool.false_and, Bool.xor_false, Bool.xor_true] <;> symm <;>
      first | (apply decide_eq_true; omega) | (apply decide_eq_false; omega)
  unfold setAlu adcBin addFlags nz
  simp only [ofNat_addByte, hV]

/-- The result of `sbcBin` (R232). -/
theorem sbcBin_r (a m : Byte) (c : Bool) : (sbcBin a m c).r = subByte a m c := (adcBin_r a (~~~m) c).trans (addByte_not a m c)

/-- The flags of `sbcBin` (R232). -/
theorem setAlu_sbcBin (a m : Byte) (c : Bool) (p : Flags) : setAlu (sbcBin a m c) p = subFlags a m c p := by
  refine (setAlu_adcBin a (~~~m) c p).trans ?_
  unfold addFlags subFlags
  rw [addByte_not]
  have := a.isLt
  have := m.isLt
  have hn : (~~~m).toNat = 255 - m.toNat := by simp [BitVec.toNat_not]
  have hi : (~~~m).toInt = -1 - m.toInt := by rw [toInt8, toInt8, hn]; split <;> split <;> omega
  rw [hn, hi]
  have e1 : decide (256 ≤ a.toNat + (255 - m.toNat) + bitNat c) = decide (m.toNat + bitNat (!c) ≤ a.toNat) := by
    cases c <;> simp [bitNat] <;> omega
  have e2 : a.toInt + (-1 - m.toInt) + bitNat c = a.toInt - m.toInt - bitNat (!c) := by
    cases c <;> simp [bitNat] <;> omega
  rw [e1, e2]

/-- The flags of `cmp` (R234). -/
theorem setCmp_eq (r m : Byte) (p : Flags) : setCmp r m p = cmpFlags r m p := by
  have hz : (r = m) ↔ (r - m = 0x00) := by
    constructor
    · rintro rfl; exact BitVec.sub_self r
    · intro h; simpa using BitVec.sub_eq_iff_eq_add.mp h
  unfold setCmp cmpFlags nz
  rw [decide_eq_decide.mpr hz]

/-- `asl` (44_rmw.md R270). -/
theorem asl_eq (v : Byte) : asl v = (v + v, v.getLsbD 7) := by
  have : ∀ n : Fin (2 ^ 8), (BitVec.ofFin n : Byte) <<< 1 = (BitVec.ofFin n : Byte) + (BitVec.ofFin n : Byte) := by decide +kernel
  exact congrArg (·, v.getLsbD 7) (this v.toFin)

/-- `rol` (R270). -/
theorem rol_eq (v : Byte) (c : Bool) : rol v c = (v + v + carryByte c, v.getLsbD 7) := by
  have : ∀ n : Fin (2 ^ 8), ∀ c, ((BitVec.ofFin n : Byte) <<< 1) ||| bitAt c 0 = (BitVec.ofFin n : Byte) + (BitVec.ofFin n : Byte) + carryByte c := by decide +kernel
  exact congrArg (·, v.getLsbD 7) (this v.toFin c)

/-- `ror` (R270). -/
theorem ror_eq (v : Byte) (c : Bool) : ror v c = ((v >>> 1) + (if c then 0x80 else 0x00), v.getLsbD 0) := by
  have : ∀ n : Fin (2 ^ 8), ∀ c, ((BitVec.ofFin n : Byte) >>> 1) ||| bitAt c 7 = ((BitVec.ofFin n : Byte) >>> 1) + (if c then 0x80 else 0x00) := by
    decide +kernel
  exact congrArg (·, v.getLsbD 0) (this v.toFin c)

end Sys2Proof.Machine
end

