-- ==== Sys2Proof/Laws/State.lean ====
section
/-! SUPPORT. What each named update of the state does to each field: one lemma a field and update, so that no proof unfolds
a record update. -/

namespace Sys2Proof.Machine

/-! ### commit -/

@[simp] theorem commit_proc (s : State) : (commit s).proc = s.proc := rfl
@[simp] theorem commit_A (s : State) : (commit s).A = s.pendA.getD s.A := rfl
@[simp] theorem commit_X (s : State) : (commit s).X = s.pendX.getD s.X := rfl
@[simp] theorem commit_Y (s : State) : (commit s).Y = s.pendY.getD s.Y := rfl
@[simp] theorem commit_S (s : State) : (commit s).S = s.pendS.getD s.S := rfl
@[simp] theorem commit_PC (s : State) : (commit s).PC = s.PC := rfl
@[simp] theorem commit_P (s : State) : (commit s).P = s.P := rfl
@[simp] theorem commit_pins (s : State) : (commit s).pins = s.pins := rfl
@[simp] theorem commit_phase (s : State) : (commit s).phase = s.phase := rfl
@[simp] theorem commit_IR (s : State) : (commit s).IR = s.IR := rfl
@[simp] theorem commit_T (s : State) : (commit s).T = s.T := rfl
@[simp] theorem commit_AD (s : State) : (commit s).AD = s.AD := rfl
@[simp] theorem commit_TMP (s : State) : (commit s).TMP = s.TMP := rfl
@[simp] theorem commit_SS (s : State) : (commit s).SS = s.SS := rfl
@[simp] theorem commit_pendA (s : State) : (commit s).pendA = none := rfl
@[simp] theorem commit_pendX (s : State) : (commit s).pendX = none := rfl
@[simp] theorem commit_pendY (s : State) : (commit s).pendY = none := rfl
@[simp] theorem commit_pendS (s : State) : (commit s).pendS = none := rfl
@[simp] theorem commit_dout (s : State) : (commit s).dout = s.dout := rfl
@[simp] theorem commit_rstCnt (s : State) : (commit s).rstCnt = s.rstCnt := rfl
@[simp] theorem commit_nmiLatch (s : State) : (commit s).nmiLatch = s.nmiLatch := rfl
@[simp] theorem commit_irqLatch (s : State) : (commit s).irqLatch = s.irqLatch := rfl
@[simp] theorem commit_nmiPrev (s : State) : (commit s).nmiPrev = s.nmiPrev := rfl
@[simp] theorem commit_intent (s : State) : (commit s).intent = s.intent := rfl
@[simp] theorem commit_resHeld (s : State) : (commit s).resHeld = s.resHeld := rfl
@[simp] theorem commit_jammed (s : State) : (commit s).jammed = s.jammed := rfl
@[simp] theorem commit_divider (s : State) : (commit s).divider = s.divider := rfl
@[simp] theorem commit_mem (s : State) : (commit s).mem = s.mem := rfl
@[simp] theorem commit_callerQ (s : State) : (commit s).callerQ = s.callerQ := rfl
@[simp] theorem commit_trace (s : State) : (commit s).trace = s.trace := rfl
@[simp] theorem commit_i80 (s : State) : (commit s).i80 = s.i80 := rfl
@[simp] theorem commit_hostQ (s : State) : (commit s).hostQ = s.hostQ := rfl
@[simp] theorem commit_io (s : State) : (commit s).io = s.io := rfl

/-! ### deferA -/

@[simp] theorem deferA_proc (v : Byte) (s : State) : (deferA v s).proc = s.proc := rfl
@[simp] theorem deferA_A (v : Byte) (s : State) : (deferA v s).A = s.A := rfl
@[simp] theorem deferA_X (v : Byte) (s : State) : (deferA v s).X = s.X := rfl
@[simp] theorem deferA_Y (v : Byte) (s : State) : (deferA v s).Y = s.Y := rfl
@[simp] theorem deferA_S (v : Byte) (s : State) : (deferA v s).S = s.S := rfl
@[simp] theorem deferA_PC (v : Byte) (s : State) : (deferA v s).PC = s.PC := rfl
@[simp] theorem deferA_P (v : Byte) (s : State) : (deferA v s).P = s.P := rfl
@[simp] theorem deferA_pins (v : Byte) (s : State) : (deferA v s).pins = s.pins := rfl
@[simp] theorem deferA_phase (v : Byte) (s : State) : (deferA v s).phase = s.phase := rfl
@[simp] theorem deferA_IR (v : Byte) (s : State) : (deferA v s).IR = s.IR := rfl
@[simp] theorem deferA_T (v : Byte) (s : State) : (deferA v s).T = s.T := rfl
@[simp] theorem deferA_AD (v : Byte) (s : State) : (deferA v s).AD = s.AD := rfl
@[simp] theorem deferA_TMP (v : Byte) (s : State) : (deferA v s).TMP = s.TMP := rfl
@[simp] theorem deferA_SS (v : Byte) (s : State) : (deferA v s).SS = s.SS := rfl
@[simp] theorem deferA_pendA (v : Byte) (s : State) : (deferA v s).pendA = some v := rfl
@[simp] theorem deferA_pendX (v : Byte) (s : State) : (deferA v s).pendX = s.pendX := rfl
@[simp] theorem deferA_pendY (v : Byte) (s : State) : (deferA v s).pendY = s.pendY := rfl
@[simp] theorem deferA_pendS (v : Byte) (s : State) : (deferA v s).pendS = s.pendS := rfl
@[simp] theorem deferA_dout (v : Byte) (s : State) : (deferA v s).dout = s.dout := rfl
@[simp] theorem deferA_rstCnt (v : Byte) (s : State) : (deferA v s).rstCnt = s.rstCnt := rfl
@[simp] theorem deferA_nmiLatch (v : Byte) (s : State) : (deferA v s).nmiLatch = s.nmiLatch := rfl
@[simp] theorem deferA_irqLatch (v : Byte) (s : State) : (deferA v s).irqLatch = s.irqLatch := rfl
@[simp] theorem deferA_nmiPrev (v : Byte) (s : State) : (deferA v s).nmiPrev = s.nmiPrev := rfl
@[simp] theorem deferA_intent (v : Byte) (s : State) : (deferA v s).intent = s.intent := rfl
@[simp] theorem deferA_resHeld (v : Byte) (s : State) : (deferA v s).resHeld = s.resHeld := rfl
@[simp] theorem deferA_jammed (v : Byte) (s : State) : (deferA v s).jammed = s.jammed := rfl
@[simp] theorem deferA_divider (v : Byte) (s : State) : (deferA v s).divider = s.divider := rfl
@[simp] theorem deferA_mem (v : Byte) (s : State) : (deferA v s).mem = s.mem := rfl
@[simp] theorem deferA_callerQ (v : Byte) (s : State) : (deferA v s).callerQ = s.callerQ := rfl
@[simp] theorem deferA_trace (v : Byte) (s : State) : (deferA v s).trace = s.trace := rfl
@[simp] theorem deferA_i80 (v : Byte) (s : State) : (deferA v s).i80 = s.i80 := rfl
@[simp] theorem deferA_hostQ (v : Byte) (s : State) : (deferA v s).hostQ = s.hostQ := rfl
@[simp] theorem deferA_io (v : Byte) (s : State) : (deferA v s).io = s.io := rfl

/-! ### deferX -/

@[simp] theorem deferX_proc (v : Byte) (s : State) : (deferX v s).proc = s.proc := rfl
@[simp] theorem deferX_A (v : Byte) (s : State) : (deferX v s).A = s.A := rfl
@[simp] theorem deferX_X (v : Byte) (s : State) : (deferX v s).X = s.X := rfl
@[simp] theorem deferX_Y (v : Byte) (s : State) : (deferX v s).Y = s.Y := rfl
@[simp] theorem deferX_S (v : Byte) (s : State) : (deferX v s).S = s.S := rfl
@[simp] theorem deferX_PC (v : Byte) (s : State) : (deferX v s).PC = s.PC := rfl
@[simp] theorem deferX_P (v : Byte) (s : State) : (deferX v s).P = s.P := rfl
@[simp] theorem deferX_pins (v : Byte) (s : State) : (deferX v s).pins = s.pins := rfl
@[simp] theorem deferX_phase (v : Byte) (s : State) : (deferX v s).phase = s.phase := rfl
@[simp] theorem deferX_IR (v : Byte) (s : State) : (deferX v s).IR = s.IR := rfl
@[simp] theorem deferX_T (v : Byte) (s : State) : (deferX v s).T = s.T := rfl
@[simp] theorem deferX_AD (v : Byte) (s : State) : (deferX v s).AD = s.AD := rfl
@[simp] theorem deferX_TMP (v : Byte) (s : State) : (deferX v s).TMP = s.TMP := rfl
@[simp] theorem deferX_SS (v : Byte) (s : State) : (deferX v s).SS = s.SS := rfl
@[simp] theorem deferX_pendA (v : Byte) (s : State) : (deferX v s).pendA = s.pendA := rfl
@[simp] theorem deferX_pendX (v : Byte) (s : State) : (deferX v s).pendX = some v := rfl
@[simp] theorem deferX_pendY (v : Byte) (s : State) : (deferX v s).pendY = s.pendY := rfl
@[simp] theorem deferX_pendS (v : Byte) (s : State) : (deferX v s).pendS = s.pendS := rfl
@[simp] theorem deferX_dout (v : Byte) (s : State) : (deferX v s).dout = s.dout := rfl
@[simp] theorem deferX_rstCnt (v : Byte) (s : State) : (deferX v s).rstCnt = s.rstCnt := rfl
@[simp] theorem deferX_nmiLatch (v : Byte) (s : State) : (deferX v s).nmiLatch = s.nmiLatch := rfl
@[simp] theorem deferX_irqLatch (v : Byte) (s : State) : (deferX v s).irqLatch = s.irqLatch := rfl
@[simp] theorem deferX_nmiPrev (v : Byte) (s : State) : (deferX v s).nmiPrev = s.nmiPrev := rfl
@[simp] theorem deferX_intent (v : Byte) (s : State) : (deferX v s).intent = s.intent := rfl
@[simp] theorem deferX_resHeld (v : Byte) (s : State) : (deferX v s).resHeld = s.resHeld := rfl
@[simp] theorem deferX_jammed (v : Byte) (s : State) : (deferX v s).jammed = s.jammed := rfl
@[simp] theorem deferX_divider (v : Byte) (s : State) : (deferX v s).divider = s.divider := rfl
@[simp] theorem deferX_mem (v : Byte) (s : State) : (deferX v s).mem = s.mem := rfl
@[simp] theorem deferX_callerQ (v : Byte) (s : State) : (deferX v s).callerQ = s.callerQ := rfl
@[simp] theorem deferX_trace (v : Byte) (s : State) : (deferX v s).trace = s.trace := rfl
@[simp] theorem deferX_i80 (v : Byte) (s : State) : (deferX v s).i80 = s.i80 := rfl
@[simp] theorem deferX_hostQ (v : Byte) (s : State) : (deferX v s).hostQ = s.hostQ := rfl
@[simp] theorem deferX_io (v : Byte) (s : State) : (deferX v s).io = s.io := rfl

/-! ### deferY -/

@[simp] theorem deferY_proc (v : Byte) (s : State) : (deferY v s).proc = s.proc := rfl
@[simp] theorem deferY_A (v : Byte) (s : State) : (deferY v s).A = s.A := rfl
@[simp] theorem deferY_X (v : Byte) (s : State) : (deferY v s).X = s.X := rfl
@[simp] theorem deferY_Y (v : Byte) (s : State) : (deferY v s).Y = s.Y := rfl
@[simp] theorem deferY_S (v : Byte) (s : State) : (deferY v s).S = s.S := rfl
@[simp] theorem deferY_PC (v : Byte) (s : State) : (deferY v s).PC = s.PC := rfl
@[simp] theorem deferY_P (v : Byte) (s : State) : (deferY v s).P = s.P := rfl
@[simp] theorem deferY_pins (v : Byte) (s : State) : (deferY v s).pins = s.pins := rfl
@[simp] theorem deferY_phase (v : Byte) (s : State) : (deferY v s).phase = s.phase := rfl
@[simp] theorem deferY_IR (v : Byte) (s : State) : (deferY v s).IR = s.IR := rfl
@[simp] theorem deferY_T (v : Byte) (s : State) : (deferY v s).T = s.T := rfl
@[simp] theorem deferY_AD (v : Byte) (s : State) : (deferY v s).AD = s.AD := rfl
@[simp] theorem deferY_TMP (v : Byte) (s : State) : (deferY v s).TMP = s.TMP := rfl
@[simp] theorem deferY_SS (v : Byte) (s : State) : (deferY v s).SS = s.SS := rfl
@[simp] theorem deferY_pendA (v : Byte) (s : State) : (deferY v s).pendA = s.pendA := rfl
@[simp] theorem deferY_pendX (v : Byte) (s : State) : (deferY v s).pendX = s.pendX := rfl
@[simp] theorem deferY_pendY (v : Byte) (s : State) : (deferY v s).pendY = some v := rfl
@[simp] theorem deferY_pendS (v : Byte) (s : State) : (deferY v s).pendS = s.pendS := rfl
@[simp] theorem deferY_dout (v : Byte) (s : State) : (deferY v s).dout = s.dout := rfl
@[simp] theorem deferY_rstCnt (v : Byte) (s : State) : (deferY v s).rstCnt = s.rstCnt := rfl
@[simp] theorem deferY_nmiLatch (v : Byte) (s : State) : (deferY v s).nmiLatch = s.nmiLatch := rfl
@[simp] theorem deferY_irqLatch (v : Byte) (s : State) : (deferY v s).irqLatch = s.irqLatch := rfl
@[simp] theorem deferY_nmiPrev (v : Byte) (s : State) : (deferY v s).nmiPrev = s.nmiPrev := rfl
@[simp] theorem deferY_intent (v : Byte) (s : State) : (deferY v s).intent = s.intent := rfl
@[simp] theorem deferY_resHeld (v : Byte) (s : State) : (deferY v s).resHeld = s.resHeld := rfl
@[simp] theorem deferY_jammed (v : Byte) (s : State) : (deferY v s).jammed = s.jammed := rfl
@[simp] theorem deferY_divider (v : Byte) (s : State) : (deferY v s).divider = s.divider := rfl
@[simp] theorem deferY_mem (v : Byte) (s : State) : (deferY v s).mem = s.mem := rfl
@[simp] theorem deferY_callerQ (v : Byte) (s : State) : (deferY v s).callerQ = s.callerQ := rfl
@[simp] theorem deferY_trace (v : Byte) (s : State) : (deferY v s).trace = s.trace := rfl
@[simp] theorem deferY_i80 (v : Byte) (s : State) : (deferY v s).i80 = s.i80 := rfl
@[simp] theorem deferY_hostQ (v : Byte) (s : State) : (deferY v s).hostQ = s.hostQ := rfl
@[simp] theorem deferY_io (v : Byte) (s : State) : (deferY v s).io = s.io := rfl

/-! ### deferS -/

@[simp] theorem deferS_proc (v : Byte) (s : State) : (deferS v s).proc = s.proc := rfl
@[simp] theorem deferS_A (v : Byte) (s : State) : (deferS v s).A = s.A := rfl
@[simp] theorem deferS_X (v : Byte) (s : State) : (deferS v s).X = s.X := rfl
@[simp] theorem deferS_Y (v : Byte) (s : State) : (deferS v s).Y = s.Y := rfl
@[simp] theorem deferS_S (v : Byte) (s : State) : (deferS v s).S = s.S := rfl
@[simp] theorem deferS_PC (v : Byte) (s : State) : (deferS v s).PC = s.PC := rfl
@[simp] theorem deferS_P (v : Byte) (s : State) : (deferS v s).P = s.P := rfl
@[simp] theorem deferS_pins (v : Byte) (s : State) : (deferS v s).pins = s.pins := rfl
@[simp] theorem deferS_phase (v : Byte) (s : State) : (deferS v s).phase = s.phase := rfl
@[simp] theorem deferS_IR (v : Byte) (s : State) : (deferS v s).IR = s.IR := rfl
@[simp] theorem deferS_T (v : Byte) (s : State) : (deferS v s).T = s.T := rfl
@[simp] theorem deferS_AD (v : Byte) (s : State) : (deferS v s).AD = s.AD := rfl
@[simp] theorem deferS_TMP (v : Byte) (s : State) : (deferS v s).TMP = s.TMP := rfl
@[simp] theorem deferS_SS (v : Byte) (s : State) : (deferS v s).SS = s.SS := rfl
@[simp] theorem deferS_pendA (v : Byte) (s : State) : (deferS v s).pendA = s.pendA := rfl
@[simp] theorem deferS_pendX (v : Byte) (s : State) : (deferS v s).pendX = s.pendX := rfl
@[simp] theorem deferS_pendY (v : Byte) (s : State) : (deferS v s).pendY = s.pendY := rfl
@[simp] theorem deferS_pendS (v : Byte) (s : State) : (deferS v s).pendS = some v := rfl
@[simp] theorem deferS_dout (v : Byte) (s : State) : (deferS v s).dout = s.dout := rfl
@[simp] theorem deferS_rstCnt (v : Byte) (s : State) : (deferS v s).rstCnt = s.rstCnt := rfl
@[simp] theorem deferS_nmiLatch (v : Byte) (s : State) : (deferS v s).nmiLatch = s.nmiLatch := rfl
@[simp] theorem deferS_irqLatch (v : Byte) (s : State) : (deferS v s).irqLatch = s.irqLatch := rfl
@[simp] theorem deferS_nmiPrev (v : Byte) (s : State) : (deferS v s).nmiPrev = s.nmiPrev := rfl
@[simp] theorem deferS_intent (v : Byte) (s : State) : (deferS v s).intent = s.intent := rfl
@[simp] theorem deferS_resHeld (v : Byte) (s : State) : (deferS v s).resHeld = s.resHeld := rfl
@[simp] theorem deferS_jammed (v : Byte) (s : State) : (deferS v s).jammed = s.jammed := rfl
@[simp] theorem deferS_divider (v : Byte) (s : State) : (deferS v s).divider = s.divider := rfl
@[simp] theorem deferS_mem (v : Byte) (s : State) : (deferS v s).mem = s.mem := rfl
@[simp] theorem deferS_callerQ (v : Byte) (s : State) : (deferS v s).callerQ = s.callerQ := rfl
@[simp] theorem deferS_trace (v : Byte) (s : State) : (deferS v s).trace = s.trace := rfl
@[simp] theorem deferS_i80 (v : Byte) (s : State) : (deferS v s).i80 = s.i80 := rfl
@[simp] theorem deferS_hostQ (v : Byte) (s : State) : (deferS v s).hostQ = s.hostQ := rfl
@[simp] theorem deferS_io (v : Byte) (s : State) : (deferS v s).io = s.io := rfl

/-! ### setP -/

@[simp] theorem setP_proc (p : Flags) (s : State) : (setP p s).proc = s.proc := rfl
@[simp] theorem setP_A (p : Flags) (s : State) : (setP p s).A = s.A := rfl
@[simp] theorem setP_X (p : Flags) (s : State) : (setP p s).X = s.X := rfl
@[simp] theorem setP_Y (p : Flags) (s : State) : (setP p s).Y = s.Y := rfl
@[simp] theorem setP_S (p : Flags) (s : State) : (setP p s).S = s.S := rfl
@[simp] theorem setP_PC (p : Flags) (s : State) : (setP p s).PC = s.PC := rfl
@[simp] theorem setP_P (p : Flags) (s : State) : (setP p s).P = p := rfl
@[simp] theorem setP_pins (p : Flags) (s : State) : (setP p s).pins = s.pins := rfl
@[simp] theorem setP_phase (p : Flags) (s : State) : (setP p s).phase = s.phase := rfl
@[simp] theorem setP_IR (p : Flags) (s : State) : (setP p s).IR = s.IR := rfl
@[simp] theorem setP_T (p : Flags) (s : State) : (setP p s).T = s.T := rfl
@[simp] theorem setP_AD (p : Flags) (s : State) : (setP p s).AD = s.AD := rfl
@[simp] theorem setP_TMP (p : Flags) (s : State) : (setP p s).TMP = s.TMP := rfl
@[simp] theorem setP_SS (p : Flags) (s : State) : (setP p s).SS = s.SS := rfl
@[simp] theorem setP_pendA (p : Flags) (s : State) : (setP p s).pendA = s.pendA := rfl
@[simp] theorem setP_pendX (p : Flags) (s : State) : (setP p s).pendX = s.pendX := rfl
@[simp] theorem setP_pendY (p : Flags) (s : State) : (setP p s).pendY = s.pendY := rfl
@[simp] theorem setP_pendS (p : Flags) (s : State) : (setP p s).pendS = s.pendS := rfl
@[simp] theorem setP_dout (p : Flags) (s : State) : (setP p s).dout = s.dout := rfl
@[simp] theorem setP_rstCnt (p : Flags) (s : State) : (setP p s).rstCnt = s.rstCnt := rfl
@[simp] theorem setP_nmiLatch (p : Flags) (s : State) : (setP p s).nmiLatch = s.nmiLatch := rfl
@[simp] theorem setP_irqLatch (p : Flags) (s : State) : (setP p s).irqLatch = s.irqLatch := rfl
@[simp] theorem setP_nmiPrev (p : Flags) (s : State) : (setP p s).nmiPrev = s.nmiPrev := rfl
@[simp] theorem setP_intent (p : Flags) (s : State) : (setP p s).intent = s.intent := rfl
@[simp] theorem setP_resHeld (p : Flags) (s : State) : (setP p s).resHeld = s.resHeld := rfl
@[simp] theorem setP_jammed (p : Flags) (s : State) : (setP p s).jammed = s.jammed := rfl
@[simp] theorem setP_divider (p : Flags) (s : State) : (setP p s).divider = s.divider := rfl
@[simp] theorem setP_mem (p : Flags) (s : State) : (setP p s).mem = s.mem := rfl
@[simp] theorem setP_callerQ (p : Flags) (s : State) : (setP p s).callerQ = s.callerQ := rfl
@[simp] theorem setP_trace (p : Flags) (s : State) : (setP p s).trace = s.trace := rfl
@[simp] theorem setP_i80 (p : Flags) (s : State) : (setP p s).i80 = s.i80 := rfl
@[simp] theorem setP_hostQ (p : Flags) (s : State) : (setP p s).hostQ = s.hostQ := rfl
@[simp] theorem setP_io (p : Flags) (s : State) : (setP p s).io = s.io := rfl

/-! ### busRead -/

@[simp] theorem busRead_proc (a : Addr) (s : State) : (busRead a s).proc = s.proc := rfl
@[simp] theorem busRead_A (a : Addr) (s : State) : (busRead a s).A = s.A := rfl
@[simp] theorem busRead_X (a : Addr) (s : State) : (busRead a s).X = s.X := rfl
@[simp] theorem busRead_Y (a : Addr) (s : State) : (busRead a s).Y = s.Y := rfl
@[simp] theorem busRead_S (a : Addr) (s : State) : (busRead a s).S = s.S := rfl
@[simp] theorem busRead_PC (a : Addr) (s : State) : (busRead a s).PC = s.PC := rfl
@[simp] theorem busRead_P (a : Addr) (s : State) : (busRead a s).P = s.P := rfl
@[simp] theorem busRead_pins (a : Addr) (s : State) : (busRead a s).pins = { s.pins with addr := a, rw := true } := rfl
@[simp] theorem busRead_phase (a : Addr) (s : State) : (busRead a s).phase = s.phase := rfl
@[simp] theorem busRead_IR (a : Addr) (s : State) : (busRead a s).IR = s.IR := rfl
@[simp] theorem busRead_T (a : Addr) (s : State) : (busRead a s).T = s.T := rfl
@[simp] theorem busRead_AD (a : Addr) (s : State) : (busRead a s).AD = s.AD := rfl
@[simp] theorem busRead_TMP (a : Addr) (s : State) : (busRead a s).TMP = s.TMP := rfl
@[simp] theorem busRead_SS (a : Addr) (s : State) : (busRead a s).SS = s.SS := rfl
@[simp] theorem busRead_pendA (a : Addr) (s : State) : (busRead a s).pendA = s.pendA := rfl
@[simp] theorem busRead_pendX (a : Addr) (s : State) : (busRead a s).pendX = s.pendX := rfl
@[simp] theorem busRead_pendY (a : Addr) (s : State) : (busRead a s).pendY = s.pendY := rfl
@[simp] theorem busRead_pendS (a : Addr) (s : State) : (busRead a s).pendS = s.pendS := rfl
@[simp] theorem busRead_dout (a : Addr) (s : State) : (busRead a s).dout = s.dout := rfl
@[simp] theorem busRead_rstCnt (a : Addr) (s : State) : (busRead a s).rstCnt = s.rstCnt := rfl
@[simp] theorem busRead_nmiLatch (a : Addr) (s : State) : (busRead a s).nmiLatch = s.nmiLatch := rfl
@[simp] theorem busRead_irqLatch (a : Addr) (s : State) : (busRead a s).irqLatch = s.irqLatch := rfl
@[simp] theorem busRead_nmiPrev (a : Addr) (s : State) : (busRead a s).nmiPrev = s.nmiPrev := rfl
@[simp] theorem busRead_intent (a : Addr) (s : State) : (busRead a s).intent = s.intent := rfl
@[simp] theorem busRead_resHeld (a : Addr) (s : State) : (busRead a s).resHeld = s.resHeld := rfl
@[simp] theorem busRead_jammed (a : Addr) (s : State) : (busRead a s).jammed = s.jammed := rfl
@[simp] theorem busRead_divider (a : Addr) (s : State) : (busRead a s).divider = s.divider := rfl
@[simp] theorem busRead_mem (a : Addr) (s : State) : (busRead a s).mem = s.mem := rfl
@[simp] theorem busRead_callerQ (a : Addr) (s : State) : (busRead a s).callerQ = s.callerQ := rfl
@[simp] theorem busRead_trace (a : Addr) (s : State) : (busRead a s).trace = s.trace := rfl
@[simp] theorem busRead_i80 (a : Addr) (s : State) : (busRead a s).i80 = s.i80 := rfl
@[simp] theorem busRead_hostQ (a : Addr) (s : State) : (busRead a s).hostQ = s.hostQ := rfl
@[simp] theorem busRead_io (a : Addr) (s : State) : (busRead a s).io = s.io := rfl

/-! ### busWrite -/

@[simp] theorem busWrite_proc (a : Addr) (v : Byte) (s : State) : (busWrite a v s).proc = s.proc := rfl
@[simp] theorem busWrite_A (a : Addr) (v : Byte) (s : State) : (busWrite a v s).A = s.A := rfl
@[simp] theorem busWrite_X (a : Addr) (v : Byte) (s : State) : (busWrite a v s).X = s.X := rfl
@[simp] theorem busWrite_Y (a : Addr) (v : Byte) (s : State) : (busWrite a v s).Y = s.Y := rfl
@[simp] theorem busWrite_S (a : Addr) (v : Byte) (s : State) : (busWrite a v s).S = s.S := rfl
@[simp] theorem busWrite_PC (a : Addr) (v : Byte) (s : State) : (busWrite a v s).PC = s.PC := rfl
@[simp] theorem busWrite_P (a : Addr) (v : Byte) (s : State) : (busWrite a v s).P = s.P := rfl
@[simp] theorem busWrite_pins (a : Addr) (v : Byte) (s : State) : (busWrite a v s).pins = { s.pins with addr := a, rw := false } := rfl
@[simp] theorem busWrite_phase (a : Addr) (v : Byte) (s : State) : (busWrite a v s).phase = s.phase := rfl
@[simp] theorem busWrite_IR (a : Addr) (v : Byte) (s : State) : (busWrite a v s).IR = s.IR := rfl
@[simp] theorem busWrite_T (a : Addr) (v : Byte) (s : State) : (busWrite a v s).T = s.T := rfl
@[simp] theorem busWrite_AD (a : Addr) (v : Byte) (s : State) : (busWrite a v s).AD = s.AD := rfl
@[simp] theorem busWrite_TMP (a : Addr) (v : Byte) (s : State) : (busWrite a v s).TMP = s.TMP := rfl
@[simp] theorem busWrite_SS (a : Addr) (v : Byte) (s : State) : (busWrite a v s).SS = s.SS := rfl
@[simp] theorem busWrite_pendA (a : Addr) (v : Byte) (s : State) : (busWrite a v s).pendA = s.pendA := rfl
@[simp] theorem busWrite_pendX (a : Addr) (v : Byte) (s : State) : (busWrite a v s).pendX = s.pendX := rfl
@[simp] theorem busWrite_pendY (a : Addr) (v : Byte) (s : State) : (busWrite a v s).pendY = s.pendY := rfl
@[simp] theorem busWrite_pendS (a : Addr) (v : Byte) (s : State) : (busWrite a v s).pendS = s.pendS := rfl
@[simp] theorem busWrite_dout (a : Addr) (v : Byte) (s : State) : (busWrite a v s).dout = some v := rfl
@[simp] theorem busWrite_rstCnt (a : Addr) (v : Byte) (s : State) : (busWrite a v s).rstCnt = s.rstCnt := rfl
@[simp] theorem busWrite_nmiLatch (a : Addr) (v : Byte) (s : State) : (busWrite a v s).nmiLatch = s.nmiLatch := rfl
@[simp] theorem busWrite_irqLatch (a : Addr) (v : Byte) (s : State) : (busWrite a v s).irqLatch = s.irqLatch := rfl
@[simp] theorem busWrite_nmiPrev (a : Addr) (v : Byte) (s : State) : (busWrite a v s).nmiPrev = s.nmiPrev := rfl
@[simp] theorem busWrite_intent (a : Addr) (v : Byte) (s : State) : (busWrite a v s).intent = s.intent := rfl
@[simp] theorem busWrite_resHeld (a : Addr) (v : Byte) (s : State) : (busWrite a v s).resHeld = s.resHeld := rfl
@[simp] theorem busWrite_jammed (a : Addr) (v : Byte) (s : State) : (busWrite a v s).jammed = s.jammed := rfl
@[simp] theorem busWrite_divider (a : Addr) (v : Byte) (s : State) : (busWrite a v s).divider = s.divider := rfl
@[simp] theorem busWrite_mem (a : Addr) (v : Byte) (s : State) : (busWrite a v s).mem = s.mem := rfl
@[simp] theorem busWrite_callerQ (a : Addr) (v : Byte) (s : State) : (busWrite a v s).callerQ = s.callerQ := rfl
@[simp] theorem busWrite_trace (a : Addr) (v : Byte) (s : State) : (busWrite a v s).trace = s.trace := rfl
@[simp] theorem busWrite_i80 (a : Addr) (v : Byte) (s : State) : (busWrite a v s).i80 = s.i80 := rfl
@[simp] theorem busWrite_hostQ (a : Addr) (v : Byte) (s : State) : (busWrite a v s).hostQ = s.hostQ := rfl
@[simp] theorem busWrite_io (a : Addr) (v : Byte) (s : State) : (busWrite a v s).io = s.io := rfl

/-! ### fetch -/

@[simp] theorem fetch_proc (a : Addr) (s : State) : (fetch a s).proc = s.proc := rfl
@[simp] theorem fetch_A (a : Addr) (s : State) : (fetch a s).A = s.A := rfl
@[simp] theorem fetch_X (a : Addr) (s : State) : (fetch a s).X = s.X := rfl
@[simp] theorem fetch_Y (a : Addr) (s : State) : (fetch a s).Y = s.Y := rfl
@[simp] theorem fetch_S (a : Addr) (s : State) : (fetch a s).S = s.S := rfl
@[simp] theorem fetch_PC (a : Addr) (s : State) : (fetch a s).PC = s.PC := rfl
@[simp] theorem fetch_P (a : Addr) (s : State) : (fetch a s).P = s.P := rfl
@[simp] theorem fetch_pins (a : Addr) (s : State) : (fetch a s).pins = { s.pins with addr := a, rw := true, sync := true } := rfl
@[simp] theorem fetch_phase (a : Addr) (s : State) : (fetch a s).phase = s.phase := rfl
@[simp] theorem fetch_IR (a : Addr) (s : State) : (fetch a s).IR = s.IR := rfl
@[simp] theorem fetch_T (a : Addr) (s : State) : (fetch a s).T = s.T := rfl
@[simp] theorem fetch_AD (a : Addr) (s : State) : (fetch a s).AD = s.AD := rfl
@[simp] theorem fetch_TMP (a : Addr) (s : State) : (fetch a s).TMP = s.TMP := rfl
@[simp] theorem fetch_SS (a : Addr) (s : State) : (fetch a s).SS = s.SS := rfl
@[simp] theorem fetch_pendA (a : Addr) (s : State) : (fetch a s).pendA = s.pendA := rfl
@[simp] theorem fetch_pendX (a : Addr) (s : State) : (fetch a s).pendX = s.pendX := rfl
@[simp] theorem fetch_pendY (a : Addr) (s : State) : (fetch a s).pendY = s.pendY := rfl
@[simp] theorem fetch_pendS (a : Addr) (s : State) : (fetch a s).pendS = s.pendS := rfl
@[simp] theorem fetch_dout (a : Addr) (s : State) : (fetch a s).dout = s.dout := rfl
@[simp] theorem fetch_rstCnt (a : Addr) (s : State) : (fetch a s).rstCnt = s.rstCnt := rfl
@[simp] theorem fetch_nmiLatch (a : Addr) (s : State) : (fetch a s).nmiLatch = s.nmiLatch := rfl
@[simp] theorem fetch_irqLatch (a : Addr) (s : State) : (fetch a s).irqLatch = s.irqLatch := rfl
@[simp] theorem fetch_nmiPrev (a : Addr) (s : State) : (fetch a s).nmiPrev = s.nmiPrev := rfl
@[simp] theorem fetch_intent (a : Addr) (s : State) : (fetch a s).intent = s.intent := rfl
@[simp] theorem fetch_resHeld (a : Addr) (s : State) : (fetch a s).resHeld = s.resHeld := rfl
@[simp] theorem fetch_jammed (a : Addr) (s : State) : (fetch a s).jammed = s.jammed := rfl
@[simp] theorem fetch_divider (a : Addr) (s : State) : (fetch a s).divider = s.divider := rfl
@[simp] theorem fetch_mem (a : Addr) (s : State) : (fetch a s).mem = s.mem := rfl
@[simp] theorem fetch_callerQ (a : Addr) (s : State) : (fetch a s).callerQ = s.callerQ := rfl
@[simp] theorem fetch_trace (a : Addr) (s : State) : (fetch a s).trace = s.trace := rfl
@[simp] theorem fetch_i80 (a : Addr) (s : State) : (fetch a s).i80 = s.i80 := rfl
@[simp] theorem fetch_hostQ (a : Addr) (s : State) : (fetch a s).hostQ = s.hostQ := rfl
@[simp] theorem fetch_io (a : Addr) (s : State) : (fetch a s).io = s.io := rfl

/-! ### readOperand -/

@[simp] theorem readOperand_proc (s : State) : (readOperand s).proc = s.proc := rfl
@[simp] theorem readOperand_A (s : State) : (readOperand s).A = s.A := rfl
@[simp] theorem readOperand_X (s : State) : (readOperand s).X = s.X := rfl
@[simp] theorem readOperand_Y (s : State) : (readOperand s).Y = s.Y := rfl
@[simp] theorem readOperand_S (s : State) : (readOperand s).S = s.S := rfl
@[simp] theorem readOperand_PC (s : State) : (readOperand s).PC = s.PC + 1 := rfl
@[simp] theorem readOperand_P (s : State) : (readOperand s).P = s.P := rfl
@[simp] theorem readOperand_pins (s : State) : (readOperand s).pins = { s.pins with addr := s.PC, rw := true } := rfl
@[simp] theorem readOperand_phase (s : State) : (readOperand s).phase = s.phase := rfl
@[simp] theorem readOperand_IR (s : State) : (readOperand s).IR = s.IR := rfl
@[simp] theorem readOperand_T (s : State) : (readOperand s).T = s.T := rfl
@[simp] theorem readOperand_AD (s : State) : (readOperand s).AD = s.AD := rfl
@[simp] theorem readOperand_TMP (s : State) : (readOperand s).TMP = s.TMP := rfl
@[simp] theorem readOperand_SS (s : State) : (readOperand s).SS = s.SS := rfl
@[simp] theorem readOperand_pendA (s : State) : (readOperand s).pendA = s.pendA := rfl
@[simp] theorem readOperand_pendX (s : State) : (readOperand s).pendX = s.pendX := rfl
@[simp] theorem readOperand_pendY (s : State) : (readOperand s).pendY = s.pendY := rfl
@[simp] theorem readOperand_pendS (s : State) : (readOperand s).pendS = s.pendS := rfl
@[simp] theorem readOperand_dout (s : State) : (readOperand s).dout = s.dout := rfl
@[simp] theorem readOperand_rstCnt (s : State) : (readOperand s).rstCnt = s.rstCnt := rfl
@[simp] theorem readOperand_nmiLatch (s : State) : (readOperand s).nmiLatch = s.nmiLatch := rfl
@[simp] theorem readOperand_irqLatch (s : State) : (readOperand s).irqLatch = s.irqLatch := rfl
@[simp] theorem readOperand_nmiPrev (s : State) : (readOperand s).nmiPrev = s.nmiPrev := rfl
@[simp] theorem readOperand_intent (s : State) : (readOperand s).intent = s.intent := rfl
@[simp] theorem readOperand_resHeld (s : State) : (readOperand s).resHeld = s.resHeld := rfl
@[simp] theorem readOperand_jammed (s : State) : (readOperand s).jammed = s.jammed := rfl
@[simp] theorem readOperand_divider (s : State) : (readOperand s).divider = s.divider := rfl
@[simp] theorem readOperand_mem (s : State) : (readOperand s).mem = s.mem := rfl
@[simp] theorem readOperand_callerQ (s : State) : (readOperand s).callerQ = s.callerQ := rfl
@[simp] theorem readOperand_trace (s : State) : (readOperand s).trace = s.trace := rfl
@[simp] theorem readOperand_i80 (s : State) : (readOperand s).i80 = s.i80 := rfl
@[simp] theorem readOperand_hostQ (s : State) : (readOperand s).hostQ = s.hostQ := rfl
@[simp] theorem readOperand_io (s : State) : (readOperand s).io = s.io := rfl

/-! ### push -/

@[simp] theorem push_proc (v : Byte) (s : State) : (push v s).proc = s.proc := rfl
@[simp] theorem push_A (v : Byte) (s : State) : (push v s).A = s.A := rfl
@[simp] theorem push_X (v : Byte) (s : State) : (push v s).X = s.X := rfl
@[simp] theorem push_Y (v : Byte) (s : State) : (push v s).Y = s.Y := rfl
@[simp] theorem push_S (v : Byte) (s : State) : (push v s).S = s.S - 1 := rfl
@[simp] theorem push_PC (v : Byte) (s : State) : (push v s).PC = s.PC := rfl
@[simp] theorem push_P (v : Byte) (s : State) : (push v s).P = s.P := rfl
@[simp] theorem push_pins (v : Byte) (s : State) : (push v s).pins = { s.pins with addr := stk s.S, rw := false } := rfl
@[simp] theorem push_phase (v : Byte) (s : State) : (push v s).phase = s.phase := rfl
@[simp] theorem push_IR (v : Byte) (s : State) : (push v s).IR = s.IR := rfl
@[simp] theorem push_T (v : Byte) (s : State) : (push v s).T = s.T := rfl
@[simp] theorem push_AD (v : Byte) (s : State) : (push v s).AD = s.AD := rfl
@[simp] theorem push_TMP (v : Byte) (s : State) : (push v s).TMP = s.TMP := rfl
@[simp] theorem push_SS (v : Byte) (s : State) : (push v s).SS = s.SS := rfl
@[simp] theorem push_pendA (v : Byte) (s : State) : (push v s).pendA = s.pendA := rfl
@[simp] theorem push_pendX (v : Byte) (s : State) : (push v s).pendX = s.pendX := rfl
@[simp] theorem push_pendY (v : Byte) (s : State) : (push v s).pendY = s.pendY := rfl
@[simp] theorem push_pendS (v : Byte) (s : State) : (push v s).pendS = s.pendS := rfl
@[simp] theorem push_dout (v : Byte) (s : State) : (push v s).dout = some v := rfl
@[simp] theorem push_rstCnt (v : Byte) (s : State) : (push v s).rstCnt = s.rstCnt := rfl
@[simp] theorem push_nmiLatch (v : Byte) (s : State) : (push v s).nmiLatch = s.nmiLatch := rfl
@[simp] theorem push_irqLatch (v : Byte) (s : State) : (push v s).irqLatch = s.irqLatch := rfl
@[simp] theorem push_nmiPrev (v : Byte) (s : State) : (push v s).nmiPrev = s.nmiPrev := rfl
@[simp] theorem push_intent (v : Byte) (s : State) : (push v s).intent = s.intent := rfl
@[simp] theorem push_resHeld (v : Byte) (s : State) : (push v s).resHeld = s.resHeld := rfl
@[simp] theorem push_jammed (v : Byte) (s : State) : (push v s).jammed = s.jammed := rfl
@[simp] theorem push_divider (v : Byte) (s : State) : (push v s).divider = s.divider := rfl
@[simp] theorem push_mem (v : Byte) (s : State) : (push v s).mem = s.mem := rfl
@[simp] theorem push_callerQ (v : Byte) (s : State) : (push v s).callerQ = s.callerQ := rfl
@[simp] theorem push_trace (v : Byte) (s : State) : (push v s).trace = s.trace := rfl
@[simp] theorem push_i80 (v : Byte) (s : State) : (push v s).i80 = s.i80 := rfl
@[simp] theorem push_hostQ (v : Byte) (s : State) : (push v s).hostQ = s.hostQ := rfl
@[simp] theorem push_io (v : Byte) (s : State) : (push v s).io = s.io := rfl

/-! ### pullInc -/

@[simp] theorem pullInc_proc (s : State) : (pullInc s).proc = s.proc := rfl
@[simp] theorem pullInc_A (s : State) : (pullInc s).A = s.A := rfl
@[simp] theorem pullInc_X (s : State) : (pullInc s).X = s.X := rfl
@[simp] theorem pullInc_Y (s : State) : (pullInc s).Y = s.Y := rfl
@[simp] theorem pullInc_S (s : State) : (pullInc s).S = s.S + 1 := rfl
@[simp] theorem pullInc_PC (s : State) : (pullInc s).PC = s.PC := rfl
@[simp] theorem pullInc_P (s : State) : (pullInc s).P = s.P := rfl
@[simp] theorem pullInc_pins (s : State) : (pullInc s).pins = { s.pins with addr := stk s.S, rw := true } := rfl
@[simp] theorem pullInc_phase (s : State) : (pullInc s).phase = s.phase := rfl
@[simp] theorem pullInc_IR (s : State) : (pullInc s).IR = s.IR := rfl
@[simp] theorem pullInc_T (s : State) : (pullInc s).T = s.T := rfl
@[simp] theorem pullInc_AD (s : State) : (pullInc s).AD = s.AD := rfl
@[simp] theorem pullInc_TMP (s : State) : (pullInc s).TMP = s.TMP := rfl
@[simp] theorem pullInc_SS (s : State) : (pullInc s).SS = s.SS := rfl
@[simp] theorem pullInc_pendA (s : State) : (pullInc s).pendA = s.pendA := rfl
@[simp] theorem pullInc_pendX (s : State) : (pullInc s).pendX = s.pendX := rfl
@[simp] theorem pullInc_pendY (s : State) : (pullInc s).pendY = s.pendY := rfl
@[simp] theorem pullInc_pendS (s : State) : (pullInc s).pendS = s.pendS := rfl
@[simp] theorem pullInc_dout (s : State) : (pullInc s).dout = s.dout := rfl
@[simp] theorem pullInc_rstCnt (s : State) : (pullInc s).rstCnt = s.rstCnt := rfl
@[simp] theorem pullInc_nmiLatch (s : State) : (pullInc s).nmiLatch = s.nmiLatch := rfl
@[simp] theorem pullInc_irqLatch (s : State) : (pullInc s).irqLatch = s.irqLatch := rfl
@[simp] theorem pullInc_nmiPrev (s : State) : (pullInc s).nmiPrev = s.nmiPrev := rfl
@[simp] theorem pullInc_intent (s : State) : (pullInc s).intent = s.intent := rfl
@[simp] theorem pullInc_resHeld (s : State) : (pullInc s).resHeld = s.resHeld := rfl
@[simp] theorem pullInc_jammed (s : State) : (pullInc s).jammed = s.jammed := rfl
@[simp] theorem pullInc_divider (s : State) : (pullInc s).divider = s.divider := rfl
@[simp] theorem pullInc_mem (s : State) : (pullInc s).mem = s.mem := rfl
@[simp] theorem pullInc_callerQ (s : State) : (pullInc s).callerQ = s.callerQ := rfl
@[simp] theorem pullInc_trace (s : State) : (pullInc s).trace = s.trace := rfl
@[simp] theorem pullInc_i80 (s : State) : (pullInc s).i80 = s.i80 := rfl
@[simp] theorem pullInc_hostQ (s : State) : (pullInc s).hostQ = s.hostQ := rfl
@[simp] theorem pullInc_io (s : State) : (pullInc s).io = s.io := rfl

/-! ### resetStackRead -/

@[simp] theorem resetStackRead_proc (s : State) : (resetStackRead s).proc = s.proc := rfl
@[simp] theorem resetStackRead_A (s : State) : (resetStackRead s).A = s.A := rfl
@[simp] theorem resetStackRead_X (s : State) : (resetStackRead s).X = s.X := rfl
@[simp] theorem resetStackRead_Y (s : State) : (resetStackRead s).Y = s.Y := rfl
@[simp] theorem resetStackRead_S (s : State) : (resetStackRead s).S = s.S - 1 := rfl
@[simp] theorem resetStackRead_PC (s : State) : (resetStackRead s).PC = s.PC := rfl
@[simp] theorem resetStackRead_P (s : State) : (resetStackRead s).P = s.P := rfl
@[simp] theorem resetStackRead_pins (s : State) : (resetStackRead s).pins = { s.pins with addr := stk s.S, rw := true } := rfl
@[simp] theorem resetStackRead_phase (s : State) : (resetStackRead s).phase = s.phase := rfl
@[simp] theorem resetStackRead_IR (s : State) : (resetStackRead s).IR = s.IR := rfl
@[simp] theorem resetStackRead_T (s : State) : (resetStackRead s).T = s.T := rfl
@[simp] theorem resetStackRead_AD (s : State) : (resetStackRead s).AD = s.AD := rfl
@[simp] theorem resetStackRead_TMP (s : State) : (resetStackRead s).TMP = s.TMP := rfl
@[simp] theorem resetStackRead_SS (s : State) : (resetStackRead s).SS = s.SS := rfl
@[simp] theorem resetStackRead_pendA (s : State) : (resetStackRead s).pendA = s.pendA := rfl
@[simp] theorem resetStackRead_pendX (s : State) : (resetStackRead s).pendX = s.pendX := rfl
@[simp] theorem resetStackRead_pendY (s : State) : (resetStackRead s).pendY = s.pendY := rfl
@[simp] theorem resetStackRead_pendS (s : State) : (resetStackRead s).pendS = s.pendS := rfl
@[simp] theorem resetStackRead_dout (s : State) : (resetStackRead s).dout = s.dout := rfl
@[simp] theorem resetStackRead_rstCnt (s : State) : (resetStackRead s).rstCnt = s.rstCnt := rfl
@[simp] theorem resetStackRead_nmiLatch (s : State) : (resetStackRead s).nmiLatch = s.nmiLatch := rfl
@[simp] theorem resetStackRead_irqLatch (s : State) : (resetStackRead s).irqLatch = s.irqLatch := rfl
@[simp] theorem resetStackRead_nmiPrev (s : State) : (resetStackRead s).nmiPrev = s.nmiPrev := rfl
@[simp] theorem resetStackRead_intent (s : State) : (resetStackRead s).intent = s.intent := rfl
@[simp] theorem resetStackRead_resHeld (s : State) : (resetStackRead s).resHeld = s.resHeld := rfl
@[simp] theorem resetStackRead_jammed (s : State) : (resetStackRead s).jammed = s.jammed := rfl
@[simp] theorem resetStackRead_divider (s : State) : (resetStackRead s).divider = s.divider := rfl
@[simp] theorem resetStackRead_mem (s : State) : (resetStackRead s).mem = s.mem := rfl
@[simp] theorem resetStackRead_callerQ (s : State) : (resetStackRead s).callerQ = s.callerQ := rfl
@[simp] theorem resetStackRead_trace (s : State) : (resetStackRead s).trace = s.trace := rfl
@[simp] theorem resetStackRead_i80 (s : State) : (resetStackRead s).i80 = s.i80 := rfl
@[simp] theorem resetStackRead_hostQ (s : State) : (resetStackRead s).hostQ = s.hostQ := rfl
@[simp] theorem resetStackRead_io (s : State) : (resetStackRead s).io = s.io := rfl

/-! ### latchShiftAndSample -/

@[simp] theorem latchShiftAndSample_proc (s : State) : (latchShiftAndSample s).proc = s.proc := rfl
@[simp] theorem latchShiftAndSample_A (s : State) : (latchShiftAndSample s).A = s.A := rfl
@[simp] theorem latchShiftAndSample_X (s : State) : (latchShiftAndSample s).X = s.X := rfl
@[simp] theorem latchShiftAndSample_Y (s : State) : (latchShiftAndSample s).Y = s.Y := rfl
@[simp] theorem latchShiftAndSample_S (s : State) : (latchShiftAndSample s).S = s.S := rfl
@[simp] theorem latchShiftAndSample_PC (s : State) : (latchShiftAndSample s).PC = s.PC := rfl
@[simp] theorem latchShiftAndSample_P (s : State) : (latchShiftAndSample s).P = s.P := rfl
@[simp] theorem latchShiftAndSample_pins (s : State) : (latchShiftAndSample s).pins = s.pins := rfl
@[simp] theorem latchShiftAndSample_phase (s : State) : (latchShiftAndSample s).phase = s.phase := rfl
@[simp] theorem latchShiftAndSample_IR (s : State) : (latchShiftAndSample s).IR = s.IR := rfl
@[simp] theorem latchShiftAndSample_T (s : State) : (latchShiftAndSample s).T = s.T := rfl
@[simp] theorem latchShiftAndSample_AD (s : State) : (latchShiftAndSample s).AD = s.AD := rfl
@[simp] theorem latchShiftAndSample_TMP (s : State) : (latchShiftAndSample s).TMP = s.TMP := rfl
@[simp] theorem latchShiftAndSample_SS (s : State) : (latchShiftAndSample s).SS = s.SS := rfl
@[simp] theorem latchShiftAndSample_pendA (s : State) : (latchShiftAndSample s).pendA = s.pendA := rfl
@[simp] theorem latchShiftAndSample_pendX (s : State) : (latchShiftAndSample s).pendX = s.pendX := rfl
@[simp] theorem latchShiftAndSample_pendY (s : State) : (latchShiftAndSample s).pendY = s.pendY := rfl
@[simp] theorem latchShiftAndSample_pendS (s : State) : (latchShiftAndSample s).pendS = s.pendS := rfl
@[simp] theorem latchShiftAndSample_dout (s : State) : (latchShiftAndSample s).dout = s.dout := rfl
@[simp] theorem latchShiftAndSample_rstCnt (s : State) : (latchShiftAndSample s).rstCnt = s.rstCnt := rfl
@[simp] theorem latchShiftAndSample_nmiLatch (s : State) : (latchShiftAndSample s).nmiLatch = shiftIn s.nmiLatch (nmiEdge s) := rfl
@[simp] theorem latchShiftAndSample_irqLatch (s : State) : (latchShiftAndSample s).irqLatch = shiftIn s.irqLatch (irqSample s) := rfl
@[simp] theorem latchShiftAndSample_nmiPrev (s : State) : (latchShiftAndSample s).nmiPrev = s.pins.nmiN := rfl
@[simp] theorem latchShiftAndSample_intent (s : State) : (latchShiftAndSample s).intent = s.intent := rfl
@[simp] theorem latchShiftAndSample_resHeld (s : State) : (latchShiftAndSample s).resHeld = s.resHeld := rfl
@[simp] theorem latchShiftAndSample_jammed (s : State) : (latchShiftAndSample s).jammed = s.jammed := rfl
@[simp] theorem latchShiftAndSample_divider (s : State) : (latchShiftAndSample s).divider = s.divider := rfl
@[simp] theorem latchShiftAndSample_mem (s : State) : (latchShiftAndSample s).mem = s.mem := rfl
@[simp] theorem latchShiftAndSample_callerQ (s : State) : (latchShiftAndSample s).callerQ = s.callerQ := rfl
@[simp] theorem latchShiftAndSample_trace (s : State) : (latchShiftAndSample s).trace = s.trace := rfl
@[simp] theorem latchShiftAndSample_i80 (s : State) : (latchShiftAndSample s).i80 = s.i80 := rfl
@[simp] theorem latchShiftAndSample_hostQ (s : State) : (latchShiftAndSample s).hostQ = s.hostQ := rfl
@[simp] theorem latchShiftAndSample_io (s : State) : (latchShiftAndSample s).io = s.io := rfl

/-! ### opcodeLoad -/

@[simp] theorem opcodeLoad_proc (s : State) : (opcodeLoad s).proc = s.proc := rfl
@[simp] theorem opcodeLoad_A (s : State) : (opcodeLoad s).A = s.A := rfl
@[simp] theorem opcodeLoad_X (s : State) : (opcodeLoad s).X = s.X := rfl
@[simp] theorem opcodeLoad_Y (s : State) : (opcodeLoad s).Y = s.Y := rfl
@[simp] theorem opcodeLoad_S (s : State) : (opcodeLoad s).S = s.S := rfl
@[simp] theorem opcodeLoad_PC (s : State) : (opcodeLoad s).PC = if s.intent = .none then s.PC + 1 else s.PC := rfl
@[simp] theorem opcodeLoad_P (s : State) : (opcodeLoad s).P = s.P := rfl
@[simp] theorem opcodeLoad_pins (s : State) : (opcodeLoad s).pins = { s.pins with sync := false } := rfl
@[simp] theorem opcodeLoad_phase (s : State) : (opcodeLoad s).phase = s.phase := rfl
@[simp] theorem opcodeLoad_IR (s : State) : (opcodeLoad s).IR = if s.intent = .none then s.pins.data else 0x00 := rfl
@[simp] theorem opcodeLoad_T (s : State) : (opcodeLoad s).T = 0 := rfl
@[simp] theorem opcodeLoad_AD (s : State) : (opcodeLoad s).AD = s.AD := rfl
@[simp] theorem opcodeLoad_TMP (s : State) : (opcodeLoad s).TMP = s.TMP := rfl
@[simp] theorem opcodeLoad_SS (s : State) : (opcodeLoad s).SS = s.SS := rfl
@[simp] theorem opcodeLoad_pendA (s : State) : (opcodeLoad s).pendA = s.pendA := rfl
@[simp] theorem opcodeLoad_pendX (s : State) : (opcodeLoad s).pendX = s.pendX := rfl
@[simp] theorem opcodeLoad_pendY (s : State) : (opcodeLoad s).pendY = s.pendY := rfl
@[simp] theorem opcodeLoad_pendS (s : State) : (opcodeLoad s).pendS = s.pendS := rfl
@[simp] theorem opcodeLoad_dout (s : State) : (opcodeLoad s).dout = s.dout := rfl
@[simp] theorem opcodeLoad_rstCnt (s : State) : (opcodeLoad s).rstCnt = s.rstCnt := rfl
@[simp] theorem opcodeLoad_nmiLatch (s : State) : (opcodeLoad s).nmiLatch = s.nmiLatch := rfl
@[simp] theorem opcodeLoad_irqLatch (s : State) : (opcodeLoad s).irqLatch = s.irqLatch := rfl
@[simp] theorem opcodeLoad_nmiPrev (s : State) : (opcodeLoad s).nmiPrev = s.nmiPrev := rfl
@[simp] theorem opcodeLoad_intent (s : State) : (opcodeLoad s).intent = s.intent := rfl
@[simp] theorem opcodeLoad_resHeld (s : State) : (opcodeLoad s).resHeld = s.resHeld := rfl
@[simp] theorem opcodeLoad_jammed (s : State) : (opcodeLoad s).jammed = s.jammed := rfl
@[simp] theorem opcodeLoad_divider (s : State) : (opcodeLoad s).divider = s.divider := rfl
@[simp] theorem opcodeLoad_mem (s : State) : (opcodeLoad s).mem = s.mem := rfl
@[simp] theorem opcodeLoad_callerQ (s : State) : (opcodeLoad s).callerQ = s.callerQ := rfl
@[simp] theorem opcodeLoad_trace (s : State) : (opcodeLoad s).trace = s.trace := rfl
@[simp] theorem opcodeLoad_i80 (s : State) : (opcodeLoad s).i80 = s.i80 := rfl
@[simp] theorem opcodeLoad_hostQ (s : State) : (opcodeLoad s).hostQ = s.hostQ := rfl
@[simp] theorem opcodeLoad_io (s : State) : (opcodeLoad s).io = s.io := rfl

/-! ### defaultRead -/

@[simp] theorem defaultRead_proc (s : State) : (defaultRead s).proc = s.proc := rfl
@[simp] theorem defaultRead_A (s : State) : (defaultRead s).A = s.A := rfl
@[simp] theorem defaultRead_X (s : State) : (defaultRead s).X = s.X := rfl
@[simp] theorem defaultRead_Y (s : State) : (defaultRead s).Y = s.Y := rfl
@[simp] theorem defaultRead_S (s : State) : (defaultRead s).S = s.S := rfl
@[simp] theorem defaultRead_PC (s : State) : (defaultRead s).PC = s.PC := rfl
@[simp] theorem defaultRead_P (s : State) : (defaultRead s).P = s.P := rfl
@[simp] theorem defaultRead_pins (s : State) : (defaultRead s).pins = { s.pins with rw := true } := rfl
@[simp] theorem defaultRead_phase (s : State) : (defaultRead s).phase = s.phase := rfl
@[simp] theorem defaultRead_IR (s : State) : (defaultRead s).IR = s.IR := rfl
@[simp] theorem defaultRead_T (s : State) : (defaultRead s).T = s.T := rfl
@[simp] theorem defaultRead_AD (s : State) : (defaultRead s).AD = s.AD := rfl
@[simp] theorem defaultRead_TMP (s : State) : (defaultRead s).TMP = s.TMP := rfl
@[simp] theorem defaultRead_SS (s : State) : (defaultRead s).SS = s.SS := rfl
@[simp] theorem defaultRead_pendA (s : State) : (defaultRead s).pendA = s.pendA := rfl
@[simp] theorem defaultRead_pendX (s : State) : (defaultRead s).pendX = s.pendX := rfl
@[simp] theorem defaultRead_pendY (s : State) : (defaultRead s).pendY = s.pendY := rfl
@[simp] theorem defaultRead_pendS (s : State) : (defaultRead s).pendS = s.pendS := rfl
@[simp] theorem defaultRead_dout (s : State) : (defaultRead s).dout = none := rfl
@[simp] theorem defaultRead_rstCnt (s : State) : (defaultRead s).rstCnt = s.rstCnt := rfl
@[simp] theorem defaultRead_nmiLatch (s : State) : (defaultRead s).nmiLatch = s.nmiLatch := rfl
@[simp] theorem defaultRead_irqLatch (s : State) : (defaultRead s).irqLatch = s.irqLatch := rfl
@[simp] theorem defaultRead_nmiPrev (s : State) : (defaultRead s).nmiPrev = s.nmiPrev := rfl
@[simp] theorem defaultRead_intent (s : State) : (defaultRead s).intent = s.intent := rfl
@[simp] theorem defaultRead_resHeld (s : State) : (defaultRead s).resHeld = s.resHeld := rfl
@[simp] theorem defaultRead_jammed (s : State) : (defaultRead s).jammed = s.jammed := rfl
@[simp] theorem defaultRead_divider (s : State) : (defaultRead s).divider = s.divider := rfl
@[simp] theorem defaultRead_mem (s : State) : (defaultRead s).mem = s.mem := rfl
@[simp] theorem defaultRead_callerQ (s : State) : (defaultRead s).callerQ = s.callerQ := rfl
@[simp] theorem defaultRead_trace (s : State) : (defaultRead s).trace = s.trace := rfl
@[simp] theorem defaultRead_i80 (s : State) : (defaultRead s).i80 = s.i80 := rfl
@[simp] theorem defaultRead_hostQ (s : State) : (defaultRead s).hostQ = s.hostQ := rfl
@[simp] theorem defaultRead_io (s : State) : (defaultRead s).io = s.io := rfl

/-! ### arbitrate -/

@[simp] theorem arbitrate_proc (s : State) : (arbitrate s).proc = s.proc := rfl
@[simp] theorem arbitrate_A (s : State) : (arbitrate s).A = s.A := rfl
@[simp] theorem arbitrate_X (s : State) : (arbitrate s).X = s.X := rfl
@[simp] theorem arbitrate_Y (s : State) : (arbitrate s).Y = s.Y := rfl
@[simp] theorem arbitrate_S (s : State) : (arbitrate s).S = s.S := rfl
@[simp] theorem arbitrate_PC (s : State) : (arbitrate s).PC = s.PC := rfl
@[simp] theorem arbitrate_P (s : State) : (arbitrate s).P = s.P := rfl
@[simp] theorem arbitrate_pins (s : State) : (arbitrate s).pins = s.pins := rfl
@[simp] theorem arbitrate_phase (s : State) : (arbitrate s).phase = s.phase := rfl
@[simp] theorem arbitrate_IR (s : State) : (arbitrate s).IR = s.IR := rfl
@[simp] theorem arbitrate_T (s : State) : (arbitrate s).T = s.T := rfl
@[simp] theorem arbitrate_AD (s : State) : (arbitrate s).AD = s.AD := rfl
@[simp] theorem arbitrate_TMP (s : State) : (arbitrate s).TMP = s.TMP := rfl
@[simp] theorem arbitrate_SS (s : State) : (arbitrate s).SS = s.SS := rfl
@[simp] theorem arbitrate_pendA (s : State) : (arbitrate s).pendA = s.pendA := rfl
@[simp] theorem arbitrate_pendX (s : State) : (arbitrate s).pendX = s.pendX := rfl
@[simp] theorem arbitrate_pendY (s : State) : (arbitrate s).pendY = s.pendY := rfl
@[simp] theorem arbitrate_pendS (s : State) : (arbitrate s).pendS = s.pendS := rfl
@[simp] theorem arbitrate_dout (s : State) : (arbitrate s).dout = s.dout := rfl
@[simp] theorem arbitrate_rstCnt (s : State) : (arbitrate s).rstCnt = s.rstCnt := rfl
@[simp] theorem arbitrate_nmiLatch (s : State) : (arbitrate s).nmiLatch = s.nmiLatch &&& 0x3 := rfl
@[simp] theorem arbitrate_irqLatch (s : State) : (arbitrate s).irqLatch = s.irqLatch &&& 0x3 := rfl
@[simp] theorem arbitrate_nmiPrev (s : State) : (arbitrate s).nmiPrev = s.nmiPrev := rfl
@[simp] theorem arbitrate_intent (s : State) : (arbitrate s).intent = arbitrated s.intent (nmiRecognized s) (irqRecognized s) := rfl
@[simp] theorem arbitrate_resHeld (s : State) : (arbitrate s).resHeld = s.resHeld := rfl
@[simp] theorem arbitrate_jammed (s : State) : (arbitrate s).jammed = s.jammed := rfl
@[simp] theorem arbitrate_divider (s : State) : (arbitrate s).divider = s.divider := rfl
@[simp] theorem arbitrate_mem (s : State) : (arbitrate s).mem = s.mem := rfl
@[simp] theorem arbitrate_callerQ (s : State) : (arbitrate s).callerQ = s.callerQ := rfl
@[simp] theorem arbitrate_trace (s : State) : (arbitrate s).trace = s.trace := rfl
@[simp] theorem arbitrate_i80 (s : State) : (arbitrate s).i80 = s.i80 := rfl
@[simp] theorem arbitrate_hostQ (s : State) : (arbitrate s).hostQ = s.hostQ := rfl
@[simp] theorem arbitrate_io (s : State) : (arbitrate s).io = s.io := rfl

/-! ### fetchNext -/

@[simp] theorem fetchNext_proc (s : State) : (fetchNext s).proc = s.proc := rfl
@[simp] theorem fetchNext_A (s : State) : (fetchNext s).A = s.A := rfl
@[simp] theorem fetchNext_X (s : State) : (fetchNext s).X = s.X := rfl
@[simp] theorem fetchNext_Y (s : State) : (fetchNext s).Y = s.Y := rfl
@[simp] theorem fetchNext_S (s : State) : (fetchNext s).S = s.S := rfl
@[simp] theorem fetchNext_PC (s : State) : (fetchNext s).PC = s.PC := rfl
@[simp] theorem fetchNext_P (s : State) : (fetchNext s).P = s.P := rfl
@[simp] theorem fetchNext_pins (s : State) : (fetchNext s).pins = { s.pins with addr := s.PC, rw := true, sync := true } := rfl
@[simp] theorem fetchNext_phase (s : State) : (fetchNext s).phase = s.phase := rfl
@[simp] theorem fetchNext_IR (s : State) : (fetchNext s).IR = s.IR := rfl
@[simp] theorem fetchNext_T (s : State) : (fetchNext s).T = s.T := rfl
@[simp] theorem fetchNext_AD (s : State) : (fetchNext s).AD = s.AD := rfl
@[simp] theorem fetchNext_TMP (s : State) : (fetchNext s).TMP = s.TMP := rfl
@[simp] theorem fetchNext_SS (s : State) : (fetchNext s).SS = s.SS := rfl
@[simp] theorem fetchNext_pendA (s : State) : (fetchNext s).pendA = s.pendA := rfl
@[simp] theorem fetchNext_pendX (s : State) : (fetchNext s).pendX = s.pendX := rfl
@[simp] theorem fetchNext_pendY (s : State) : (fetchNext s).pendY = s.pendY := rfl
@[simp] theorem fetchNext_pendS (s : State) : (fetchNext s).pendS = s.pendS := rfl
@[simp] theorem fetchNext_dout (s : State) : (fetchNext s).dout = s.dout := rfl
@[simp] theorem fetchNext_rstCnt (s : State) : (fetchNext s).rstCnt = s.rstCnt := rfl
@[simp] theorem fetchNext_nmiLatch (s : State) : (fetchNext s).nmiLatch = s.nmiLatch &&& 0x3 := rfl
@[simp] theorem fetchNext_irqLatch (s : State) : (fetchNext s).irqLatch = s.irqLatch &&& 0x3 := rfl
@[simp] theorem fetchNext_nmiPrev (s : State) : (fetchNext s).nmiPrev = s.nmiPrev := rfl
@[simp] theorem fetchNext_intent (s : State) : (fetchNext s).intent = arbitrated s.intent (nmiRecognized s) (irqRecognized s) := rfl
@[simp] theorem fetchNext_resHeld (s : State) : (fetchNext s).resHeld = s.resHeld := rfl
@[simp] theorem fetchNext_jammed (s : State) : (fetchNext s).jammed = s.jammed := rfl
@[simp] theorem fetchNext_divider (s : State) : (fetchNext s).divider = s.divider := rfl
@[simp] theorem fetchNext_mem (s : State) : (fetchNext s).mem = s.mem := rfl
@[simp] theorem fetchNext_callerQ (s : State) : (fetchNext s).callerQ = s.callerQ := rfl
@[simp] theorem fetchNext_trace (s : State) : (fetchNext s).trace = s.trace := rfl
@[simp] theorem fetchNext_i80 (s : State) : (fetchNext s).i80 = s.i80 := rfl
@[simp] theorem fetchNext_hostQ (s : State) : (fetchNext s).hostQ = s.hostQ := rfl
@[simp] theorem fetchNext_io (s : State) : (fetchNext s).io = s.io := rfl

/-! ### onHigh -/

@[simp] theorem onHigh_proc (s : State) : (onHigh s).proc = s.proc := rfl
@[simp] theorem onHigh_A (s : State) : (onHigh s).A = s.A := rfl
@[simp] theorem onHigh_X (s : State) : (onHigh s).X = s.X := rfl
@[simp] theorem onHigh_Y (s : State) : (onHigh s).Y = s.Y := rfl
@[simp] theorem onHigh_S (s : State) : (onHigh s).S = s.S := rfl
@[simp] theorem onHigh_PC (s : State) : (onHigh s).PC = s.PC := rfl
@[simp] theorem onHigh_P (s : State) : (onHigh s).P = s.P := rfl
@[simp] theorem onHigh_pins (s : State) : (onHigh s).pins = { s.pins with data := s.dout.getD s.pins.data } := rfl
@[simp] theorem onHigh_phase (s : State) : (onHigh s).phase = s.phase := rfl
@[simp] theorem onHigh_IR (s : State) : (onHigh s).IR = s.IR := rfl
@[simp] theorem onHigh_T (s : State) : (onHigh s).T = s.T := rfl
@[simp] theorem onHigh_AD (s : State) : (onHigh s).AD = s.AD := rfl
@[simp] theorem onHigh_TMP (s : State) : (onHigh s).TMP = s.TMP := rfl
@[simp] theorem onHigh_SS (s : State) : (onHigh s).SS = s.SS := rfl
@[simp] theorem onHigh_pendA (s : State) : (onHigh s).pendA = s.pendA := rfl
@[simp] theorem onHigh_pendX (s : State) : (onHigh s).pendX = s.pendX := rfl
@[simp] theorem onHigh_pendY (s : State) : (onHigh s).pendY = s.pendY := rfl
@[simp] theorem onHigh_pendS (s : State) : (onHigh s).pendS = s.pendS := rfl
@[simp] theorem onHigh_dout (s : State) : (onHigh s).dout = s.dout := rfl
@[simp] theorem onHigh_rstCnt (s : State) : (onHigh s).rstCnt = s.rstCnt := rfl
@[simp] theorem onHigh_nmiLatch (s : State) : (onHigh s).nmiLatch = s.nmiLatch := rfl
@[simp] theorem onHigh_irqLatch (s : State) : (onHigh s).irqLatch = s.irqLatch := rfl
@[simp] theorem onHigh_nmiPrev (s : State) : (onHigh s).nmiPrev = s.nmiPrev := rfl
@[simp] theorem onHigh_intent (s : State) : (onHigh s).intent = s.intent := rfl
@[simp] theorem onHigh_resHeld (s : State) : (onHigh s).resHeld = s.resHeld := rfl
@[simp] theorem onHigh_jammed (s : State) : (onHigh s).jammed = s.jammed := rfl
@[simp] theorem onHigh_divider (s : State) : (onHigh s).divider = s.divider := rfl
@[simp] theorem onHigh_mem (s : State) : (onHigh s).mem = s.mem := rfl
@[simp] theorem onHigh_callerQ (s : State) : (onHigh s).callerQ = s.callerQ := rfl
@[simp] theorem onHigh_trace (s : State) : (onHigh s).trace = s.trace := rfl
@[simp] theorem onHigh_i80 (s : State) : (onHigh s).i80 = s.i80 := rfl
@[simp] theorem onHigh_hostQ (s : State) : (onHigh s).hostQ = s.hostQ := rfl
@[simp] theorem onHigh_io (s : State) : (onHigh s).io = s.io := rfl

/-! ### record -/

@[simp] theorem record_proc (s : State) : (record s).proc = s.proc := rfl
@[simp] theorem record_A (s : State) : (record s).A = s.A := rfl
@[simp] theorem record_X (s : State) : (record s).X = s.X := rfl
@[simp] theorem record_Y (s : State) : (record s).Y = s.Y := rfl
@[simp] theorem record_S (s : State) : (record s).S = s.S := rfl
@[simp] theorem record_PC (s : State) : (record s).PC = s.PC := rfl
@[simp] theorem record_P (s : State) : (record s).P = s.P := rfl
@[simp] theorem record_pins (s : State) : (record s).pins = s.pins := rfl
@[simp] theorem record_phase (s : State) : (record s).phase = s.phase := rfl
@[simp] theorem record_IR (s : State) : (record s).IR = s.IR := rfl
@[simp] theorem record_T (s : State) : (record s).T = s.T := rfl
@[simp] theorem record_AD (s : State) : (record s).AD = s.AD := rfl
@[simp] theorem record_TMP (s : State) : (record s).TMP = s.TMP := rfl
@[simp] theorem record_SS (s : State) : (record s).SS = s.SS := rfl
@[simp] theorem record_pendA (s : State) : (record s).pendA = s.pendA := rfl
@[simp] theorem record_pendX (s : State) : (record s).pendX = s.pendX := rfl
@[simp] theorem record_pendY (s : State) : (record s).pendY = s.pendY := rfl
@[simp] theorem record_pendS (s : State) : (record s).pendS = s.pendS := rfl
@[simp] theorem record_dout (s : State) : (record s).dout = s.dout := rfl
@[simp] theorem record_rstCnt (s : State) : (record s).rstCnt = s.rstCnt := rfl
@[simp] theorem record_nmiLatch (s : State) : (record s).nmiLatch = s.nmiLatch := rfl
@[simp] theorem record_irqLatch (s : State) : (record s).irqLatch = s.irqLatch := rfl
@[simp] theorem record_nmiPrev (s : State) : (record s).nmiPrev = s.nmiPrev := rfl
@[simp] theorem record_intent (s : State) : (record s).intent = s.intent := rfl
@[simp] theorem record_resHeld (s : State) : (record s).resHeld = s.resHeld := rfl
@[simp] theorem record_jammed (s : State) : (record s).jammed = s.jammed := rfl
@[simp] theorem record_divider (s : State) : (record s).divider = s.divider := rfl
@[simp] theorem record_mem (s : State) : (record s).mem = s.mem := rfl
@[simp] theorem record_callerQ (s : State) : (record s).callerQ = s.callerQ := rfl
@[simp] theorem record_trace (s : State) : (record s).trace = s.trace ++ [⟨s.pins.addr, s.pins.rw, s.pins.sync, s.pins.data⟩] := rfl
@[simp] theorem record_i80 (s : State) : (record s).i80 = s.i80 := rfl
@[simp] theorem record_hostQ (s : State) : (record s).hostQ = s.hostQ := rfl
@[simp] theorem record_io (s : State) : (record s).io = s.io := rfl

/-! ### clearTrace -/

@[simp] theorem clearTrace_proc (s : State) : (clearTrace s).proc = s.proc := rfl
@[simp] theorem clearTrace_A (s : State) : (clearTrace s).A = s.A := rfl
@[simp] theorem clearTrace_X (s : State) : (clearTrace s).X = s.X := rfl
@[simp] theorem clearTrace_Y (s : State) : (clearTrace s).Y = s.Y := rfl
@[simp] theorem clearTrace_S (s : State) : (clearTrace s).S = s.S := rfl
@[simp] theorem clearTrace_PC (s : State) : (clearTrace s).PC = s.PC := rfl
@[simp] theorem clearTrace_P (s : State) : (clearTrace s).P = s.P := rfl
@[simp] theorem clearTrace_pins (s : State) : (clearTrace s).pins = s.pins := rfl
@[simp] theorem clearTrace_phase (s : State) : (clearTrace s).phase = s.phase := rfl
@[simp] theorem clearTrace_IR (s : State) : (clearTrace s).IR = s.IR := rfl
@[simp] theorem clearTrace_T (s : State) : (clearTrace s).T = s.T := rfl
@[simp] theorem clearTrace_AD (s : State) : (clearTrace s).AD = s.AD := rfl
@[simp] theorem clearTrace_TMP (s : State) : (clearTrace s).TMP = s.TMP := rfl
@[simp] theorem clearTrace_SS (s : State) : (clearTrace s).SS = s.SS := rfl
@[simp] theorem clearTrace_pendA (s : State) : (clearTrace s).pendA = s.pendA := rfl
@[simp] theorem clearTrace_pendX (s : State) : (clearTrace s).pendX = s.pendX := rfl
@[simp] theorem clearTrace_pendY (s : State) : (clearTrace s).pendY = s.pendY := rfl
@[simp] theorem clearTrace_pendS (s : State) : (clearTrace s).pendS = s.pendS := rfl
@[simp] theorem clearTrace_dout (s : State) : (clearTrace s).dout = s.dout := rfl
@[simp] theorem clearTrace_rstCnt (s : State) : (clearTrace s).rstCnt = s.rstCnt := rfl
@[simp] theorem clearTrace_nmiLatch (s : State) : (clearTrace s).nmiLatch = s.nmiLatch := rfl
@[simp] theorem clearTrace_irqLatch (s : State) : (clearTrace s).irqLatch = s.irqLatch := rfl
@[simp] theorem clearTrace_nmiPrev (s : State) : (clearTrace s).nmiPrev = s.nmiPrev := rfl
@[simp] theorem clearTrace_intent (s : State) : (clearTrace s).intent = s.intent := rfl
@[simp] theorem clearTrace_resHeld (s : State) : (clearTrace s).resHeld = s.resHeld := rfl
@[simp] theorem clearTrace_jammed (s : State) : (clearTrace s).jammed = s.jammed := rfl
@[simp] theorem clearTrace_divider (s : State) : (clearTrace s).divider = s.divider := rfl
@[simp] theorem clearTrace_mem (s : State) : (clearTrace s).mem = s.mem := rfl
@[simp] theorem clearTrace_callerQ (s : State) : (clearTrace s).callerQ = s.callerQ := rfl
@[simp] theorem clearTrace_trace (s : State) : (clearTrace s).trace = [] := rfl
@[simp] theorem clearTrace_i80 (s : State) : (clearTrace s).i80 = s.i80 := rfl
@[simp] theorem clearTrace_hostQ (s : State) : (clearTrace s).hostQ = s.hostQ := rfl
@[simp] theorem clearTrace_io (s : State) : (clearTrace s).io = s.io := rfl

/-! ### setReset -/

@[simp] theorem setReset_proc (l : Bool) (s : State) : (setReset l s).proc = s.proc := rfl
@[simp] theorem setReset_A (l : Bool) (s : State) : (setReset l s).A = s.A := rfl
@[simp] theorem setReset_X (l : Bool) (s : State) : (setReset l s).X = s.X := rfl
@[simp] theorem setReset_Y (l : Bool) (s : State) : (setReset l s).Y = s.Y := rfl
@[simp] theorem setReset_S (l : Bool) (s : State) : (setReset l s).S = s.S := rfl
@[simp] theorem setReset_PC (l : Bool) (s : State) : (setReset l s).PC = s.PC := rfl
@[simp] theorem setReset_P (l : Bool) (s : State) : (setReset l s).P = s.P := rfl
@[simp] theorem setReset_pins (l : Bool) (s : State) : (setReset l s).pins = { s.pins with resN := l } := rfl
@[simp] theorem setReset_phase (l : Bool) (s : State) : (setReset l s).phase = s.phase := rfl
@[simp] theorem setReset_IR (l : Bool) (s : State) : (setReset l s).IR = s.IR := rfl
@[simp] theorem setReset_T (l : Bool) (s : State) : (setReset l s).T = s.T := rfl
@[simp] theorem setReset_AD (l : Bool) (s : State) : (setReset l s).AD = s.AD := rfl
@[simp] theorem setReset_TMP (l : Bool) (s : State) : (setReset l s).TMP = s.TMP := rfl
@[simp] theorem setReset_SS (l : Bool) (s : State) : (setReset l s).SS = s.SS := rfl
@[simp] theorem setReset_pendA (l : Bool) (s : State) : (setReset l s).pendA = s.pendA := rfl
@[simp] theorem setReset_pendX (l : Bool) (s : State) : (setReset l s).pendX = s.pendX := rfl
@[simp] theorem setReset_pendY (l : Bool) (s : State) : (setReset l s).pendY = s.pendY := rfl
@[simp] theorem setReset_pendS (l : Bool) (s : State) : (setReset l s).pendS = s.pendS := rfl
@[simp] theorem setReset_dout (l : Bool) (s : State) : (setReset l s).dout = s.dout := rfl
@[simp] theorem setReset_rstCnt (l : Bool) (s : State) : (setReset l s).rstCnt = if l && !s.pins.resN then 2 else s.rstCnt := rfl
@[simp] theorem setReset_nmiLatch (l : Bool) (s : State) : (setReset l s).nmiLatch = s.nmiLatch := rfl
@[simp] theorem setReset_irqLatch (l : Bool) (s : State) : (setReset l s).irqLatch = s.irqLatch := rfl
@[simp] theorem setReset_nmiPrev (l : Bool) (s : State) : (setReset l s).nmiPrev = s.nmiPrev := rfl
@[simp] theorem setReset_intent (l : Bool) (s : State) : (setReset l s).intent = if l then s.intent else .reset := rfl
@[simp] theorem setReset_resHeld (l : Bool) (s : State) : (setReset l s).resHeld = s.resHeld := rfl
@[simp] theorem setReset_jammed (l : Bool) (s : State) : (setReset l s).jammed = s.jammed := rfl
@[simp] theorem setReset_divider (l : Bool) (s : State) : (setReset l s).divider = s.divider := rfl
@[simp] theorem setReset_mem (l : Bool) (s : State) : (setReset l s).mem = s.mem := rfl
@[simp] theorem setReset_callerQ (l : Bool) (s : State) : (setReset l s).callerQ = s.callerQ := rfl
@[simp] theorem setReset_trace (l : Bool) (s : State) : (setReset l s).trace = s.trace := rfl
@[simp] theorem setReset_i80 (l : Bool) (s : State) : (setReset l s).i80 = s.i80 := rfl
@[simp] theorem setReset_hostQ (l : Bool) (s : State) : (setReset l s).hostQ = s.hostQ := rfl
@[simp] theorem setReset_io (l : Bool) (s : State) : (setReset l s).io = s.io := rfl

/-! ### resetHeldCycle -/

@[simp] theorem resetHeldCycle_proc (s : State) : (resetHeldCycle s).proc = s.proc := rfl
@[simp] theorem resetHeldCycle_A (s : State) : (resetHeldCycle s).A = s.A := rfl
@[simp] theorem resetHeldCycle_X (s : State) : (resetHeldCycle s).X = s.X := rfl
@[simp] theorem resetHeldCycle_Y (s : State) : (resetHeldCycle s).Y = s.Y := rfl
@[simp] theorem resetHeldCycle_S (s : State) : (resetHeldCycle s).S = s.S := rfl
@[simp] theorem resetHeldCycle_PC (s : State) : (resetHeldCycle s).PC = s.PC := rfl
@[simp] theorem resetHeldCycle_P (s : State) : (resetHeldCycle s).P = s.P := rfl
@[simp] theorem resetHeldCycle_pins (s : State) : (resetHeldCycle s).pins = { s.pins with rw := true, sync := false, addr := Config.resetAddr } := rfl
@[simp] theorem resetHeldCycle_phase (s : State) : (resetHeldCycle s).phase = s.phase := rfl
@[simp] theorem resetHeldCycle_IR (s : State) : (resetHeldCycle s).IR = s.IR := rfl
@[simp] theorem resetHeldCycle_T (s : State) : (resetHeldCycle s).T = s.T := rfl
@[simp] theorem resetHeldCycle_AD (s : State) : (resetHeldCycle s).AD = s.AD := rfl
@[simp] theorem resetHeldCycle_TMP (s : State) : (resetHeldCycle s).TMP = s.TMP := rfl
@[simp] theorem resetHeldCycle_SS (s : State) : (resetHeldCycle s).SS = s.SS := rfl
@[simp] theorem resetHeldCycle_pendA (s : State) : (resetHeldCycle s).pendA = s.pendA := rfl
@[simp] theorem resetHeldCycle_pendX (s : State) : (resetHeldCycle s).pendX = s.pendX := rfl
@[simp] theorem resetHeldCycle_pendY (s : State) : (resetHeldCycle s).pendY = s.pendY := rfl
@[simp] theorem resetHeldCycle_pendS (s : State) : (resetHeldCycle s).pendS = s.pendS := rfl
@[simp] theorem resetHeldCycle_dout (s : State) : (resetHeldCycle s).dout = none := rfl
@[simp] theorem resetHeldCycle_rstCnt (s : State) : (resetHeldCycle s).rstCnt = s.rstCnt := rfl
@[simp] theorem resetHeldCycle_nmiLatch (s : State) : (resetHeldCycle s).nmiLatch = 0 := rfl
@[simp] theorem resetHeldCycle_irqLatch (s : State) : (resetHeldCycle s).irqLatch = 0 := rfl
@[simp] theorem resetHeldCycle_nmiPrev (s : State) : (resetHeldCycle s).nmiPrev = s.pins.nmiN := rfl
@[simp] theorem resetHeldCycle_intent (s : State) : (resetHeldCycle s).intent = .reset := rfl
@[simp] theorem resetHeldCycle_resHeld (s : State) : (resetHeldCycle s).resHeld = true := rfl
@[simp] theorem resetHeldCycle_jammed (s : State) : (resetHeldCycle s).jammed = false := rfl
@[simp] theorem resetHeldCycle_divider (s : State) : (resetHeldCycle s).divider = s.divider := rfl
@[simp] theorem resetHeldCycle_mem (s : State) : (resetHeldCycle s).mem = s.mem := rfl
@[simp] theorem resetHeldCycle_callerQ (s : State) : (resetHeldCycle s).callerQ = s.callerQ := rfl
@[simp] theorem resetHeldCycle_trace (s : State) : (resetHeldCycle s).trace = s.trace := rfl
@[simp] theorem resetHeldCycle_i80 (s : State) : (resetHeldCycle s).i80 = s.i80 := rfl
@[simp] theorem resetHeldCycle_hostQ (s : State) : (resetHeldCycle s).hostQ = s.hostQ := rfl
@[simp] theorem resetHeldCycle_io (s : State) : (resetHeldCycle s).io = s.io := rfl

/-! ### resetRelease -/

@[simp] theorem resetRelease_proc (s : State) : (resetRelease s).proc = s.proc := rfl
@[simp] theorem resetRelease_A (s : State) : (resetRelease s).A = s.A := rfl
@[simp] theorem resetRelease_X (s : State) : (resetRelease s).X = s.X := rfl
@[simp] theorem resetRelease_Y (s : State) : (resetRelease s).Y = s.Y := rfl
@[simp] theorem resetRelease_S (s : State) : (resetRelease s).S = s.S := rfl
@[simp] theorem resetRelease_PC (s : State) : (resetRelease s).PC = s.PC := rfl
@[simp] theorem resetRelease_P (s : State) : (resetRelease s).P = s.P := rfl
@[simp] theorem resetRelease_pins (s : State) : (resetRelease s).pins = { s.pins with sync := true } := rfl
@[simp] theorem resetRelease_phase (s : State) : (resetRelease s).phase = s.phase := rfl
@[simp] theorem resetRelease_IR (s : State) : (resetRelease s).IR = s.IR := rfl
@[simp] theorem resetRelease_T (s : State) : (resetRelease s).T = s.T := rfl
@[simp] theorem resetRelease_AD (s : State) : (resetRelease s).AD = s.AD := rfl
@[simp] theorem resetRelease_TMP (s : State) : (resetRelease s).TMP = s.TMP := rfl
@[simp] theorem resetRelease_SS (s : State) : (resetRelease s).SS = s.SS := rfl
@[simp] theorem resetRelease_pendA (s : State) : (resetRelease s).pendA = s.pendA := rfl
@[simp] theorem resetRelease_pendX (s : State) : (resetRelease s).pendX = s.pendX := rfl
@[simp] theorem resetRelease_pendY (s : State) : (resetRelease s).pendY = s.pendY := rfl
@[simp] theorem resetRelease_pendS (s : State) : (resetRelease s).pendS = s.pendS := rfl
@[simp] theorem resetRelease_dout (s : State) : (resetRelease s).dout = s.dout := rfl
@[simp] theorem resetRelease_rstCnt (s : State) : (resetRelease s).rstCnt = 2 := rfl
@[simp] theorem resetRelease_nmiLatch (s : State) : (resetRelease s).nmiLatch = s.nmiLatch := rfl
@[simp] theorem resetRelease_irqLatch (s : State) : (resetRelease s).irqLatch = s.irqLatch := rfl
@[simp] theorem resetRelease_nmiPrev (s : State) : (resetRelease s).nmiPrev = s.nmiPrev := rfl
@[simp] theorem resetRelease_intent (s : State) : (resetRelease s).intent = .reset := rfl
@[simp] theorem resetRelease_resHeld (s : State) : (resetRelease s).resHeld = false := rfl
@[simp] theorem resetRelease_jammed (s : State) : (resetRelease s).jammed = s.jammed := rfl
@[simp] theorem resetRelease_divider (s : State) : (resetRelease s).divider = s.divider := rfl
@[simp] theorem resetRelease_mem (s : State) : (resetRelease s).mem = s.mem := rfl
@[simp] theorem resetRelease_callerQ (s : State) : (resetRelease s).callerQ = s.callerQ := rfl
@[simp] theorem resetRelease_trace (s : State) : (resetRelease s).trace = s.trace := rfl
@[simp] theorem resetRelease_i80 (s : State) : (resetRelease s).i80 = s.i80 := rfl
@[simp] theorem resetRelease_hostQ (s : State) : (resetRelease s).hostQ = s.hostQ := rfl
@[simp] theorem resetRelease_io (s : State) : (resetRelease s).io = s.io := rfl

/-! ### memWrite -/

@[simp] theorem memWrite_proc (a : Addr) (v : Byte) (s : State) : (memWrite a v s).proc = s.proc := rfl
@[simp] theorem memWrite_A (a : Addr) (v : Byte) (s : State) : (memWrite a v s).A = s.A := rfl
@[simp] theorem memWrite_X (a : Addr) (v : Byte) (s : State) : (memWrite a v s).X = s.X := rfl
@[simp] theorem memWrite_Y (a : Addr) (v : Byte) (s : State) : (memWrite a v s).Y = s.Y := rfl
@[simp] theorem memWrite_S (a : Addr) (v : Byte) (s : State) : (memWrite a v s).S = s.S := rfl
@[simp] theorem memWrite_PC (a : Addr) (v : Byte) (s : State) : (memWrite a v s).PC = s.PC := rfl
@[simp] theorem memWrite_P (a : Addr) (v : Byte) (s : State) : (memWrite a v s).P = s.P := rfl
@[simp] theorem memWrite_pins (a : Addr) (v : Byte) (s : State) : (memWrite a v s).pins = s.pins := rfl
@[simp] theorem memWrite_phase (a : Addr) (v : Byte) (s : State) : (memWrite a v s).phase = s.phase := rfl
@[simp] theorem memWrite_IR (a : Addr) (v : Byte) (s : State) : (memWrite a v s).IR = s.IR := rfl
@[simp] theorem memWrite_T (a : Addr) (v : Byte) (s : State) : (memWrite a v s).T = s.T := rfl
@[simp] theorem memWrite_AD (a : Addr) (v : Byte) (s : State) : (memWrite a v s).AD = s.AD := rfl
@[simp] theorem memWrite_TMP (a : Addr) (v : Byte) (s : State) : (memWrite a v s).TMP = s.TMP := rfl
@[simp] theorem memWrite_SS (a : Addr) (v : Byte) (s : State) : (memWrite a v s).SS = s.SS := rfl
@[simp] theorem memWrite_pendA (a : Addr) (v : Byte) (s : State) : (memWrite a v s).pendA = s.pendA := rfl
@[simp] theorem memWrite_pendX (a : Addr) (v : Byte) (s : State) : (memWrite a v s).pendX = s.pendX := rfl
@[simp] theorem memWrite_pendY (a : Addr) (v : Byte) (s : State) : (memWrite a v s).pendY = s.pendY := rfl
@[simp] theorem memWrite_pendS (a : Addr) (v : Byte) (s : State) : (memWrite a v s).pendS = s.pendS := rfl
@[simp] theorem memWrite_dout (a : Addr) (v : Byte) (s : State) : (memWrite a v s).dout = s.dout := rfl
@[simp] theorem memWrite_rstCnt (a : Addr) (v : Byte) (s : State) : (memWrite a v s).rstCnt = s.rstCnt := rfl
@[simp] theorem memWrite_nmiLatch (a : Addr) (v : Byte) (s : State) : (memWrite a v s).nmiLatch = s.nmiLatch := rfl
@[simp] theorem memWrite_irqLatch (a : Addr) (v : Byte) (s : State) : (memWrite a v s).irqLatch = s.irqLatch := rfl
@[simp] theorem memWrite_nmiPrev (a : Addr) (v : Byte) (s : State) : (memWrite a v s).nmiPrev = s.nmiPrev := rfl
@[simp] theorem memWrite_intent (a : Addr) (v : Byte) (s : State) : (memWrite a v s).intent = s.intent := rfl
@[simp] theorem memWrite_resHeld (a : Addr) (v : Byte) (s : State) : (memWrite a v s).resHeld = s.resHeld := rfl
@[simp] theorem memWrite_jammed (a : Addr) (v : Byte) (s : State) : (memWrite a v s).jammed = s.jammed := rfl
@[simp] theorem memWrite_divider (a : Addr) (v : Byte) (s : State) : (memWrite a v s).divider = s.divider := rfl
@[simp] theorem memWrite_mem (a : Addr) (v : Byte) (s : State) : (memWrite a v s).mem = s.mem.write a v := rfl
@[simp] theorem memWrite_callerQ (a : Addr) (v : Byte) (s : State) : (memWrite a v s).callerQ = s.callerQ := rfl
@[simp] theorem memWrite_trace (a : Addr) (v : Byte) (s : State) : (memWrite a v s).trace = s.trace := rfl
@[simp] theorem memWrite_i80 (a : Addr) (v : Byte) (s : State) : (memWrite a v s).i80 = s.i80 := rfl
@[simp] theorem memWrite_hostQ (a : Addr) (v : Byte) (s : State) : (memWrite a v s).hostQ = s.hostQ := rfl
@[simp] theorem memWrite_io (a : Addr) (v : Byte) (s : State) : (memWrite a v s).io = s.io := rfl

/-! ### withI80 -/

@[simp] theorem withI80_proc (c : I8080) (s : State) : (withI80 s c).proc = s.proc := rfl
@[simp] theorem withI80_A (c : I8080) (s : State) : (withI80 s c).A = s.A := rfl
@[simp] theorem withI80_X (c : I8080) (s : State) : (withI80 s c).X = s.X := rfl
@[simp] theorem withI80_Y (c : I8080) (s : State) : (withI80 s c).Y = s.Y := rfl
@[simp] theorem withI80_S (c : I8080) (s : State) : (withI80 s c).S = s.S := rfl
@[simp] theorem withI80_PC (c : I8080) (s : State) : (withI80 s c).PC = s.PC := rfl
@[simp] theorem withI80_P (c : I8080) (s : State) : (withI80 s c).P = s.P := rfl
@[simp] theorem withI80_pins (c : I8080) (s : State) : (withI80 s c).pins = s.pins := rfl
@[simp] theorem withI80_phase (c : I8080) (s : State) : (withI80 s c).phase = s.phase := rfl
@[simp] theorem withI80_IR (c : I8080) (s : State) : (withI80 s c).IR = s.IR := rfl
@[simp] theorem withI80_T (c : I8080) (s : State) : (withI80 s c).T = s.T := rfl
@[simp] theorem withI80_AD (c : I8080) (s : State) : (withI80 s c).AD = s.AD := rfl
@[simp] theorem withI80_TMP (c : I8080) (s : State) : (withI80 s c).TMP = s.TMP := rfl
@[simp] theorem withI80_SS (c : I8080) (s : State) : (withI80 s c).SS = s.SS := rfl
@[simp] theorem withI80_pendA (c : I8080) (s : State) : (withI80 s c).pendA = s.pendA := rfl
@[simp] theorem withI80_pendX (c : I8080) (s : State) : (withI80 s c).pendX = s.pendX := rfl
@[simp] theorem withI80_pendY (c : I8080) (s : State) : (withI80 s c).pendY = s.pendY := rfl
@[simp] theorem withI80_pendS (c : I8080) (s : State) : (withI80 s c).pendS = s.pendS := rfl
@[simp] theorem withI80_dout (c : I8080) (s : State) : (withI80 s c).dout = s.dout := rfl
@[simp] theorem withI80_rstCnt (c : I8080) (s : State) : (withI80 s c).rstCnt = s.rstCnt := rfl
@[simp] theorem withI80_nmiLatch (c : I8080) (s : State) : (withI80 s c).nmiLatch = s.nmiLatch := rfl
@[simp] theorem withI80_irqLatch (c : I8080) (s : State) : (withI80 s c).irqLatch = s.irqLatch := rfl
@[simp] theorem withI80_nmiPrev (c : I8080) (s : State) : (withI80 s c).nmiPrev = s.nmiPrev := rfl
@[simp] theorem withI80_intent (c : I8080) (s : State) : (withI80 s c).intent = s.intent := rfl
@[simp] theorem withI80_resHeld (c : I8080) (s : State) : (withI80 s c).resHeld = s.resHeld := rfl
@[simp] theorem withI80_jammed (c : I8080) (s : State) : (withI80 s c).jammed = s.jammed := rfl
@[simp] theorem withI80_divider (c : I8080) (s : State) : (withI80 s c).divider = s.divider := rfl
@[simp] theorem withI80_mem (c : I8080) (s : State) : (withI80 s c).mem = s.mem := rfl
@[simp] theorem withI80_callerQ (c : I8080) (s : State) : (withI80 s c).callerQ = s.callerQ := rfl
@[simp] theorem withI80_trace (c : I8080) (s : State) : (withI80 s c).trace = s.trace := rfl
@[simp] theorem withI80_i80 (c : I8080) (s : State) : (withI80 s c).i80 = c := rfl
@[simp] theorem withI80_hostQ (c : I8080) (s : State) : (withI80 s c).hostQ = s.hostQ := rfl
@[simp] theorem withI80_io (c : I8080) (s : State) : (withI80 s c).io = s.io := rfl

/-! ### portOut -/

@[simp] theorem portOut_proc (p v : Byte) (s : State) : (portOut p v s).proc = s.proc := rfl
@[simp] theorem portOut_A (p v : Byte) (s : State) : (portOut p v s).A = s.A := rfl
@[simp] theorem portOut_X (p v : Byte) (s : State) : (portOut p v s).X = s.X := rfl
@[simp] theorem portOut_Y (p v : Byte) (s : State) : (portOut p v s).Y = s.Y := rfl
@[simp] theorem portOut_S (p v : Byte) (s : State) : (portOut p v s).S = s.S := rfl
@[simp] theorem portOut_PC (p v : Byte) (s : State) : (portOut p v s).PC = s.PC := rfl
@[simp] theorem portOut_P (p v : Byte) (s : State) : (portOut p v s).P = s.P := rfl
@[simp] theorem portOut_pins (p v : Byte) (s : State) : (portOut p v s).pins = s.pins := rfl
@[simp] theorem portOut_phase (p v : Byte) (s : State) : (portOut p v s).phase = s.phase := rfl
@[simp] theorem portOut_IR (p v : Byte) (s : State) : (portOut p v s).IR = s.IR := rfl
@[simp] theorem portOut_T (p v : Byte) (s : State) : (portOut p v s).T = s.T := rfl
@[simp] theorem portOut_AD (p v : Byte) (s : State) : (portOut p v s).AD = s.AD := rfl
@[simp] theorem portOut_TMP (p v : Byte) (s : State) : (portOut p v s).TMP = s.TMP := rfl
@[simp] theorem portOut_SS (p v : Byte) (s : State) : (portOut p v s).SS = s.SS := rfl
@[simp] theorem portOut_pendA (p v : Byte) (s : State) : (portOut p v s).pendA = s.pendA := rfl
@[simp] theorem portOut_pendX (p v : Byte) (s : State) : (portOut p v s).pendX = s.pendX := rfl
@[simp] theorem portOut_pendY (p v : Byte) (s : State) : (portOut p v s).pendY = s.pendY := rfl
@[simp] theorem portOut_pendS (p v : Byte) (s : State) : (portOut p v s).pendS = s.pendS := rfl
@[simp] theorem portOut_dout (p v : Byte) (s : State) : (portOut p v s).dout = s.dout := rfl
@[simp] theorem portOut_rstCnt (p v : Byte) (s : State) : (portOut p v s).rstCnt = s.rstCnt := rfl
@[simp] theorem portOut_nmiLatch (p v : Byte) (s : State) : (portOut p v s).nmiLatch = s.nmiLatch := rfl
@[simp] theorem portOut_irqLatch (p v : Byte) (s : State) : (portOut p v s).irqLatch = s.irqLatch := rfl
@[simp] theorem portOut_nmiPrev (p v : Byte) (s : State) : (portOut p v s).nmiPrev = s.nmiPrev := rfl
@[simp] theorem portOut_intent (p v : Byte) (s : State) : (portOut p v s).intent = s.intent := rfl
@[simp] theorem portOut_resHeld (p v : Byte) (s : State) : (portOut p v s).resHeld = s.resHeld := rfl
@[simp] theorem portOut_jammed (p v : Byte) (s : State) : (portOut p v s).jammed = s.jammed := rfl
@[simp] theorem portOut_divider (p v : Byte) (s : State) : (portOut p v s).divider = s.divider := rfl
@[simp] theorem portOut_mem (p v : Byte) (s : State) : (portOut p v s).mem = s.mem := rfl
@[simp] theorem portOut_callerQ (p v : Byte) (s : State) : (portOut p v s).callerQ = s.callerQ := rfl
@[simp] theorem portOut_trace (p v : Byte) (s : State) : (portOut p v s).trace = s.trace := rfl
@[simp] theorem portOut_i80 (p v : Byte) (s : State) : (portOut p v s).i80 = s.i80 := rfl
@[simp] theorem portOut_hostQ (p v : Byte) (s : State) : (portOut p v s).hostQ = s.hostQ := rfl
@[simp] theorem portOut_io (p v : Byte) (s : State) : (portOut p v s).io = { s.io with outs := s.io.outs ++ [(p, v)] } := rfl

/-! ### fetchNextBranch -/

@[simp] theorem fetchNextBranch_proc (s : State) : (fetchNextBranch s).proc = s.proc := rfl
@[simp] theorem fetchNextBranch_A (s : State) : (fetchNextBranch s).A = s.A := rfl
@[simp] theorem fetchNextBranch_X (s : State) : (fetchNextBranch s).X = s.X := rfl
@[simp] theorem fetchNextBranch_Y (s : State) : (fetchNextBranch s).Y = s.Y := rfl
@[simp] theorem fetchNextBranch_S (s : State) : (fetchNextBranch s).S = s.S := rfl
@[simp] theorem fetchNextBranch_PC (s : State) : (fetchNextBranch s).PC = s.PC := rfl
@[simp] theorem fetchNextBranch_P (s : State) : (fetchNextBranch s).P = s.P := rfl
@[simp] theorem fetchNextBranch_pins (s : State) : (fetchNextBranch s).pins = { s.pins with addr := s.PC, rw := true, sync := true } := rfl
@[simp] theorem fetchNextBranch_phase (s : State) : (fetchNextBranch s).phase = s.phase := rfl
@[simp] theorem fetchNextBranch_IR (s : State) : (fetchNextBranch s).IR = s.IR := rfl
@[simp] theorem fetchNextBranch_T (s : State) : (fetchNextBranch s).T = s.T := rfl
@[simp] theorem fetchNextBranch_AD (s : State) : (fetchNextBranch s).AD = s.AD := rfl
@[simp] theorem fetchNextBranch_TMP (s : State) : (fetchNextBranch s).TMP = s.TMP := rfl
@[simp] theorem fetchNextBranch_SS (s : State) : (fetchNextBranch s).SS = s.SS := rfl
@[simp] theorem fetchNextBranch_pendA (s : State) : (fetchNextBranch s).pendA = s.pendA := rfl
@[simp] theorem fetchNextBranch_pendX (s : State) : (fetchNextBranch s).pendX = s.pendX := rfl
@[simp] theorem fetchNextBranch_pendY (s : State) : (fetchNextBranch s).pendY = s.pendY := rfl
@[simp] theorem fetchNextBranch_pendS (s : State) : (fetchNextBranch s).pendS = s.pendS := rfl
@[simp] theorem fetchNextBranch_dout (s : State) : (fetchNextBranch s).dout = s.dout := rfl
@[simp] theorem fetchNextBranch_rstCnt (s : State) : (fetchNextBranch s).rstCnt = s.rstCnt := rfl
@[simp] theorem fetchNextBranch_nmiPrev (s : State) : (fetchNextBranch s).nmiPrev = s.nmiPrev := rfl
@[simp] theorem fetchNextBranch_resHeld (s : State) : (fetchNextBranch s).resHeld = s.resHeld := rfl
@[simp] theorem fetchNextBranch_jammed (s : State) : (fetchNextBranch s).jammed = s.jammed := rfl
@[simp] theorem fetchNextBranch_divider (s : State) : (fetchNextBranch s).divider = s.divider := rfl
@[simp] theorem fetchNextBranch_mem (s : State) : (fetchNextBranch s).mem = s.mem := rfl
@[simp] theorem fetchNextBranch_callerQ (s : State) : (fetchNextBranch s).callerQ = s.callerQ := rfl
@[simp] theorem fetchNextBranch_trace (s : State) : (fetchNextBranch s).trace = s.trace := rfl
@[simp] theorem fetchNextBranch_i80 (s : State) : (fetchNextBranch s).i80 = s.i80 := rfl
@[simp] theorem fetchNextBranch_hostQ (s : State) : (fetchNextBranch s).hostQ = s.hostQ := rfl
@[simp] theorem fetchNextBranch_io (s : State) : (fetchNextBranch s).io = s.io := rfl

/-! ### portInDone -/

@[simp] theorem portInDone_proc (s : State) : (portInDone s).proc = s.proc := rfl
@[simp] theorem portInDone_A (s : State) : (portInDone s).A = s.A := rfl
@[simp] theorem portInDone_X (s : State) : (portInDone s).X = s.X := rfl
@[simp] theorem portInDone_Y (s : State) : (portInDone s).Y = s.Y := rfl
@[simp] theorem portInDone_S (s : State) : (portInDone s).S = s.S := rfl
@[simp] theorem portInDone_PC (s : State) : (portInDone s).PC = s.PC := rfl
@[simp] theorem portInDone_P (s : State) : (portInDone s).P = s.P := rfl
@[simp] theorem portInDone_pins (s : State) : (portInDone s).pins = s.pins := rfl
@[simp] theorem portInDone_phase (s : State) : (portInDone s).phase = s.phase := rfl
@[simp] theorem portInDone_IR (s : State) : (portInDone s).IR = s.IR := rfl
@[simp] theorem portInDone_T (s : State) : (portInDone s).T = s.T := rfl
@[simp] theorem portInDone_AD (s : State) : (portInDone s).AD = s.AD := rfl
@[simp] theorem portInDone_TMP (s : State) : (portInDone s).TMP = s.TMP := rfl
@[simp] theorem portInDone_SS (s : State) : (portInDone s).SS = s.SS := rfl
@[simp] theorem portInDone_pendA (s : State) : (portInDone s).pendA = s.pendA := rfl
@[simp] theorem portInDone_pendX (s : State) : (portInDone s).pendX = s.pendX := rfl
@[simp] theorem portInDone_pendY (s : State) : (portInDone s).pendY = s.pendY := rfl
@[simp] theorem portInDone_pendS (s : State) : (portInDone s).pendS = s.pendS := rfl
@[simp] theorem portInDone_dout (s : State) : (portInDone s).dout = s.dout := rfl
@[simp] theorem portInDone_rstCnt (s : State) : (portInDone s).rstCnt = s.rstCnt := rfl
@[simp] theorem portInDone_nmiLatch (s : State) : (portInDone s).nmiLatch = s.nmiLatch := rfl
@[simp] theorem portInDone_irqLatch (s : State) : (portInDone s).irqLatch = s.irqLatch := rfl
@[simp] theorem portInDone_nmiPrev (s : State) : (portInDone s).nmiPrev = s.nmiPrev := rfl
@[simp] theorem portInDone_intent (s : State) : (portInDone s).intent = s.intent := rfl
@[simp] theorem portInDone_resHeld (s : State) : (portInDone s).resHeld = s.resHeld := rfl
@[simp] theorem portInDone_jammed (s : State) : (portInDone s).jammed = s.jammed := rfl
@[simp] theorem portInDone_divider (s : State) : (portInDone s).divider = s.divider := rfl
@[simp] theorem portInDone_mem (s : State) : (portInDone s).mem = s.mem := rfl
@[simp] theorem portInDone_callerQ (s : State) : (portInDone s).callerQ = s.callerQ := rfl
@[simp] theorem portInDone_trace (s : State) : (portInDone s).trace = s.trace := rfl
@[simp] theorem portInDone_i80 (s : State) : (portInDone s).i80 = s.i80 := rfl
@[simp] theorem portInDone_hostQ (s : State) : (portInDone s).hostQ = s.hostQ := rfl

/-! ### advanceStep -/

@[simp] theorem advanceStep_proc (a : Advance) (s : State) : (advanceStep a s).proc = s.proc := by cases a <;> rfl
@[simp] theorem advanceStep_A (a : Advance) (s : State) : (advanceStep a s).A = s.A := by cases a <;> rfl
@[simp] theorem advanceStep_X (a : Advance) (s : State) : (advanceStep a s).X = s.X := by cases a <;> rfl
@[simp] theorem advanceStep_Y (a : Advance) (s : State) : (advanceStep a s).Y = s.Y := by cases a <;> rfl
@[simp] theorem advanceStep_S (a : Advance) (s : State) : (advanceStep a s).S = s.S := by cases a <;> rfl
@[simp] theorem advanceStep_PC (a : Advance) (s : State) : (advanceStep a s).PC = s.PC := by cases a <;> rfl
@[simp] theorem advanceStep_P (a : Advance) (s : State) : (advanceStep a s).P = s.P := by cases a <;> rfl
@[simp] theorem advanceStep_pins (a : Advance) (s : State) : (advanceStep a s).pins = s.pins := by cases a <;> rfl
@[simp] theorem advanceStep_phase (a : Advance) (s : State) : (advanceStep a s).phase = s.phase := by cases a <;> rfl
@[simp] theorem advanceStep_IR (a : Advance) (s : State) : (advanceStep a s).IR = s.IR := by cases a <;> rfl
@[simp] theorem advanceStep_AD (a : Advance) (s : State) : (advanceStep a s).AD = s.AD := by cases a <;> rfl
@[simp] theorem advanceStep_TMP (a : Advance) (s : State) : (advanceStep a s).TMP = s.TMP := by cases a <;> rfl
@[simp] theorem advanceStep_SS (a : Advance) (s : State) : (advanceStep a s).SS = s.SS := by cases a <;> rfl
@[simp] theorem advanceStep_pendA (a : Advance) (s : State) : (advanceStep a s).pendA = s.pendA := by cases a <;> rfl
@[simp] theorem advanceStep_pendX (a : Advance) (s : State) : (advanceStep a s).pendX = s.pendX := by cases a <;> rfl
@[simp] theorem advanceStep_pendY (a : Advance) (s : State) : (advanceStep a s).pendY = s.pendY := by cases a <;> rfl
@[simp] theorem advanceStep_pendS (a : Advance) (s : State) : (advanceStep a s).pendS = s.pendS := by cases a <;> rfl
@[simp] theorem advanceStep_dout (a : Advance) (s : State) : (advanceStep a s).dout = s.dout := by cases a <;> rfl
@[simp] theorem advanceStep_rstCnt (a : Advance) (s : State) : (advanceStep a s).rstCnt = s.rstCnt := by cases a <;> rfl
@[simp] theorem advanceStep_nmiLatch (a : Advance) (s : State) : (advanceStep a s).nmiLatch = s.nmiLatch := by cases a <;> rfl
@[simp] theorem advanceStep_irqLatch (a : Advance) (s : State) : (advanceStep a s).irqLatch = s.irqLatch := by cases a <;> rfl
@[simp] theorem advanceStep_nmiPrev (a : Advance) (s : State) : (advanceStep a s).nmiPrev = s.nmiPrev := by cases a <;> rfl
@[simp] theorem advanceStep_intent (a : Advance) (s : State) : (advanceStep a s).intent = s.intent := by cases a <;> rfl
@[simp] theorem advanceStep_resHeld (a : Advance) (s : State) : (advanceStep a s).resHeld = s.resHeld := by cases a <;> rfl
@[simp] theorem advanceStep_jammed (a : Advance) (s : State) : (advanceStep a s).jammed = s.jammed := by cases a <;> rfl
@[simp] theorem advanceStep_divider (a : Advance) (s : State) : (advanceStep a s).divider = s.divider := by cases a <;> rfl
@[simp] theorem advanceStep_mem (a : Advance) (s : State) : (advanceStep a s).mem = s.mem := by cases a <;> rfl
@[simp] theorem advanceStep_callerQ (a : Advance) (s : State) : (advanceStep a s).callerQ = s.callerQ := by cases a <;> rfl
@[simp] theorem advanceStep_trace (a : Advance) (s : State) : (advanceStep a s).trace = s.trace := by cases a <;> rfl
@[simp] theorem advanceStep_i80 (a : Advance) (s : State) : (advanceStep a s).i80 = s.i80 := by cases a <;> rfl
@[simp] theorem advanceStep_hostQ (a : Advance) (s : State) : (advanceStep a s).hostQ = s.hostQ := by cases a <;> rfl
@[simp] theorem advanceStep_io (a : Advance) (s : State) : (advanceStep a s).io = s.io := by cases a <;> rfl

/-! ### Construction and reset of the 8080 core (48_i8080.md R426) -/

@[simp] theorem i8080_constructed_A (d : I8080Draw) : (I8080.constructed d).A = d.A := rfl
@[simp] theorem i8080_constructed_B (d : I8080Draw) : (I8080.constructed d).B = d.B := rfl
@[simp] theorem i8080_constructed_C (d : I8080Draw) : (I8080.constructed d).C = d.C := rfl
@[simp] theorem i8080_constructed_D (d : I8080Draw) : (I8080.constructed d).D = d.D := rfl
@[simp] theorem i8080_constructed_E (d : I8080Draw) : (I8080.constructed d).E = d.E := rfl
@[simp] theorem i8080_constructed_H (d : I8080Draw) : (I8080.constructed d).H = d.H := rfl
@[simp] theorem i8080_constructed_L (d : I8080Draw) : (I8080.constructed d).L = d.L := rfl
@[simp] theorem i8080_constructed_SP (d : I8080Draw) : (I8080.constructed d).SP = d.SP := rfl
@[simp] theorem i8080_constructed_fS (d : I8080Draw) : (I8080.constructed d).fS = d.fS := rfl
@[simp] theorem i8080_constructed_fZ (d : I8080Draw) : (I8080.constructed d).fZ = d.fZ := rfl
@[simp] theorem i8080_constructed_fAC (d : I8080Draw) : (I8080.constructed d).fAC = d.fAC := rfl
@[simp] theorem i8080_constructed_fP (d : I8080Draw) : (I8080.constructed d).fP = d.fP := rfl
@[simp] theorem i8080_constructed_fCY (d : I8080Draw) : (I8080.constructed d).fCY = d.fCY := rfl
@[simp] theorem i8080_constructed_PC (d : I8080Draw) : (I8080.constructed d).PC = 0x0000 := rfl
@[simp] theorem i8080_constructed_INTE (d : I8080Draw) : (I8080.constructed d).INTE = false := rfl
@[simp] theorem i8080_constructed_eiPending (d : I8080Draw) : (I8080.constructed d).eiPending = false := rfl
@[simp] theorem i8080_constructed_halted (d : I8080Draw) : (I8080.constructed d).halted = false := rfl
@[simp] theorem i8080_constructed_intrRequested (d : I8080Draw) : (I8080.constructed d).intrRequested = false := rfl

@[simp] theorem state_constructed_i80 (p : Processor) (po : PowerOn) (m : Memory) :
    (State.constructed p po m).i80 = I8080.constructed po.i80 := rfl

@[simp] theorem reset8080_A (s : State) : (reset8080 s).i80.A = s.i80.A := rfl
@[simp] theorem reset8080_B (s : State) : (reset8080 s).i80.B = s.i80.B := rfl
@[simp] theorem reset8080_C (s : State) : (reset8080 s).i80.C = s.i80.C := rfl
@[simp] theorem reset8080_D (s : State) : (reset8080 s).i80.D = s.i80.D := rfl
@[simp] theorem reset8080_E (s : State) : (reset8080 s).i80.E = s.i80.E := rfl
@[simp] theorem reset8080_H (s : State) : (reset8080 s).i80.H = s.i80.H := rfl
@[simp] theorem reset8080_L (s : State) : (reset8080 s).i80.L = s.i80.L := rfl
@[simp] theorem reset8080_SP (s : State) : (reset8080 s).i80.SP = s.i80.SP := rfl
@[simp] theorem reset8080_fS (s : State) : (reset8080 s).i80.fS = s.i80.fS := rfl
@[simp] theorem reset8080_fZ (s : State) : (reset8080 s).i80.fZ = s.i80.fZ := rfl
@[simp] theorem reset8080_fAC (s : State) : (reset8080 s).i80.fAC = s.i80.fAC := rfl
@[simp] theorem reset8080_fP (s : State) : (reset8080 s).i80.fP = s.i80.fP := rfl
@[simp] theorem reset8080_fCY (s : State) : (reset8080 s).i80.fCY = s.i80.fCY := rfl
@[simp] theorem reset8080_PC (s : State) : (reset8080 s).i80.PC = 0x0000 := rfl
@[simp] theorem reset8080_INTE (s : State) : (reset8080 s).i80.INTE = false := rfl
@[simp] theorem reset8080_eiPending (s : State) : (reset8080 s).i80.eiPending = false := rfl
@[simp] theorem reset8080_halted (s : State) : (reset8080 s).i80.halted = false := rfl

/-- Construction has called `reset8080` already (49_i8080_control.md R519). -/
theorem reset8080_constructed (p : Processor) (po : PowerOn) (m : Memory) :
    reset8080 (State.constructed p po m) = State.constructed p po m := rfl

/-! ### Going on from an outcome -/

@[simp] theorem andThen_next (s : State) (f : State → Outcome) : andThen (.next s) f = f s := rfl

@[simp] theorem andThen_fault (r : Fault) (f : State → Outcome) : andThen (.fault r) f = .fault r := rfl

@[simp] theorem andThen_refused (r : Refusal) (f : State → Outcome) : andThen (.refused r) f = .refused r := rfl

theorem andThen_id (o : Outcome) : andThen o (fun t => .next t) = o := by cases o <;> rfl

/-- A next state of two moves is a next state of the first and then of the second. -/
theorem andThen_eq_next {o : Outcome} {f : State → Outcome} {u : State} :
    andThen o f = .next u ↔ ∃ t, o = .next t ∧ f t = .next u := by
  cases o <;> simp

end Sys2Proof.Machine
end

