-- ==== Sys2Proof/Laws/Memory.lean ====
section
/-! SUPPORT. The laws of plain memory: a read after a write, and that every memory operation keeps the canonical form. -/

namespace Sys2Proof.Machine

theorem lookup_store_self (m : Memory) (a : Nat) (v : Byte) (n : Nat) (h : Memory.wfFrom n m = true) :
    Memory.lookup (Memory.store m a v) a = v := by
  induction m generalizing n with
  | nil => by_cases hv : v = unlistedByte <;> simp [Memory.store, Memory.lookup, hv]
  | cons c rest ih =>
    obtain ⟨k, w⟩ := c
    simp only [Memory.wfFrom, Bool.and_eq_true, decide_eq_true_eq] at h
    obtain ⟨⟨⟨h1, h2⟩, h3⟩, h4⟩ := h
    have skip : ∀ (l : Memory) (j : Nat), Memory.wfFrom j l = true → a < j → Memory.lookup l a = unlistedByte := by
      intro l
      induction l with
      | nil => intros; rfl
      | cons d l ihl =>
        intro j hj hlt
        obtain ⟨x, y⟩ := d
        simp only [Memory.wfFrom, Bool.and_eq_true, decide_eq_true_eq] at hj
        have : ¬ x = a := by omega
        simp only [Memory.lookup, this, if_false]
        exact ihl (x + 1) hj.2 (by omega)
    unfold Memory.store
    split
    · rename_i hk
      have : ¬ k = a := by omega
      simp only [Memory.lookup, this, if_false]
      exact ih (k + 1) h4
    · split
      · rename_i hk
        subst hk
        split
        · rename_i hv
          rw [hv]
          exact skip rest (k + 1) h4 (by omega)
        · simp [Memory.lookup]
      · split
        · rename_i hv
          rw [hv]
          have : ¬ k = a := by omega
          simp only [Memory.lookup, this, if_false]
          exact skip rest (k + 1) h4 (by omega)
        · simp [Memory.lookup]

theorem lookup_store_other (m : Memory) (a b : Nat) (v : Byte) (h : b ≠ a) :
    Memory.lookup (Memory.store m a v) b = Memory.lookup m b := by
  induction m with
  | nil =>
    by_cases hv : v = unlistedByte <;> simp [Memory.store, Memory.lookup, hv, Ne.symm h]
  | cons c rest ih =>
    obtain ⟨k, w⟩ := c
    unfold Memory.store
    split
    · by_cases hk : k = b <;> simp [Memory.lookup, hk, ih]
    · split
      · rename_i hk
        subst hk
        have : ¬ k = b := fun e => h e.symm
        split <;> simp [Memory.lookup, this]
      · have : ¬ a = b := fun e => h e.symm
        split <;> simp [Memory.lookup, this]

theorem store_wfFrom (m : Memory) (a : Nat) (v : Byte) (n : Nat) (h : Memory.wfFrom n m = true) (hn : n ≤ a)
    (ha : a < 65536) : Memory.wfFrom n (Memory.store m a v) = true := by
  induction m generalizing n with
  | nil =>
    by_cases hv : v = unlistedByte
    · simp [Memory.store, hv, Memory.wfFrom]
    · simp [Memory.store, hv, Memory.wfFrom, hn, ha]
  | cons c rest ih =>
    obtain ⟨k, w⟩ := c
    have h0 := h
    simp only [Memory.wfFrom, Bool.and_eq_true, decide_eq_true_eq] at h
    obtain ⟨⟨⟨h1, h2⟩, h3⟩, h4⟩ := h
    have weaken : ∀ (l : Memory) (i j : Nat), Memory.wfFrom j l = true → i ≤ j → Memory.wfFrom i l = true := by
      intro l i j hj hij
      cases l with
      | nil => rfl
      | cons d l =>
        obtain ⟨x, y⟩ := d
        simp only [Memory.wfFrom, Bool.and_eq_true, decide_eq_true_eq] at hj ⊢
        exact ⟨⟨⟨by omega, hj.1.1.2⟩, hj.1.2⟩, hj.2⟩
    unfold Memory.store
    split
    · simp only [Memory.wfFrom, Bool.and_eq_true, decide_eq_true_eq]
      exact ⟨⟨⟨h1, h2⟩, h3⟩, ih (k + 1) h4 (by omega)⟩
    · split
      · rename_i hk
        subst hk
        split
        · exact weaken rest n (k + 1) h4 (by omega)
        · rename_i hv
          simp only [Memory.wfFrom, Bool.and_eq_true, decide_eq_true_eq]
          exact ⟨⟨⟨h1, h2⟩, hv⟩, h4⟩
      · split
        · exact h0
        · rename_i hk1 hk2 hv
          simp only [Memory.wfFrom, Bool.and_eq_true, decide_eq_true_eq]
          exact ⟨⟨⟨hn, ha⟩, hv⟩, ⟨⟨by omega, h2⟩, h3⟩, h4⟩

/-- Every write keeps the canonical form. -/
theorem write_wf (m : Memory) (a : Addr) (v : Byte) (h : m.wf = true) : (m.write a v).wf = true :=
  store_wfFrom m a.toNat v 0 h (by omega) a.isLt

/-- A list of writes keeps the canonical form. -/
theorem writeCells_wf (cs : List Host.Cell) : ∀ (m : Memory), m.wf = true → (m.writeCells cs).wf = true := by
  induction cs with
  | nil => intro m h; exact h
  | cons c rest ih => intro m h; exact ih _ (write_wf m _ _ h)

/-- Placed bytes keep the canonical form. -/
theorem placeBytes_wf (bs : List Byte) : ∀ (m : Memory) (a : Addr), m.wf = true → (placeBytes m a bs).wf = true := by
  induction bs with
  | nil => intro m a h; exact h
  | cons b rest ih => intro m a h; exact ih _ _ (write_wf m _ _ h)

/-- A read of the address written gives the byte written. -/
theorem read_write_self (m : Memory) (a : Addr) (v : Byte) (h : m.wf = true) : (m.write a v).read a = v :=
  lookup_store_self m a.toNat v 0 h

/-- A read of another address gives what it gave. -/
theorem read_write_other (m : Memory) (a b : Addr) (v : Byte) (h : b ≠ a) : (m.write a v).read b = m.read b :=
  lookup_store_other m a.toNat b.toNat v (fun e => h (BitVec.eq_of_toNat_eq e))

/-- Reset memory has the canonical form. -/
theorem reset_mem_wf : State.reset.mem.wf = true := rfl

end Sys2Proof.Machine
end

