-- ==== Sys2Proof/Laws/Engine.lean ====
section
/-! SUPPORT. What one bus cycle does: the divider in closed form, and a cycle in which the caller does not act, as one
dispatched step between the stages of `onLow` and the platform's answer. -/

namespace Sys2Proof.Machine

/-- What R303's open parameter makes of a field, as a choice between the two polls. -/
theorem byQuirk_eq {α : Type} [DecidableEq α] (early usual : α) :
    byQuirk early usual = bif Config.branchIrqQuirk then early else usual := by
  unfold byQuirk
  split
  · rename_i h; rw [h]; cases Config.branchIrqQuirk <;> rfl
  · rfl

theorem lead_pos : 1 ≤ Config.m2LeadCount ∧ Config.m2LeadCount ≤ 11 := by
  unfold Config.m2LeadCount; have := Config.m2LeadIndex.isLt; omega

/-- The edges up to the divider's next full count: one phase toggle, with m2 raised on the way where the phase is low and the
lead count is still to come (60_exceptions.md R560). -/
theorem masterEdges_run (D : Dispatcher) (n : Nat) : ∀ (s : State), s.divider.cnt.val + (n + 1) = 12 →
    masterEdges D (n + 1) s =
      andThen (setPhase D (!s.phase) { s with divider :=
          { cnt := 0, m2 := s.divider.m2 || (!s.phase && decide (s.divider.cnt.val < Config.m2LeadCount)) } })
        fun t => .next (fallM2 (!s.phase) t) := by
  induction n with
  | zero =>
    intro s h
    have hc : s.divider.cnt.val = 11 := by omega
    have hl := lead_pos
    have h1 : ¬ (11 < Config.m2LeadCount) := by omega
    have h2 : ¬ (12 = Config.m2LeadCount) := by omega
    simp only [masterEdges, masterEdge, hc]
    simp [countTo, h1, h2]
    cases setPhase D (!s.phase) _ <;> simp
  | succ n ih =>
    intro s h
    have hc : s.divider.cnt.val + 1 < 12 := by omega
    have hl := lead_pos
    rw [masterEdges, masterEdge]
    simp only [hc, dite_true, andThen_next]
    rw [ih _ (by simp [countTo]; omega)]
    have key : ((if ((s.divider.cnt.val + 1 == Config.m2LeadCount) && !s.phase) then true else s.divider.m2) ||
        (!s.phase && decide (s.divider.cnt.val + 1 < Config.m2LeadCount))) =
        (s.divider.m2 || (!s.phase && decide (s.divider.cnt.val < Config.m2LeadCount))) := by
      rcases lt_trichotomy (s.divider.cnt.val + 1) Config.m2LeadCount with h1 | h1 | h1
      · cases s.phase <;> simp [Nat.ne_of_lt h1, h1, Nat.lt_of_succ_lt h1]
      · cases s.phase <;> simp [← h1]
      · cases s.phase <;> simp [Nat.ne_of_gt h1, Nat.not_lt_of_gt h1, show ¬ (s.divider.cnt.val < Config.m2LeadCount) by omega]
    exact congrArg (fun b => andThen (setPhase D (!s.phase) { s with divider := { cnt := 0, m2 := b } })
      fun t => .next (fallM2 (!s.phase) t)) key
/-- What a cycle may change of a state inside an instruction. -/
structure View where
  A : Byte
  X : Byte
  Y : Byte
  S : Byte
  PC : Addr
  P : Flags
  addr : Addr
  data : Byte
  IR : Byte
  T : Nat
  AD : Addr
  TMP : Byte
  out : Option Byte
  rstCnt : Nat
  nmiLatch : BitVec 16
  irqLatch : BitVec 16
  nmiPrev : Bool
  intent : Intent
  div : Divider
  mem : Memory
  trace : List BusCycle


/-- The divider at the falling phase. -/
def lowDivider (p : Processor) (d : Divider) : Divider :=
  match p with
  | .mos6502NoDecimal => { cnt := 0, m2 := d.m2 }
  | .mos6502 | .i8080 => d

/-- The divider at the rising phase that follows. -/
def highDivider (p : Processor) (d : Divider) : Divider :=
  match p with
  | .mos6502NoDecimal => { cnt := 0, m2 := true }
  | .mos6502 | .i8080 => d

/-- The state in which a step is dispatched, after `prepare`: `s` with the values of a view. -/
def low (s : State) (v : View) : State :=
  { proc := s.proc, A := v.A, X := v.X, Y := v.Y, S := v.S, PC := v.PC, P := v.P
    pins := { addr := v.addr, data := v.data, rw := true, sync := false, resN := true, irqN := s.pins.irqN,
              nmiN := s.pins.nmiN, rdy := false }
    phase := false, IR := v.IR, T := v.T, AD := v.AD, TMP := v.TMP, SS := s.SS
    pendA := none, pendX := none, pendY := none, pendS := none, dout := none
    rstCnt := v.rstCnt, nmiLatch := v.nmiLatch, irqLatch := v.irqLatch, nmiPrev := v.nmiPrev, intent := v.intent
    resHeld := false, jammed := false, divider := v.div, mem := v.mem, callerQ := [], trace := v.trace
    i80 := s.i80, hostQ := s.hostQ, io := s.io }

/-- The state at the end of a cycle inside an instruction: `s` with the values of a view. -/
def high (s : State) (v : View) : State :=
  { low s v with phase := true, dout := v.out, pins := { (low s v).pins with rw := v.out.isNone } }

/-- The stages before the dispatch, inside an instruction. -/
def View.enter (s : State) (v : View) : View :=
  { v with
    out := none
    irqLatch := shiftIn v.irqLatch (!s.pins.irqN && !v.P.I)
    nmiLatch := shiftIn v.nmiLatch (v.nmiPrev && !s.pins.nmiN)
    nmiPrev := s.pins.nmiN
    div := lowDivider s.proc v.div }

/-- What the platform and the rising half make of the cycle a step issued. -/
def endCycle (t : State) : State :=
  let d := t.dout.getD (if t.pins.rw then t.mem.read t.pins.addr else t.pins.data)
  { t with
    phase := true
    divider := highDivider t.proc t.divider
    pins := { t.pins with data := d }
    mem := if t.pins.rw then t.mem else t.mem.write t.pins.addr d
    trace := t.trace ++ [⟨t.pins.addr, t.pins.rw, t.pins.sync, d⟩] }

/-- The state at the start of `onLow`. -/
def lowered (s : State) : State := { s with phase := false, divider := lowDivider s.proc s.divider }

theorem clockTo_low (D : Dispatcher) (s : State) (h : s.phase = true) :
    clockTo D false s =
      andThen (onLow D (lowered s))
        fun t => .next (match s.proc with | .mos6502NoDecimal => setM2 false t | .mos6502 | .i8080 => t) := by
  unfold clockTo
  cases hp : s.proc with
  | mos6502NoDecimal =>
    have hc := s.divider.cnt.isLt
    obtain ⟨n, hn⟩ : ∃ n, 12 - s.divider.cnt.val = n + 1 := ⟨11 - s.divider.cnt.val, by omega⟩
    simp only [h, Bool.false_eq_true, ↓reduceIte, hn]
    rw [masterEdges_run D n s (by omega)]
    simp [setPhase, h, lowered, lowDivider, fallM2, hp]
  | mos6502 => simp [setPhase, h, lowered, lowDivider, hp, andThen_id]
  | i8080 => simp [setPhase, h, lowered, lowDivider, hp, andThen_id]

theorem clockTo_high (D : Dispatcher) (s : State) (h : s.phase = false) (hc : s.divider.cnt = 0 ∨ s.proc ≠ .mos6502NoDecimal) :
    clockTo D true s = .next (onHigh { s with phase := true, divider := highDivider s.proc s.divider }) := by
  unfold clockTo
  cases hp : s.proc with
  | mos6502NoDecimal =>
    have hc : s.divider.cnt = 0 := by simpa [hp] using hc
    have hl := lead_pos
    have hc1 : s.divider.cnt.val = 0 := by simp [hc]
    simp only [h, Bool.true_eq_false, ↓reduceIte, hc1]
    rw [masterEdges_run D 11 s (by omega)]
    have : 0 < Config.m2LeadCount := by omega
    simp [setPhase, h, highDivider, fallM2, hc, this, hp]
  | mos6502 => simp [setPhase, h, highDivider, hp]
  | i8080 => simp [setPhase, h, highDivider, hp]

/-! ### What the caller does before a cycle (70_reset_and_hazards.md R584; 20_memory.md R54, R65) -/

theorem callResets_eq_foldl (ls : List Bool) : ∀ s, callResets ls s = ls.foldl (fun x level => setReset level x) s := by
  induction ls with
  | nil => intro s; rfl
  | cons l ls ih => intro s; exact ih _

/-- All that calls of `set_reset` can change. -/
theorem callResets_eq (ls : List Bool) : ∀ s : State, ∃ i rc rn,
    callResets ls s = { s with intent := i, rstCnt := rc, pins := { s.pins with resN := rn } } := by
  induction ls with
  | nil => intro s; exact ⟨s.intent, s.rstCnt, s.pins.resN, rfl⟩
  | cons l ls ih => intro s; obtain ⟨i, rc, rn, h⟩ := ih (setReset l s); exact ⟨i, rc, rn, h⟩

/-- The line is as the last call leaves it. -/
theorem callResets_last (before : List Bool) (level : Bool) (s : State) :
    (callResets (before ++ [level]) s).pins.resN = level := by
  rw [callResets_eq_foldl, List.foldl_append]; rfl

theorem callerActs_nil {s : State} (h : s.callerQ = []) : callerActs s = s := by simp [callerActs, h]

/-- All that the caller can change before a cycle. -/
theorem callerActs_eq (s : State) : ∃ i rc rn iq nm rd m cq,
    callerActs s = { s with
      intent := i, rstCnt := rc, mem := m, callerQ := cq
      pins := { s.pins with resN := rn, irqN := iq, nmiN := nm, rdy := rd } } := by
  unfold callerActs
  split
  · exact ⟨s.intent, s.rstCnt, s.pins.resN, s.pins.irqN, s.pins.nmiN, s.pins.rdy, s.mem, s.callerQ, rfl⟩
  · rename_i c rest _
    obtain ⟨i, rc, rn, h⟩ := callResets_eq c.resetCalls s
    rw [h]
    exact ⟨i, rc, rn, _, _, _, _, _, rfl⟩

theorem callResets_clearTrace (ls : List Bool) : ∀ s, callResets ls (clearTrace s) = clearTrace (callResets ls s) := by
  induction ls with
  | nil => intro s; rfl
  | cons l ls ih => intro s; exact ih (setReset l s)

theorem callerActs_clearTrace (s : State) : callerActs (clearTrace s) = clearTrace (callerActs s) := by
  unfold callerActs
  rw [show (clearTrace s).callerQ = s.callerQ from rfl]
  split
  · rfl
  · simp only [callResets_clearTrace]; rfl

/-! ### One cycle -/

/-- What the platform and the rising half make of the cycle a step issued, a read being answered from outside by `b`, if there
is such a byte. -/
def endCycleWith (b : Option Byte) (t : State) : State :=
  let d := t.dout.getD (if t.pins.rw then b.getD (t.mem.read t.pins.addr) else t.pins.data)
  { t with
    phase := true
    divider := highDivider t.proc t.divider
    pins := { t.pins with data := d }
    mem := if t.pins.rw then t.mem else t.mem.write t.pins.addr d
    trace := t.trace ++ [⟨t.pins.addr, t.pins.rw, t.pins.sync, d⟩] }

theorem endCycleWith_none (t : State) : endCycleWith none t = endCycle t := rfl

/-- A cycle, from what `onLow` makes of the state that the caller left. -/
theorem systemCycle_of_onLow {D : Dispatcher} {s t : State} (hph : s.phase = true)
    (h : onLow D (lowered (callerActs s)) = .next t)
    (hp : t.proc = s.proc) (hphl : t.phase = false) (hdv : t.divider = lowDivider s.proc s.divider) :
    systemCycle D s = .next (endCycleWith (outsideByte s) t) := by
  obtain ⟨i, rc, rn, iq, nm, rd, m, cq, hu⟩ := callerActs_eq s
  have e1 : (callerActs s).phase = true := by rw [hu]; exact hph
  have e2 : (callerActs s).proc = s.proc := by rw [hu]
  rw [systemCycle, clockTo_low D _ e1, h, e2]
  simp only [andThen_next]
  rw [clockTo_high]
  · cases hps : s.proc <;> cases hrw : t.pins.rw <;> cases hdo : t.dout <;>
      simp [hps, hrw, hdo, hp, answerRead, onHigh, setM2, highDivider, endCycleWith, performWrite, record, memWrite]
  · cases hps : s.proc <;> cases hrw : t.pins.rw <;> simp [hrw, answerRead, setM2, hphl]
  · cases hps : s.proc <;> cases hrw : t.pins.rw <;> simp [hps, hrw, answerRead, setM2, hdv, hp, lowDivider]

theorem systemCycle_quiet {D : Dispatcher} {s t : State} {a : Advance} (q : Quiet s)
    (hd : D (prepare (lowered s)).IR (prepare (lowered s)).T (prepare (lowered s)) = some (t, a))
    (hp : t.proc = s.proc) (hph : t.phase = false) (hdv : t.divider = lowDivider s.proc s.divider) :
    systemCycle D s = .next (endCycle (advanceStep a t)) := by
  have h1 : callerActs s = s := callerActs_nil q.callerQ
  have h2 : outsideByte s = none := by simp [outsideByte, q.callerQ]
  have h3 : onLow D (lowered s) = .next (advanceStep a t) := by
    have e1 : (lowered s).pins.resN = true := q.resN
    have e2 : (lowered s).resHeld = false := q.resHeld
    have e3 : (lowered s).pins.rdy = false := q.rdy
    rw [onLow, if_neg (by simp [e1]), if_neg (by simp [e2]), if_neg (by simp [e3]), dispatchStep, hd]
  have hadv : (advanceStep a t).proc = t.proc ∧ (advanceStep a t).phase = t.phase ∧ (advanceStep a t).divider = t.divider := by
    cases a <;> exact ⟨rfl, rfl, rfl⟩
  rw [systemCycle_of_onLow q.phase (h1.symm ▸ h3) (hadv.1.trans hp) (hadv.2.1.trans hph) (hadv.2.2.trans hdv), h2,
    endCycleWith_none]

/-! ### Inside an instruction -/

theorem quiet_high (s : State) (v : View) : Quiet (high s v) := ⟨rfl, rfl, rfl, rfl, rfl⟩

theorem prepare_high (s : State) (v : View) : prepare (lowered (high s v)) = low s (v.enter s) := rfl

/-- A cycle inside an instruction. -/
theorem systemCycle_high {D : Dispatcher} {s t : State} {v : View} {a : Advance}
    (hd : D v.IR v.T (low s (v.enter s)) = some (t, a))
    (hp : t.proc = s.proc) (hph : t.phase = false) (hdv : t.divider = (v.enter s).div) :
    systemCycle D (high s v) = .next (endCycle (advanceStep a t)) :=
  systemCycle_quiet (quiet_high s v) hd hp hph hdv

/-- One more cycle of a run inside an instruction. -/
theorem runCycles_high {D : Dispatcher} {s t : State} {v : View} {a : Advance} {n : Nat}
    (hd : D v.IR v.T (low s (v.enter s)) = some (t, a))
    (hp : t.proc = s.proc) (hph : t.phase = false) (hdv : t.divider = (v.enter s).div) :
    runCycles D (n + 1) (high s v) =
      if stops (endCycle (advanceStep a t)) then .next (endCycle (advanceStep a t))
      else runCycles D n (endCycle (advanceStep a t)) := by
  rw [runCycles, systemCycle_high hd hp hph hdv]; rfl

/-- The view after a read cycle issued by a step that left the view `w`. -/
def View.readCycle (s : State) (w : View) (a : Addr) (n : Nat) : View :=
  { w with
    addr := a, data := w.mem.read a, out := none, T := w.T + n, div := highDivider s.proc w.div
    trace := w.trace ++ [rd w.mem a] }

/-- The view after a write cycle issued by a step that left the view `w`. -/
def View.writeCycle (s : State) (w : View) (a : Addr) (d : Byte) : View :=
  { w with
    addr := a, data := d, out := some d, T := w.T + 1, div := highDivider s.proc w.div, mem := w.mem.write a d
    trace := w.trace ++ [wr a d] }

theorem endCycle_read (s : State) (w : View) (a : Addr) :
    endCycle (advanceStep .next (busRead a (low s w))) = high s (w.readCycle s a 1) := rfl

theorem endCycle_read_skip (s : State) (w : View) (a : Addr) :
    endCycle (advanceStep .skip (busRead a (low s w))) = high s (w.readCycle s a 2) := rfl

theorem endCycle_write (s : State) (w : View) (a : Addr) (d : Byte) :
    endCycle (advanceStep .next (busWrite a d (low s w))) = high s (w.writeCycle s a d) := rfl

/-- A step that issues a read: the run goes on. -/
theorem run_read {D : Dispatcher} {s : State} {v : View} {n : Nat} (w : View) (a : Addr)
    (hd : D v.IR v.T (low s (v.enter s)) = some (busRead a (low s w), .next)) (hdv : w.div = (v.enter s).div) :
    runCycles D (n + 1) (high s v) = runCycles D n (high s (w.readCycle s a 1)) := by
  rw [runCycles_high hd rfl rfl hdv]; rfl

/-- A step that issues a read and skips the next step: the run goes on. -/
theorem run_read_skip {D : Dispatcher} {s : State} {v : View} {n : Nat} (w : View) (a : Addr)
    (hd : D v.IR v.T (low s (v.enter s)) = some (busRead a (low s w), .skip)) (hdv : w.div = (v.enter s).div) :
    runCycles D (n + 1) (high s v) = runCycles D n (high s (w.readCycle s a 2)) := by
  rw [runCycles_high hd rfl rfl hdv]; rfl

/-- A step that issues a write: the run goes on. -/
theorem run_write {D : Dispatcher} {s : State} {v : View} {n : Nat} (w : View) (a : Addr) (d : Byte)
    (hd : D v.IR v.T (low s (v.enter s)) = some (busWrite a d (low s w), .next)) (hdv : w.div = (v.enter s).div) :
    runCycles D (n + 1) (high s v) = runCycles D n (high s (w.writeCycle s a d)) := by
  rw [runCycles_high hd rfl rfl hdv]; rfl

/-- A step that ends the instruction: the run ends. -/
theorem run_fetch {D : Dispatcher} {s t : State} {v : View} {a : Advance} {n : Nat}
    (hd : D v.IR v.T (low s (v.enter s)) = some (t, a))
    (hp : t.proc = s.proc) (hph : t.phase = false) (hdv : t.divider = (v.enter s).div) (hs : t.pins.sync = true) :
    runCycles D (n + 1) (high s v) = .next (endCycle (advanceStep a t)) := by
  rw [runCycles_high hd hp hph hdv, if_pos]
  simp [stops, endCycle, hs]

/-! ### From an instruction boundary -/

/-- The view in which step 0 of an instruction is dispatched, from an instruction boundary with the opcode `op` on the data
pins: pending write-backs committed, the opcode loaded (40_engine.md R114). -/
def View.entry (s : State) (op : Byte) : View :=
  { A := regA s, X := regX s, Y := regY s, S := regS s, PC := s.PC + 1, P := s.P
    addr := s.pins.addr, data := op, IR := op, T := 0, AD := s.AD, TMP := s.TMP, out := none
    rstCnt := s.rstCnt, nmiLatch := shiftIn s.nmiLatch (nmiEdge s), irqLatch := shiftIn s.irqLatch (irqSample s)
    nmiPrev := s.pins.nmiN, intent := .none, div := lowDivider s.proc s.divider, mem := s.mem, trace := [] }

/-- The view in which step 0 of a hijack's break sequence is dispatched (60_exceptions.md R528). -/
def View.hijack (s : State) (op : Byte) : View :=
  { View.entry s op with PC := s.PC, IR := 0x00, intent := s.intent }

theorem prepare_entry {s : State} (r : Ready s) (op : Byte) :
    prepare (lowered (clearTrace (supplyOpcode op s))) = low s (View.entry s op) := by
  obtain ⟨⟨h1, h2, h3, h4, h5⟩, h6, h7, h8, h9⟩ := r
  obtain ⟨pr, A, X, Y, S, PC, P, ⟨ad, da, rw, sy, rn, iq, nm, rdy⟩, ph, IR, T, AD, TMP, SS, pA, pX, pY, pS, dt, rc, nl, il, np,
    it, rh, jm, dv, mem, cq, tr, i80, hq, io⟩ := s
  simp only at h1 h2 h3 h4 h5 h6 h7 h8 h9
  subst h1 h2 h3 h4 h5 h6 h7 h8 h9
  rfl

theorem prepare_hijack {s : State} {i : Intent} (r : Hijacked s i) (op : Byte) :
    prepare (lowered (clearTrace (supplyOpcode op s))) = low s (View.hijack s op) := by
  obtain ⟨⟨h1, h2, h3, h4, h5⟩, h6, h7, h8, h9, h10⟩ := r
  obtain ⟨pr, A, X, Y, S, PC, P, ⟨ad, da, rw, sy, rn, iq, nm, rdy⟩, ph, IR, T, AD, TMP, SS, pA, pX, pY, pS, dt, rc, nl, il, np,
    it, rh, jm, dv, mem, cq, tr, i80, hq, io⟩ := s
  simp only at h1 h2 h3 h4 h5 h6 h7 h8 h9
  subst h1 h2 h3 h4 h5 h6 h7 h8 h9
  cases it with
  | none => exact absurd rfl h10
  | irq => rfl
  | nmi => rfl
  | reset => rfl

/-- The opcode of an instruction is what its run loads. -/
theorem runInstr_ready {i : Instr} {μ : Micro} {s : State} {op : Byte} (hop : opcode6502 i = some op) (h : s.phase = true) :
    runInstr i μ s = runCycles (ownDispatcher op μ) longestRun (clearTrace (supplyOpcode op s)) := by
  have : (clearTrace (supplyOpcode op s)).phase = true := by
    unfold supplyOpcode; split <;> simpa using h
  simp only [runInstr, hop, primed, this, if_true, andThen_next]

theorem quiet_supplied {s : State} (q : Quiet s) (op : Byte) : Quiet (clearTrace (supplyOpcode op s)) := by
  unfold supplyOpcode; split
  · exact ⟨q.phase, q.resN, q.resHeld, q.rdy, q.callerQ⟩
  · exact ⟨q.phase, q.resN, q.resHeld, q.rdy, q.callerQ⟩

/-- The first cycle of an instruction, a read. -/
theorem run_entry {D : Dispatcher} {s : State} {op : Byte} {n : Nat} (r : Ready s) (w : View) (a : Addr)
    (hd : D op 0 (low s (View.entry s op)) = some (busRead a (low s w), .next))
    (hdv : w.div = lowDivider s.proc s.divider) :
    runCycles D (n + 1) (clearTrace (supplyOpcode op s)) = runCycles D n (high s (w.readCycle s a 1)) := by
  have hp := prepare_entry r op
  have hc : (clearTrace (supplyOpcode op s)).proc = s.proc ∧ (clearTrace (supplyOpcode op s)).divider = s.divider := by
    unfold supplyOpcode; split <;> exact ⟨rfl, rfl⟩
  rw [runCycles, systemCycle_quiet (t := busRead a (low s w)) (a := .next) (quiet_supplied r.toQuiet op)
    (by rw [hp]; exact hd) hc.1.symm rfl (by rw [hc.1, hc.2]; exact hdv)]
  rfl

/-- The first cycle of a hijack, a read at PC (45_control.md R309, step 0). -/
theorem run_hijack {D : Dispatcher} {s : State} {i : Intent} {op : Byte} {n : Nat} (r : Hijacked s i) (w : View) (a : Addr)
    (hd : D 0x00 0 (low s (View.hijack s op)) = some (busRead a (low s w), .next))
    (hdv : w.div = lowDivider s.proc s.divider) :
    runCycles D (n + 1) (clearTrace (supplyOpcode op s)) = runCycles D n (high s (w.readCycle s a 1)) := by
  have hp := prepare_hijack r op
  have hc : (clearTrace (supplyOpcode op s)).proc = s.proc ∧ (clearTrace (supplyOpcode op s)).divider = s.divider := by
    unfold supplyOpcode; split <;> exact ⟨rfl, rfl⟩
  rw [runCycles, systemCycle_quiet (t := busRead a (low s w)) (a := .next) (quiet_supplied r.toQuiet op)
    (by rw [hp]; exact hd) hc.1.symm rfl (by rw [hc.1, hc.2]; exact hdv)]
  rfl

end Sys2Proof.Machine
end

