-- ==== Sys2Proof/Laws/Runs.lean ====
section
/-! SUPPORT. What the microcode sequences do from an instruction boundary: for each mode and class, the last step is reached
after exactly the bus cycles of 41_addressing.md, with the operand, memory and registers that the closed formulas of
Safety.lean give; and how a last step retires the instruction. -/

namespace Sys2Proof.Machine

set_option linter.unusedSimpArgs false
set_option linter.unusedTactic false
set_option linter.unreachableTactic false
set_option linter.unusedVariables false

namespace View

/-- PC past one more byte. -/
def incPC (v : View) : View := { v with PC := v.PC + 1 }

/-- TMP replaced. -/
def toTMP (b : Byte) (v : View) : View := { v with TMP := b }

/-- AD replaced. -/
def toAD (a : Addr) (v : View) : View := { v with AD := a }

/-- PC replaced. -/
def toPC (a : Addr) (v : View) : View := { v with PC := a }

/-- S replaced. -/
def toS (b : Byte) (v : View) : View := { v with S := b }

/-- P replaced. -/
def toP (p : Flags) (v : View) : View := { v with P := p }

/-- The registers. -/
def regs (v : View) : Arch := { A := v.A, X := v.X, Y := v.Y, S := v.S, PC := v.PC, P := v.P }

end View

/-! ### Reaching a step -/

/-- The run that answers `o` has come to step `n` of the sequence of `ir`, with `k` cycles left and the view `v` over `s`. -/
structure ReachesFrom (o : Outcome) (D : Dispatcher) (s : State) (ir : Byte) (n k : Nat) (v : View) : Prop where
  run : o = runCycles D k (high s v)
  IR : v.IR = ir
  T : v.T = n

/-- `ReachesFrom` for the run that began at `s` with the opcode `op` on the data pins; `ir` is `op` itself, or 0x00 under a
hijack. -/
abbrev Reaches (D : Dispatcher) (s : State) (op : Byte) : Byte → Nat → Nat → View → Prop :=
  ReachesFrom (runCycles D longestRun (clearTrace (supplyOpcode op s))) D s

/-- A change of a view that leaves the clock, the opcode and the step. -/
abbrev Keeps (f : View → View) : Prop := ∀ u, (f u).div = u.div ∧ (f u).IR = u.IR ∧ (f u).T = u.T

theorem keeps {u : View} : u.div = u.div ∧ u.IR = u.IR ∧ u.T = u.T := ⟨rfl, rfl, rfl⟩

variable {o : Outcome} {D : Dispatcher} {s : State} {op ir : Byte} {μ : Micro} {v : View} {n k : Nat}

theorem Reaches.first (r : Ready s) (hD : D op = μ) (f : View → View) (a : View → Addr) (hf : Keeps f)
    (hd : ∀ u : View, μ 0 (low s u) = some (busRead (a u) (low s (f u)), .next)) :
    Reaches D s op op 1 7 ((f (View.entry s op)).readCycle s (a (View.entry s op)) 1) :=
  ⟨run_entry r _ _ (by rw [hD, hd]) (hf _).1, (hf _).2.1, congrArg (· + 1) (hf _).2.2⟩

theorem Reaches.firstHijack {i : Intent} (r : Hijacked s i) (hD : D 0x00 = μ) (f : View → View) (a : View → Addr) (hf : Keeps f)
    (hd : μ 0 (low s (View.hijack s op)) = some (busRead (a (View.hijack s op)) (low s (f (View.hijack s op))), .next)) :
    Reaches D s op 0x00 1 7 ((f (View.hijack s op)).readCycle s (a (View.hijack s op)) 1) :=
  ⟨run_hijack r _ _ (by rw [hD, hd]) (hf _).1, (hf _).2.1, congrArg (· + 1) (hf _).2.2⟩

theorem ReachesFrom.readAt (h : ReachesFrom o D s ir n (k + 1) v) (hD : D ir = μ) (f : View → View) (a : View → Addr) (hf : Keeps f)
    (hd : μ n (low s (v.enter s)) = some (busRead (a (v.enter s)) (low s (f (v.enter s))), .next)) :
    ReachesFrom o D s ir (n + 1) k ((f (v.enter s)).readCycle s (a (v.enter s)) 1) :=
  ⟨h.run.trans (run_read _ _ (by rw [h.IR, h.T, hD, hd]) (hf _).1), (hf _).2.1.trans h.IR,
    congrArg (· + 1) ((hf _).2.2.trans h.T)⟩

theorem ReachesFrom.read (h : ReachesFrom o D s ir n (k + 1) v) (hD : D ir = μ) (f : View → View) (a : View → Addr) (hf : Keeps f)
    (hd : ∀ u : View, μ n (low s u) = some (busRead (a u) (low s (f u)), .next)) :
    ReachesFrom o D s ir (n + 1) k ((f (v.enter s)).readCycle s (a (v.enter s)) 1) :=
  h.readAt hD f a hf (hd _)

theorem ReachesFrom.readSkip (h : ReachesFrom o D s ir n (k + 1) v) (hD : D ir = μ) (f : View → View) (a : View → Addr) (hf : Keeps f)
    (hd : μ n (low s (v.enter s)) = some (busRead (a (v.enter s)) (low s (f (v.enter s))), .skip)) :
    ReachesFrom o D s ir (n + 2) k ((f (v.enter s)).readCycle s (a (v.enter s)) 2) :=
  ⟨h.run.trans (run_read_skip _ _ (by rw [h.IR, h.T, hD, hd]) (hf _).1), (hf _).2.1.trans h.IR,
    congrArg (· + 2) ((hf _).2.2.trans h.T)⟩

theorem ReachesFrom.writeAt (h : ReachesFrom o D s ir n (k + 1) v) (hD : D ir = μ) (f : View → View) (a : View → Addr)
    (b : View → Byte) (hf : Keeps f)
    (hd : μ n (low s (v.enter s)) = some (busWrite (a (v.enter s)) (b (v.enter s)) (low s (f (v.enter s))), .next)) :
    ReachesFrom o D s ir (n + 1) k ((f (v.enter s)).writeCycle s (a (v.enter s)) (b (v.enter s))) :=
  ⟨h.run.trans (run_write _ _ _ (by rw [h.IR, h.T, hD, hd]) (hf _).1), (hf _).2.1.trans h.IR,
    congrArg (· + 1) ((hf _).2.2.trans h.T)⟩

theorem ReachesFrom.write (h : ReachesFrom o D s ir n (k + 1) v) (hD : D ir = μ) (f : View → View) (a : View → Addr) (b : View → Byte)
    (hf : Keeps f) (hd : ∀ u : View, μ n (low s u) = some (busWrite (a u) (b u) (low s (f u)), .next)) :
    ReachesFrom o D s ir (n + 1) k ((f (v.enter s)).writeCycle s (a (v.enter s)) (b (v.enter s))) :=
  ⟨h.run.trans (run_write _ _ _ (by rw [h.IR, h.T, hD, hd]) (hf _).1), (hf _).2.1.trans h.IR,
    congrArg (· + 1) ((hf _).2.2.trans h.T)⟩

/-- What a view shows: the registers, the byte on the data pins, memory, and the bus cycles so far. -/
structure Shows (s : State) (v : View) (a : Arch) (d : Byte) (m : Memory) (bus : List BusCycle) : Prop where
  regs : v.regs = a
  data : v.data = d
  mem : v.mem = m
  trace : v.trace = bus
  rstCnt : v.rstCnt = s.rstCnt
  intent : v.intent = .none

/-! ### Retiring -/

/-- `y` differs from `x` at most in the registers, the flags, the write-backs and the microcode's latches. -/
def RegsOnly (x y : State) : Prop :=
  { y with
    A := x.A, X := x.X, Y := x.Y, S := x.S, PC := x.PC, P := x.P, AD := x.AD, TMP := x.TMP
    pendA := x.pendA, pendX := x.pendX, pendY := x.pendY, pendS := x.pendS } = x

theorem RegsOnly.deferA {x y : State} {v : Byte} (h : RegsOnly x y) : RegsOnly x (Machine.deferA v y) := h

theorem RegsOnly.deferX {x y : State} {v : Byte} (h : RegsOnly x y) : RegsOnly x (Machine.deferX v y) := h

theorem RegsOnly.deferY {x y : State} {v : Byte} (h : RegsOnly x y) : RegsOnly x (Machine.deferY v y) := h

theorem RegsOnly.deferS {x y : State} {v : Byte} (h : RegsOnly x y) : RegsOnly x (Machine.deferS v y) := h

theorem RegsOnly.setP {x y : State} {p : Flags} (h : RegsOnly x y) : RegsOnly x (Machine.setP p y) := h

/-- The opcode fetch with the arbitration left open: what `fetchNext` and `fetchNextBranch` share. -/
structure FetchesFrom (y t : State) : Prop where
  eq : t = { fetch y.PC y with intent := t.intent, nmiLatch := t.nmiLatch, irqLatch := t.irqLatch }

theorem fetchesFrom_fetchNext (y : State) : FetchesFrom y (fetchNext y) := ⟨rfl⟩

theorem fetchesFrom_fetchNextBranch (y : State) : FetchesFrom y (fetchNextBranch y) := ⟨rfl⟩

/-- A last step retires the instruction. -/
theorem ReachesFrom.retire {m : Memory} {bus : List BusCycle} {y t : State}
    (h : ReachesFrom o D s ir n (k + 1) v) (r : Quiet s) (hj : s.jammed = false)
    (hm : v.mem = m) (htr : v.trace = bus) (hD : D ir = μ)
    (hd : μ n (low s (v.enter s)) = some (t, .next)) (ht : FetchesFrom y t) (hy : RegsOnly (low s (v.enter s)) y) :
    ∃ u, o = .next u ∧
      RetiresWith v.rstCnt s u (arch y) m bus ∧ u.intent = t.intent := by
  have e : ∀ {α : Type} (f : State → α), f _ = f (low s (v.enter s)) := fun f => congrArg f hy
  have ep : y.proc = s.proc := e State.proc
  have eph : y.phase = false := e State.phase
  have ediv : y.divider = (v.enter s).div := e State.divider
  have epins : y.pins = (low s (v.enter s)).pins := e State.pins
  have emem : y.mem = v.mem := e State.mem
  have etr : y.trace = v.trace := e State.trace
  have edo : y.dout = none := e State.dout
  have hq := ht.eq
  have tp : t.proc = s.proc := by rw [hq]; exact ep
  have tph : t.phase = false := by rw [hq]; exact eph
  have tdiv : t.divider = (v.enter s).div := by rw [hq]; exact ediv
  have tsync : t.pins.sync = true := by rw [hq]; rfl
  have tpins : t.pins = { y.pins with addr := y.PC, rw := true, sync := true } := by rw [hq]; rfl
  have tmem : t.mem = m := by rw [hq]; exact emem.trans hm
  have ttr : t.trace = bus := by rw [hq]; exact etr.trans htr
  have tdo : t.dout = none := by rw [hq]; exact edo
  have tpc : t.PC = y.PC := by rw [hq]; rfl
  have trs : t.rstCnt = v.rstCnt := by rw [hq]; exact e State.rstCnt
  have tjam : t.jammed = false := by rw [hq]; exact e State.jammed
  have thel : t.resHeld = false := by rw [hq]; exact e State.resHeld
  have tss : t.SS = s.SS := by rw [hq]; exact e State.SS
  have tcq : t.callerQ = [] := by rw [hq]; exact e State.callerQ
  have ti80 : t.i80 = s.i80 := by rw [hq]; exact e State.i80
  have thq : t.hostQ = s.hostQ := by rw [hq]; exact e State.hostQ
  have tio : t.io = s.io := by rw [hq]; exact e State.io
  have tarch : arch t = arch y := by rw [hq]; rfl
  refine ⟨_, h.run.trans (run_fetch (t := t) (a := .next) (by rw [h.IR, h.T, hD, hd]) tp tph tdiv tsync), ?_⟩
  refine ⟨⟨?_, ?_, ?_, ⟨?_, ?_, ?_, ?_, ?_, ?_⟩, ⟨?_, ?_, ?_, ?_, ?_, ?_, ?_, ?_, ?_, ?_, ?_, ?_⟩, ?_⟩, rfl⟩
  · exact tarch
  · simp [endCycle, tpins, tmem]
  · simp [endCycle, tpins, tmem, ttr, tdo, fetchCycle, arch]
  · simp [endCycle, tpins, tpc]
  · simp [endCycle, tpins, tmem, tpc, tdo]
  · simp [endCycle, tpins]
  · simp [endCycle, tpins]
  · simp [endCycle]
  · simp [endCycle, tdo]
  · simp [endCycle, tp]
  · simp [endCycle, tpins, epins, low, r.resN]
  · simp [endCycle, tpins, epins, low]
  · simp [endCycle, tpins, epins, low]
  · simp [endCycle, tpins, epins, low, r.rdy]
  · simp [endCycle, tss]
  · simp [endCycle, thel, r.resHeld]
  · simp [endCycle, tjam, hj]
  · simp [endCycle, tcq, r.callerQ]
  · simp [endCycle, ti80]
  · simp [endCycle, thq]
  · simp [endCycle, tio]
  · simp [endCycle, trs]

/-! ### Implied and immediate (R161, R162) -/

theorem reach_immRead {exec : Byte → State → State} (r : Ready s) (hD : D op = immSeq exec) :
    ∃ v, Reaches D s op op 1 7 v ∧
      Shows s v { arch s with PC := pcAfter .imm s } (operandOf .imm s) s.mem (readBus .imm s) := by
  refine ⟨_, (Reaches.first r hD View.incPC View.PC (fun _ => keeps) (fun _ => rfl)), ?_⟩
  constructor
  all_goals first | rfl | (simp [View.regs, View.readCycle, View.writeCycle, View.enter, View.entry, View.incPC, View.toTMP, View.toAD, View.toS, View.toPC, View.toP, lo_zp, add_one_one, add_two_one, pcAfter, Mode.operandBytes, arch, operandOf, effAddr, op1, op2, op16, zpPointer, readBus, writeBus, rmwBus, addressBus, indexAt, baseAddr, crosses, indexZp, BitVec.add_assoc]; done)

theorem reach_impl {exec : State → State} (r : Ready s) (hD : D op = implSeq exec) :
    ∃ v, Reaches D s op op 1 7 v ∧
      Shows s v { arch s with PC := s.PC + 1 } (op1 s) s.mem [rd s.mem (s.PC + 1)] := by
  refine ⟨_, (Reaches.first r hD (fun u => u) View.PC (fun _ => keeps) (fun _ => rfl)), ?_⟩
  constructor
  all_goals first | rfl | (simp [View.regs, View.readCycle, View.writeCycle, View.enter, View.entry, View.incPC, View.toTMP, View.toAD, View.toS, View.toPC, View.toP, lo_zp, add_one_one, add_two_one, pcAfter, Mode.operandBytes, arch, operandOf, effAddr, op1, op2, op16, zpPointer, readBus, writeBus, rmwBus, addressBus, indexAt, baseAddr, crosses, indexZp, BitVec.add_assoc]; done)

/-! ### The read class (R163 to R166, R169, R170) -/

theorem reach_zpRead {exec : Byte → State → State} (r : Ready s) (hD : D op = zpRead exec) :
    ∃ v, Reaches D s op op 2 6 v ∧
      Shows s v { arch s with PC := pcAfter .zp s } (operandOf .zp s) s.mem (readBus .zp s) := by
  refine ⟨_, (Reaches.first r hD View.incPC View.PC (fun _ => keeps) (fun _ => rfl))
    |>.read hD (fun u => u.toAD (zp u.data)) (fun u => zp u.data) (fun _ => keeps) (fun _ => rfl), ?_⟩
  constructor
  all_goals first | rfl | (simp [View.regs, View.readCycle, View.writeCycle, View.enter, View.entry, View.incPC, View.toTMP, View.toAD, View.toS, View.toPC, View.toP, lo_zp, add_one_one, add_two_one, pcAfter, Mode.operandBytes, arch, operandOf, effAddr, op1, op2, op16, zpPointer, readBus, writeBus, rmwBus, addressBus, indexAt, baseAddr, crosses, indexZp, BitVec.add_assoc]; done)

theorem reach_zpxRead {exec : Byte → State → State} (r : Ready s) (hD : D op = zpIndexedRead .zpx exec) :
    ∃ v, Reaches D s op op 3 5 v ∧
      Shows s v { arch s with PC := pcAfter .zpx s } (operandOf .zpx s) s.mem (readBus .zpx s) := by
  refine ⟨_, (Reaches.first r hD View.incPC View.PC (fun _ => keeps) (fun _ => rfl))
    |>.read hD (fun u => u.toAD (zp u.data)) (fun u => zp u.data) (fun _ => keeps) (fun _ => rfl)
    |>.read hD (fun u => u.toAD (indexZp (lo u.AD) u.X)) (fun u => indexZp (lo u.AD) u.X) (fun _ => keeps) (fun _ => rfl), ?_⟩
  constructor
  all_goals first | rfl | (simp [View.regs, View.readCycle, View.writeCycle, View.enter, View.entry, View.incPC, View.toTMP, View.toAD, View.toS, View.toPC, View.toP, lo_zp, add_one_one, add_two_one, pcAfter, Mode.operandBytes, arch, operandOf, effAddr, op1, op2, op16, zpPointer, readBus, writeBus, rmwBus, addressBus, indexAt, baseAddr, crosses, indexZp, BitVec.add_assoc]; done)

theorem reach_zpyRead {exec : Byte → State → State} (r : Ready s) (hD : D op = zpIndexedRead .zpy exec) :
    ∃ v, Reaches D s op op 3 5 v ∧
      Shows s v { arch s with PC := pcAfter .zpy s } (operandOf .zpy s) s.mem (readBus .zpy s) := by
  refine ⟨_, (Reaches.first r hD View.incPC View.PC (fun _ => keeps) (fun _ => rfl))
    |>.read hD (fun u => u.toAD (zp u.data)) (fun u => zp u.data) (fun _ => keeps) (fun _ => rfl)
    |>.read hD (fun u => u.toAD (indexZp (lo u.AD) u.Y)) (fun u => indexZp (lo u.AD) u.Y) (fun _ => keeps) (fun _ => rfl), ?_⟩
  constructor
  all_goals first | rfl | (simp [View.regs, View.readCycle, View.writeCycle, View.enter, View.entry, View.incPC, View.toTMP, View.toAD, View.toS, View.toPC, View.toP, lo_zp, add_one_one, add_two_one, pcAfter, Mode.operandBytes, arch, operandOf, effAddr, op1, op2, op16, zpPointer, readBus, writeBus, rmwBus, addressBus, indexAt, baseAddr, crosses, indexZp, BitVec.add_assoc]; done)

theorem reach_absRead {exec : Byte → State → State} (r : Ready s) (hD : D op = absRead exec) :
    ∃ v, Reaches D s op op 3 5 v ∧
      Shows s v { arch s with PC := pcAfter .abs s } (operandOf .abs s) s.mem (readBus .abs s) := by
  refine ⟨_, (Reaches.first r hD View.incPC View.PC (fun _ => keeps) (fun _ => rfl))
    |>.read hD (fun u => (u.toTMP u.data).incPC) View.PC (fun _ => keeps) (fun _ => rfl)
    |>.read hD (fun u => u.toAD (cat u.data u.TMP)) (fun u => cat u.data u.TMP) (fun _ => keeps) (fun _ => rfl), ?_⟩
  constructor
  all_goals first | rfl | (simp [View.regs, View.readCycle, View.writeCycle, View.enter, View.entry, View.incPC, View.toTMP, View.toAD, View.toS, View.toPC, View.toP, lo_zp, add_one_one, add_two_one, pcAfter, Mode.operandBytes, arch, operandOf, effAddr, op1, op2, op16, zpPointer, readBus, writeBus, rmwBus, addressBus, indexAt, baseAddr, crosses, indexZp, BitVec.add_assoc]; done)

theorem reach_izxRead {exec : Byte → State → State} (r : Ready s) (hD : D op = izxRead exec) :
    ∃ v, Reaches D s op op 5 3 v ∧
      Shows s v { arch s with PC := pcAfter .izx s } (operandOf .izx s) s.mem (readBus .izx s) := by
  refine ⟨_, (Reaches.first r hD View.incPC View.PC (fun _ => keeps) (fun _ => rfl))
    |>.read hD (fun u => u.toTMP u.data) (fun u => zp u.data) (fun _ => keeps) (fun _ => rfl)
    |>.read hD (fun u => u.toTMP (u.TMP + u.X)) (fun u => zp (u.TMP + u.X)) (fun _ => keeps) (fun _ => rfl)
    |>.read hD (fun u => u.toAD (zp u.data)) (fun u => zp (u.TMP + 1)) (fun _ => keeps) (fun _ => rfl)
    |>.read hD (fun u => u.toAD (cat u.data (lo u.AD))) (fun u => cat u.data (lo u.AD)) (fun _ => keeps) (fun _ => rfl), ?_⟩
  constructor
  all_goals first | rfl | (simp [View.regs, View.readCycle, View.writeCycle, View.enter, View.entry, View.incPC, View.toTMP, View.toAD, View.toS, View.toPC, View.toP, lo_zp, add_one_one, add_two_one, pcAfter, Mode.operandBytes, arch, operandOf, effAddr, op1, op2, op16, zpPointer, readBus, writeBus, rmwBus, addressBus, indexAt, baseAddr, crosses, indexZp, BitVec.add_assoc]; done)

theorem reach_absxRead {exec : Byte → State → State} (r : Ready s) (hD : D op = absIndexedRead .absx exec) :
    ∃ v k, Reaches D s op op 4 (k + 1) v ∧
      Shows s v { arch s with PC := pcAfter .absx s } (operandOf .absx s) s.mem (readBus .absx s) := by
  cases hc : crosses .absx s with
  | true =>
    have hb : pageCrossed (cat (s.mem.read (s.PC + 1 + 1)) (s.mem.read (s.PC + 1))) (regX s) = true := by
      simpa [crosses, baseAddr, indexAt, op16, op1, op2, zpPointer, BitVec.add_assoc] using hc
    refine ⟨_, 3, (Reaches.first r hD View.incPC View.PC (fun _ => keeps) (fun _ => rfl))
    |>.read hD (fun u => (u.toTMP u.data).incPC) View.PC (fun _ => keeps) (fun _ => rfl)
    |>.readAt hD (fun u => u.toAD (indexAbs (cat u.data u.TMP) u.X)) (fun u => unfixed (cat u.data u.TMP) u.X) (fun _ => keeps) (by
      show some (_, (if pageCrossed (cat (s.mem.read (s.PC + 1 + 1)) (s.mem.read (s.PC + 1))) (regX s) then Advance.next else .skip)) = _
      rw [hb]; rfl)
    |>.read hD (fun u => u) View.AD (fun _ => keeps) (fun _ => rfl), ?_⟩
    constructor
    all_goals first | rfl | (simp [View.regs, View.readCycle, View.writeCycle, View.enter, View.entry, View.incPC, View.toTMP, View.toAD, View.toS, View.toPC, View.toP, lo_zp, add_one_one, add_two_one, pcAfter, Mode.operandBytes, arch, operandOf, effAddr, op1, op2, op16, zpPointer, readBus, writeBus, rmwBus, addressBus, indexAt, baseAddr, indexZp, BitVec.add_assoc, hc]; done)
  | false =>
    have hb : pageCrossed (cat (s.mem.read (s.PC + 1 + 1)) (s.mem.read (s.PC + 1))) (regX s) = false := by
      simpa [crosses, baseAddr, indexAt, op16, op1, op2, zpPointer, BitVec.add_assoc] using hc
    have hu := unfixed_of_not_crossed hb
    refine ⟨_, 4, (Reaches.first r hD View.incPC View.PC (fun _ => keeps) (fun _ => rfl))
    |>.read hD (fun u => (u.toTMP u.data).incPC) View.PC (fun _ => keeps) (fun _ => rfl)
    |>.readSkip hD (fun u => u.toAD (indexAbs (cat u.data u.TMP) u.X)) (fun u => unfixed (cat u.data u.TMP) u.X) (fun _ => keeps) (by
      show some (_, (if pageCrossed (cat (s.mem.read (s.PC + 1 + 1)) (s.mem.read (s.PC + 1))) (regX s) then Advance.next else .skip)) = _
      rw [hb]; rfl), ?_⟩
    try simp only [lo_zp] at hu
    constructor
    all_goals first | rfl | (simp [View.regs, View.readCycle, View.writeCycle, View.enter, View.entry, View.incPC, View.toTMP, View.toAD, View.toS, View.toPC, View.toP, lo_zp, add_one_one, add_two_one, pcAfter, Mode.operandBytes, arch, operandOf, effAddr, op1, op2, op16, zpPointer, readBus, writeBus, rmwBus, addressBus, indexAt, baseAddr, indexZp, BitVec.add_assoc, hc]; done) | (show s.mem.read (unfixed (cat (s.mem.read (s.PC + 1 + 1)) (s.mem.read (s.PC + 1))) (regX s)) = _; (try simp only [lo_zp]); rw [hu]; simp [View.regs, View.readCycle, View.writeCycle, View.enter, View.entry, View.incPC, View.toTMP, View.toAD, View.toS, View.toPC, View.toP, lo_zp, add_one_one, add_two_one, pcAfter, Mode.operandBytes, arch, operandOf, effAddr, op1, op2, op16, zpPointer, readBus, writeBus, rmwBus, addressBus, indexAt, baseAddr, crosses, indexZp, BitVec.add_assoc]; done)

theorem reach_absyRead {exec : Byte → State → State} (r : Ready s) (hD : D op = absIndexedRead .absy exec) :
    ∃ v k, Reaches D s op op 4 (k + 1) v ∧
      Shows s v { arch s with PC := pcAfter .absy s } (operandOf .absy s) s.mem (readBus .absy s) := by
  cases hc : crosses .absy s with
  | true =>
    have hb : pageCrossed (cat (s.mem.read (s.PC + 1 + 1)) (s.mem.read (s.PC + 1))) (regY s) = true := by
      simpa [crosses, baseAddr, indexAt, op16, op1, op2, zpPointer, BitVec.add_assoc] using hc
    refine ⟨_, 3, (Reaches.first r hD View.incPC View.PC (fun _ => keeps) (fun _ => rfl))
    |>.read hD (fun u => (u.toTMP u.data).incPC) View.PC (fun _ => keeps) (fun _ => rfl)
    |>.readAt hD (fun u => u.toAD (indexAbs (cat u.data u.TMP) u.Y)) (fun u => unfixed (cat u.data u.TMP) u.Y) (fun _ => keeps) (by
      show some (_, (if pageCrossed (cat (s.mem.read (s.PC + 1 + 1)) (s.mem.read (s.PC + 1))) (regY s) then Advance.next else .skip)) = _
      rw [hb]; rfl)
    |>.read hD (fun u => u) View.AD (fun _ => keeps) (fun _ => rfl), ?_⟩
    constructor
    all_goals first | rfl | (simp [View.regs, View.readCycle, View.writeCycle, View.enter, View.entry, View.incPC, View.toTMP, View.toAD, View.toS, View.toPC, View.toP, lo_zp, add_one_one, add_two_one, pcAfter, Mode.operandBytes, arch, operandOf, effAddr, op1, op2, op16, zpPointer, readBus, writeBus, rmwBus, addressBus, indexAt, baseAddr, indexZp, BitVec.add_assoc, hc]; done)
  | false =>
    have hb : pageCrossed (cat (s.mem.read (s.PC + 1 + 1)) (s.mem.read (s.PC + 1))) (regY s) = false := by
      simpa [crosses, baseAddr, indexAt, op16, op1, op2, zpPointer, BitVec.add_assoc] using hc
    have hu := unfixed_of_not_crossed hb
    refine ⟨_, 4, (Reaches.first r hD View.incPC View.PC (fun _ => keeps) (fun _ => rfl))
    |>.read hD (fun u => (u.toTMP u.data).incPC) View.PC (fun _ => keeps) (fun _ => rfl)
    |>.readSkip hD (fun u => u.toAD (indexAbs (cat u.data u.TMP) u.Y)) (fun u => unfixed (cat u.data u.TMP) u.Y) (fun _ => keeps) (by
      show some (_, (if pageCrossed (cat (s.mem.read (s.PC + 1 + 1)) (s.mem.read (s.PC + 1))) (regY s) then Advance.next else .skip)) = _
      rw [hb]; rfl), ?_⟩
    try simp only [lo_zp] at hu
    constructor
    all_goals first | rfl | (simp [View.regs, View.readCycle, View.writeCycle, View.enter, View.entry, View.incPC, View.toTMP, View.toAD, View.toS, View.toPC, View.toP, lo_zp, add_one_one, add_two_one, pcAfter, Mode.operandBytes, arch, operandOf, effAddr, op1, op2, op16, zpPointer, readBus, writeBus, rmwBus, addressBus, indexAt, baseAddr, indexZp, BitVec.add_assoc, hc]; done) | (show s.mem.read (unfixed (cat (s.mem.read (s.PC + 1 + 1)) (s.mem.read (s.PC + 1))) (regY s)) = _; (try simp only [lo_zp]); rw [hu]; simp [View.regs, View.readCycle, View.writeCycle, View.enter, View.entry, View.incPC, View.toTMP, View.toAD, View.toS, View.toPC, View.toP, lo_zp, add_one_one, add_two_one, pcAfter, Mode.operandBytes, arch, operandOf, effAddr, op1, op2, op16, zpPointer, readBus, writeBus, rmwBus, addressBus, indexAt, baseAddr, crosses, indexZp, BitVec.add_assoc]; done)

theorem reach_izyRead {exec : Byte → State → State} (r : Ready s) (hD : D op = izyRead exec) :
    ∃ v k, Reaches D s op op 5 (k + 1) v ∧
      Shows s v { arch s with PC := pcAfter .izy s } (operandOf .izy s) s.mem (readBus .izy s) := by
  cases hc : crosses .izy s with
  | true =>
    have hb : pageCrossed (cat (s.mem.read (zp (s.mem.read (s.PC + 1) + 1))) (lo (zp (s.mem.read (zp (s.mem.read (s.PC + 1))))))) (regY s) = true := by
      simpa [crosses, baseAddr, indexAt, op16, op1, op2, zpPointer, BitVec.add_assoc] using hc
    refine ⟨_, 2, (Reaches.first r hD View.incPC View.PC (fun _ => keeps) (fun _ => rfl))
    |>.read hD (fun u => u.toTMP u.data) (fun u => zp u.data) (fun _ => keeps) (fun _ => rfl)
    |>.read hD (fun u => u.toAD (zp u.data)) (fun u => zp (u.TMP + 1)) (fun _ => keeps) (fun _ => rfl)
    |>.readAt hD (fun u => u.toAD (indexAbs (cat u.data (lo u.AD)) u.Y)) (fun u => unfixed (cat u.data (lo u.AD)) u.Y) (fun _ => keeps) (by
      show some (_, (if pageCrossed (cat (s.mem.read (zp (s.mem.read (s.PC + 1) + 1))) (lo (zp (s.mem.read (zp (s.mem.read (s.PC + 1))))))) (regY s) then Advance.next else .skip)) = _
      rw [hb]; rfl)
    |>.read hD (fun u => u) View.AD (fun _ => keeps) (fun _ => rfl), ?_⟩
    constructor
    all_goals first | rfl | (simp [View.regs, View.readCycle, View.writeCycle, View.enter, View.entry, View.incPC, View.toTMP, View.toAD, View.toS, View.toPC, View.toP, lo_zp, add_one_one, add_two_one, pcAfter, Mode.operandBytes, arch, operandOf, effAddr, op1, op2, op16, zpPointer, readBus, writeBus, rmwBus, addressBus, indexAt, baseAddr, indexZp, BitVec.add_assoc, hc]; done)
  | false =>
    have hb : pageCrossed (cat (s.mem.read (zp (s.mem.read (s.PC + 1) + 1))) (lo (zp (s.mem.read (zp (s.mem.read (s.PC + 1))))))) (regY s) = false := by
      simpa [crosses, baseAddr, indexAt, op16, op1, op2, zpPointer, BitVec.add_assoc] using hc
    have hu := unfixed_of_not_crossed hb
    refine ⟨_, 3, (Reaches.first r hD View.incPC View.PC (fun _ => keeps) (fun _ => rfl))
    |>.read hD (fun u => u.toTMP u.data) (fun u => zp u.data) (fun _ => keeps) (fun _ => rfl)
    |>.read hD (fun u => u.toAD (zp u.data)) (fun u => zp (u.TMP + 1)) (fun _ => keeps) (fun _ => rfl)
    |>.readSkip hD (fun u => u.toAD (indexAbs (cat u.data (lo u.AD)) u.Y)) (fun u => unfixed (cat u.data (lo u.AD)) u.Y) (fun _ => keeps) (by
      show some (_, (if pageCrossed (cat (s.mem.read (zp (s.mem.read (s.PC + 1) + 1))) (lo (zp (s.mem.read (zp (s.mem.read (s.PC + 1))))))) (regY s) then Advance.next else .skip)) = _
      rw [hb]; rfl), ?_⟩
    try simp only [lo_zp] at hu
    constructor
    all_goals first | rfl | (simp [View.regs, View.readCycle, View.writeCycle, View.enter, View.entry, View.incPC, View.toTMP, View.toAD, View.toS, View.toPC, View.toP, lo_zp, add_one_one, add_two_one, pcAfter, Mode.operandBytes, arch, operandOf, effAddr, op1, op2, op16, zpPointer, readBus, writeBus, rmwBus, addressBus, indexAt, baseAddr, indexZp, BitVec.add_assoc, hc]; done) | (show s.mem.read (unfixed (cat (s.mem.read (zp (s.mem.read (s.PC + 1) + 1))) (lo (zp (s.mem.read (zp (s.mem.read (s.PC + 1))))))) (regY s)) = _; (try simp only [lo_zp]); rw [hu]; simp [View.regs, View.readCycle, View.writeCycle, View.enter, View.entry, View.incPC, View.toTMP, View.toAD, View.toS, View.toPC, View.toP, lo_zp, add_one_one, add_two_one, pcAfter, Mode.operandBytes, arch, operandOf, effAddr, op1, op2, op16, zpPointer, readBus, writeBus, rmwBus, addressBus, indexAt, baseAddr, crosses, indexZp, BitVec.add_assoc]; done)

/-! ### The write class (R163 to R165, R167, R169, R171) -/

/-- The view in which a write step computes its byte and address. -/
structure AtWrite (m : Mode) (s : State) (u : View) : Prop where
  regs : u.regs = { arch s with PC := pcAfter m s }
  AD : u.AD = effAddr m s
  mem : u.mem = s.mem

theorem reach_zpWrite {store fin : State → State} {ad : View → Addr} {vl : View → Byte} (r : Ready s)
    (hD : D op = zpWrite store fin)
    (hst : ∀ u, store (low s u) = busWrite (ad u) (vl u) (low s (u.toAD (ad u)))) :
    ∃ v, Reaches D s op op 2 6 v ∧ ∃ u, Shows s v { arch s with PC := pcAfter .zp s } (vl u) (s.mem.write (ad u) (vl u))
      (writeBus .zp s (ad u) (vl u)) ∧ AtWrite .zp s u := by
  refine ⟨_, (Reaches.first r hD View.incPC View.PC (fun _ => keeps) (fun _ => rfl))
    |>.write hD (fun u => (u.toAD (zp u.data)).toAD (ad (u.toAD (zp u.data)))) (fun u => ad (u.toAD (zp u.data))) (fun u => vl (u.toAD (zp u.data))) (fun _ => keeps)
      (fun u => congrArg (fun x => some (x, Advance.next)) (hst (u.toAD (zp u.data)))), _, ⟨?_, rfl, ?_, ?_, rfl, rfl⟩, ?_⟩
  rotate_right
  · constructor
    all_goals first | rfl | (simp [View.regs, View.readCycle, View.writeCycle, View.enter, View.entry, View.incPC, View.toTMP, View.toAD, View.toS, View.toPC, View.toP, lo_zp, add_one_one, add_two_one, pcAfter, Mode.operandBytes, arch, operandOf, effAddr, op1, op2, op16, zpPointer, readBus, writeBus, rmwBus, addressBus, indexAt, baseAddr, crosses, indexZp, BitVec.add_assoc]; done)
  all_goals first | rfl | (simp [View.regs, View.readCycle, View.writeCycle, View.enter, View.entry, View.incPC, View.toTMP, View.toAD, View.toS, View.toPC, View.toP, lo_zp, add_one_one, add_two_one, pcAfter, Mode.operandBytes, arch, operandOf, effAddr, op1, op2, op16, zpPointer, readBus, writeBus, rmwBus, addressBus, indexAt, baseAddr, crosses, indexZp, BitVec.add_assoc]; done)

theorem reach_zpxWrite {store fin : State → State} {ad : View → Addr} {vl : View → Byte} (r : Ready s)
    (hD : D op = zpIndexedWrite .zpx store fin)
    (hst : ∀ u, store (low s u) = busWrite (ad u) (vl u) (low s (u.toAD (ad u)))) :
    ∃ v, Reaches D s op op 3 5 v ∧ ∃ u, Shows s v { arch s with PC := pcAfter .zpx s } (vl u) (s.mem.write (ad u) (vl u))
      (writeBus .zpx s (ad u) (vl u)) ∧ AtWrite .zpx s u := by
  refine ⟨_, (Reaches.first r hD View.incPC View.PC (fun _ => keeps) (fun _ => rfl))
    |>.read hD (fun u => u.toAD (zp u.data)) (fun u => zp u.data) (fun _ => keeps) (fun _ => rfl)
    |>.write hD (fun u => (u.toAD (indexZp (lo u.AD) u.X)).toAD (ad (u.toAD (indexZp (lo u.AD) u.X)))) (fun u => ad (u.toAD (indexZp (lo u.AD) u.X))) (fun u => vl (u.toAD (indexZp (lo u.AD) u.X))) (fun _ => keeps)
      (fun u => congrArg (fun x => some (x, Advance.next)) (hst (u.toAD (indexZp (lo u.AD) u.X)))), _, ⟨?_, rfl, ?_, ?_, rfl, rfl⟩, ?_⟩
  rotate_right
  · constructor
    all_goals first | rfl | (simp [View.regs, View.readCycle, View.writeCycle, View.enter, View.entry, View.incPC, View.toTMP, View.toAD, View.toS, View.toPC, View.toP, lo_zp, add_one_one, add_two_one, pcAfter, Mode.operandBytes, arch, operandOf, effAddr, op1, op2, op16, zpPointer, readBus, writeBus, rmwBus, addressBus, indexAt, baseAddr, crosses, indexZp, BitVec.add_assoc]; done)
  all_goals first | rfl | (simp [View.regs, View.readCycle, View.writeCycle, View.enter, View.entry, View.incPC, View.toTMP, View.toAD, View.toS, View.toPC, View.toP, lo_zp, add_one_one, add_two_one, pcAfter, Mode.operandBytes, arch, operandOf, effAddr, op1, op2, op16, zpPointer, readBus, writeBus, rmwBus, addressBus, indexAt, baseAddr, crosses, indexZp, BitVec.add_assoc]; done)

theorem reach_zpyWrite {store fin : State → State} {ad : View → Addr} {vl : View → Byte} (r : Ready s)
    (hD : D op = zpIndexedWrite .zpy store fin)
    (hst : ∀ u, store (low s u) = busWrite (ad u) (vl u) (low s (u.toAD (ad u)))) :
    ∃ v, Reaches D s op op 3 5 v ∧ ∃ u, Shows s v { arch s with PC := pcAfter .zpy s } (vl u) (s.mem.write (ad u) (vl u))
      (writeBus .zpy s (ad u) (vl u)) ∧ AtWrite .zpy s u := by
  refine ⟨_, (Reaches.first r hD View.incPC View.PC (fun _ => keeps) (fun _ => rfl))
    |>.read hD (fun u => u.toAD (zp u.data)) (fun u => zp u.data) (fun _ => keeps) (fun _ => rfl)
    |>.write hD (fun u => (u.toAD (indexZp (lo u.AD) u.Y)).toAD (ad (u.toAD (indexZp (lo u.AD) u.Y)))) (fun u => ad (u.toAD (indexZp (lo u.AD) u.Y))) (fun u => vl (u.toAD (indexZp (lo u.AD) u.Y))) (fun _ => keeps)
      (fun u => congrArg (fun x => some (x, Advance.next)) (hst (u.toAD (indexZp (lo u.AD) u.Y)))), _, ⟨?_, rfl, ?_, ?_, rfl, rfl⟩, ?_⟩
  rotate_right
  · constructor
    all_goals first | rfl | (simp [View.regs, View.readCycle, View.writeCycle, View.enter, View.entry, View.incPC, View.toTMP, View.toAD, View.toS, View.toPC, View.toP, lo_zp, add_one_one, add_two_one, pcAfter, Mode.operandBytes, arch, operandOf, effAddr, op1, op2, op16, zpPointer, readBus, writeBus, rmwBus, addressBus, indexAt, baseAddr, crosses, indexZp, BitVec.add_assoc]; done)
  all_goals first | rfl | (simp [View.regs, View.readCycle, View.writeCycle, View.enter, View.entry, View.incPC, View.toTMP, View.toAD, View.toS, View.toPC, View.toP, lo_zp, add_one_one, add_two_one, pcAfter, Mode.operandBytes, arch, operandOf, effAddr, op1, op2, op16, zpPointer, readBus, writeBus, rmwBus, addressBus, indexAt, baseAddr, crosses, indexZp, BitVec.add_assoc]; done)

theorem reach_absWrite {store fin : State → State} {ad : View → Addr} {vl : View → Byte} (r : Ready s)
    (hD : D op = absWrite store fin)
    (hst : ∀ u, store (low s u) = busWrite (ad u) (vl u) (low s (u.toAD (ad u)))) :
    ∃ v, Reaches D s op op 3 5 v ∧ ∃ u, Shows s v { arch s with PC := pcAfter .abs s } (vl u) (s.mem.write (ad u) (vl u))
      (writeBus .abs s (ad u) (vl u)) ∧ AtWrite .abs s u := by
  refine ⟨_, (Reaches.first r hD View.incPC View.PC (fun _ => keeps) (fun _ => rfl))
    |>.read hD (fun u => (u.toTMP u.data).incPC) View.PC (fun _ => keeps) (fun _ => rfl)
    |>.write hD (fun u => (u.toAD (cat u.data u.TMP)).toAD (ad (u.toAD (cat u.data u.TMP)))) (fun u => ad (u.toAD (cat u.data u.TMP))) (fun u => vl (u.toAD (cat u.data u.TMP))) (fun _ => keeps)
      (fun u => congrArg (fun x => some (x, Advance.next)) (hst (u.toAD (cat u.data u.TMP)))), _, ⟨?_, rfl, ?_, ?_, rfl, rfl⟩, ?_⟩
  rotate_right
  · constructor
    all_goals first | rfl | (simp [View.regs, View.readCycle, View.writeCycle, View.enter, View.entry, View.incPC, View.toTMP, View.toAD, View.toS, View.toPC, View.toP, lo_zp, add_one_one, add_two_one, pcAfter, Mode.operandBytes, arch, operandOf, effAddr, op1, op2, op16, zpPointer, readBus, writeBus, rmwBus, addressBus, indexAt, baseAddr, crosses, indexZp, BitVec.add_assoc]; done)
  all_goals first | rfl | (simp [View.regs, View.readCycle, View.writeCycle, View.enter, View.entry, View.incPC, View.toTMP, View.toAD, View.toS, View.toPC, View.toP, lo_zp, add_one_one, add_two_one, pcAfter, Mode.operandBytes, arch, operandOf, effAddr, op1, op2, op16, zpPointer, readBus, writeBus, rmwBus, addressBus, indexAt, baseAddr, crosses, indexZp, BitVec.add_assoc]; done)

theorem reach_absxWrite {store fin : State → State} {ad : View → Addr} {vl : View → Byte} (r : Ready s)
    (hD : D op = absIndexedWrite .absx store fin)
    (hst : ∀ u, store (low s u) = busWrite (ad u) (vl u) (low s (u.toAD (ad u)))) :
    ∃ v, Reaches D s op op 4 4 v ∧ ∃ u, Shows s v { arch s with PC := pcAfter .absx s } (vl u) (s.mem.write (ad u) (vl u))
      (writeBus .absx s (ad u) (vl u)) ∧ AtWrite .absx s u := by
  refine ⟨_, (Reaches.first r hD View.incPC View.PC (fun _ => keeps) (fun _ => rfl))
    |>.read hD (fun u => (u.toTMP u.data).incPC) View.PC (fun _ => keeps) (fun _ => rfl)
    |>.read hD (fun u => u.toAD (indexAbs (cat u.data u.TMP) u.X)) (fun u => unfixed (cat u.data u.TMP) u.X) (fun _ => keeps) (fun _ => rfl)
    |>.write hD (fun u => (u).toAD (ad (u))) (fun u => ad (u)) (fun u => vl (u)) (fun _ => keeps)
      (fun u => congrArg (fun x => some (x, Advance.next)) (hst (u))), _, ⟨?_, rfl, ?_, ?_, rfl, rfl⟩, ?_⟩
  rotate_right
  · constructor
    all_goals first | rfl | (simp [View.regs, View.readCycle, View.writeCycle, View.enter, View.entry, View.incPC, View.toTMP, View.toAD, View.toS, View.toPC, View.toP, lo_zp, add_one_one, add_two_one, pcAfter, Mode.operandBytes, arch, operandOf, effAddr, op1, op2, op16, zpPointer, readBus, writeBus, rmwBus, addressBus, indexAt, baseAddr, crosses, indexZp, BitVec.add_assoc]; done)
  all_goals first | rfl | (simp [View.regs, View.readCycle, View.writeCycle, View.enter, View.entry, View.incPC, View.toTMP, View.toAD, View.toS, View.toPC, View.toP, lo_zp, add_one_one, add_two_one, pcAfter, Mode.operandBytes, arch, operandOf, effAddr, op1, op2, op16, zpPointer, readBus, writeBus, rmwBus, addressBus, indexAt, baseAddr, crosses, indexZp, BitVec.add_assoc]; done)

theorem reach_absyWrite {store fin : State → State} {ad : View → Addr} {vl : View → Byte} (r : Ready s)
    (hD : D op = absIndexedWrite .absy store fin)
    (hst : ∀ u, store (low s u) = busWrite (ad u) (vl u) (low s (u.toAD (ad u)))) :
    ∃ v, Reaches D s op op 4 4 v ∧ ∃ u, Shows s v { arch s with PC := pcAfter .absy s } (vl u) (s.mem.write (ad u) (vl u))
      (writeBus .absy s (ad u) (vl u)) ∧ AtWrite .absy s u := by
  refine ⟨_, (Reaches.first r hD View.incPC View.PC (fun _ => keeps) (fun _ => rfl))
    |>.read hD (fun u => (u.toTMP u.data).incPC) View.PC (fun _ => keeps) (fun _ => rfl)
    |>.read hD (fun u => u.toAD (indexAbs (cat u.data u.TMP) u.Y)) (fun u => unfixed (cat u.data u.TMP) u.Y) (fun _ => keeps) (fun _ => rfl)
    |>.write hD (fun u => (u).toAD (ad (u))) (fun u => ad (u)) (fun u => vl (u)) (fun _ => keeps)
      (fun u => congrArg (fun x => some (x, Advance.next)) (hst (u))), _, ⟨?_, rfl, ?_, ?_, rfl, rfl⟩, ?_⟩
  rotate_right
  · constructor
    all_goals first | rfl | (simp [View.regs, View.readCycle, View.writeCycle, View.enter, View.entry, View.incPC, View.toTMP, View.toAD, View.toS, View.toPC, View.toP, lo_zp, add_one_one, add_two_one, pcAfter, Mode.operandBytes, arch, operandOf, effAddr, op1, op2, op16, zpPointer, readBus, writeBus, rmwBus, addressBus, indexAt, baseAddr, crosses, indexZp, BitVec.add_assoc]; done)
  all_goals first | rfl | (simp [View.regs, View.readCycle, View.writeCycle, View.enter, View.entry, View.incPC, View.toTMP, View.toAD, View.toS, View.toPC, View.toP, lo_zp, add_one_one, add_two_one, pcAfter, Mode.operandBytes, arch, operandOf, effAddr, op1, op2, op16, zpPointer, readBus, writeBus, rmwBus, addressBus, indexAt, baseAddr, crosses, indexZp, BitVec.add_assoc]; done)

theorem reach_izxWrite {store fin : State → State} {ad : View → Addr} {vl : View → Byte} (r : Ready s)
    (hD : D op = izxWrite store fin)
    (hst : ∀ u, store (low s u) = busWrite (ad u) (vl u) (low s (u.toAD (ad u)))) :
    ∃ v, Reaches D s op op 5 3 v ∧ ∃ u, Shows s v { arch s with PC := pcAfter .izx s } (vl u) (s.mem.write (ad u) (vl u))
      (writeBus .izx s (ad u) (vl u)) ∧ AtWrite .izx s u := by
  refine ⟨_, (Reaches.first r hD View.incPC View.PC (fun _ => keeps) (fun _ => rfl))
    |>.read hD (fun u => u.toTMP u.data) (fun u => zp u.data) (fun _ => keeps) (fun _ => rfl)
    |>.read hD (fun u => u.toTMP (u.TMP + u.X)) (fun u => zp (u.TMP + u.X)) (fun _ => keeps) (fun _ => rfl)
    |>.read hD (fun u => u.toAD (zp u.data)) (fun u => zp (u.TMP + 1)) (fun _ => keeps) (fun _ => rfl)
    |>.write hD (fun u => (u.toAD (cat u.data (lo u.AD))).toAD (ad (u.toAD (cat u.data (lo u.AD))))) (fun u => ad (u.toAD (cat u.data (lo u.AD)))) (fun u => vl (u.toAD (cat u.data (lo u.AD)))) (fun _ => keeps)
      (fun u => congrArg (fun x => some (x, Advance.next)) (hst (u.toAD (cat u.data (lo u.AD))))), _, ⟨?_, rfl, ?_, ?_, rfl, rfl⟩, ?_⟩
  rotate_right
  · constructor
    all_goals first | rfl | (simp [View.regs, View.readCycle, View.writeCycle, View.enter, View.entry, View.incPC, View.toTMP, View.toAD, View.toS, View.toPC, View.toP, lo_zp, add_one_one, add_two_one, pcAfter, Mode.operandBytes, arch, operandOf, effAddr, op1, op2, op16, zpPointer, readBus, writeBus, rmwBus, addressBus, indexAt, baseAddr, crosses, indexZp, BitVec.add_assoc]; done)
  all_goals first | rfl | (simp [View.regs, View.readCycle, View.writeCycle, View.enter, View.entry, View.incPC, View.toTMP, View.toAD, View.toS, View.toPC, View.toP, lo_zp, add_one_one, add_two_one, pcAfter, Mode.operandBytes, arch, operandOf, effAddr, op1, op2, op16, zpPointer, readBus, writeBus, rmwBus, addressBus, indexAt, baseAddr, crosses, indexZp, BitVec.add_assoc]; done)

theorem reach_izyWrite {store fin : State → State} {ad : View → Addr} {vl : View → Byte} (r : Ready s)
    (hD : D op = izyWrite store fin)
    (hst : ∀ u, store (low s u) = busWrite (ad u) (vl u) (low s (u.toAD (ad u)))) :
    ∃ v, Reaches D s op op 5 3 v ∧ ∃ u, Shows s v { arch s with PC := pcAfter .izy s } (vl u) (s.mem.write (ad u) (vl u))
      (writeBus .izy s (ad u) (vl u)) ∧ AtWrite .izy s u := by
  refine ⟨_, (Reaches.first r hD View.incPC View.PC (fun _ => keeps) (fun _ => rfl))
    |>.read hD (fun u => u.toTMP u.data) (fun u => zp u.data) (fun _ => keeps) (fun _ => rfl)
    |>.read hD (fun u => u.toAD (zp u.data)) (fun u => zp (u.TMP + 1)) (fun _ => keeps) (fun _ => rfl)
    |>.read hD (fun u => u.toAD (indexAbs (cat u.data (lo u.AD)) u.Y)) (fun u => unfixed (cat u.data (lo u.AD)) u.Y) (fun _ => keeps) (fun _ => rfl)
    |>.write hD (fun u => (u).toAD (ad (u))) (fun u => ad (u)) (fun u => vl (u)) (fun _ => keeps)
      (fun u => congrArg (fun x => some (x, Advance.next)) (hst (u))), _, ⟨?_, rfl, ?_, ?_, rfl, rfl⟩, ?_⟩
  rotate_right
  · constructor
    all_goals first | rfl | (simp [View.regs, View.readCycle, View.writeCycle, View.enter, View.entry, View.incPC, View.toTMP, View.toAD, View.toS, View.toPC, View.toP, lo_zp, add_one_one, add_two_one, pcAfter, Mode.operandBytes, arch, operandOf, effAddr, op1, op2, op16, zpPointer, readBus, writeBus, rmwBus, addressBus, indexAt, baseAddr, crosses, indexZp, BitVec.add_assoc]; done)
  all_goals first | rfl | (simp [View.regs, View.readCycle, View.writeCycle, View.enter, View.entry, View.incPC, View.toTMP, View.toAD, View.toS, View.toPC, View.toP, lo_zp, add_one_one, add_two_one, pcAfter, Mode.operandBytes, arch, operandOf, effAddr, op1, op2, op16, zpPointer, readBus, writeBus, rmwBus, addressBus, indexAt, baseAddr, crosses, indexZp, BitVec.add_assoc]; done)

/-! ### The read-modify-write class (R163 to R165, R167 to R169, R171) -/

theorem reach_zpRmw {f : Byte → Flags → Byte × Flags} {finish : Byte → State → State} (r : Ready s)
    (hD : D op = zpRmw f finish) :
    ∃ v k, Reaches D s op op 4 (k + 1) v ∧ v.TMP = (f (operandOf .zp s) s.P).1 ∧
      Shows s v { arch s with PC := pcAfter .zp s, P := (f (operandOf .zp s) s.P).2 } (f (operandOf .zp s) s.P).1
        ((s.mem.write (effAddr .zp s) (operandOf .zp s)).write (effAddr .zp s) (f (operandOf .zp s) s.P).1)
        (rmwBus .zp s (f (operandOf .zp s) s.P).1) := by
  refine ⟨_, 3, (Reaches.first r hD View.incPC View.PC (fun _ => keeps) (fun _ => rfl))
    |>.read hD (fun u => u.toAD (zp u.data)) (fun u => zp u.data) (fun _ => keeps) (fun _ => rfl)
    |>.write hD (fun u => u.toTMP u.data) View.AD View.data (fun _ => keeps) (fun _ => rfl)
    |>.write hD (fun u => (u.toTMP (f u.TMP u.P).1).toP (f u.TMP u.P).2) View.AD (fun u => (f u.TMP u.P).1) (fun _ => keeps) (fun _ => rfl), ?_, ?_⟩
  · first | rfl | (simp [View.regs, View.readCycle, View.writeCycle, View.enter, View.entry, View.incPC, View.toTMP, View.toAD, View.toS, View.toPC, View.toP, lo_zp, add_one_one, add_two_one, pcAfter, Mode.operandBytes, arch, operandOf, effAddr, op1, op2, op16, zpPointer, readBus, writeBus, rmwBus, addressBus, indexAt, baseAddr, crosses, indexZp, BitVec.add_assoc]; done)
  · constructor
    all_goals first | rfl | (simp [View.regs, View.readCycle, View.writeCycle, View.enter, View.entry, View.incPC, View.toTMP, View.toAD, View.toS, View.toPC, View.toP, lo_zp, add_one_one, add_two_one, pcAfter, Mode.operandBytes, arch, operandOf, effAddr, op1, op2, op16, zpPointer, readBus, writeBus, rmwBus, addressBus, indexAt, baseAddr, crosses, indexZp, BitVec.add_assoc]; done)

theorem reach_zpxRmw {f : Byte → Flags → Byte × Flags} {finish : Byte → State → State} (r : Ready s)
    (hD : D op = zpIndexedRmw .zpx f finish) :
    ∃ v k, Reaches D s op op 5 (k + 1) v ∧ v.TMP = (f (operandOf .zpx s) s.P).1 ∧
      Shows s v { arch s with PC := pcAfter .zpx s, P := (f (operandOf .zpx s) s.P).2 } (f (operandOf .zpx s) s.P).1
        ((s.mem.write (effAddr .zpx s) (operandOf .zpx s)).write (effAddr .zpx s) (f (operandOf .zpx s) s.P).1)
        (rmwBus .zpx s (f (operandOf .zpx s) s.P).1) := by
  refine ⟨_, 2, (Reaches.first r hD View.incPC View.PC (fun _ => keeps) (fun _ => rfl))
    |>.read hD (fun u => u.toAD (zp u.data)) (fun u => zp u.data) (fun _ => keeps) (fun _ => rfl)
    |>.read hD (fun u => u.toAD (indexZp (lo u.AD) u.X)) (fun u => indexZp (lo u.AD) u.X) (fun _ => keeps) (fun _ => rfl)
    |>.write hD (fun u => u.toTMP u.data) View.AD View.data (fun _ => keeps) (fun _ => rfl)
    |>.write hD (fun u => (u.toTMP (f u.TMP u.P).1).toP (f u.TMP u.P).2) View.AD (fun u => (f u.TMP u.P).1) (fun _ => keeps) (fun _ => rfl), ?_, ?_⟩
  · first | rfl | (simp [View.regs, View.readCycle, View.writeCycle, View.enter, View.entry, View.incPC, View.toTMP, View.toAD, View.toS, View.toPC, View.toP, lo_zp, add_one_one, add_two_one, pcAfter, Mode.operandBytes, arch, operandOf, effAddr, op1, op2, op16, zpPointer, readBus, writeBus, rmwBus, addressBus, indexAt, baseAddr, crosses, indexZp, BitVec.add_assoc]; done)
  · constructor
    all_goals first | rfl | (simp [View.regs, View.readCycle, View.writeCycle, View.enter, View.entry, View.incPC, View.toTMP, View.toAD, View.toS, View.toPC, View.toP, lo_zp, add_one_one, add_two_one, pcAfter, Mode.operandBytes, arch, operandOf, effAddr, op1, op2, op16, zpPointer, readBus, writeBus, rmwBus, addressBus, indexAt, baseAddr, crosses, indexZp, BitVec.add_assoc]; done)

theorem reach_absRmw {f : Byte → Flags → Byte × Flags} {finish : Byte → State → State} (r : Ready s)
    (hD : D op = absRmw f finish) :
    ∃ v k, Reaches D s op op 5 (k + 1) v ∧ v.TMP = (f (operandOf .abs s) s.P).1 ∧
      Shows s v { arch s with PC := pcAfter .abs s, P := (f (operandOf .abs s) s.P).2 } (f (operandOf .abs s) s.P).1
        ((s.mem.write (effAddr .abs s) (operandOf .abs s)).write (effAddr .abs s) (f (operandOf .abs s) s.P).1)
        (rmwBus .abs s (f (operandOf .abs s) s.P).1) := by
  refine ⟨_, 2, (Reaches.first r hD View.incPC View.PC (fun _ => keeps) (fun _ => rfl))
    |>.read hD (fun u => (u.toTMP u.data).incPC) View.PC (fun _ => keeps) (fun _ => rfl)
    |>.read hD (fun u => u.toAD (cat u.data u.TMP)) (fun u => cat u.data u.TMP) (fun _ => keeps) (fun _ => rfl)
    |>.write hD (fun u => u.toTMP u.data) View.AD View.data (fun _ => keeps) (fun _ => rfl)
    |>.write hD (fun u => (u.toTMP (f u.TMP u.P).1).toP (f u.TMP u.P).2) View.AD (fun u => (f u.TMP u.P).1) (fun _ => keeps) (fun _ => rfl), ?_, ?_⟩
  · first | rfl | (simp [View.regs, View.readCycle, View.writeCycle, View.enter, View.entry, View.incPC, View.toTMP, View.toAD, View.toS, View.toPC, View.toP, lo_zp, add_one_one, add_two_one, pcAfter, Mode.operandBytes, arch, operandOf, effAddr, op1, op2, op16, zpPointer, readBus, writeBus, rmwBus, addressBus, indexAt, baseAddr, crosses, indexZp, BitVec.add_assoc]; done)
  · constructor
    all_goals first | rfl | (simp [View.regs, View.readCycle, View.writeCycle, View.enter, View.entry, View.incPC, View.toTMP, View.toAD, View.toS, View.toPC, View.toP, lo_zp, add_one_one, add_two_one, pcAfter, Mode.operandBytes, arch, operandOf, effAddr, op1, op2, op16, zpPointer, readBus, writeBus, rmwBus, addressBus, indexAt, baseAddr, crosses, indexZp, BitVec.add_assoc]; done)

theorem reach_absxRmw {f : Byte → Flags → Byte × Flags} {finish : Byte → State → State} (r : Ready s)
    (hD : D op = absIndexedRmw .absx f finish) :
    ∃ v k, Reaches D s op op 6 (k + 1) v ∧ v.TMP = (f (operandOf .absx s) s.P).1 ∧
      Shows s v { arch s with PC := pcAfter .absx s, P := (f (operandOf .absx s) s.P).2 } (f (operandOf .absx s) s.P).1
        ((s.mem.write (effAddr .absx s) (operandOf .absx s)).write (effAddr .absx s) (f (operandOf .absx s) s.P).1)
        (rmwBus .absx s (f (operandOf .absx s) s.P).1) := by
  refine ⟨_, 1, (Reaches.first r hD View.incPC View.PC (fun _ => keeps) (fun _ => rfl))
    |>.read hD (fun u => (u.toTMP u.data).incPC) View.PC (fun _ => keeps) (fun _ => rfl)
    |>.read hD (fun u => u.toAD (indexAbs (cat u.data u.TMP) u.X)) (fun u => unfixed (cat u.data u.TMP) u.X) (fun _ => keeps) (fun _ => rfl)
    |>.read hD (fun u => u) View.AD (fun _ => keeps) (fun _ => rfl)
    |>.write hD (fun u => u.toTMP u.data) View.AD View.data (fun _ => keeps) (fun _ => rfl)
    |>.write hD (fun u => (u.toTMP (f u.TMP u.P).1).toP (f u.TMP u.P).2) View.AD (fun u => (f u.TMP u.P).1) (fun _ => keeps) (fun _ => rfl), ?_, ?_⟩
  · first | rfl | (simp [View.regs, View.readCycle, View.writeCycle, View.enter, View.entry, View.incPC, View.toTMP, View.toAD, View.toS, View.toPC, View.toP, lo_zp, add_one_one, add_two_one, pcAfter, Mode.operandBytes, arch, operandOf, effAddr, op1, op2, op16, zpPointer, readBus, writeBus, rmwBus, addressBus, indexAt, baseAddr, crosses, indexZp, BitVec.add_assoc]; done)
  · constructor
    all_goals first | rfl | (simp [View.regs, View.readCycle, View.writeCycle, View.enter, View.entry, View.incPC, View.toTMP, View.toAD, View.toS, View.toPC, View.toP, lo_zp, add_one_one, add_two_one, pcAfter, Mode.operandBytes, arch, operandOf, effAddr, op1, op2, op16, zpPointer, readBus, writeBus, rmwBus, addressBus, indexAt, baseAddr, crosses, indexZp, BitVec.add_assoc]; done)

theorem reach_absyRmw {f : Byte → Flags → Byte × Flags} {finish : Byte → State → State} (r : Ready s)
    (hD : D op = absIndexedRmw .absy f finish) :
    ∃ v k, Reaches D s op op 6 (k + 1) v ∧ v.TMP = (f (operandOf .absy s) s.P).1 ∧
      Shows s v { arch s with PC := pcAfter .absy s, P := (f (operandOf .absy s) s.P).2 } (f (operandOf .absy s) s.P).1
        ((s.mem.write (effAddr .absy s) (operandOf .absy s)).write (effAddr .absy s) (f (operandOf .absy s) s.P).1)
        (rmwBus .absy s (f (operandOf .absy s) s.P).1) := by
  refine ⟨_, 1, (Reaches.first r hD View.incPC View.PC (fun _ => keeps) (fun _ => rfl))
    |>.read hD (fun u => (u.toTMP u.data).incPC) View.PC (fun _ => keeps) (fun _ => rfl)
    |>.read hD (fun u => u.toAD (indexAbs (cat u.data u.TMP) u.Y)) (fun u => unfixed (cat u.data u.TMP) u.Y) (fun _ => keeps) (fun _ => rfl)
    |>.read hD (fun u => u) View.AD (fun _ => keeps) (fun _ => rfl)
    |>.write hD (fun u => u.toTMP u.data) View.AD View.data (fun _ => keeps) (fun _ => rfl)
    |>.write hD (fun u => (u.toTMP (f u.TMP u.P).1).toP (f u.TMP u.P).2) View.AD (fun u => (f u.TMP u.P).1) (fun _ => keeps) (fun _ => rfl), ?_, ?_⟩
  · first | rfl | (simp [View.regs, View.readCycle, View.writeCycle, View.enter, View.entry, View.incPC, View.toTMP, View.toAD, View.toS, View.toPC, View.toP, lo_zp, add_one_one, add_two_one, pcAfter, Mode.operandBytes, arch, operandOf, effAddr, op1, op2, op16, zpPointer, readBus, writeBus, rmwBus, addressBus, indexAt, baseAddr, crosses, indexZp, BitVec.add_assoc]; done)
  · constructor
    all_goals first | rfl | (simp [View.regs, View.readCycle, View.writeCycle, View.enter, View.entry, View.incPC, View.toTMP, View.toAD, View.toS, View.toPC, View.toP, lo_zp, add_one_one, add_two_one, pcAfter, Mode.operandBytes, arch, operandOf, effAddr, op1, op2, op16, zpPointer, readBus, writeBus, rmwBus, addressBus, indexAt, baseAddr, crosses, indexZp, BitVec.add_assoc]; done)

theorem reach_izxRmw {f : Byte → Flags → Byte × Flags} {finish : Byte → State → State} (r : Ready s)
    (hD : D op = izxRmw f finish) :
    ∃ v k, Reaches D s op op 7 (k + 1) v ∧ v.TMP = (f (operandOf .izx s) s.P).1 ∧
      Shows s v { arch s with PC := pcAfter .izx s, P := (f (operandOf .izx s) s.P).2 } (f (operandOf .izx s) s.P).1
        ((s.mem.write (effAddr .izx s) (operandOf .izx s)).write (effAddr .izx s) (f (operandOf .izx s) s.P).1)
        (rmwBus .izx s (f (operandOf .izx s) s.P).1) := by
  refine ⟨_, 0, (Reaches.first r hD View.incPC View.PC (fun _ => keeps) (fun _ => rfl))
    |>.read hD (fun u => u.toTMP u.data) (fun u => zp u.data) (fun _ => keeps) (fun _ => rfl)
    |>.read hD (fun u => u.toTMP (u.TMP + u.X)) (fun u => zp (u.TMP + u.X)) (fun _ => keeps) (fun _ => rfl)
    |>.read hD (fun u => u.toAD (zp u.data)) (fun u => zp (u.TMP + 1)) (fun _ => keeps) (fun _ => rfl)
    |>.read hD (fun u => u.toAD (cat u.data (lo u.AD))) (fun u => cat u.data (lo u.AD)) (fun _ => keeps) (fun _ => rfl)
    |>.write hD (fun u => u.toTMP u.data) View.AD View.data (fun _ => keeps) (fun _ => rfl)
    |>.write hD (fun u => (u.toTMP (f u.TMP u.P).1).toP (f u.TMP u.P).2) View.AD (fun u => (f u.TMP u.P).1) (fun _ => keeps) (fun _ => rfl), ?_, ?_⟩
  · first | rfl | (simp [View.regs, View.readCycle, View.writeCycle, View.enter, View.entry, View.incPC, View.toTMP, View.toAD, View.toS, View.toPC, View.toP, lo_zp, add_one_one, add_two_one, pcAfter, Mode.operandBytes, arch, operandOf, effAddr, op1, op2, op16, zpPointer, readBus, writeBus, rmwBus, addressBus, indexAt, baseAddr, crosses, indexZp, BitVec.add_assoc]; done)
  · constructor
    all_goals first | rfl | (simp [View.regs, View.readCycle, View.writeCycle, View.enter, View.entry, View.incPC, View.toTMP, View.toAD, View.toS, View.toPC, View.toP, lo_zp, add_one_one, add_two_one, pcAfter, Mode.operandBytes, arch, operandOf, effAddr, op1, op2, op16, zpPointer, readBus, writeBus, rmwBus, addressBus, indexAt, baseAddr, crosses, indexZp, BitVec.add_assoc]; done)

theorem reach_izyRmw {f : Byte → Flags → Byte × Flags} {finish : Byte → State → State} (r : Ready s)
    (hD : D op = izyRmw f finish) :
    ∃ v k, Reaches D s op op 7 (k + 1) v ∧ v.TMP = (f (operandOf .izy s) s.P).1 ∧
      Shows s v { arch s with PC := pcAfter .izy s, P := (f (operandOf .izy s) s.P).2 } (f (operandOf .izy s) s.P).1
        ((s.mem.write (effAddr .izy s) (operandOf .izy s)).write (effAddr .izy s) (f (operandOf .izy s) s.P).1)
        (rmwBus .izy s (f (operandOf .izy s) s.P).1) := by
  refine ⟨_, 0, (Reaches.first r hD View.incPC View.PC (fun _ => keeps) (fun _ => rfl))
    |>.read hD (fun u => u.toTMP u.data) (fun u => zp u.data) (fun _ => keeps) (fun _ => rfl)
    |>.read hD (fun u => u.toAD (zp u.data)) (fun u => zp (u.TMP + 1)) (fun _ => keeps) (fun _ => rfl)
    |>.read hD (fun u => u.toAD (indexAbs (cat u.data (lo u.AD)) u.Y)) (fun u => unfixed (cat u.data (lo u.AD)) u.Y) (fun _ => keeps) (fun _ => rfl)
    |>.read hD (fun u => u) View.AD (fun _ => keeps) (fun _ => rfl)
    |>.write hD (fun u => u.toTMP u.data) View.AD View.data (fun _ => keeps) (fun _ => rfl)
    |>.write hD (fun u => (u.toTMP (f u.TMP u.P).1).toP (f u.TMP u.P).2) View.AD (fun u => (f u.TMP u.P).1) (fun _ => keeps) (fun _ => rfl), ?_, ?_⟩
  · first | rfl | (simp [View.regs, View.readCycle, View.writeCycle, View.enter, View.entry, View.incPC, View.toTMP, View.toAD, View.toS, View.toPC, View.toP, lo_zp, add_one_one, add_two_one, pcAfter, Mode.operandBytes, arch, operandOf, effAddr, op1, op2, op16, zpPointer, readBus, writeBus, rmwBus, addressBus, indexAt, baseAddr, crosses, indexZp, BitVec.add_assoc]; done)
  · constructor
    all_goals first | rfl | (simp [View.regs, View.readCycle, View.writeCycle, View.enter, View.entry, View.incPC, View.toTMP, View.toAD, View.toS, View.toPC, View.toP, lo_zp, add_one_one, add_two_one, pcAfter, Mode.operandBytes, arch, operandOf, effAddr, op1, op2, op16, zpPointer, readBus, writeBus, rmwBus, addressBus, indexAt, baseAddr, crosses, indexZp, BitVec.add_assoc]; done)

end Sys2Proof.Machine
end

