-- ==== Sys2Proof/Laws/Classes.lean ====
section
/-! SUPPORT. What a run of each class of instruction does from an instruction boundary, for every mode of the class: the one
lemma a class that its instructions' statements cite. -/

namespace Sys2Proof.Machine

variable {s : State} {i : Instr} {op : Byte}

theorem own_self (op : Byte) (μ : Micro) : ownDispatcher op μ op = μ := if_pos rfl

/-- The registers of a view as those of the state in which a step is dispatched. -/
theorem arch_low (s : State) (v : View) : arch (low s v) = v.regs := rfl

theorem regs_enter (s : State) (v : View) : (v.enter s).regs = v.regs := rfl

/-- Implied and accumulator modes (R161): two cycles, a dummy read and the next opcode fetch. -/
theorem impl_retires {exec : State → State} (hop : opcode6502 i = some op) (r : Ready s)
    (hx : ∀ x, RegsOnly x (exec x)) :
    ∃ w t, runInstr i (implSeq exec) s = .next t ∧ w.regs = { arch s with PC := s.PC + 1 } ∧
      Retires s t (arch (exec (low s w))) s.mem [rd s.mem (s.PC + 1)] := by
  obtain ⟨v, h, sh⟩ := reach_impl (D := ownDispatcher op (implSeq exec)) r (own_self _ _)
  obtain ⟨t, ht, hr, -⟩ := h.retire r.toQuiet r.jammed sh.mem sh.trace (own_self _ _) rfl (fetchesFrom_fetchNext _) (hx _)
  rw [sh.rstCnt] at hr
  exact ⟨v.enter s, t, (runInstr_ready hop r.phase).trans ht, sh.regs, hr⟩

/-- The read class (R162 to R166, R169, R170). -/
theorem read_retires {m : Mode} {exec : Byte → State → State} (hop : opcode6502 i = some op) (r : Ready s)
    (hm : m ∈ readModes) (hx : ∀ d x, RegsOnly x (exec d x)) :
    ∃ w t, runInstr i (readSeq m exec) s = .next t ∧ w.regs = { arch s with PC := pcAfter m s } ∧
      Retires s t (arch (exec (operandOf m s) (low s w))) s.mem (readBus m s) := by
  have fin : ∀ {μ : Micro} {v : View} {n k : Nat}, Reaches (ownDispatcher op μ) s op op n (k + 1) v →
      Shows s v { arch s with PC := pcAfter m s } (operandOf m s) s.mem (readBus m s) →
      (∀ x, μ n x = some (readEnd exec x, .next)) →
      ∃ w t, runInstr i μ s = .next t ∧ w.regs = { arch s with PC := pcAfter m s } ∧
        Retires s t (arch (exec (operandOf m s) (low s w))) s.mem (readBus m s) := by
    intro μ v n k h sh hend
    have hd : (low s (v.enter s)).pins.data = operandOf m s := sh.data
    obtain ⟨t, ht, hr, -⟩ := h.retire r.toQuiet r.jammed sh.mem sh.trace (own_self _ _) (hend _) (fetchesFrom_fetchNext _) (hx _ _)
    rw [hd, sh.rstCnt] at hr
    exact ⟨v.enter s, t, (runInstr_ready hop r.phase).trans ht, sh.regs, hr⟩
  simp only [readModes, List.mem_cons, List.not_mem_nil, or_false] at hm
  rcases hm with rfl | rfl | rfl | rfl | rfl | rfl | rfl | rfl | rfl
  · obtain ⟨v, h, sh⟩ := reach_immRead r (own_self op (immSeq exec)); exact fin h sh fun _ => rfl
  · obtain ⟨v, h, sh⟩ := reach_zpRead r (own_self op (zpRead exec)); exact fin h sh fun _ => rfl
  · obtain ⟨v, h, sh⟩ := reach_zpxRead r (own_self op (zpIndexedRead .zpx exec)); exact fin h sh fun _ => rfl
  · obtain ⟨v, h, sh⟩ := reach_zpyRead r (own_self op (zpIndexedRead .zpy exec)); exact fin h sh fun _ => rfl
  · obtain ⟨v, h, sh⟩ := reach_absRead r (own_self op (absRead exec)); exact fin h sh fun _ => rfl
  · obtain ⟨v, k, h, sh⟩ := reach_absxRead r (own_self op (absIndexedRead .absx exec)); exact fin h sh fun _ => rfl
  · obtain ⟨v, k, h, sh⟩ := reach_absyRead r (own_self op (absIndexedRead .absy exec)); exact fin h sh fun _ => rfl
  · obtain ⟨v, h, sh⟩ := reach_izxRead r (own_self op (izxRead exec)); exact fin h sh fun _ => rfl
  · obtain ⟨v, k, h, sh⟩ := reach_izyRead r (own_self op (izyRead exec)); exact fin h sh fun _ => rfl

/-- The write class (R163 to R165, R167, R169, R171), for a write step that stores `vl` at `ad` of the view it finds. -/
theorem write_retires {m : Mode} {store fin : State → State} {ad : View → Addr} {vl : View → Byte}
    (hop : opcode6502 i = some op) (r : Ready s) (hm : m ∈ writeModes)
    (hst : ∀ u, store (low s u) = busWrite (ad u) (vl u) (low s (u.toAD (ad u))))
    (hx : ∀ x, RegsOnly x (fin x)) :
    ∃ u w t, runInstr i (writeSeq m store fin) s = .next t ∧ AtWrite m s u ∧
      w.regs = { arch s with PC := pcAfter m s } ∧
      Retires s t (arch (fin (low s w))) (s.mem.write (ad u) (vl u)) (writeBus m s (ad u) (vl u)) := by
  have fn : ∀ {μ : Micro} {u v : View} {n k : Nat}, Reaches (ownDispatcher op μ) s op op n (k + 1) v → AtWrite m s u →
      Shows s v { arch s with PC := pcAfter m s } (vl u) (s.mem.write (ad u) (vl u)) (writeBus m s (ad u) (vl u)) →
      (∀ x, μ n x = some (fetchNext (fin x), .next)) →
      ∃ u w t, runInstr i μ s = .next t ∧ AtWrite m s u ∧ w.regs = { arch s with PC := pcAfter m s } ∧
        Retires s t (arch (fin (low s w))) (s.mem.write (ad u) (vl u)) (writeBus m s (ad u) (vl u)) := by
    intro μ u v n k h hu sh hend
    obtain ⟨t, ht, hr, -⟩ := h.retire r.toQuiet r.jammed sh.mem sh.trace (own_self _ _) (hend _) (fetchesFrom_fetchNext _) (hx _)
    rw [sh.rstCnt] at hr
    exact ⟨u, v.enter s, t, (runInstr_ready hop r.phase).trans ht, hu, sh.regs, hr⟩
  simp only [writeModes, List.mem_cons, List.not_mem_nil, or_false] at hm
  rcases hm with rfl | rfl | rfl | rfl | rfl | rfl | rfl | rfl
  · obtain ⟨v, h, u, sh, hu⟩ := reach_zpWrite r (own_self op (zpWrite store fin)) hst; exact fn h hu sh fun _ => rfl
  · obtain ⟨v, h, u, sh, hu⟩ := reach_zpxWrite r (own_self op (zpIndexedWrite .zpx store fin)) hst
    exact fn h hu sh fun _ => rfl
  · obtain ⟨v, h, u, sh, hu⟩ := reach_zpyWrite r (own_self op (zpIndexedWrite .zpy store fin)) hst
    exact fn h hu sh fun _ => rfl
  · obtain ⟨v, h, u, sh, hu⟩ := reach_absWrite r (own_self op (absWrite store fin)) hst; exact fn h hu sh fun _ => rfl
  · obtain ⟨v, h, u, sh, hu⟩ := reach_absxWrite r (own_self op (absIndexedWrite .absx store fin)) hst
    exact fn h hu sh fun _ => rfl
  · obtain ⟨v, h, u, sh, hu⟩ := reach_absyWrite r (own_self op (absIndexedWrite .absy store fin)) hst
    exact fn h hu sh fun _ => rfl
  · obtain ⟨v, h, u, sh, hu⟩ := reach_izxWrite r (own_self op (izxWrite store fin)) hst; exact fn h hu sh fun _ => rfl
  · obtain ⟨v, h, u, sh, hu⟩ := reach_izyWrite r (own_self op (izyWrite store fin)) hst; exact fn h hu sh fun _ => rfl

/-- The read-modify-write class (R163 to R165, R167 to R169, R171). -/
theorem rmw_retires {m : Mode} {f : Byte → Flags → Byte × Flags} {finish : Byte → State → State}
    (hop : opcode6502 i = some op) (r : Ready s) (hm : m ∈ rmwModes) (hx : ∀ d x, RegsOnly x (finish d x)) :
    ∃ w t, runInstr i (rmwSeq m f finish) s = .next t ∧
      w.regs = { arch s with PC := pcAfter m s, P := (f (operandOf m s) s.P).2 } ∧
      Retires s t (arch (finish (f (operandOf m s) s.P).1 (low s w)))
        ((s.mem.write (effAddr m s) (operandOf m s)).write (effAddr m s) (f (operandOf m s) s.P).1)
        (rmwBus m s (f (operandOf m s) s.P).1) := by
  have fn : ∀ {μ : Micro} {v : View} {n k : Nat}, Reaches (ownDispatcher op μ) s op op n (k + 1) v →
      v.TMP = (f (operandOf m s) s.P).1 →
      Shows s v { arch s with PC := pcAfter m s, P := (f (operandOf m s) s.P).2 } (f (operandOf m s) s.P).1
        ((s.mem.write (effAddr m s) (operandOf m s)).write (effAddr m s) (f (operandOf m s) s.P).1)
        (rmwBus m s (f (operandOf m s) s.P).1) →
      (∀ x, μ n x = some (rmwEnd finish x, .next)) →
      ∃ w t, runInstr i μ s = .next t ∧
        w.regs = { arch s with PC := pcAfter m s, P := (f (operandOf m s) s.P).2 } ∧
        Retires s t (arch (finish (f (operandOf m s) s.P).1 (low s w)))
          ((s.mem.write (effAddr m s) (operandOf m s)).write (effAddr m s) (f (operandOf m s) s.P).1)
          (rmwBus m s (f (operandOf m s) s.P).1) := by
    intro μ v n k h hT sh hend
    have hd : (low s (v.enter s)).TMP = (f (operandOf m s) s.P).1 := hT
    obtain ⟨t, ht, hr, -⟩ := h.retire r.toQuiet r.jammed sh.mem sh.trace (own_self _ _) (hend _) (fetchesFrom_fetchNext _) (hx _ _)
    rw [hd, sh.rstCnt] at hr
    exact ⟨v.enter s, t, (runInstr_ready hop r.phase).trans ht, sh.regs, hr⟩
  simp only [rmwModes, List.mem_cons, List.not_mem_nil, or_false] at hm
  rcases hm with rfl | rfl | rfl | rfl | rfl | rfl | rfl
  · obtain ⟨v, k, h, hT, sh⟩ := reach_zpRmw r (own_self op (zpRmw f finish)); exact fn h hT sh fun _ => rfl
  · obtain ⟨v, k, h, hT, sh⟩ := reach_zpxRmw r (own_self op (zpIndexedRmw .zpx f finish)); exact fn h hT sh fun _ => rfl
  · obtain ⟨v, k, h, hT, sh⟩ := reach_absRmw r (own_self op (absRmw f finish)); exact fn h hT sh fun _ => rfl
  · obtain ⟨v, k, h, hT, sh⟩ := reach_absxRmw r (own_self op (absIndexedRmw .absx f finish)); exact fn h hT sh fun _ => rfl
  · obtain ⟨v, k, h, hT, sh⟩ := reach_absyRmw r (own_self op (absIndexedRmw .absy f finish)); exact fn h hT sh fun _ => rfl
  · obtain ⟨v, k, h, hT, sh⟩ := reach_izxRmw r (own_self op (izxRmw f finish)); exact fn h hT sh fun _ => rfl
  · obtain ⟨v, k, h, hT, sh⟩ := reach_izyRmw r (own_self op (izyRmw f finish)); exact fn h hT sh fun _ => rfl

end Sys2Proof.Machine
end

