-- ==== Sys2Proof/Laws/ControlRuns.lean ====
section
/-! SUPPORT. What the sequences without a class of operand do from an instruction boundary: branches, jumps, subroutines,
the stack instructions, the return from an exception, and taking one. -/

namespace Sys2Proof.Machine

variable {s : State} {i : Instr} {op : Byte}

/-- A last step, reached by an instruction's own microcode, retires it with the given registers, memory and cycles. -/
theorem ReachesFrom.retires {μ : Micro} {n k : Nat} {v : View} {y t : State} {a : Arch} {m : Memory} {bus : List BusCycle}
    (h : Reaches (ownDispatcher op μ) s op op n (k + 1) v) (hop : opcode6502 i = some op) (r : Ready s)
    (hd : μ n (low s (v.enter s)) = some (t, .next)) (ht : FetchesFrom y t) (hy : RegsOnly (low s (v.enter s)) y)
    (ha : arch y = a) (hm : v.mem = m) (htr : v.trace = bus) (hrc : v.rstCnt = s.rstCnt) :
    ∃ t, runInstr i μ s = .next t ∧ Retires s t a m bus := by
  obtain ⟨u, hu, hr, -⟩ := h.retire r.toQuiet r.jammed hm htr (own_self _ _) hd ht hy
  rw [ha, hrc] at hr
  exact ⟨u, (runInstr_ready hop r.phase).trans hu, hr⟩

/-! ### Branches (45_control.md R300) -/

theorem branch_retires {cond : Flags → Bool} (hop : opcode6502 i = some op) (r : Ready s) :
    ∃ t, runInstr i (branchSeq cond) s = .next t ∧
      Retires s t { arch s with PC := if cond s.P then branchTarget (s.PC + 2) (op1 s) else s.PC + 2 } s.mem
        (branchBus (cond s.P) s) := by
  have hD := own_self op (branchSeq cond)
  have h1 := Reaches.first r hD View.incPC View.PC (fun _ => keeps) (fun _ => rfl)
  unfold branchBus
  rw [← add_one_one s.PC]
  by_cases hc : cond s.P = true
  · rw [hc, if_pos rfl, if_pos rfl]
    have h2 := h1.readAt hD
      (fun u => ((u.toTMP u.data).toAD (branchTarget u.PC u.data)).toPC (cat (hi u.PC) (lo (branchTarget u.PC u.data))))
      View.PC (fun _ => keeps) (by
        show branchSeq cond 1 _ = _
        unfold branchSeq
        exact if_pos hc)
    by_cases hp : hi (branchTarget (s.PC + 1 + 1) (op1 s)) = hi (s.PC + 1 + 1)
    · rw [if_pos hp]
      have e : cat (hi (s.PC + 1 + 1)) (lo (branchTarget (s.PC + 1 + 1) (op1 s))) = branchTarget (s.PC + 1 + 1) (op1 s) := by
        rw [← hp, cat_hi_lo]
      refine h2.retires (y := low s (View.enter s _)) hop r ?_ (fetchesFrom_fetchNextBranch _) rfl ?_ rfl rfl rfl
      · unfold branchSeq
        refine if_pos ?_
        show hi (branchTarget (s.PC + 1 + 1) (op1 s)) = hi (cat (hi (s.PC + 1 + 1)) _)
        rw [hi_cat]; exact hp
      · rw [← e]; rfl
    · rw [if_neg hp]
      have h3 := h2.readAt hD (fun u => u.toPC u.AD) View.PC (fun _ => keeps) (by
        show branchSeq cond 2 _ = _
        unfold branchSeq
        refine if_neg ?_
        show ¬ hi (branchTarget (s.PC + 1 + 1) (op1 s)) = hi (cat (hi (s.PC + 1 + 1)) _)
        rw [hi_cat]; exact hp)
      exact h3.retires hop r rfl (fetchesFrom_fetchNext _) rfl rfl rfl rfl rfl
  · rw [if_neg hc, if_neg hc]
    exact h1.retires (y := { low s (View.enter s _) with TMP := _ }) hop r (if_neg hc) (fetchesFrom_fetchNext _) rfl rfl rfl rfl rfl

/-! ### Jumps, subroutines and returns (45_control.md R304 to R308) -/

theorem jmpAbs_retires (hop : opcode6502 i = some op) (r : Ready s) :
    ∃ t, runInstr i jmpAbs s = .next t ∧
      Retires s t { arch s with PC := op16 s } s.mem [rd s.mem (s.PC + 1), rd s.mem (s.PC + 2)] := by
  have hD := own_self op jmpAbs
  unfold op16 op2
  rw [← add_one_one s.PC]
  exact (Reaches.first r hD View.incPC View.PC (fun _ => keeps) (fun _ => rfl)
    |>.read hD (fun u => u.toTMP u.data) View.PC (fun _ => keeps) (fun _ => rfl)).retires
    (y := { low s (View.enter s _) with PC := _ }) hop r rfl (fetchesFrom_fetchNext _) rfl rfl rfl rfl rfl

theorem jmpInd_retires (hop : opcode6502 i = some op) (r : Ready s) :
    ∃ t, runInstr i jmpInd s = .next t ∧
      Retires s t { arch s with PC := cat (s.mem.read (samePageNext (op16 s))) (s.mem.read (op16 s)) } s.mem
        [rd s.mem (s.PC + 1), rd s.mem (s.PC + 2), rd s.mem (op16 s), rd s.mem (samePageNext (op16 s))] := by
  have hD := own_self op jmpInd
  unfold op16 op2
  rw [← add_one_one s.PC]
  exact (Reaches.first r hD View.incPC View.PC (fun _ => keeps) (fun _ => rfl)
    |>.read hD (fun u => (u.toTMP u.data).incPC) View.PC (fun _ => keeps) (fun _ => rfl)
    |>.read hD (fun u => u.toAD (cat u.data u.TMP)) (fun u => cat u.data u.TMP) (fun _ => keeps) (fun _ => rfl)
    |>.read hD (fun u => u.toTMP u.data) (fun u => samePageNext u.AD) (fun _ => keeps) (fun _ => rfl)).retires
    (y := { low s (View.enter s _) with PC := _ }) hop r rfl (fetchesFrom_fetchNext _) rfl rfl rfl rfl rfl

theorem jsr_retires (hop : opcode6502 i = some op) (r : Ready s) :
    ∃ t, runInstr i microJsr s = .next t ∧
      Retires s t { arch s with S := regS s - 2, PC := cat ((jsrMem s).read (s.PC + 2)) (op1 s) } (jsrMem s)
        [rd s.mem (s.PC + 1), rd s.mem (stk (regS s)), wr (stk (regS s)) (hi (s.PC + 2)),
          wr (stk (regS s - 1)) (lo (s.PC + 2)), rd (jsrMem s) (s.PC + 2)] := by
  have hD := own_self op microJsr
  unfold jsrMem
  rw [← add_one_one s.PC, ← byte_sub_one_one]
  exact (Reaches.first r hD View.incPC View.PC (fun _ => keeps) (fun _ => rfl)
    |>.read hD (fun u => u.toTMP u.data) (fun u => stk u.S) (fun _ => keeps) (fun _ => rfl)
    |>.write hD (fun u => u.toS (u.S - 1)) (fun u => stk u.S) (fun u => hi u.PC) (fun _ => keeps) (fun _ => rfl)
    |>.write hD (fun u => u.toS (u.S - 1)) (fun u => stk u.S) (fun u => lo u.PC) (fun _ => keeps) (fun _ => rfl)
    |>.read hD (fun u => u) View.PC (fun _ => keeps) (fun _ => rfl)).retires
    (y := { low s (View.enter s _) with PC := _ }) hop r rfl (fetchesFrom_fetchNext _) rfl rfl rfl rfl rfl

theorem rts_retires (hop : opcode6502 i = some op) (r : Ready s) :
    ∃ t, runInstr i microRts s = .next t ∧
      Retires s t { arch s with S := regS s + 2, PC := stackedPC s + 1 } s.mem
        [rd s.mem (s.PC + 1), rd s.mem (stk (regS s)), rd s.mem (stk (regS s + 1)), rd s.mem (stk (regS s + 2)),
          rd s.mem (stackedPC s)] := by
  have hD := own_self op microRts
  unfold stackedPC
  rw [← byte_add_one_one]
  exact (Reaches.first r hD (fun u => u) View.PC (fun _ => keeps) (fun _ => rfl)
    |>.read hD (fun u => u.toS (u.S + 1)) (fun u => stk u.S) (fun _ => keeps) (fun _ => rfl)
    |>.read hD (fun u => u.toS (u.S + 1)) (fun u => stk u.S) (fun _ => keeps) (fun _ => rfl)
    |>.read hD (fun u => u.toTMP u.data) (fun u => stk u.S) (fun _ => keeps) (fun _ => rfl)
    |>.read hD (fun u => (u.toPC (cat u.data u.TMP)).incPC) (fun u => cat u.data u.TMP) (fun _ => keeps) (fun _ => rfl)).retires
    (y := low s (View.enter s _)) hop r rfl (fetchesFrom_fetchNext _) rfl rfl rfl rfl rfl

theorem rti_retires (hop : opcode6502 i = some op) (r : Ready s) :
    ∃ t, runInstr i returnSequence s = .next t ∧
      Retires s t
        { arch s with
          S := regS s + 3
          P := unpack (s.mem.read (stk (regS s + 1)))
          PC := cat (s.mem.read (stk (regS s + 3))) (s.mem.read (stk (regS s + 2))) }
        s.mem
        [rd s.mem (s.PC + 1), rd s.mem (stk (regS s)), rd s.mem (stk (regS s + 1)), rd s.mem (stk (regS s + 2)),
          rd s.mem (stk (regS s + 3))] := by
  have hD := own_self op returnSequence
  rw [← byte_add_two_one, ← byte_add_one_one]
  exact (Reaches.first r hD (fun u => u) View.PC (fun _ => keeps) (fun _ => rfl)
    |>.read hD (fun u => u.toS (u.S + 1)) (fun u => stk u.S) (fun _ => keeps) (fun _ => rfl)
    |>.read hD (fun u => u.toS (u.S + 1)) (fun u => stk u.S) (fun _ => keeps) (fun _ => rfl)
    |>.read hD (fun u => (u.toP (unpack u.data)).toS (u.S + 1)) (fun u => stk u.S) (fun _ => keeps) (fun _ => rfl)
    |>.read hD (fun u => u.toTMP u.data) (fun u => stk u.S) (fun _ => keeps) (fun _ => rfl)).retires
    (y := { low s (View.enter s _) with PC := _ }) hop r rfl (fetchesFrom_fetchNext _) rfl rfl rfl rfl rfl

/-! ### Stack instructions (46_stack_flags.md R340 to R343) -/

theorem push_retires {value : State → Byte} {b : Byte} (hop : opcode6502 i = some op) (r : Ready s)
    (hv : ∀ u : View, u.regs = { arch s with PC := s.PC + 1 } → value (low s u) = b) :
    ∃ t, runInstr i (pushSeq value) s = .next t ∧
      Retires s t { arch s with S := regS s - 1, PC := s.PC + 1 } (s.mem.write (stk (regS s)) b)
        [rd s.mem (s.PC + 1), wr (stk (regS s)) b] := by
  have hD := own_self op (pushSeq value)
  have h1 := Reaches.first r hD (fun u => u) View.PC (fun _ => keeps) (fun _ => rfl)
  have h2 := h1.writeAt (b := fun _ => b) hD (fun u => u.toS (u.S - 1)) (fun u => stk u.S) (fun _ => keeps) (by
    show some (push (value _) _, Advance.next) = _
    rw [hv _ rfl]; rfl)
  exact h2.retires hop r rfl (fetchesFrom_fetchNext _) rfl rfl rfl rfl rfl

theorem pull_retires {exec : Byte → State → State} (hop : opcode6502 i = some op) (r : Ready s)
    (hx : ∀ d x, RegsOnly x (exec d x)) :
    ∃ w t, runInstr i (pullSeq exec) s = .next t ∧ w.regs = { arch s with S := regS s + 1, PC := s.PC + 1 } ∧
      Retires s t (arch (exec (s.mem.read (stk (regS s + 1))) (low s w))) s.mem
        [rd s.mem (s.PC + 1), rd s.mem (stk (regS s)), rd s.mem (stk (regS s + 1))] := by
  have hD := own_self op (pullSeq exec)
  have h3 := Reaches.first r hD (fun u => u) View.PC (fun _ => keeps) (fun _ => rfl)
    |>.read hD (fun u => u.toS (u.S + 1)) (fun u => stk u.S) (fun _ => keeps) (fun _ => rfl)
    |>.read hD (fun u => u) (fun u => stk u.S) (fun _ => keeps) (fun _ => rfl)
  obtain ⟨t, ht, hr⟩ := h3.retires (y := exec _ (low s (View.enter s _))) hop r rfl (fetchesFrom_fetchNext _) (hx _ _) rfl rfl rfl rfl
  exact ⟨_, t, ht, rfl, hr⟩

/-! ### Taking an exception (45_control.md R309) -/

/-- The NMI latch five shifts on: recognized exactly where an edge is among its low bits (60_exceptions.md R523, R525). -/
theorem nmi_five_shifts (l : BitVec 16) (e : Bool) :
    (shiftIn (shiftIn (shiftIn (shiftIn (shiftIn l e) false) false) false) false &&& 0xFFFC ≠ 0) ↔
      (e = true ∨ l &&& 0x07FF ≠ 0) := by
  have hb : ∀ (x : BitVec 16) (b : Bool) (k : Nat), (shiftIn x b).getLsbD (k + 1) = (decide (k + 1 < 16) && x.getLsbD k) := by
    intro x b k
    cases b <;> simp [shiftIn, bitNat]
  have h0 : ∀ (x : BitVec 16) (b : Bool), (shiftIn x b).getLsbD 0 = b := by
    intro x b
    cases b <;> simp [shiftIn, bitNat]
  constructor
  · intro h
    by_contra hc
    rw [not_or, not_not] at hc
    obtain ⟨he, hl⟩ := hc
    apply h
    have he : e = false := by simpa using he
    subst he
    have hbit : ∀ k, k < 11 → l.getLsbD k = false := by
      intro k hk
      have := congrArg (fun x => BitVec.getLsbD x k) hl
      simp only [BitVec.getLsbD_and, BitVec.getLsbD_zero] at this
      rcases k with _|_|_|_|_|_|_|_|_|_|_|k <;> first | simpa using this | omega
    apply BitVec.eq_of_getLsbD_eq
    intro k hk
    rcases k with _|_|_|_|_|_|_|_|_|_|_|_|_|_|_|_|k <;> first | omega | (rw [BitVec.getLsbD_and]; simp only [hb, h0]; first | (rw [hbit _ (by omega)]; simp; done) | (simp; done))
  · intro h hz
    have hz' : ∀ k, 2 ≤ k → k < 16 →
        (shiftIn (shiftIn (shiftIn (shiftIn (shiftIn l e) false) false) false) false).getLsbD k = false := by
      intro k h2 hk
      have := congrArg (fun x => BitVec.getLsbD x k) hz
      simp only [BitVec.getLsbD_and, BitVec.getLsbD_zero] at this
      rcases k with _|_|_|_|_|_|_|_|_|_|_|_|_|_|_|_|k <;> first | simpa using this | omega
    rcases h with h | h
    · have := hz' 4 (by omega) (by omega)
      rw [show 4 = 3 + 1 from rfl, hb, show 3 = 2 + 1 from rfl, hb, show 2 = 1 + 1 from rfl, hb, show 1 = 0 + 1 from rfl, hb, h0] at this
      simp [h] at this
    · apply h
      apply BitVec.eq_of_getLsbD_eq
      intro k hk
      rcases Nat.lt_or_ge k 11 with hk2 | hk2
      · have := hz' (k + 5) (by omega) (by omega)
        simp only [hb] at this
        rw [BitVec.getLsbD_and]
        simp [show k + 4 + 1 < 16 by omega, show k + 3 + 1 < 16 by omega, show k + 2 + 1 < 16 by omega, show k + 1 + 1 < 16 by omega, show k + 1 < 16 by omega] at this
        simp [this]
      · rcases k with _|_|_|_|_|_|_|_|_|_|_|_|_|_|_|_|k <;> first | omega | simp

/-- The view of a break sequence that begins with the intent `i`, in whose step 0 the byte at `a` is read. -/
def View.breakFirst (s : State) (op ir : Byte) (i : Intent) (pc a : Addr) : View :=
  View.readCycle s { View.entry s op with PC := pc, IR := ir, intent := i } a 1

theorem nmi_at_step4 (s : State) :
    decide (shiftIn (shiftIn (shiftIn (shiftIn (shiftIn s.nmiLatch (nmiEdge s)) (s.pins.nmiN && !s.pins.nmiN))
        (s.pins.nmiN && !s.pins.nmiN)) (s.pins.nmiN && !s.pins.nmiN)) (s.pins.nmiN && !s.pins.nmiN) &&& 0xFFFC ≠ 0) =
      nmiByStep4 s := by
  rw [show (s.pins.nmiN && !s.pins.nmiN) = false by cases s.pins.nmiN <;> rfl]
  rw [Bool.eq_iff_iff]
  simp only [decide_eq_true_eq, nmi_five_shifts, nmiByStep4, Bool.or_eq_true]

/-- The IRQ latch two shifts after I was set: not recognized (60_exceptions.md R524, R525). -/
theorem irq_after_mask (l : BitVec 16) (n : Bool) :
    (shiftIn (shiftIn l (!n && !true)) (!n && !true)).getLsbD 1 = false := by
  cases n <;> simp [shiftIn, bitNat]

section
variable {o : Outcome} {D : Dispatcher} {ir : Byte} {pc a : Addr}

/-- The end of a break sequence, from its step 6: no IRQ is taken there, and an NMI where its latch says so. -/
theorem break_ends {n : Nat} {v : View} {b : Arch} {m : Memory} {bus : List BusCycle} {rc : Nat}
    (h : ReachesFrom o D s ir 6 (n + 1) v) (q : Quiet s) (hj : s.jammed = false) (hD : D ir = breakSequence)
    (hI : v.P.I = true) (hl : ∃ l, v.irqLatch = shiftIn l (!s.pins.irqN && !true))
    (ha : { v.regs with PC := cat v.data v.TMP } = b) (hm : v.mem = m) (hb : v.trace = bus) (hr : v.rstCnt = rc) :
    ∃ u, o = .next u ∧ RetiresWith rc s u b m bus ∧
      u.intent = if nmiRecognized (low s (v.enter s)) then .nmi else .none := by
  obtain ⟨u, hu, hret, hint⟩ := h.retire (y := { low s (v.enter s) with PC := cat v.data v.TMP })
    (t := fetchNext { low s (v.enter s) with PC := cat v.data v.TMP, intent := .none }) q hj hm hb hD rfl ⟨rfl⟩ rfl
  refine ⟨u, hu, ?_, ?_⟩
  · rw [← hr, ← ha]; exact hret
  · rw [hint]
    obtain ⟨l, hl⟩ := hl
    show arbitrated .none (nmiRecognized (low s (v.enter s))) ((shiftIn v.irqLatch (!s.pins.irqN && !v.P.I)).getLsbD 1) = _
    rw [hI, hl, irq_after_mask]
    rfl

theorem ite_nmi_ne_irq (b : Bool) : (if b then Intent.nmi else .none) ≠ .irq := by cases b <;> decide

/-- The shared break sequence with nothing to be written: an entry under Reset. No step reads the byte `d` that the first cycle
read, whatever answered it; `bus` is the trace of that cycle. -/
theorem break_reset {d : Byte} {bus : List BusCycle}
    (h : ReachesFrom o D s ir 1 7 { View.breakFirst s op ir .reset pc a with data := d, trace := bus }) (q : Quiet s) (hj : s.jammed = false)
    (hD : D ir = breakSequence) :
    ∃ u, o = .next u ∧
      RetiresWith (s.rstCnt - 2) s u (breakArch .reset s) (pushedFrame .reset s)
        (bus ++ frameBus .reset s ++ [rd s.mem 0xFFFC, rd s.mem 0xFFFD]) ∧ u.intent ≠ .irq ∧
      (s.nmiLatch = 0 → nmiEdge s = false → u.intent = .none) := by
  unfold breakArch frameBus
  rw [← byte_sub_two_one, ← byte_sub_one_one]
  have h6 := h
    |>.readAt hD (fun u => u.toS (u.S - 1)) (fun u => stk u.S) (fun _ => keeps) rfl
    |>.readAt hD (fun u => u.toS (u.S - 1)) (fun u => stk u.S) (fun _ => keeps) rfl
    |>.readAt hD (fun u => u.toS (u.S - 1)) (fun u => stk u.S) (fun _ => keeps) rfl
    |>.readAt hD (fun u => { (u.toAD 0xFFFC).toP { u.P with I := true } with rstCnt := u.rstCnt - 1 })
      (fun u => 0xFFFC) (fun _ => keeps) rfl
    |>.readAt hD (fun u => { u.toTMP u.data with rstCnt := u.rstCnt - 1 }) (fun u => u.AD + 1) (fun _ => keeps) rfl
  have hb : bus ++ [rd s.mem (stk (regS s))] ++ [rd s.mem (stk (regS s - 1))] ++ [rd s.mem (stk (regS s - 1 - 1))] ++
      [rd s.mem 0xFFFC] ++ [rd s.mem 0xFFFD] =
      bus ++ [rd s.mem (stk (regS s)), rd s.mem (stk (regS s - 1)), rd s.mem (stk (regS s - 1 - 1))] ++
        [rd s.mem 0xFFFC, rd s.mem 0xFFFD] := by
    simp only [List.append_assoc, List.cons_append, List.nil_append]
  obtain ⟨u, hu, hret, hint⟩ := break_ends h6 q hj hD rfl ⟨_, rfl⟩ rfl rfl hb rfl
  refine ⟨u, hu, hret, hint ▸ ite_nmi_ne_irq _, fun hl he => hint.trans (if_neg ?_)⟩
  show ¬ decide (shiftIn (shiftIn (shiftIn (shiftIn (shiftIn (shiftIn (shiftIn s.nmiLatch (nmiEdge s)) (s.pins.nmiN && !s.pins.nmiN))
    (s.pins.nmiN && !s.pins.nmiN)) (s.pins.nmiN && !s.pins.nmiN)) (s.pins.nmiN && !s.pins.nmiN)) (s.pins.nmiN && !s.pins.nmiN))
    (s.pins.nmiN && !s.pins.nmiN) &&& 0xFFFC ≠ 0) = true
  rw [hl, he, show (s.pins.nmiN && !s.pins.nmiN) = false by cases s.pins.nmiN <;> rfl]
  decide

/-- Memory after a break sequence's three pushes. -/
def breakMem (s : State) (pc : Addr) (b : Bool) : Memory :=
  ((s.mem.write (stk (regS s)) (hi pc)).write (stk (regS s - 1)) (lo pc)).write (stk (regS s - 2)) (pack s.P b)

theorem breakPush_eq {x : State} {b : Byte} (h : x.intent ≠ .reset) : breakPush b x = push b x := by
  unfold breakPush; cases hx : x.intent <;> first | rfl | exact absurd hx h

/-- The three pushes of a break sequence, from its step 1 to its step 4. -/
theorem break_pushes {i : Intent} (h : Reaches D s op ir 1 7 (View.breakFirst s op ir i pc a)) (hi' : i ≠ .reset)
    (hD : D ir = breakSequence) :
    ∃ v, Reaches D s op ir 4 4 v ∧
      v.regs = { arch s with S := regS s - 3, PC := pc } ∧ v.mem = breakMem s pc (decide (i = .none)) ∧
      v.trace = [rd s.mem a, wr (stk (regS s)) (hi pc), wr (stk (regS s - 1)) (lo pc),
        wr (stk (regS s - 2)) (pack s.P (decide (i = .none)))] ∧
      v.rstCnt = s.rstCnt ∧ v.intent = i ∧
      v.nmiLatch = shiftIn (shiftIn (shiftIn (shiftIn s.nmiLatch (nmiEdge s)) (s.pins.nmiN && !s.pins.nmiN))
        (s.pins.nmiN && !s.pins.nmiN)) (s.pins.nmiN && !s.pins.nmiN) ∧ v.nmiPrev = s.pins.nmiN := by
  unfold breakMem
  rw [← byte_sub_two_one, ← byte_sub_one_one]
  have h2 := h.writeAt hD (fun u => u.toS (u.S - 1)) (fun u => stk u.S) (fun u => hi u.PC) (fun _ => keeps)
    (congrArg (fun x => some (x, Advance.next)) (breakPush_eq hi'))
  have h3 := h2.writeAt hD (fun u => u.toS (u.S - 1)) (fun u => stk u.S) (fun u => lo u.PC) (fun _ => keeps)
    (congrArg (fun x => some (x, Advance.next)) (breakPush_eq hi'))
  have h4 := h3.writeAt hD (fun u => u.toS (u.S - 1)) (fun u => stk u.S) (fun u => pack u.P (decide (u.intent = .none)))
    (fun _ => keeps) (congrArg (fun x => some (x, Advance.next)) (breakPush_eq hi'))
  exact ⟨_, h4, rfl, rfl, rfl, rfl, rfl, rfl, rfl⟩

/-- Step 4 of a break sequence that is not a reset's. -/
theorem break_step4 {x : State} (h : x.intent ≠ .reset) :
    breakSequence 4 x =
      some (busRead (vectorAddr x) { vectorTake x with AD := vectorAddr x, P := { x.P with I := true } }, .next) := by
  have hP : (vectorTake x).P = x.P := by
    unfold vectorTake; cases hx : x.intent <;> simp only [] <;> first | rfl | (split <;> rfl)
  have hI : (vectorTake x).intent ≠ .reset := by
    unfold vectorTake
    cases hx : x.intent with
    | reset => exact absurd hx h
    | nmi => simp only [hx]; decide
    | none | irq => simp only []; split <;> simp [hx]
  have hc : ∀ y : State, y.intent ≠ .reset → countReset y = y := by
    intro y hy; unfold countReset; cases hh : y.intent <;> first | rfl | exact absurd hh hy
  refine Eq.trans (show breakSequence 4 x = some (countReset { busRead (vectorAddr x) { vectorTake x with AD := vectorAddr x }
    with P := { (vectorTake x).P with I := true } }, Advance.next) from rfl) ?_
  rw [hP, hc]
  · rfl
  · exact hI

/-- The registers after an entry that takes the vector `va` from memory `m`. -/
def breakRegs (s : State) (m : Memory) (va : Addr) : Arch :=
  { arch s with S := regS s - 3, P := { s.P with I := true }, PC := cat (m.read (va + 1)) (m.read va) }

/-- The steps of a break sequence after the pushes, for a step 4 that reads the vector `va` and leaves no reset intent. -/
theorem break_vector {v : View} {i : Intent} {m : Memory} {bus : List BusCycle} {va : Addr} (w : View)
    (h : Reaches D s op ir 4 4 v) (q : Quiet s) (hj : s.jammed = false) (hD : D ir = breakSequence)
    (hr : v.regs = { arch s with S := regS s - 3, PC := pc }) (hm : v.mem = m) (hb : v.trace = bus) (hrc : v.rstCnt = s.rstCnt)
    (hw : w = { v.enter s with AD := va, P := { v.P with I := true }, intent := w.intent, nmiLatch := w.nmiLatch })
    (hwi : w.intent = i) (hi' : i ≠ .reset)
    (hd : breakSequence 4 (low s (v.enter s)) = some (busRead va (low s w), .next)) :
    ∃ u, runCycles D longestRun (clearTrace (supplyOpcode op s)) = .next u ∧
      RetiresWith s.rstCnt s u (breakRegs s m va) m (bus ++ [rd m va, rd m (va + 1)]) ∧ u.intent ≠ .irq := by
  have hP : v.P = s.P := congrArg Arch.P hr
  have h5 := h.readAt hD (fun u => { u.toAD va with P := { v.P with I := true }, intent := w.intent, nmiLatch := w.nmiLatch })
    (fun _ => va) (fun _ => keeps) (by rw [hd]; exact congrArg (fun x => some (busRead va (low s x), Advance.next)) hw)
  have h6 : Reaches D s op ir 6 2 _ := h5.readAt hD (fun u => u.toTMP u.data) (fun u => u.AD + 1) (fun _ => keeps) (by
    show some (countReset _, Advance.next) = _
    have e : ∀ x : State, x.intent = i → countReset x = x := by
      intro x hx; unfold countReset; rw [hx]; cases i <;> first | rfl | exact absurd rfl hi'
    rw [e _ hwi]; rfl)
  have hS : v.regs.S = regS s - 3 := congrArg Arch.S hr
  have H := break_ends (b := breakRegs s m va) (m := m) (bus := bus ++ [rd m va, rd m (va + 1)]) (rc := s.rstCnt) h6 q hj hD rfl
    ⟨_, rfl⟩
  have H : ∃ u, runCycles D longestRun (clearTrace (supplyOpcode op s)) = .next u ∧
      RetiresWith s.rstCnt s u (breakRegs s m va) m (bus ++ [rd m va, rd m (va + 1)]) ∧ u.intent = _ := H ?_ hm ?_ hrc
  · obtain ⟨u, hu, hret, hint⟩ := H
    exact ⟨u, hu, hret, hint ▸ ite_nmi_ne_irq _⟩
  · have hA : v.A = regA s := congrArg Arch.A hr
    have hX : v.X = regX s := congrArg Arch.X hr
    have hY : v.Y = regY s := congrArg Arch.Y hr
    have hS : v.S = regS s - 3 := congrArg Arch.S hr
    simp only [View.regs, View.readCycle, View.enter, View.toTMP, View.toAD, breakRegs, arch, hA, hX, hY, hS, hP, hm]
  · simp only [View.readCycle, View.enter, View.toTMP, View.toAD, hb, hm, List.append_assoc, List.singleton_append]

/-- The shared break sequence for BRK, IRQ and NMI (R309; 60_exceptions.md R531). -/
theorem break_pushing {i : Intent} (h : Reaches D s op ir 1 7 (View.breakFirst s op ir i pc a)) (q : Quiet s)
    (hj : s.jammed = false) (hD : D ir = breakSequence) (hi' : i ≠ .reset) :
    ∃ u, runCycles D longestRun (clearTrace (supplyOpcode op s)) = .next u ∧
      RetiresWith s.rstCnt s u (breakRegs s (breakMem s pc (decide (i = .none))) (vectorOf i s))
        (breakMem s pc (decide (i = .none)))
        ([rd s.mem a, wr (stk (regS s)) (hi pc), wr (stk (regS s - 1)) (lo pc),
          wr (stk (regS s - 2)) (pack s.P (decide (i = .none)))] ++
          [rd (breakMem s pc (decide (i = .none))) (vectorOf i s), rd (breakMem s pc (decide (i = .none))) (vectorOf i s + 1)]) ∧
      u.intent ≠ .irq := by
  obtain ⟨v, h4, hr, hm, hb, hrc, hin, hl, hn'⟩ := break_pushes h hi' hD
  have hrec : nmiRecognized (low s (v.enter s)) = nmiByStep4 s := by
    show decide (shiftIn v.nmiLatch (v.nmiPrev && !s.pins.nmiN) &&& 0xFFFC ≠ 0) = _
    rw [hl, hn', nmi_at_step4]
  have hin' : (low s (v.enter s)).intent = i := hin
  have hne : (low s (v.enter s)).intent ≠ .reset := by rw [hin']; exact hi'
  have h4' := break_step4 hne
  cases i with
  | reset => exact absurd rfl hi'
  | nmi =>
    rw [show vectorAddr (low s (v.enter s)) = 0xFFFA by rw [vectorAddr, hin'],
      show vectorTake (low s (v.enter s)) = low s (v.enter s) by rw [vectorTake, hin']] at h4'
    exact break_vector (pc := pc) { v.enter s with AD := 0xFFFA, P := { v.P with I := true } } h4 q hj hD hr hm hb hrc rfl
      hin hi' h4'
  | none | irq =>
    have hva : vectorAddr (low s (v.enter s)) = if nmiByStep4 s then 0xFFFA else 0xFFFE := by rw [vectorAddr, hin', ← hrec]
    by_cases hn : nmiByStep4 s = true
    · rw [hva, show vectorTake (low s (v.enter s)) = { low s (v.enter s) with
          nmiLatch := (low s (v.enter s)).nmiLatch &&& 0x3, intent := .nmi } by
        rw [vectorTake, hin']; exact if_pos (hrec.trans hn)] at h4'
      exact break_vector (pc := pc) (i := .nmi)
        { v.enter s with
          AD := _, P := { v.P with I := true }, nmiLatch := (v.enter s).nmiLatch &&& 0x3, intent := .nmi }
        h4 q hj hD hr hm hb hrc rfl rfl (by decide) h4'
    · rw [hva, show vectorTake (low s (v.enter s)) = low s (v.enter s) by
        rw [vectorTake, hin']; exact if_neg (fun e => hn (hrec.symm.trans e))] at h4'
      exact break_vector (pc := pc) { v.enter s with AD := _, P := { v.P with I := true } } h4 q hj hD hr hm hb hrc rfl
        hin hi' h4'

end

theorem own_brk {μ : Micro} (h : op ≠ 0x00 ∨ μ = breakSequence) : ownDispatcher op μ 0x00 = breakSequence := by
  unfold ownDispatcher
  rcases h with h | h
  · exact if_neg (Ne.symm h)
  · rw [h]; exact ite_self _

/-- BRK (R309). -/
theorem brk_retires (r : Ready s) :
    ∃ t, runInstr .brk breakSequence s = .next t ∧
      Retires s t (breakArch .none s) (pushedFrame .none s) (breakBus .none s) ∧ t.intent ≠ .irq := by
  have hop : opcode6502 .brk = some 0x00 := rfl
  have hD := own_brk (op := 0x00) (μ := breakSequence) (Or.inr rfl)
  have h1 : Reaches (ownDispatcher 0x00 breakSequence) s 0x00 0x00 1 7 (View.breakFirst s 0x00 0x00 .none (s.PC + 1 + 1) (s.PC + 1)) :=
    ⟨run_entry r (View.incPC (View.entry s 0x00)) _ (by rw [hD]; rfl) rfl, rfl, rfl⟩
  obtain ⟨u, hu, hret, hint⟩ := break_pushing (i := .none) (pc := s.PC + 1 + 1) (a := s.PC + 1) h1 r.toQuiet r.jammed hD (by decide)
  rw [add_one_one] at hret
  exact ⟨u, (runInstr_ready hop r.phase).trans hu, hret, hint⟩

/-- A hijack, whichever instruction was to run (60_exceptions.md R528). -/
theorem hijack_retires {μ : Micro} {j : Intent} (hop : opcode6502 i = some op) (r : Hijacked s j)
    (hμ : op ≠ 0x00 ∨ μ = breakSequence) :
    ∃ t, runInstr i μ s = .next t ∧
      RetiresWith (if j = .reset then s.rstCnt - 2 else s.rstCnt) s t (breakArch j s) (pushedFrame j s) (breakBus j s) ∧
      t.intent ≠ .irq := by
  have hD := own_brk hμ
  obtain ⟨q, hs, hrw, hjam, hint, hne⟩ := r
  have r : Hijacked s j := ⟨q, hs, hrw, hjam, hint, hne⟩
  subst hint
  have h1 : Reaches (ownDispatcher op μ) s op 0x00 1 7 (View.breakFirst s op 0x00 s.intent s.PC s.PC) :=
    Reaches.firstHijack r hD (fun u => u) View.PC (fun _ => keeps) (by
      show go (match (low s (View.hijack s op)).intent with | .none => _ | .irq | .nmi | .reset => _) = _
      show go (match s.intent with | .none => _ | .irq | .nmi | .reset => _) = _
      cases hh : s.intent with
      | none => exact absurd hh hne
      | irq | nmi | reset => rfl)
  by_cases hres : s.intent = .reset
  · rw [hres] at h1
    obtain ⟨u, hu, hret, hi, -⟩ := break_reset h1 q hjam hD
    refine ⟨u, (runInstr_ready hop q.phase).trans hu, ?_, hi⟩
    rw [if_pos hres, hres]
    exact hret
  · obtain ⟨u, hu, hret, hi⟩ := break_pushing h1 q hjam hD hres
    refine ⟨u, (runInstr_ready hop q.phase).trans hu, ?_, hi⟩
    rw [if_neg hres]
    cases hh : s.intent with
    | none => exact absurd hh hne
    | reset => exact absurd hh hres
    | irq | nmi => rw [hh] at hret; exact hret

end Sys2Proof.Machine
end

