-- ==== Sys2Proof/Laws/Completes.lean ====
section
/-! SUPPORT. The class laws as `Completes` statements: one lemma a class, which an instruction's statement follows from by its
hook's effect on the registers. -/

namespace Sys2Proof.Machine

variable {s : State} {i : Instr} {op : Byte} {m : Mode}

/-- The registers of the state in which a last step is dispatched. -/
theorem regs_eq {w : View} {a : Arch} (h : w.regs = a) :
    w.A = a.A ∧ w.X = a.X ∧ w.Y = a.Y ∧ w.S = a.S ∧ w.PC = a.PC ∧ w.P = a.P :=
  ⟨congrArg Arch.A h, congrArg Arch.X h, congrArg Arch.Y h, congrArg Arch.S h, congrArg Arch.PC h, congrArg Arch.P h⟩

/-- An instruction of the read class, from its hook's effect on the registers. -/
theorem read_completes {hook : Byte → State → State} {a : Arch} (hop : opcode6502 i = some op) (r : Ready s) (hm : m ∈ readModes)
    (he : exec i s = runInstr i (readSeq m hook) s) (hx : ∀ d x, RegsOnly x (hook d x))
    (ha : ∀ w : View, w.regs = { arch s with PC := pcAfter m s } → arch (hook (operandOf m s) (low s w)) = a) :
    Completes i s a s.mem (readBus m s) := by
  obtain ⟨w, t, h1, h2, h3⟩ := read_retires hop r hm hx
  rw [ha w h2] at h3
  exact ⟨t, he.trans h1, h3⟩

/-- An instruction of the implied or accumulator mode, from its hook's effect on the registers. -/
theorem impl_completes {hook : State → State} {a : Arch} (hop : opcode6502 i = some op) (r : Ready s)
    (he : exec i s = runInstr i (implSeq hook) s) (hx : ∀ x, RegsOnly x (hook x))
    (ha : ∀ w : View, w.regs = { arch s with PC := s.PC + 1 } → arch (hook (low s w)) = a) :
    Completes i s a s.mem [rd s.mem (s.PC + 1)] := by
  obtain ⟨w, t, h1, h2, h3⟩ := impl_retires hop r hx
  rw [ha w h2] at h3
  exact ⟨t, he.trans h1, h3⟩

/-- Writes leave every other byte as it was. -/
theorem writeAll_frame (ws : List (Addr × Byte)) : ∀ (mem : Memory) (b : Addr), b ∉ ws.map Prod.fst →
    (writeAll mem ws).read b = mem.read b := by
  induction ws with
  | nil => intros; rfl
  | cons w ws ih =>
    intro mem b hb
    simp only [List.map_cons, List.mem_cons, not_or] at hb
    show (writeAll (mem.write w.1 w.2) ws).read b = _
    rw [ih _ _ hb.2, read_write_other _ _ _ _ hb.1]

/-- A completion that stores leaves every other byte as it was. -/
theorem storing {a : Arch} {ws : List (Addr × Byte)} {bus : List BusCycle}
    (h : Completes i s a (writeAll s.mem ws) bus) : CompletesStoring i s a ws bus := by
  obtain ⟨t, h1, h2⟩ := h
  exact ⟨t, h1, h2, fun b hb => by rw [h2.mem]; exact writeAll_frame ws _ b hb⟩

/-- An instruction of the read-modify-write class, from its `finish` hook's effect on the registers. -/
theorem rmw_completes {f : Byte → Flags → Byte × Flags} {finish : Byte → State → State} {a : Arch}
    (hop : opcode6502 i = some op) (r : Ready s) (hm : m ∈ rmwModes)
    (he : exec i s = runInstr i (rmwSeq m f finish) s) (hx : ∀ d x, RegsOnly x (finish d x))
    (ha : ∀ w : View, w.regs = { arch s with PC := pcAfter m s, P := (f (operandOf m s) s.P).2 } →
      arch (finish (f (operandOf m s) s.P).1 (low s w)) = a) :
    CompletesStoring i s a [(effAddr m s, operandOf m s), (effAddr m s, (f (operandOf m s) s.P).1)]
      (rmwBus m s (f (operandOf m s) s.P).1) := by
  obtain ⟨w, t, h1, h2, h3⟩ := rmw_retires (f := f) hop r hm hx
  rw [ha w h2] at h3
  exact storing ⟨t, he.trans h1, h3⟩

/-- An instruction of the write class, from what its write step stores and its last step's effect on the registers. -/
theorem write_completes {store fin : State → State} {ad : View → Addr} {vl : View → Byte} {a : Arch} {ea : Addr} {v : Byte}
    (hop : opcode6502 i = some op) (r : Ready s) (hm : m ∈ writeModes)
    (he : exec i s = runInstr i (writeSeq m store fin) s)
    (hst : ∀ u, store (low s u) = busWrite (ad u) (vl u) (low s (u.toAD (ad u)))) (hx : ∀ x, RegsOnly x (fin x))
    (hu : ∀ u, AtWrite m s u → ad u = ea ∧ vl u = v)
    (ha : ∀ w : View, w.regs = { arch s with PC := pcAfter m s } → arch (fin (low s w)) = a) :
    CompletesStoring i s a [(ea, v)] (writeBus m s ea v) := by
  obtain ⟨u, w, t, h1, hau, h2, h3⟩ := write_retires hop r hm hst hx
  rw [ha w h2, (hu u hau).1, (hu u hau).2] at h3
  exact storing ⟨t, he.trans h1, h3⟩


end Sys2Proof.Machine
end

