-- ==== Sys2Proof/Laws/Decode.lean ====
section
/-! SUPPORT. What decoding a list of 6502 bytes can answer: the term of the opcode, with the instruction's whole length taken
off (30_encoding.md R84), or a rejection of a list that is too short. -/

namespace Sys2Proof

@[simp] theorem length6502_eq (op : Byte) : length6502 op = 1 + (decode6502 op).operandBytes := rfl

theorem Instr.operandBytes_of_mode {i : Instr} {m : Mode} (h : i.mode = some m) : i.operandBytes = m.operandBytes := by
  simp [Instr.operandBytes, h]

theorem Mode.operandBytes_le (m : Mode) : m.operandBytes ≤ 2 := by cases m <;> decide

theorem Instr.operandBytes_le (i : Instr) : i.operandBytes ≤ 2 := by
  unfold Instr.operandBytes
  split
  · exact Mode.operandBytes_le _
  · decide

/-- A 6502 instruction is 1 to 3 bytes long (R80). -/
theorem length6502_bounds (op : Byte) : 1 ≤ length6502 op ∧ length6502 op ≤ 3 := by
  have := (decode6502 op).operandBytes_le
  rw [length6502_eq]; omega

/-- An opcode followed by its operand bytes decodes, whatever follows them. -/
theorem decodeBytes6502_append {op : Byte} {operands : List Byte} (rest : List Byte)
    (h : operands.length = (decode6502 op).operandBytes) :
    decodeBytes6502 (op :: operands ++ rest) = .instr (decode6502 op) rest := by
  have hl : length6502 op ≤ (operands ++ rest).length + 1 := by simp [← h]; omega
  have hd : length6502 op - 1 = operands.length := by simp [h]
  simp only [List.cons_append, decodeBytes6502, if_pos hl, hd, List.drop_left]

/-- Whatever decodes is an opcode, its operand bytes and the rest. -/
theorem decodeBytes6502_eq_instr {bytes rest : List Byte} {i : Instr} (h : decodeBytes6502 bytes = .instr i rest) :
    ∃ op operands, i = decode6502 op ∧ operands.length = i.operandBytes ∧ bytes = op :: operands ++ rest := by
  cases bytes with
  | nil => cases h
  | cons op tail =>
    by_cases hl : length6502 op ≤ tail.length + 1
    · rw [decodeBytes6502, if_pos hl] at h
      cases h
      refine ⟨op, tail.take (length6502 op - 1), rfl, ?_, ?_⟩
      · rw [List.length_take]
        rw [length6502_eq] at *
        omega
      · rw [List.cons_append, List.take_append_drop]
    · rw [decodeBytes6502, if_neg hl] at h
      cases h

/-- A list that ends inside an operand is rejected by name. -/
theorem decodeBytes6502_truncated {op : Byte} {tail : List Byte} (h : tail.length + 1 < length6502 op) :
    decodeBytes6502 (op :: tail) = .rejected (.truncated op) := if_neg (by omega)

end Sys2Proof
end

