-- ==== Sys2Proof/Laws/PerInstr.lean ====
section
/-! SUPPORT. The family `Encoding`, one lemma a constructor: every well-formed instruction has an encoding, and the decoder
of its instruction set reads it back from exactly those bytes (30_encoding.md R80, R92; 48_i8080.md R431, R434). -/

namespace Sys2Proof.Laws.Encoding

open Sys2Proof Sys2Proof.Machine

/-- A well-formed instruction is what its own bytes decode to, with no byte left: those that its term determines, followed by
any operand bytes that its term does not carry. -/
def Statement (i : Instr) : Prop :=
  i.wf = true → ∃ p bytes, i.isFor p = true ∧ encode i = some bytes ∧
    ∀ operands : List Byte, operands.length = i.operandBytes → decode p (bytes ++ operands) = .instr i []

theorem operand16_with16 (a : Addr) : operand16 (a.extractLsb' 0 8) (a.extractLsb' 8 8) = a := cat_hi_lo a

/-- A 6502 instruction, from its opcode. -/
theorem of_opcode {i : Instr} {op : Byte} (ho : opcode6502 i = some op) (hd : decode6502 op = i) : Statement i := by
  intro _
  refine ⟨.mos6502, [op], ?_, ?_, fun operands h => ?_⟩
  · simp [Instr.isFor, ho]
  · simp [encode, ho]
  · have := decodeBytes6502_append (op := op) (operands := operands) [] (by rw [hd]; exact h)
    rw [List.append_nil, hd] at this
    exact this

/-- An 8080 instruction, from its bytes. -/
theorem of_bytes {i : Instr} {bytes : List Byte} (ho : opcode6502 i = none) (he : encode8080 i = some bytes)
    (hn : i.mode = none) (hd : decodeBytes8080 bytes = .instr i []) : Statement i := by
  intro _
  refine ⟨.i8080, bytes, ?_, ?_, fun operands h => ?_⟩
  · simp [Instr.isFor, he]
  · simp [encode, ho, he]
  · have h0 : operands = [] := List.eq_nil_of_length_eq_zero (h.trans (by simp [Instr.operandBytes, hn]))
    rw [h0, List.append_nil]
    exact hd

/-- A three-byte 8080 instruction, from its opcode. -/
theorem of_with16 {i : Instr} {op : Byte} {f : Addr → Instr} (a : Addr) (hi : f a = i) (ho : opcode6502 i = none)
    (he : encode8080 i = some (with16 op a)) (hn : i.mode = none) (hl : length8080 op = 3)
    (hd : ∀ x y, decode8080 op x y = f (operand16 x y)) : Statement i :=
  of_bytes ho he hn (by simp [with16, decodeBytes8080, hl, hd, operand16_with16, hi])

/-- A two-byte 8080 instruction, from its opcode. -/
theorem of_byte {i : Instr} {op v : Byte} {f : Byte → Instr} (hi : f v = i) (ho : opcode6502 i = none)
    (he : encode8080 i = some [op, v]) (hn : i.mode = none) (hl : length8080 op = 2)
    (hd : ∀ x, decode8080 op x 0 = f x) : Statement i := by
  have h2 : decode8080 op v 0#8 = i := (hd v).trans hi
  exact of_bytes ho he hn (by simp [decodeBytes8080, hl, h2])

theorem lda (m : Mode) : Statement (.lda m) := by
  intro h; cases m <;> first | exact of_opcode rfl rfl ‹_› | exact absurd h (by decide)

theorem ldx (m : Mode) : Statement (.ldx m) := by
  intro h; cases m <;> first | exact of_opcode rfl rfl ‹_› | exact absurd h (by decide)

theorem ldy (m : Mode) : Statement (.ldy m) := by
  intro h; cases m <;> first | exact of_opcode rfl rfl ‹_› | exact absurd h (by decide)

theorem sta (m : Mode) : Statement (.sta m) := by
  intro h; cases m <;> first | exact of_opcode rfl rfl ‹_› | exact absurd h (by decide)

theorem stx (m : Mode) : Statement (.stx m) := by
  intro h; cases m <;> first | exact of_opcode rfl rfl ‹_› | exact absurd h (by decide)

theorem sty (m : Mode) : Statement (.sty m) := by
  intro h; cases m <;> first | exact of_opcode rfl rfl ‹_› | exact absurd h (by decide)

theorem tax : Statement .tax := of_opcode rfl rfl

theorem tay : Statement .tay := of_opcode rfl rfl

theorem txa : Statement .txa := of_opcode rfl rfl

theorem tya : Statement .tya := of_opcode rfl rfl

theorem tsx : Statement .tsx := of_opcode rfl rfl

theorem txs : Statement .txs := of_opcode rfl rfl

theorem adc (m : Mode) : Statement (.adc m) := by
  intro h; cases m <;> first | exact of_opcode rfl rfl ‹_› | exact absurd h (by decide)

theorem sbc (m : Mode) : Statement (.sbc m) := by
  intro h; cases m <;> first | exact of_opcode rfl rfl ‹_› | exact absurd h (by decide)

theorem and (m : Mode) : Statement (.and m) := by
  intro h; cases m <;> first | exact of_opcode rfl rfl ‹_› | exact absurd h (by decide)

theorem ora (m : Mode) : Statement (.ora m) := by
  intro h; cases m <;> first | exact of_opcode rfl rfl ‹_› | exact absurd h (by decide)

theorem eor (m : Mode) : Statement (.eor m) := by
  intro h; cases m <;> first | exact of_opcode rfl rfl ‹_› | exact absurd h (by decide)

theorem cmp (m : Mode) : Statement (.cmp m) := by
  intro h; cases m <;> first | exact of_opcode rfl rfl ‹_› | exact absurd h (by decide)

theorem cpx (m : Mode) : Statement (.cpx m) := by
  intro h; cases m <;> first | exact of_opcode rfl rfl ‹_› | exact absurd h (by decide)

theorem cpy (m : Mode) : Statement (.cpy m) := by
  intro h; cases m <;> first | exact of_opcode rfl rfl ‹_› | exact absurd h (by decide)

theorem bit (m : Mode) : Statement (.bit m) := by
  intro h; cases m <;> first | exact of_opcode rfl rfl ‹_› | exact absurd h (by decide)

theorem asl (m : Mode) : Statement (.asl m) := by
  intro h; cases m <;> first | exact of_opcode rfl rfl ‹_› | exact absurd h (by decide)

theorem lsr (m : Mode) : Statement (.lsr m) := by
  intro h; cases m <;> first | exact of_opcode rfl rfl ‹_› | exact absurd h (by decide)

theorem rol (m : Mode) : Statement (.rol m) := by
  intro h; cases m <;> first | exact of_opcode rfl rfl ‹_› | exact absurd h (by decide)

theorem ror (m : Mode) : Statement (.ror m) := by
  intro h; cases m <;> first | exact of_opcode rfl rfl ‹_› | exact absurd h (by decide)

theorem inc (m : Mode) : Statement (.inc m) := by
  intro h; cases m <;> first | exact of_opcode rfl rfl ‹_› | exact absurd h (by decide)

theorem dec (m : Mode) : Statement (.dec m) := by
  intro h; cases m <;> first | exact of_opcode rfl rfl ‹_› | exact absurd h (by decide)

theorem inx : Statement .inx := of_opcode rfl rfl

theorem iny : Statement .iny := of_opcode rfl rfl

theorem dex : Statement .dex := of_opcode rfl rfl

theorem dey : Statement .dey := of_opcode rfl rfl

theorem bpl : Statement .bpl := of_opcode rfl rfl

theorem bmi : Statement .bmi := of_opcode rfl rfl

theorem bvc : Statement .bvc := of_opcode rfl rfl

theorem bvs : Statement .bvs := of_opcode rfl rfl

theorem bcc : Statement .bcc := of_opcode rfl rfl

theorem bcs : Statement .bcs := of_opcode rfl rfl

theorem bne : Statement .bne := of_opcode rfl rfl

theorem beq : Statement .beq := of_opcode rfl rfl

theorem jmp (m : Mode) : Statement (.jmp m) := by
  intro h; cases m <;> first | exact of_opcode rfl rfl ‹_› | exact absurd h (by decide)

theorem jsr : Statement .jsr := of_opcode rfl rfl

theorem rts : Statement .rts := of_opcode rfl rfl

theorem rti : Statement .rti := of_opcode rfl rfl

theorem brk : Statement .brk := of_opcode rfl rfl

theorem pha : Statement .pha := of_opcode rfl rfl

theorem php : Statement .php := of_opcode rfl rfl

theorem pla : Statement .pla := of_opcode rfl rfl

theorem plp : Statement .plp := of_opcode rfl rfl

theorem clc : Statement .clc := of_opcode rfl rfl

theorem sec : Statement .sec := of_opcode rfl rfl

theorem cli : Statement .cli := of_opcode rfl rfl

theorem sei : Statement .sei := of_opcode rfl rfl

theorem cld : Statement .cld := of_opcode rfl rfl

theorem sed : Statement .sed := of_opcode rfl rfl

theorem clv : Statement .clv := of_opcode rfl rfl

theorem nop : Statement .nop := of_opcode rfl rfl

theorem slo (m : Mode) : Statement (.slo m) := by
  intro h; cases m <;> first | exact of_opcode rfl rfl ‹_› | exact absurd h (by decide)

theorem rla (m : Mode) : Statement (.rla m) := by
  intro h; cases m <;> first | exact of_opcode rfl rfl ‹_› | exact absurd h (by decide)

theorem sre (m : Mode) : Statement (.sre m) := by
  intro h; cases m <;> first | exact of_opcode rfl rfl ‹_› | exact absurd h (by decide)

theorem rra (m : Mode) : Statement (.rra m) := by
  intro h; cases m <;> first | exact of_opcode rfl rfl ‹_› | exact absurd h (by decide)

theorem dcp (m : Mode) : Statement (.dcp m) := by
  intro h; cases m <;> first | exact of_opcode rfl rfl ‹_› | exact absurd h (by decide)

theorem isc (m : Mode) : Statement (.isc m) := by
  intro h; cases m <;> first | exact of_opcode rfl rfl ‹_› | exact absurd h (by decide)

theorem sax (m : Mode) : Statement (.sax m) := by
  intro h; cases m <;> first | exact of_opcode rfl rfl ‹_› | exact absurd h (by decide)

theorem lax (m : Mode) : Statement (.lax m) := by
  intro h; cases m <;> first | exact of_opcode rfl rfl ‹_› | exact absurd h (by decide)

theorem anc (dup : Bool) : Statement (.anc dup) := by
  intro _; cases dup <;> exact of_opcode rfl rfl ‹_›

theorem alr : Statement .alr := of_opcode rfl rfl

theorem arr : Statement .arr := of_opcode rfl rfl

theorem sbx : Statement .sbx := of_opcode rfl rfl

theorem sbcDup : Statement .sbcDup := of_opcode rfl rfl

theorem las : Statement .las := of_opcode rfl rfl

theorem nopU (m : Mode) (k : Fin 6) : Statement (.nopU m k) := by
  intro h
  have h : k.val < nopUCount m := by simpa [Instr.wf] using h
  obtain ⟨k, hk⟩ := k
  cases m <;> simp only [nopUCount] at h <;> first
    | omega
    | (rcases k with _ | _ | _ | _ | _ | _ | k <;> first
        | omega
        | exact of_opcode rfl rfl ‹_›)

theorem ane : Statement .ane := of_opcode rfl rfl

theorem lxa : Statement .lxa := of_opcode rfl rfl

theorem sha (m : Mode) : Statement (.sha m) := by
  intro h; cases m <;> first | exact of_opcode rfl rfl ‹_› | exact absurd h (by decide)

theorem shx : Statement .shx := of_opcode rfl rfl

theorem shy : Statement .shy := of_opcode rfl rfl

theorem tas : Statement .tas := of_opcode rfl rfl

theorem jam (k : Fin 12) : Statement (.jam k) := by
  intro _
  obtain ⟨k, hk⟩ := k
  rcases k with _ | _ | _ | _ | _ | _ | _ | _ | _ | _ | _ | _ | k <;> first
    | omega
    | exact of_opcode rfl rfl ‹_›

theorem i80Mov (d : Reg8) (s : Reg8) : Statement (.i80Mov d s) := by
  intro h; cases d <;> cases s <;> first | exact of_bytes rfl rfl rfl rfl ‹_› | exact absurd h (by decide)

theorem i80Mvi (d : Reg8) (v : Byte) : Statement (.i80Mvi d v) := by
  cases d <;> exact of_byte (f := .i80Mvi _) rfl rfl rfl rfl rfl fun _ => rfl

theorem i80Lxi (rp : RegPair) (v : Addr) : Statement (.i80Lxi rp v) := by
  cases rp <;> exact of_with16 (f := .i80Lxi _) v rfl rfl rfl rfl rfl fun _ _ => rfl

theorem i80Lda (a : Addr) : Statement (.i80Lda a) := of_with16 (f := .i80Lda) a rfl rfl rfl rfl rfl fun _ _ => rfl

theorem i80Sta (a : Addr) : Statement (.i80Sta a) := of_with16 (f := .i80Sta) a rfl rfl rfl rfl rfl fun _ _ => rfl

theorem i80Lhld (a : Addr) : Statement (.i80Lhld a) := of_with16 (f := .i80Lhld) a rfl rfl rfl rfl rfl fun _ _ => rfl

theorem i80Shld (a : Addr) : Statement (.i80Shld a) := of_with16 (f := .i80Shld) a rfl rfl rfl rfl rfl fun _ _ => rfl

theorem i80Ldax (p : IndexPair) : Statement (.i80Ldax p) := by
  intro _; cases p <;> exact of_bytes rfl rfl rfl rfl ‹_›

theorem i80Stax (p : IndexPair) : Statement (.i80Stax p) := by
  intro _; cases p <;> exact of_bytes rfl rfl rfl rfl ‹_›

theorem i80Xchg : Statement .i80Xchg := of_bytes rfl rfl rfl rfl

theorem i80Add (s : Reg8) : Statement (.i80Add s) := by
  intro _; cases s <;> exact of_bytes rfl rfl rfl rfl ‹_›

theorem i80Adc (s : Reg8) : Statement (.i80Adc s) := by
  intro _; cases s <;> exact of_bytes rfl rfl rfl rfl ‹_›

theorem i80Adi (v : Byte) : Statement (.i80Adi v) := of_byte (f := .i80Adi) rfl rfl rfl rfl rfl fun _ => rfl

theorem i80Aci (v : Byte) : Statement (.i80Aci v) := of_byte (f := .i80Aci) rfl rfl rfl rfl rfl fun _ => rfl

theorem i80Sub (s : Reg8) : Statement (.i80Sub s) := by
  intro _; cases s <;> exact of_bytes rfl rfl rfl rfl ‹_›

theorem i80Sbb (s : Reg8) : Statement (.i80Sbb s) := by
  intro _; cases s <;> exact of_bytes rfl rfl rfl rfl ‹_›

theorem i80Sui (v : Byte) : Statement (.i80Sui v) := of_byte (f := .i80Sui) rfl rfl rfl rfl rfl fun _ => rfl

theorem i80Sbi (v : Byte) : Statement (.i80Sbi v) := of_byte (f := .i80Sbi) rfl rfl rfl rfl rfl fun _ => rfl

theorem i80Inr (d : Reg8) : Statement (.i80Inr d) := by
  intro _; cases d <;> exact of_bytes rfl rfl rfl rfl ‹_›

theorem i80Dcr (d : Reg8) : Statement (.i80Dcr d) := by
  intro _; cases d <;> exact of_bytes rfl rfl rfl rfl ‹_›

theorem i80Inx (rp : RegPair) : Statement (.i80Inx rp) := by
  intro _; cases rp <;> exact of_bytes rfl rfl rfl rfl ‹_›

theorem i80Dcx (rp : RegPair) : Statement (.i80Dcx rp) := by
  intro _; cases rp <;> exact of_bytes rfl rfl rfl rfl ‹_›

theorem i80Dad (rp : RegPair) : Statement (.i80Dad rp) := by
  intro _; cases rp <;> exact of_bytes rfl rfl rfl rfl ‹_›

theorem i80Daa : Statement .i80Daa := of_bytes rfl rfl rfl rfl

theorem i80Ana (s : Reg8) : Statement (.i80Ana s) := by
  intro _; cases s <;> exact of_bytes rfl rfl rfl rfl ‹_›

theorem i80Ani (v : Byte) : Statement (.i80Ani v) := of_byte (f := .i80Ani) rfl rfl rfl rfl rfl fun _ => rfl

theorem i80Xra (s : Reg8) : Statement (.i80Xra s) := by
  intro _; cases s <;> exact of_bytes rfl rfl rfl rfl ‹_›

theorem i80Xri (v : Byte) : Statement (.i80Xri v) := of_byte (f := .i80Xri) rfl rfl rfl rfl rfl fun _ => rfl

theorem i80Ora (s : Reg8) : Statement (.i80Ora s) := by
  intro _; cases s <;> exact of_bytes rfl rfl rfl rfl ‹_›

theorem i80Ori (v : Byte) : Statement (.i80Ori v) := of_byte (f := .i80Ori) rfl rfl rfl rfl rfl fun _ => rfl

theorem i80Cmp (s : Reg8) : Statement (.i80Cmp s) := by
  intro _; cases s <;> exact of_bytes rfl rfl rfl rfl ‹_›

theorem i80Cpi (v : Byte) : Statement (.i80Cpi v) := of_byte (f := .i80Cpi) rfl rfl rfl rfl rfl fun _ => rfl

theorem i80Rlc : Statement .i80Rlc := of_bytes rfl rfl rfl rfl

theorem i80Rrc : Statement .i80Rrc := of_bytes rfl rfl rfl rfl

theorem i80Ral : Statement .i80Ral := of_bytes rfl rfl rfl rfl

theorem i80Rar : Statement .i80Rar := of_bytes rfl rfl rfl rfl

theorem i80Cma : Statement .i80Cma := of_bytes rfl rfl rfl rfl

theorem i80Cmc : Statement .i80Cmc := of_bytes rfl rfl rfl rfl

theorem i80Stc : Statement .i80Stc := of_bytes rfl rfl rfl rfl

theorem i80Jmp (dup : Bool) (a : Addr) : Statement (.i80Jmp dup a) := by
  cases dup <;> exact of_with16 (f := .i80Jmp _) a rfl rfl rfl rfl rfl fun _ _ => rfl

theorem i80Jnz (a : Addr) : Statement (.i80Jnz a) := of_with16 (f := .i80Jnz) a rfl rfl rfl rfl rfl fun _ _ => rfl

theorem i80Jz (a : Addr) : Statement (.i80Jz a) := of_with16 (f := .i80Jz) a rfl rfl rfl rfl rfl fun _ _ => rfl

theorem i80Jnc (a : Addr) : Statement (.i80Jnc a) := of_with16 (f := .i80Jnc) a rfl rfl rfl rfl rfl fun _ _ => rfl

theorem i80Jc (a : Addr) : Statement (.i80Jc a) := of_with16 (f := .i80Jc) a rfl rfl rfl rfl rfl fun _ _ => rfl

theorem i80Jpo (a : Addr) : Statement (.i80Jpo a) := of_with16 (f := .i80Jpo) a rfl rfl rfl rfl rfl fun _ _ => rfl

theorem i80Jpe (a : Addr) : Statement (.i80Jpe a) := of_with16 (f := .i80Jpe) a rfl rfl rfl rfl rfl fun _ _ => rfl

theorem i80Jp (a : Addr) : Statement (.i80Jp a) := of_with16 (f := .i80Jp) a rfl rfl rfl rfl rfl fun _ _ => rfl

theorem i80Jm (a : Addr) : Statement (.i80Jm a) := of_with16 (f := .i80Jm) a rfl rfl rfl rfl rfl fun _ _ => rfl

theorem i80Call (k : BitVec 2) (a : Addr) : Statement (.i80Call k a) := by
  have hk : k = 0 ∨ k = 1 ∨ k = 2 ∨ k = 3 := by revert k; decide
  rcases hk with rfl | rfl | rfl | rfl <;> exact of_with16 (f := .i80Call _) a rfl rfl rfl rfl rfl fun _ _ => rfl

theorem i80Cnz (a : Addr) : Statement (.i80Cnz a) := of_with16 (f := .i80Cnz) a rfl rfl rfl rfl rfl fun _ _ => rfl

theorem i80Cz (a : Addr) : Statement (.i80Cz a) := of_with16 (f := .i80Cz) a rfl rfl rfl rfl rfl fun _ _ => rfl

theorem i80Cnc (a : Addr) : Statement (.i80Cnc a) := of_with16 (f := .i80Cnc) a rfl rfl rfl rfl rfl fun _ _ => rfl

theorem i80Cc (a : Addr) : Statement (.i80Cc a) := of_with16 (f := .i80Cc) a rfl rfl rfl rfl rfl fun _ _ => rfl

theorem i80Cpo (a : Addr) : Statement (.i80Cpo a) := of_with16 (f := .i80Cpo) a rfl rfl rfl rfl rfl fun _ _ => rfl

theorem i80Cpe (a : Addr) : Statement (.i80Cpe a) := of_with16 (f := .i80Cpe) a rfl rfl rfl rfl rfl fun _ _ => rfl

theorem i80Cp (a : Addr) : Statement (.i80Cp a) := of_with16 (f := .i80Cp) a rfl rfl rfl rfl rfl fun _ _ => rfl

theorem i80Cm (a : Addr) : Statement (.i80Cm a) := of_with16 (f := .i80Cm) a rfl rfl rfl rfl rfl fun _ _ => rfl

theorem i80Ret (dup : Bool) : Statement (.i80Ret dup) := by
  intro _; cases dup <;> exact of_bytes rfl rfl rfl rfl ‹_›

theorem i80Rnz : Statement .i80Rnz := of_bytes rfl rfl rfl rfl

theorem i80Rz : Statement .i80Rz := of_bytes rfl rfl rfl rfl

theorem i80Rnc : Statement .i80Rnc := of_bytes rfl rfl rfl rfl

theorem i80Rc : Statement .i80Rc := of_bytes rfl rfl rfl rfl

theorem i80Rpo : Statement .i80Rpo := of_bytes rfl rfl rfl rfl

theorem i80Rpe : Statement .i80Rpe := of_bytes rfl rfl rfl rfl

theorem i80Rp : Statement .i80Rp := of_bytes rfl rfl rfl rfl

theorem i80Rm : Statement .i80Rm := of_bytes rfl rfl rfl rfl

theorem i80Rst (n : BitVec 3) : Statement (.i80Rst n) := by
  intro _
  have hk : n = 0 ∨ n = 1 ∨ n = 2 ∨ n = 3 ∨ n = 4 ∨ n = 5 ∨ n = 6 ∨ n = 7 := by
    revert n; decide
  rcases hk with rfl | rfl | rfl | rfl | rfl | rfl | rfl | rfl <;> exact of_bytes rfl rfl rfl rfl ‹_›

theorem i80Pchl : Statement .i80Pchl := of_bytes rfl rfl rfl rfl

theorem i80Push (p : StackPair) : Statement (.i80Push p) := by
  intro _; cases p <;> exact of_bytes rfl rfl rfl rfl ‹_›

theorem i80Pop (p : StackPair) : Statement (.i80Pop p) := by
  intro _; cases p <;> exact of_bytes rfl rfl rfl rfl ‹_›

theorem i80Xthl : Statement .i80Xthl := of_bytes rfl rfl rfl rfl

theorem i80Sphl : Statement .i80Sphl := of_bytes rfl rfl rfl rfl

theorem i80In (p : Byte) : Statement (.i80In p) := of_byte (f := .i80In) rfl rfl rfl rfl rfl fun _ => rfl

theorem i80Out (p : Byte) : Statement (.i80Out p) := of_byte (f := .i80Out) rfl rfl rfl rfl rfl fun _ => rfl

theorem i80Ei : Statement .i80Ei := of_bytes rfl rfl rfl rfl

theorem i80Di : Statement .i80Di := of_bytes rfl rfl rfl rfl

theorem i80Hlt : Statement .i80Hlt := of_bytes rfl rfl rfl rfl

theorem i80Nop (k : BitVec 3) : Statement (.i80Nop k) := by
  intro _
  have hk : k = 0 ∨ k = 1 ∨ k = 2 ∨ k = 3 ∨ k = 4 ∨ k = 5 ∨ k = 6 ∨ k = 7 := by
    revert k; decide
  rcases hk with rfl | rfl | rfl | rfl | rfl | rfl | rfl | rfl <;> exact of_bytes rfl rfl rfl rfl ‹_›

end Sys2Proof.Laws.Encoding
end

