-- ==== Sys2Proof/Laws/Whole.lean ====
section
/-! SUPPORT. How `step` comes to an instruction's own run: the meaning of each 6502 instruction is the run of its microcode, the
decoder is the encoder's inverse on opcodes, and the opcode on the data pins is the one that the run loads. -/

namespace Sys2Proof.Machine

variable {s : State}

/-- The meaning of every 6502 instruction is the run of its microcode. -/
theorem exec_eq_run {i : Instr} {op : Byte} (h : opcode6502 i = some op) (s : State) : exec i s = runInstr i (microOf i) s := by
  cases i <;> first | rfl | exact absurd h.symm (Option.some_ne_none _)

theorem opcode_decode_all : ∀ n : Fin (2 ^ 8), opcode6502 (decode6502 (BitVec.ofFin n)) = some (BitVec.ofFin n) := by
  decide +kernel

/-- Every byte is the opcode of the instruction it decodes to (30_encoding.md R88, R92). -/
theorem opcode_decode (d : Byte) : opcode6502 (decode6502 d) = some d := opcode_decode_all d.toFin

/-- The microcode of the opcode 0x00 is the break sequence (45_control.md R309). -/
theorem microOf_zero : microOf (decode6502 0x00) = breakSequence := rfl

/-- The opcode the engine goes on with. -/
def currentOp (s : State) : Byte := if s.pins.sync then s.pins.data else s.IR

theorem current_eq (s : State) : current6502 s = decode6502 (currentOp s) := by
  unfold current6502 currentOp; split <;> rfl

/-- A step of a 6502-family instance is the run of the microcode of the opcode it goes on with. -/
theorem step_eq_run (h : s.proc ≠ .i8080) :
    step s = runInstr (decode6502 (currentOp s)) (microOf (decode6502 (currentOp s))) s := by
  have : step s = step6502 s := by unfold step; cases hp : s.proc <;> first | rfl | exact absurd hp h
  rw [this, step6502, current_eq, exec_eq_run (opcode_decode _)]

/-- The microcode of the current opcode beside that of a hijack, as `own_brk` asks. -/
theorem current_micro (op : Byte) : op ≠ 0x00 ∨ microOf (decode6502 op) = breakSequence := by
  by_cases h : op = 0x00
  · exact Or.inr (h ▸ microOf_zero)
  · exact Or.inl h

/-- The opcode that is on the data pins already is supplied by nothing. -/
theorem supply_current (s : State) : supplyOpcode (currentOp s) s = s := by
  unfold supplyOpcode currentOp
  split <;> rfl

/-- A step of a 6502-family instance whose phase is high is a run of bus cycles on the current opcode's own dispatcher. -/
theorem step_eq_runCycles (hp : s.proc ≠ .i8080) (hph : s.phase = true) :
    step s = runCycles (ownDispatcher (currentOp s) (microOf (decode6502 (currentOp s)))) longestRun (clearTrace s) := by
  rw [step_eq_run hp, runInstr_ready (opcode_decode _) hph, supply_current]

end Sys2Proof.Machine
end

