-- ==== Sys2Proof/Tests/Slice0.lean ====
section
/-! SUPPORT. Tests of single steps, decoded words and ill-formed terms, and a witness for the hypotheses of every statement
that has any. Every expected value is a vector of spec/95_test_vectors.md or an example of the rule its comment names; none is
the model's own answer. -/

namespace Sys2Proof.Tests

open Sys2Proof Sys2Proof.Machine

/-! ### Small states -/

/-- Six flags, each 0 or 1, in the order of spec/95_test_vectors.md: N V D I Z C. -/
def flags (n v d i z c : Nat) : Flags :=
  { C := c == 1, Z := z == 1, I := i == 1, D := d == 1, V := v == 1, N := n == 1 }

/-- A 6502 at an instruction boundary, the code at its PC and some cells of memory given. -/
def at6502 (pc : Addr) (a x y s : Byte) (p : Flags) (code : List Byte) (cells : List (Addr × Byte)) : State :=
  place6502 code { State.reset with A := a, X := x, Y := y, S := s, P := p, PC := pc, mem := writeAll [] cells }

/-- `at6502` with the code at 0x0600, as the vectors have it. -/
def at06 (a x y s : Byte) (p : Flags) (code : List Byte) (cells : List (Addr × Byte)) : State :=
  at6502 0x0600 a x y s p code cells

/-- What the vectors list of an instruction's end: the registers, the flags, the bus writes in order and the bus cycles. -/
structure End where
  A : Byte
  X : Byte
  Y : Byte
  S : Byte
  PC : Addr
  P : Flags
  writes : List (Addr × Byte)
  cycles : Nat
deriving DecidableEq, Repr

/-- The end of an instruction. -/
def ends : Outcome → Option End
  | .next t => some ⟨regA t, regX t, regY t, regS t, t.PC, t.P,
      (t.trace.filter (fun c => !c.rw)).map (fun c => (c.addr, c.data)), t.trace.length⟩
  | .fault _ => none
  | .refused _ => none

/-- The 8080's flags. -/
structure Flags80 where
  S : Bool
  Z : Bool
  AC : Bool
  P : Bool
  CY : Bool
deriving DecidableEq, Repr

/-- Five flags, each 0 or 1: S Z AC P CY. -/
def flags80 (s z ac p cy : Nat) : Flags80 := ⟨s == 1, z == 1, ac == 1, p == 1, cy == 1⟩

/-- An 8080 with the code at its PC and some cells of memory given. -/
def at8080 (a : Byte) (bc de hl sp pc : Addr) (f : Flags80) (code : List Byte)
    (cells : List (Addr × Byte)) : State :=
  place8080 code { State.reset with
    proc := .i8080
    mem := writeAll [] cells
    i80 := { I8080.reset with
      A := a, B := hi bc, C := lo bc, D := hi de, E := lo de, H := hi hl, L := lo hl, SP := sp, PC := pc
      fS := f.S, fZ := f.Z, fAC := f.AC, fP := f.P, fCY := f.CY } }

/-- What the vectors list of an 8080 step's end: the registers, the flags, and the bytes at the addresses written. -/
structure End80 where
  A : Byte
  BC : Addr
  DE : Addr
  HL : Addr
  SP : Addr
  PC : Addr
  F : Flags80
  bytes : List (Addr × Byte)
deriving DecidableEq, Repr

/-- The end of an 8080 step, with the bytes at some addresses. -/
def ends80 (as : List Addr) : Outcome → Option End80
  | .next t =>
    let c := t.i80
    some ⟨c.A, cat c.B c.C, cat c.D c.E, cat c.H c.L, c.SP, c.PC, ⟨c.fS, c.fZ, c.fAC, c.fP, c.fCY⟩,
      as.map (fun a => (a, t.mem.read a))⟩
  | .fault _ => none
  | .refused _ => none

/-- A fact about the next state. -/
def leaves (p : State → Bool) : Outcome → Bool
  | .next t => p t
  | .fault _ => false
  | .refused _ => false

/-! ### WellFormed: an ill-formed term for each check -/

/-- A mode that the rule of the mnemonic does not list (42_load_store.md, 43_alu.md, 44_rmw.md, 45_control.md). -/
theorem test_ill_formed_documented :
    [Instr.lda .impl, .ldx .zpx, .ldy .zpy, .sta .imm, .stx .zpx, .sty .zpy, .adc .zpy, .sbc .acc, .and .ind, .ora .impl,
      .eor .zpy, .cmp .rel, .cpx .zpx, .cpy .absx, .bit .imm, .asl .izx, .lsr .absy, .rol .imm, .ror .zpy, .inc .acc,
      .dec .absy, .jmp .zp].all (fun i => !i.wf) = true := by decide

/-- The same of 47_illegal.md, and MOV M,M (48_i8080.md R440). -/
theorem test_ill_formed_others :
    [Instr.slo .imm, .rla .acc, .sre .zpy, .rra .imm, .dcp .impl, .isc .zpy, .sax .absx, .lax .imm, .sha .absx,
      .nopU .zp 3, .nopU .imm 5, .nopU .abs 1, .nopU .absy 0, .i80Mov .m .m].all (fun i => !i.wf) = true := by decide

/-- Each check admits a term, at a boundary of its list. -/
theorem test_well_formed :
    [Instr.lda .izy, .ldx .absy, .ldy .absx, .sta .izy, .stx .abs, .sty .abs, .cpx .abs, .bit .abs, .asl .acc, .inc .absx,
      .jmp .ind, .slo .absx, .sax .zpy, .lax .absy, .sha .izy, .nopU .zp 2, .nopU .absx 5, .i80Mov .m .a, .i80Mov .a .m].all
      Instr.wf = true := by decide

/-! ### Decoding: a word of every constructor, from the opcode map of 30_encoding.md R92 and the rules of 48 and 49 -/

/-- 42_load_store.md R201 to R212. -/
theorem test_decode_load_store :
    [0xA9, 0xB6, 0xBC, 0x91, 0x96, 0x94, 0xAA, 0xA8, 0x8A, 0x98, 0xBA, 0x9A].map decode6502 =
      [.lda .imm, .ldx .zpy, .ldy .absx, .sta .izy, .stx .zpy, .sty .zpx, .tax, .tay, .txa, .tya, .tsx, .txs] := by decide

/-- 43_alu.md R240 to R248. -/
theorem test_decode_alu :
    [0x61, 0xF1, 0x35, 0x19, 0x5D, 0xC1, 0xEC, 0xC4, 0x2C].map decode6502 =
      [.adc .izx, .sbc .izy, .and .zpx, .ora .absy, .eor .absx, .cmp .izx, .cpx .abs, .cpy .zp, .bit .abs] := by decide

/-- 44_rmw.md R271 to R280. -/
theorem test_decode_rmw :
    [0x0A, 0x5E, 0x26, 0x6A, 0xEE, 0xD6, 0xE8, 0xC8, 0xCA, 0x88].map decode6502 =
      [.asl .acc, .lsr .absx, .rol .zp, .ror .acc, .inc .abs, .dec .zpx, .inx, .iny, .dex, .dey] := by decide

/-- 45_control.md R304 to R317. -/
theorem test_decode_control :
    [0x10, 0x30, 0x50, 0x70, 0x90, 0xB0, 0xD0, 0xF0, 0x4C, 0x6C, 0x20, 0x60, 0x40, 0x00].map decode6502 =
      [.bpl, .bmi, .bvc, .bvs, .bcc, .bcs, .bne, .beq, .jmp .abs, .jmp .ind, .jsr, .rts, .rti, .brk] := by decide

/-- 46_stack_flags.md R340 to R351. -/
theorem test_decode_stack_flags :
    [0x48, 0x08, 0x68, 0x28, 0x18, 0x38, 0x58, 0x78, 0xD8, 0xF8, 0xB8, 0xEA].map decode6502 =
      [.pha, .php, .pla, .plp, .clc, .sec, .cli, .sei, .cld, .sed, .clv, .nop] := by decide

/-- 47_illegal.md R371 to R395. -/
theorem test_decode_undocumented :
    [0x03, 0x37, 0x5B, 0x7F, 0xC7, 0xF3, 0x97, 0xBF, 0x0B, 0x2B, 0x4B, 0x6B, 0xCB, 0xEB, 0xBB, 0x1A, 0x89, 0x64, 0xF4, 0x0C,
      0x8B, 0xAB, 0x93, 0x9E, 0x9C, 0x9B, 0x02, 0xF2].map decode6502 =
      [.slo .izx, .rla .zpx, .sre .absy, .rra .absx, .dcp .zp, .isc .izy, .sax .zpy, .lax .absy, .anc false, .anc true, .alr,
        .arr, .sbx, .sbcDup, .las, .nopU .impl 0, .nopU .imm 2, .nopU .zp 2, .nopU .zpx 5, .nopU .abs 0,
        .ane, .lxa, .sha .izy, .shx, .shy, .tas, .jam 0, .jam 11] := by decide

/-- 48_i8080.md R440 to R449, the fields written bit by bit: `01 ddd sss`, `00 ddd 110`, `00 rp0 001`, the direct forms, and
the low operand byte first (R428). -/
theorem test_decode_i80_data :
    [decode8080 0b01110111 0 0, decode8080 0b00110110 0x3F 0, decode8080 0b00110001 0x00 0x24, decode8080 0x3A 0x34 0x12,
      decode8080 0x32 0x00 0x30, decode8080 0x2A 0xFF 0xFF, decode8080 0x22 0x00 0x01, decode8080 0x1A 0 0, decode8080 0x02 0 0,
      decode8080 0xEB 0 0] =
      [.i80Mov .m .a, .i80Mvi .m 0x3F, .i80Lxi .sp 0x2400, .i80Lda 0x1234, .i80Sta 0x3000, .i80Lhld 0xFFFF, .i80Shld 0x0100,
        .i80Ldax .de, .i80Stax .bc, .i80Xchg] := by decide

/-- 48_i8080.md R450 to R463: `10 ooo sss` and the immediate forms, `00 ddd 10x`, `00 rp0 011`, `00 rp1 011`, `00 rp1 001`. -/
theorem test_decode_i80_arith :
    [decode8080 0b10000000 0 0, decode8080 0b10001001 0 0, decode8080 0xC6 0x42 0, decode8080 0xCE 0x01 0, decode8080 0b10010111 0 0,
      decode8080 0b10011101 0 0, decode8080 0xD6 0x01 0, decode8080 0xDE 0x02 0, decode8080 0b00110100 0 0, decode8080 0b00000101 0 0,
      decode8080 0b00010011 0 0, decode8080 0b00101011 0 0, decode8080 0b00001001 0 0, decode8080 0x27 0 0] =
      [.i80Add .b, .i80Adc .c, .i80Adi 0x42, .i80Aci 0x01, .i80Sub .a, .i80Sbb .l, .i80Sui 0x01, .i80Sbi 0x02, .i80Inr .m,
        .i80Dcr .b, .i80Inx .de, .i80Dcx .hl, .i80Dad .bc, .i80Daa] := by decide

/-- 48_i8080.md R464 to R478. -/
theorem test_decode_i80_logic :
    [decode8080 0b10100001 0 0, decode8080 0xE6 0x0F 0, decode8080 0b10101111 0 0, decode8080 0xEE 0x81 0, decode8080 0b10110110 0 0,
      decode8080 0xF6 0x0F 0, decode8080 0b10111011 0 0, decode8080 0xFE 0x40 0, decode8080 0x07 0 0, decode8080 0x0F 0 0,
      decode8080 0x17 0 0, decode8080 0x1F 0 0, decode8080 0x2F 0 0, decode8080 0x3F 0 0, decode8080 0x37 0 0] =
      [.i80Ana .c, .i80Ani 0x0F, .i80Xra .a, .i80Xri 0x81, .i80Ora .m, .i80Ori 0x0F, .i80Cmp .e, .i80Cpi 0x40, .i80Rlc, .i80Rrc,
        .i80Ral, .i80Rar, .i80Cma, .i80Cmc, .i80Stc] := by decide

/-- 49_i8080_control.md R500 to R503, the jumps and calls, with the duplicates of R432. -/
theorem test_decode_i80_jump_call :
    [0xC3, 0xCB, 0xC2, 0xCA, 0xD2, 0xDA, 0xE2, 0xEA, 0xF2, 0xFA, 0xCD, 0xDD, 0xED, 0xFD, 0xC4, 0xCC, 0xD4, 0xDC, 0xE4, 0xEC, 0xF4,
      0xFC].map (fun op => decode8080 op 0x34 0x12) =
      [.i80Jmp false 0x1234, .i80Jmp true 0x1234, .i80Jnz 0x1234, .i80Jz 0x1234, .i80Jnc 0x1234, .i80Jc 0x1234, .i80Jpo 0x1234,
        .i80Jpe 0x1234, .i80Jp 0x1234, .i80Jm 0x1234, .i80Call 0 0x1234, .i80Call 1 0x1234, .i80Call 2 0x1234, .i80Call 3 0x1234,
        .i80Cnz 0x1234, .i80Cz 0x1234, .i80Cnc 0x1234, .i80Cc 0x1234, .i80Cpo 0x1234, .i80Cpe 0x1234, .i80Cp 0x1234,
        .i80Cm 0x1234] := by decide

/-- 49_i8080_control.md R504 to R517. -/
theorem test_decode_i80_control :
    [0xC9, 0xD9, 0xC0, 0xC8, 0xD0, 0xD8, 0xE0, 0xE8, 0xF0, 0xF8, 0b11111111, 0xE9, 0b11110101, 0b11100001, 0xE3, 0xF9, 0xDB, 0xD3, 0xFB,
      0xF3, 0x76, 0x00, 0x38].map (fun op => decode8080 op 0x10 0x00) =
      [.i80Ret false, .i80Ret true, .i80Rnz, .i80Rz, .i80Rnc, .i80Rc, .i80Rpo, .i80Rpe, .i80Rp, .i80Rm, .i80Rst 7, .i80Pchl,
        .i80Push .psw, .i80Pop .hl, .i80Xthl, .i80Sphl, .i80In 0x10, .i80Out 0x10, .i80Ei, .i80Di, .i80Hlt, .i80Nop 0,
        .i80Nop 7] := by decide

/-- Bytes that end inside an operand are rejected by name, and an instruction takes its whole length (48_i8080.md R431;
30_encoding.md R84). -/
theorem test_decode_bytes :
    decode .i8080 [0xC3, 0x34] = .rejected (.truncated 0xC3) ∧ decode .i8080 [] = .rejected .noBytes ∧
    decode .i8080 [0x3E, 0x55, 0x76] = .instr (.i80Mvi .a 0x55) [0x76] ∧
    decode .mos6502 [0xAD, 0x34, 0x12, 0xEA] = .instr (.lda .abs) [0xEA] ∧
    decode .mos6502 [0xAD, 0x34] = .rejected (.truncated 0xAD) := by decide

/-- 30_encoding.md R81, R84 on the rows of the map (R92): the "length" of every 6502 row of spec/opcode_table.json. -/
theorem test_length6502 :
    [0, 1, 2, 3, 4, 5, 6, 7].map (fun r : Nat => (List.range 16).map fun c => length6502 (BitVec.ofNat 8 (16 * r + c))) =
      [[1, 2, 1, 2, 2, 2, 2, 2, 1, 2, 1, 2, 3, 3, 3, 3],
       [2, 2, 1, 2, 2, 2, 2, 2, 1, 3, 1, 3, 3, 3, 3, 3],
       [3, 2, 1, 2, 2, 2, 2, 2, 1, 2, 1, 2, 3, 3, 3, 3],
       [2, 2, 1, 2, 2, 2, 2, 2, 1, 3, 1, 3, 3, 3, 3, 3],
       [1, 2, 1, 2, 2, 2, 2, 2, 1, 2, 1, 2, 3, 3, 3, 3],
       [2, 2, 1, 2, 2, 2, 2, 2, 1, 3, 1, 3, 3, 3, 3, 3],
       [1, 2, 1, 2, 2, 2, 2, 2, 1, 2, 1, 2, 3, 3, 3, 3],
       [2, 2, 1, 2, 2, 2, 2, 2, 1, 3, 1, 3, 3, 3, 3, 3]] ∧
    [8, 9, 10, 11, 12, 13, 14, 15].map (fun r : Nat => (List.range 16).map fun c => length6502 (BitVec.ofNat 8 (16 * r + c))) =
      [[2, 2, 2, 2, 2, 2, 2, 2, 1, 2, 1, 2, 3, 3, 3, 3],
       [2, 2, 1, 2, 2, 2, 2, 2, 1, 3, 1, 3, 3, 3, 3, 3],
       [2, 2, 2, 2, 2, 2, 2, 2, 1, 2, 1, 2, 3, 3, 3, 3],
       [2, 2, 1, 2, 2, 2, 2, 2, 1, 3, 1, 3, 3, 3, 3, 3],
       [2, 2, 2, 2, 2, 2, 2, 2, 1, 2, 1, 2, 3, 3, 3, 3],
       [2, 2, 1, 2, 2, 2, 2, 2, 1, 3, 1, 3, 3, 3, 3, 3],
       [2, 2, 2, 2, 2, 2, 2, 2, 1, 2, 1, 2, 3, 3, 3, 3],
       [2, 2, 1, 2, 2, 2, 2, 2, 1, 3, 1, 3, 3, 3, 3, 3]] := by decide

/-- 48_i8080.md R426, 49_i8080_control.md R519: the draws stay in A and SP, and PC and the halt are reset's. -/
theorem test_reset8080 :
    (let po := { PowerOn.zero with i80 := { I8080Draw.zero with A := 0x5A, SP := 0x2400, fCY := true } };
      let c := (State.constructed .i8080 po []).i80;
      c.A = 0x5A ∧ c.SP = 0x2400 ∧ c.fCY = true ∧ c.PC = 0x0000 ∧ c.INTE = false ∧ c.halted = false) ∧
    (let s := at8080 0x12 0x0000 0x0000 0x0000 0x2400 0x0103 (flags80 1 0 0 0 1) [] [];
      let c := (reset8080 { s with i80 := { s.i80 with halted := true, INTE := true } }).i80;
      c.A = 0x12 ∧ c.SP = 0x2400 ∧ c.fS = true ∧ c.PC = 0x0000 ∧ c.INTE = false ∧ c.halted = false) := by decide

/-- The host's table words: bit 0 is the least significant bit of the first byte. -/
theorem test_table_word :
    decodeTableWord 24 0x1234AD = some (.lda .abs) ∧
    ends (step (State.reset.withFetchWord 16 0x7FA0)) =
      some ⟨0x00, 0x00, 0x7F, 0xFD, 0x0002, flags 0 0 0 1 0 0, [], 2⟩ := by decide

/-! ### 6502: loads, stores, transfers -/

/-- 95_test_vectors.md V-LS3 (42_load_store.md R201) -/
theorem test_lda_zero_page_wraps :
    ends (step (at06 0x00 0x02 0x00 0xFD (flags 0 0 0 0 0 0) [0xB5, 0xFF] [(0x0001, 0x7F)])) =
      some ⟨0x7F, 0x02, 0x00, 0xFD, 0x0602, flags 0 0 0 0 0 0, [], 4⟩ := by decide

/-- 95_test_vectors.md V-LS4 (42_load_store.md R202) -/
theorem test_ldx_page_crossed :
    ends (step (at06 0x00 0x00 0x01 0xFD (flags 0 0 0 0 0 0) [0xBE, 0xFF, 0x12] [(0x1300, 0x00)])) =
      some ⟨0x00, 0x00, 0x01, 0xFD, 0x0603, flags 0 0 0 0 1 0, [], 5⟩ := by decide

/-- 42_load_store.md R203, its example -/
theorem test_ldy :
    ends (step (at06 0x00 0x00 0x00 0xFD (flags 0 0 0 0 0 0) [0xA0, 0x7F] [])) =
      some ⟨0x00, 0x00, 0x7F, 0xFD, 0x0602, flags 0 0 0 0 0 0, [], 2⟩ := by decide

/-- 95_test_vectors.md V-LS5 (42_load_store.md R204) -/
theorem test_sta_izx_pointer_wraps :
    ends (step (at06 0x42 0x01 0x00 0xFD (flags 0 0 0 0 0 0) [0x81, 0xFE] [(0x0000, 0x30), (0x00FF, 0x00)])) =
      some ⟨0x42, 0x01, 0x00, 0xFD, 0x0602, flags 0 0 0 0 0 0, [(0x3000, 0x42)], 6⟩ := by decide

/-- 95_test_vectors.md V-LS6 (42_load_store.md R204) -/
theorem test_sta_izy_pointer_wraps :
    ends (step (at06 0x42 0x00 0x10 0xFD (flags 0 0 0 0 0 0) [0x91, 0xFF] [(0x0000, 0x20), (0x00FF, 0xF8)])) =
      some ⟨0x42, 0x00, 0x10, 0xFD, 0x0602, flags 0 0 0 0 0 0, [(0x2108, 0x42)], 6⟩ := by decide

/-- 42_load_store.md R205, its example -/
theorem test_stx :
    ends (step (at06 0x00 0x01 0x00 0xFD (flags 0 0 0 0 0 0) [0x86, 0x10] [])) =
      some ⟨0x00, 0x01, 0x00, 0xFD, 0x0602, flags 0 0 0 0 0 0, [(0x0010, 0x01)], 3⟩ := by decide

/-- 42_load_store.md R206, its example -/
theorem test_sty_zpx_wraps :
    ends (step (at06 0x00 0x01 0xFF 0xFD (flags 0 0 0 0 0 0) [0x94, 0xFF] [])) =
      some ⟨0x00, 0x01, 0xFF, 0xFD, 0x0602, flags 0 0 0 0 0 0, [(0x0000, 0xFF)], 4⟩ := by decide

/-- 42_load_store.md R207, its example -/
theorem test_tax :
    ends (step (at06 0x80 0x00 0x00 0xFD (flags 0 0 0 0 0 0) [0xAA] [])) =
      some ⟨0x80, 0x80, 0x00, 0xFD, 0x0601, flags 1 0 0 0 0 0, [], 2⟩ := by decide

/-- 42_load_store.md R208, its example -/
theorem test_tay :
    ends (step (at06 0x00 0x00 0x01 0xFD (flags 0 0 0 0 0 0) [0xA8] [])) =
      some ⟨0x00, 0x00, 0x00, 0xFD, 0x0601, flags 0 0 0 0 1 0, [], 2⟩ := by decide

/-- 42_load_store.md R209, its example -/
theorem test_txa :
    ends (step (at06 0x00 0x7F 0x00 0xFD (flags 0 0 0 0 0 0) [0x8A] [])) =
      some ⟨0x7F, 0x7F, 0x00, 0xFD, 0x0601, flags 0 0 0 0 0 0, [], 2⟩ := by decide

/-- 42_load_store.md R210, its example -/
theorem test_tya :
    ends (step (at06 0x00 0x00 0xFF 0xFD (flags 0 0 0 0 0 0) [0x98] [])) =
      some ⟨0xFF, 0x00, 0xFF, 0xFD, 0x0601, flags 1 0 0 0 0 0, [], 2⟩ := by decide

/-- 95_test_vectors.md V-LS8 (42_load_store.md R211) -/
theorem test_tsx :
    ends (step (at06 0x00 0x00 0x00 0x80 (flags 0 0 0 0 0 0) [0xBA] [])) =
      some ⟨0x00, 0x80, 0x00, 0x80, 0x0601, flags 1 0 0 0 0 0, [], 2⟩ := by decide

/-- 95_test_vectors.md V-LS7 (42_load_store.md R212) -/
theorem test_txs_no_flag :
    ends (step (at06 0x00 0x00 0x00 0xFD (flags 1 0 0 0 0 0) [0x9A] [])) =
      some ⟨0x00, 0x00, 0x00, 0x00, 0x0601, flags 1 0 0 0 0 0, [], 2⟩ := by decide

/-! ### 6502: arithmetic, logic, compare -/

/-- 95_test_vectors.md V-AL2 (43_alu.md R240) -/
theorem test_adc_overflow :
    ends (step (at06 0x7F 0x00 0x00 0xFD (flags 0 0 0 0 0 0) [0x69, 0x01] [])) =
      some ⟨0x80, 0x00, 0x00, 0xFD, 0x0602, flags 1 1 0 0 0 0, [], 2⟩ := by decide

/-- 95_test_vectors.md V-AL4 and V-AL6 (43_alu.md R240): decimal, and the same bytes with decimal mode disabled. -/
theorem test_adc_decimal :
    let s := at06 0x99 0x00 0x00 0xFD (flags 0 0 1 0 0 0) [0x69, 0x01] []
    ends (step s) = some ⟨0x00, 0x00, 0x00, 0xFD, 0x0602, flags 1 0 1 0 0 1, [], 2⟩ ∧
    ends (step { s with proc := .mos6502NoDecimal }) =
      some ⟨0x9A, 0x00, 0x00, 0xFD, 0x0602, flags 1 0 1 0 0 0, [], 2⟩ := by decide

/-- 95_test_vectors.md V-AL8 (43_alu.md R241) -/
theorem test_sbc_overflow :
    ends (step (at06 0x80 0x00 0x00 0xFD (flags 0 0 0 0 0 1) [0xE9, 0x01] [])) =
      some ⟨0x7F, 0x00, 0x00, 0xFD, 0x0602, flags 0 1 0 0 0 1, [], 2⟩ := by decide

/-- 95_test_vectors.md V-AL9 (43_alu.md R241) -/
theorem test_sbc_decimal :
    ends (step (at06 0x00 0x00 0x00 0xFD (flags 0 0 1 0 0 1) [0xE9, 0x01] [])) =
      some ⟨0x99, 0x00, 0x00, 0xFD, 0x0602, flags 1 0 1 0 0 0, [], 2⟩ := by decide

/-- 43_alu.md R242, its example -/
theorem test_and :
    ends (step (at06 0xF0 0x00 0x00 0xFD (flags 0 0 0 0 0 0) [0x29, 0x3C] [])) =
      some ⟨0x30, 0x00, 0x00, 0xFD, 0x0602, flags 0 0 0 0 0 0, [], 2⟩ := by decide

/-- 43_alu.md R243, its example -/
theorem test_ora :
    ends (step (at06 0x01 0x00 0x00 0xFD (flags 0 0 0 0 0 0) [0x09, 0x80] [])) =
      some ⟨0x81, 0x00, 0x00, 0xFD, 0x0602, flags 1 0 0 0 0 0, [], 2⟩ := by decide

/-- 95_test_vectors.md V-AL16 (43_alu.md R244) -/
theorem test_eor :
    ends (step (at06 0xFF 0x00 0x00 0xFD (flags 0 0 0 0 0 0) [0x49, 0xFF] [])) =
      some ⟨0x00, 0x00, 0x00, 0xFD, 0x0602, flags 0 0 0 0 1 0, [], 2⟩ := by decide

/-- 95_test_vectors.md V-AL13 (43_alu.md R245) -/
theorem test_cmp_less :
    ends (step (at06 0x40 0x00 0x00 0xFD (flags 0 0 0 0 0 0) [0xC9, 0x41] [])) =
      some ⟨0x40, 0x00, 0x00, 0xFD, 0x0602, flags 1 0 0 0 0 0, [], 2⟩ := by decide

/-- 95_test_vectors.md V-AL14 (43_alu.md R246) -/
theorem test_cpx :
    ends (step (at06 0x00 0x80 0x00 0xFD (flags 0 0 0 0 0 0) [0xE0, 0x00] [])) =
      some ⟨0x00, 0x80, 0x00, 0xFD, 0x0602, flags 1 0 0 0 0 1, [], 2⟩ := by decide

/-- 43_alu.md R247, its example -/
theorem test_cpy :
    ends (step (at06 0x00 0x00 0xFF 0xFD (flags 0 0 0 0 0 0) [0xC0, 0x00] [])) =
      some ⟨0x00, 0x00, 0xFF, 0xFD, 0x0602, flags 1 0 0 0 0 1, [], 2⟩ := by decide

/-- 95_test_vectors.md V-AL15 (43_alu.md R248) -/
theorem test_bit :
    ends (step (at06 0x01 0x00 0x00 0xFD (flags 0 0 0 0 0 0) [0x24, 0x10] [(0x0010, 0xC0)])) =
      some ⟨0x01, 0x00, 0x00, 0xFD, 0x0602, flags 1 1 0 0 1 0, [], 3⟩ := by decide

/-! ### 6502: shifts, increments, decrements -/

/-- 95_test_vectors.md V-RM1 (44_rmw.md R271) -/
theorem test_asl_acc :
    ends (step (at06 0x81 0x00 0x00 0xFD (flags 0 0 0 0 0 0) [0x0A] [])) =
      some ⟨0x02, 0x00, 0x00, 0xFD, 0x0601, flags 0 0 0 0 0 1, [], 2⟩ := by decide

/-- 95_test_vectors.md V-RM2 (44_rmw.md R272) -/
theorem test_lsr_zp :
    ends (step (at06 0x00 0x00 0x00 0xFD (flags 0 0 0 0 0 0) [0x46, 0x10] [(0x0010, 0x01)])) =
      some ⟨0x00, 0x00, 0x00, 0xFD, 0x0602, flags 0 0 0 0 1 1, [(0x0010, 0x01), (0x0010, 0x00)], 5⟩ := by decide

/-- 95_test_vectors.md V-RM3 (44_rmw.md R273) -/
theorem test_rol_acc :
    ends (step (at06 0x80 0x00 0x00 0xFD (flags 0 0 0 0 0 1) [0x2A] [])) =
      some ⟨0x01, 0x00, 0x00, 0xFD, 0x0601, flags 0 0 0 0 0 1, [], 2⟩ := by decide

/-- 95_test_vectors.md V-RM4 (44_rmw.md R274) -/
theorem test_ror_abs :
    ends (step (at06 0x00 0x00 0x00 0xFD (flags 0 0 0 0 0 1) [0x6E, 0x00, 0x20] [(0x2000, 0x01)])) =
      some ⟨0x00, 0x00, 0x00, 0xFD, 0x0603, flags 1 0 0 0 0 1, [(0x2000, 0x01), (0x2000, 0x80)], 6⟩ := by decide

/-- 95_test_vectors.md V-RM5 (44_rmw.md R275) -/
theorem test_inc_absx :
    ends (step (at06 0x00 0x01 0x00 0xFD (flags 0 0 0 0 0 0) [0xFE, 0xFF, 0x20] [(0x2100, 0xFF)])) =
      some ⟨0x00, 0x01, 0x00, 0xFD, 0x0603, flags 0 0 0 0 1 0, [(0x2100, 0xFF), (0x2100, 0x00)], 7⟩ := by decide

/-- 95_test_vectors.md V-RM6 (44_rmw.md R276) -/
theorem test_dec_zp :
    ends (step (at06 0x00 0x00 0x00 0xFD (flags 0 0 0 0 0 0) [0xC6, 0x10] [(0x0010, 0x00)])) =
      some ⟨0x00, 0x00, 0x00, 0xFD, 0x0602, flags 1 0 0 0 0 0, [(0x0010, 0x00), (0x0010, 0xFF)], 5⟩ := by decide

/-- 44_rmw.md R277, its example -/
theorem test_inx :
    ends (step (at06 0x00 0x7F 0x00 0xFD (flags 0 0 0 0 0 0) [0xE8] [])) =
      some ⟨0x00, 0x80, 0x00, 0xFD, 0x0601, flags 1 0 0 0 0 0, [], 2⟩ := by decide

/-- 95_test_vectors.md V-RM8 (44_rmw.md R278) -/
theorem test_iny :
    ends (step (at06 0x00 0x00 0x7F 0xFD (flags 0 0 0 0 0 0) [0xC8] [])) =
      some ⟨0x00, 0x00, 0x80, 0xFD, 0x0601, flags 1 0 0 0 0 0, [], 2⟩ := by decide

/-- 95_test_vectors.md V-RM7 (44_rmw.md R279) -/
theorem test_dex :
    ends (step (at06 0x00 0x00 0x00 0xFD (flags 0 0 0 0 0 0) [0xCA] [])) =
      some ⟨0x00, 0xFF, 0x00, 0xFD, 0x0601, flags 1 0 0 0 0 0, [], 2⟩ := by decide

/-- 44_rmw.md R280, its example -/
theorem test_dey :
    ends (step (at06 0x00 0x00 0x00 0xFD (flags 0 0 0 0 0 0) [0x88] [])) =
      some ⟨0x00, 0x00, 0xFF, 0xFD, 0x0601, flags 1 0 0 0 0 0, [], 2⟩ := by decide

/-! ### 6502: control -/

/-- 45_control.md R310, its example -/
theorem test_bpl_taken :
    ends (step (at06 0x00 0x00 0x00 0xFD (flags 0 0 0 0 0 0) [0x10, 0x02] [])) =
      some ⟨0x00, 0x00, 0x00, 0xFD, 0x0604, flags 0 0 0 0 0 0, [], 3⟩ := by decide

/-- 45_control.md R311, its example -/
theorem test_bmi_not_taken :
    ends (step (at06 0x00 0x00 0x00 0xFD (flags 0 0 0 0 0 0) [0x30, 0x02] [])) =
      some ⟨0x00, 0x00, 0x00, 0xFD, 0x0602, flags 0 0 0 0 0 0, [], 2⟩ := by decide

/-- 45_control.md R312, its example -/
theorem test_bvc_to_itself :
    ends (step (at06 0x00 0x00 0x00 0xFD (flags 0 0 0 0 0 0) [0x50, 0xFE] [])) =
      some ⟨0x00, 0x00, 0x00, 0xFD, 0x0600, flags 0 0 0 0 0 0, [], 3⟩ := by decide

/-- 95_test_vectors.md V-CT2 (45_control.md R313) -/
theorem test_bvs_page_crossed :
    ends (step (at06 0x00 0x00 0x00 0xFD (flags 0 1 0 0 0 0) [0x70, 0x80] [])) =
      some ⟨0x00, 0x00, 0x00, 0xFD, 0x0582, flags 0 1 0 0 0 0, [], 4⟩ := by decide

/-- 45_control.md R314, its example -/
theorem test_bcc_forward :
    ends (step (at06 0x00 0x00 0x00 0xFD (flags 0 0 0 0 0 0) [0x90, 0x7F] [])) =
      some ⟨0x00, 0x00, 0x00, 0xFD, 0x0681, flags 0 0 0 0 0 0, [], 3⟩ := by decide

/-- 95_test_vectors.md V-CT3 (45_control.md R315) -/
theorem test_bcs_page_of_next :
    ends (step (at6502 0x06FD 0x00 0x00 0x00 0xFD (flags 0 0 0 0 0 1) [0xB0, 0x01] [])) =
      some ⟨0x00, 0x00, 0x00, 0xFD, 0x0700, flags 0 0 0 0 0 1, [], 4⟩ := by decide

/-- 95_test_vectors.md V-CT1 (45_control.md R316) -/
theorem test_bne_taken :
    ends (step (at06 0x00 0x00 0x00 0xFD (flags 0 0 0 0 0 0) [0xD0, 0x02] [])) =
      some ⟨0x00, 0x00, 0x00, 0xFD, 0x0604, flags 0 0 0 0 0 0, [], 3⟩ := by decide

/-- 95_test_vectors.md V-CT4 (45_control.md R317) -/
theorem test_beq_not_taken :
    ends (step (at06 0x00 0x00 0x00 0xFD (flags 0 0 0 0 0 0) [0xF0, 0x10] [])) =
      some ⟨0x00, 0x00, 0x00, 0xFD, 0x0602, flags 0 0 0 0 0 0, [], 2⟩ := by decide

/-- 45_control.md R304, its example -/
theorem test_jmp :
    ends (step (at06 0x00 0x00 0x00 0xFD (flags 0 0 0 0 0 0) [0x4C, 0x34, 0x12] [])) =
      some ⟨0x00, 0x00, 0x00, 0xFD, 0x1234, flags 0 0 0 0 0 0, [], 3⟩ := by decide

/-- 95_test_vectors.md V-CT5 (45_control.md R307) -/
theorem test_jmp_indirect_page :
    ends (step (at06 0x00 0x00 0x00 0xFD (flags 0 0 0 0 0 0) [0x6C, 0xFF, 0x30] [(0x3000, 0x50), (0x30FF, 0x80), (0x3100, 0x40)])) =
      some ⟨0x00, 0x00, 0x00, 0xFD, 0x5080, flags 0 0 0 0 0 0, [], 5⟩ := by decide

/-- 95_test_vectors.md V-CT6 (45_control.md R305) -/
theorem test_jsr :
    ends (step (at06 0x00 0x00 0x00 0xFF (flags 0 0 0 0 0 0) [0x20, 0x00, 0x80] [])) =
      some ⟨0x00, 0x00, 0x00, 0xFD, 0x8000, flags 0 0 0 0 0 0, [(0x01FF, 0x06), (0x01FE, 0x02)], 6⟩ := by decide

/-- 95_test_vectors.md V-CT10 (45_control.md R305) -/
theorem test_jsr_stack_wraps :
    ends (step (at06 0x00 0x00 0x00 0x00 (flags 0 0 0 0 0 0) [0x20, 0x00, 0x80] [])) =
      some ⟨0x00, 0x00, 0x00, 0xFE, 0x8000, flags 0 0 0 0 0 0, [(0x0100, 0x06), (0x01FF, 0x02)], 6⟩ := by decide

/-- 95_test_vectors.md V-CT7 (45_control.md R306) -/
theorem test_rts :
    ends (step (at06 0x00 0x00 0x00 0xFD (flags 0 0 0 0 0 0) [0x60] [(0x01FE, 0x02), (0x01FF, 0x06)])) =
      some ⟨0x00, 0x00, 0x00, 0xFF, 0x0603, flags 0 0 0 0 0 0, [], 6⟩ := by decide

/-- 95_test_vectors.md V-CT8 (45_control.md R308) -/
theorem test_rti :
    ends (step (at06 0x00 0x00 0x00 0xFC (flags 0 0 0 0 0 0) [0x40] [(0x01FD, 0xFF), (0x01FE, 0x34), (0x01FF, 0x12)])) =
      some ⟨0x00, 0x00, 0x00, 0xFF, 0x1234, flags 1 1 1 1 1 1, [], 6⟩ := by decide

/-- 95_test_vectors.md V-CT9 (45_control.md R309) -/
theorem test_brk :
    ends (step (at06 0x00 0x00 0x00 0xFF (flags 0 0 0 0 0 0) [0x00] [(0xFFFE, 0x00), (0xFFFF, 0x90)])) =
      some ⟨0x00, 0x00, 0x00, 0xFC, 0x9000, flags 0 0 0 1 0 0, [(0x01FF, 0x06), (0x01FE, 0x02), (0x01FD, 0x30)], 7⟩ := by decide

/-! ### 6502: stack, flags, no operation -/

/-- 95_test_vectors.md V-SF4 (46_stack_flags.md R340) -/
theorem test_pha_stack_wraps :
    ends (step (at06 0x77 0x00 0x00 0x00 (flags 0 0 0 0 0 0) [0x48] [])) =
      some ⟨0x77, 0x00, 0x00, 0xFF, 0x0601, flags 0 0 0 0 0 0, [(0x0100, 0x77)], 3⟩ := by decide

/-- 95_test_vectors.md V-SF1 (46_stack_flags.md R341) -/
theorem test_php :
    ends (step (at06 0x00 0x00 0x00 0xFF (flags 1 0 0 0 0 1) [0x08] [])) =
      some ⟨0x00, 0x00, 0x00, 0xFE, 0x0601, flags 1 0 0 0 0 1, [(0x01FF, 0xB1)], 3⟩ := by decide

/-- 95_test_vectors.md V-SF3 (46_stack_flags.md R342) -/
theorem test_pla_stack_wraps :
    ends (step (at06 0x12 0x00 0x00 0xFF (flags 0 0 0 0 0 0) [0x68] [(0x0100, 0x00)])) =
      some ⟨0x00, 0x00, 0x00, 0x00, 0x0601, flags 0 0 0 0 1 0, [], 4⟩ := by decide

/-- 95_test_vectors.md V-SF2 (46_stack_flags.md R343) -/
theorem test_plp :
    ends (step (at06 0x00 0x00 0x00 0xFE (flags 0 0 0 0 0 0) [0x28] [(0x01FF, 0xFF)])) =
      some ⟨0x00, 0x00, 0x00, 0xFF, 0x0601, flags 1 1 1 1 1 1, [], 4⟩ := by decide

/-- 46_stack_flags.md R344, its example -/
theorem test_clc :
    ends (step (at06 0x00 0x00 0x00 0xFD (flags 0 0 0 0 1 1) [0x18] [])) =
      some ⟨0x00, 0x00, 0x00, 0xFD, 0x0601, flags 0 0 0 0 1 0, [], 2⟩ := by decide

/-- 46_stack_flags.md R345, its example -/
theorem test_sec :
    ends (step (at06 0x00 0x00 0x00 0xFD (flags 0 0 0 0 0 0) [0x38] [])) =
      some ⟨0x00, 0x00, 0x00, 0xFD, 0x0601, flags 0 0 0 0 0 1, [], 2⟩ := by decide

/-- 46_stack_flags.md R346, its example -/
theorem test_cli :
    ends (step (at06 0x00 0x00 0x00 0xFD (flags 0 0 0 1 0 0) [0x58] [])) =
      some ⟨0x00, 0x00, 0x00, 0xFD, 0x0601, flags 0 0 0 0 0 0, [], 2⟩ := by decide

/-- 46_stack_flags.md R347, its example -/
theorem test_sei :
    ends (step (at06 0x00 0x00 0x00 0xFD (flags 0 0 0 0 0 0) [0x78] [])) =
      some ⟨0x00, 0x00, 0x00, 0xFD, 0x0601, flags 0 0 0 1 0 0, [], 2⟩ := by decide

/-- 46_stack_flags.md R348, its example -/
theorem test_cld :
    ends (step (at06 0x00 0x00 0x00 0xFD (flags 0 0 1 0 0 0) [0xD8] [])) =
      some ⟨0x00, 0x00, 0x00, 0xFD, 0x0601, flags 0 0 0 0 0 0, [], 2⟩ := by decide

/-- 46_stack_flags.md R349, its example -/
theorem test_sed :
    ends (step (at06 0x00 0x00 0x00 0xFD (flags 0 0 0 0 0 0) [0xF8] [])) =
      some ⟨0x00, 0x00, 0x00, 0xFD, 0x0601, flags 0 0 1 0 0 0, [], 2⟩ := by decide

/-- 95_test_vectors.md V-SF5 (46_stack_flags.md R350) -/
theorem test_clv :
    ends (step (at06 0x00 0x00 0x00 0xFD (flags 0 1 0 0 0 0) [0xB8] [])) =
      some ⟨0x00, 0x00, 0x00, 0xFD, 0x0601, flags 0 0 0 0 0 0, [], 2⟩ := by decide

/-- 46_stack_flags.md R351, its example -/
theorem test_nop :
    ends (step (at06 0x00 0x00 0x00 0xFD (flags 0 0 0 0 0 0) [0xEA] [])) =
      some ⟨0x00, 0x00, 0x00, 0xFD, 0x0601, flags 0 0 0 0 0 0, [], 2⟩ := by decide

/-! ### 6502: undocumented opcodes -/

/-- 47_illegal.md R371, its example -/
theorem test_slo :
    ends (step (at06 0x01 0x00 0x00 0xFD (flags 0 0 0 0 0 0) [0x07, 0x10] [(0x0010, 0x81)])) =
      some ⟨0x03, 0x00, 0x00, 0xFD, 0x0602, flags 0 0 0 0 0 1, [(0x0010, 0x81), (0x0010, 0x02)], 5⟩ := by decide

/-- 47_illegal.md R372, its example -/
theorem test_rla :
    ends (step (at06 0xFF 0x00 0x00 0xFD (flags 0 0 0 0 0 1) [0x27, 0x10] [(0x0010, 0x40)])) =
      some ⟨0x81, 0x00, 0x00, 0xFD, 0x0602, flags 1 0 0 0 0 0, [(0x0010, 0x40), (0x0010, 0x81)], 5⟩ := by decide

/-- 47_illegal.md R373, its example -/
theorem test_sre :
    ends (step (at06 0x01 0x00 0x00 0xFD (flags 0 0 0 0 0 0) [0x47, 0x10] [(0x0010, 0x03)])) =
      some ⟨0x00, 0x00, 0x00, 0xFD, 0x0602, flags 0 0 0 0 1 1, [(0x0010, 0x03), (0x0010, 0x01)], 5⟩ := by decide

/-- 47_illegal.md R374, its example -/
theorem test_rra :
    ends (step (at06 0x10 0x00 0x00 0xFD (flags 0 0 0 0 0 0) [0x67, 0x10] [(0x0010, 0x03)])) =
      some ⟨0x12, 0x00, 0x00, 0xFD, 0x0602, flags 0 0 0 0 0 0, [(0x0010, 0x03), (0x0010, 0x01)], 5⟩ := by decide

/-- 95_test_vectors.md V-IL3 (47_illegal.md R375) -/
theorem test_dcp :
    ends (step (at06 0x05 0x00 0x00 0xFD (flags 0 0 0 0 0 0) [0xC7, 0x10] [(0x0010, 0x06)])) =
      some ⟨0x05, 0x00, 0x00, 0xFD, 0x0602, flags 0 0 0 0 1 1, [(0x0010, 0x06), (0x0010, 0x05)], 5⟩ := by decide

/-- 47_illegal.md R376, its example -/
theorem test_isc :
    ends (step (at06 0x05 0x00 0x00 0xFD (flags 0 0 0 0 0 1) [0xE7, 0x10] [(0x0010, 0x02)])) =
      some ⟨0x02, 0x00, 0x00, 0xFD, 0x0602, flags 0 0 0 0 0 1, [(0x0010, 0x02), (0x0010, 0x03)], 5⟩ := by decide

/-- 95_test_vectors.md V-IL5 (47_illegal.md R377) -/
theorem test_sax :
    ends (step (at06 0xF0 0x3C 0x00 0xFD (flags 0 0 0 0 0 0) [0x87, 0x10] [])) =
      some ⟨0xF0, 0x3C, 0x00, 0xFD, 0x0602, flags 0 0 0 0 0 0, [(0x0010, 0x30)], 3⟩ := by decide

/-- 47_illegal.md R378, its example -/
theorem test_lax :
    ends (step (at06 0x00 0x00 0x00 0xFD (flags 0 0 0 0 0 0) [0xA7, 0x10] [(0x0010, 0x80)])) =
      some ⟨0x80, 0x80, 0x00, 0xFD, 0x0602, flags 1 0 0 0 0 0, [], 3⟩ := by decide

/-- 95_test_vectors.md V-IL11 (47_illegal.md R379) -/
theorem test_anc :
    ends (step (at06 0xFF 0x00 0x00 0xFD (flags 0 0 0 0 0 0) [0x2B, 0x7F] [])) =
      some ⟨0x7F, 0x00, 0x00, 0xFD, 0x0602, flags 0 0 0 0 0 0, [], 2⟩ := by decide

/-- 47_illegal.md R380, its example -/
theorem test_alr :
    ends (step (at06 0xFF 0x00 0x00 0xFD (flags 0 0 0 0 0 0) [0x4B, 0x03] [])) =
      some ⟨0x01, 0x00, 0x00, 0xFD, 0x0602, flags 0 0 0 0 0 1, [], 2⟩ := by decide

/-- 95_test_vectors.md V-IL6 (47_illegal.md R381) -/
theorem test_arr_binary :
    ends (step (at06 0x7F 0x00 0x00 0xFD (flags 0 0 0 0 0 0) [0x6B, 0xFF] [])) =
      some ⟨0x3F, 0x00, 0x00, 0xFD, 0x0602, flags 0 1 0 0 0 0, [], 2⟩ := by decide

/-- 95_test_vectors.md V-IL7 (47_illegal.md R381) -/
theorem test_arr_decimal :
    ends (step (at06 0xFF 0x00 0x00 0xFD (flags 0 0 1 0 0 1) [0x6B, 0x55] [])) =
      some ⟨0x00, 0x00, 0x00, 0xFD, 0x0602, flags 1 1 1 0 0 1, [], 2⟩ := by decide

/-- 47_illegal.md R382, its example -/
theorem test_sbx :
    ends (step (at06 0x0F 0xFF 0x00 0xFD (flags 0 0 0 0 0 0) [0xCB, 0x01] [])) =
      some ⟨0x0F, 0x0E, 0x00, 0xFD, 0x0602, flags 0 0 0 0 0 1, [], 2⟩ := by decide

/-- 95_test_vectors.md V-IL9 (47_illegal.md R384) -/
theorem test_las_page_crossed :
    ends (step (at06 0x00 0x00 0x01 0xF0 (flags 0 0 0 0 0 0) [0xBB, 0xFF, 0x12] [(0x1300, 0xAA)])) =
      some ⟨0xA0, 0xA0, 0x01, 0xA0, 0x0603, flags 1 0 0 0 0 0, [], 5⟩ := by decide

/-- 47_illegal.md R385, its example -/
theorem test_nopU :
    ends (step (at06 0x00 0x00 0x00 0xFD (flags 0 0 0 0 0 0) [0x0C, 0x00, 0xD0] [])) =
      some ⟨0x00, 0x00, 0x00, 0xFD, 0x0603, flags 0 0 0 0 0 0, [], 4⟩ := by decide

/-- 47_illegal.md R388, its example -/
theorem test_sha :
    ends (step (at06 0xFF 0xFF 0x00 0xFD (flags 0 0 0 0 0 0) [0x9F, 0x00, 0x12] [])) =
      some ⟨0xFF, 0xFF, 0x00, 0xFD, 0x0603, flags 0 0 0 0 0 0, [(0x1200, 0x13)], 5⟩ := by decide

/-- 95_test_vectors.md V-IL10 (47_illegal.md R389) -/
theorem test_shx_page_crossed :
    ends (step (at06 0x00 0x0F 0x01 0xFD (flags 0 0 0 0 0 0) [0x9E, 0xFF, 0x20] [])) =
      some ⟨0x00, 0x0F, 0x01, 0xFD, 0x0603, flags 0 0 0 0 0 0, [(0x0100, 0x01)], 5⟩ := by decide

/-- 47_illegal.md R390, its example -/
theorem test_shy_page_crossed :
    ends (step (at06 0x00 0x10 0x0F 0xFD (flags 0 0 0 0 0 0) [0x9C, 0xF8, 0x20] [])) =
      some ⟨0x00, 0x10, 0x0F, 0xFD, 0x0603, flags 0 0 0 0 0 0, [(0x0108, 0x01)], 5⟩ := by decide

/-- 47_illegal.md R391, its example -/
theorem test_tas :
    ends (step (at06 0xF3 0x3F 0x00 0xFD (flags 0 0 0 0 0 0) [0x9B, 0x00, 0x12] [])) =
      some ⟨0xF3, 0x3F, 0x00, 0x33, 0x0603, flags 0 0 0 0 0 0, [(0x1200, 0x13)], 5⟩ := by decide
/-- 47_illegal.md R386: with A = 0xFF the constant of ANE does not matter. -/
theorem test_ane : leaves (fun t => decide (t.pendA = some ((0xFF ||| Config.aneConst) &&& 0x3C &&& 0x0F)))
    (step (at06 0xFF 0x3C 0x00 0xFD (flags 0 0 0 0 0 0) [0x8B, 0x0F] [])) = true ∧
    ∀ k : Byte, (0xFF ||| k) &&& 0x3C &&& 0x0F = 0x0C := by
  refine ⟨decide_eq_true rfl, by decide⟩

/-- 47_illegal.md R387: with A = 0xFF the constant of LXA does not matter. -/
theorem test_lxa : leaves (fun t => decide (t.pendX = some ((0xFF ||| Config.lxaConst) &&& 0x5A)))
    (step (at06 0xFF 0x00 0x00 0xFD (flags 0 0 0 0 0 0) [0xAB, 0x5A] [])) = true ∧
    ∀ k : Byte, (0xFF ||| k) &&& 0x5A = 0x5A := by
  refine ⟨decide_eq_true rfl, by decide⟩

/-- 47_illegal.md R383: 43_alu.md R241's subtraction 0x05 - 0x03 with `EB 03`. -/
theorem test_sbcDup : ends (step (at06 0x05 0x00 0x00 0xFD (flags 0 0 0 0 0 1) [0xEB, 0x03] [])) =
    some ⟨0x02, 0x00, 0x00, 0xFD, 0x0602, flags 0 0 0 0 0 1, [], 2⟩ := by decide

/-- 95_test_vectors.md V-IL13 (47_illegal.md R395): after two cycles no opcode fetch, PC = 0x0601. -/
theorem test_jam : leaves (fun t => t.jammed && !t.pins.sync && decide (t.PC = 0x0601) && t.trace.length == 2)
    (step (at06 0x00 0x00 0x00 0xFD (flags 0 0 0 0 0 0) [0x02] [])) = true := by decide

/-! ### 6502: packed flags, interrupts, reset, ready -/

/-- 95_test_vectors.md V-F1 to V-F4. -/
theorem test_pack :
    pack (flags 0 0 0 0 0 0) true = 0x30 ∧ pack (flags 0 0 0 0 0 0) false = 0x20 ∧ pack (flags 1 1 1 1 1 1) true = 0xFF ∧
    pack (flags 1 0 0 1 0 1) false = 0xA5 ∧ pack (flags 0 1 1 0 1 0) true = 0x7A ∧ unpack 0xFF = flags 1 1 1 1 1 1 ∧
    unpack 0x30 = flags 0 0 0 0 0 0 := by decide

/-- The memory of the traces of 95_test_vectors.md section 2.9: the three vectors and the two handlers. -/
def vectors : List (Addr × Byte) :=
  [(0xFFFC, 0x00), (0xFFFD, 0x06), (0xFFFE, 0x00), (0xFFFF, 0x90), (0xFFFA, 0x00), (0xFFFB, 0xA0), (0x9000, 0x40), (0xA000, 0x4C)]

/-- The power-on draw of those traces: S = 0xFF, PC = 0x1234. -/
def traceDraw : PowerOn := { PowerOn.zero with S := 0xFF, PC := 0x1234 }

/-- V-E1, cycles 1 to 7: the reset sequence from construction. -/
theorem test_reset_sequence :
    leaves (fun t => t.trace.map (fun c => (c.addr, c.rw)) == [(0x1234, true), (0x01FF, true), (0x01FE, true), (0x01FD, true),
        (0xFFFC, true), (0xFFFD, true), (0x0600, true)] && decide (t.S = 0xFC) && t.P.I && t.pins.sync && decide (t.intent = .none))
      (step (State.constructed .mos6502 traceDraw (writeAll [] vectors))) = true := by decide

/-- V-E2, cycles 12 to 18: an IRQ hijack at 0x0602 with S = 0xFC; the instruction fetched there does not run. -/
theorem test_irq_entry :
    ends (step { at6502 0x0602 0x00 0x00 0x00 0xFC (flags 0 0 0 0 0 0) [0xEA] vectors with intent := .irq }) =
      some ⟨0x00, 0x00, 0x00, 0xF9, 0x9000, flags 0 0 0 1 0 0, [(0x01FC, 0x06), (0x01FB, 0x02), (0x01FA, 0x20)], 7⟩ := by
  decide

/-- V-E3, cycles 12 to 18: an NMI hijack, I set before it. -/
theorem test_nmi_entry :
    ends (step { at6502 0x0602 0x00 0x00 0x00 0xFC (flags 0 0 0 1 0 0) [0xEA] vectors with intent := .nmi }) =
      some ⟨0x00, 0x00, 0x00, 0xF9, 0xA000, flags 0 0 0 1 0 0, [(0x01FC, 0x06), (0x01FB, 0x02), (0x01FA, 0x24)], 7⟩ := by
  decide

/-- V-E7: an NMI edge in cycle 10, BRK's third, takes the vector and keeps the pushed break bit. -/
theorem test_nmi_during_brk :
    let high : CallerInput := { resetCalls := [], irqN := true, nmiN := true, rdy := false, busWrites := [], readByte := none }
    ends (step { at6502 0x0600 0x00 0x00 0x00 0xFC (flags 0 0 0 1 0 0) [0x00, 0xEA] vectors with
      callerQ := [high, high, { high with nmiN := false }] }) =
      some ⟨0x00, 0x00, 0x00, 0xF9, 0xA000, flags 0 0 0 1 0 0, [(0x01FC, 0x06), (0x01FB, 0x02), (0x01FA, 0x34)], 7⟩ := by
  decide

/-- V-E2, cycles 8 and 9: with IRQ held low no hijack follows CLI itself; cycles 10 and 11: one follows the NOP after it. -/
theorem test_irq_after_cli :
    let low (s : State) : State := { s with pins := { s.pins with irqN := false } }
    leaves (fun t => decide (t.intent = .none) && !t.P.I)
      (step (low (at06 0x00 0x00 0x00 0xFC (flags 0 0 0 1 0 0) [0x58, 0xEA] vectors))) = true ∧
    leaves (fun t => decide (t.intent = .irq))
      (step (low (at6502 0x0601 0x00 0x00 0x00 0xFC (flags 0 0 0 0 0 0) [0xEA, 0xEA] vectors))) = true := by decide

/-- V-E6, cycle 11: a stalled cycle repeats the read at 0x0603 of the NOP's step 0. -/
theorem test_ready_stall :
    let s := at6502 0x0603 0x5A 0x00 0x00 0xFC (flags 0 0 0 1 0 0) [0xEA] vectors
    leaves (fun t => decide (t.trace = [⟨0x0603, true, false, 0xEA⟩]) && decide (t.PC = 0x0603) && decide (t.IR = 0xEA) &&
        decide (t.T = 1) && decide (t.A = 0x5A) && !t.pins.sync)
      (step { s with IR := 0xEA, T := 1, pins := { s.pins with sync := false, rdy := true } }) = true := by decide

/-- V-E9, cycles 10 and 12: reset after INX's last step; the held cycle does not commit X, the release does. -/
theorem test_reset_after_last_step :
    let s := { at6502 0x0601 0x00 0x00 0x00 0xFC (flags 0 0 0 1 0 0) [0xEA] vectors with pendX := some 0x01, IR := 0xE8, T := 2 }
    leaves (fun t => decide (t.X = 0x00) && decide (t.pendX = some 0x01) && t.resHeld && decide (t.intent = .reset))
      (step { s with intent := .reset, pins := { s.pins with resN := false } }) = true ∧
    leaves (fun t => decide (t.X = 0x01) && decide (t.S = 0xF9) && decide (t.PC = 0x0600))
      (step { s with intent := .reset, rstCnt := 2, resHeld := true, pins := { s.pins with sync := false } }) = true := by
  decide

/-- 95_test_vectors.md V-D1: twelve master edges from construction bring the phase high and the count to 0. -/
theorem test_divider :
    leaves (fun t => t.phase && decide (t.divider.cnt = 0))
      (masterEdges dispatcher 12 (State.constructed .mos6502NoDecimal traceDraw [])) = true := by decide

/-! ### 8080: data transfer -/

/-- 48_i8080.md R440, its example -/
theorem test_i80Mov_to_memory :
    ends80 [0x2000] (step (at8080 0x12 0x0000 0x0000 0x2000 0x2400 0x0100 (flags80 0 0 0 0 0) [0x77] [])) =
      some ⟨0x12, 0x0000, 0x0000, 0x2000, 0x2400, 0x0101, flags80 0 0 0 0 0, [(0x2000, 0x12)]⟩ := by decide

/-- 95_test_vectors.md V-8T1 (48_i8080.md R440) -/
theorem test_i80Mov_from_memory :
    ends80 [] (step (at8080 0x00 0x0000 0x0000 0x2000 0x2400 0x0100 (flags80 0 0 0 0 0) [0x7E] [(0x2000, 0x5A)])) =
      some ⟨0x5A, 0x0000, 0x0000, 0x2000, 0x2400, 0x0101, flags80 0 0 0 0 0, []⟩ := by decide

/-- 95_test_vectors.md V-8T2 (48_i8080.md R441) -/
theorem test_i80Mvi :
    ends80 [0x2010] (step (at8080 0x00 0x0000 0x0000 0x2010 0x2400 0x0100 (flags80 0 0 0 0 0) [0x36, 0x3F] [])) =
      some ⟨0x00, 0x0000, 0x0000, 0x2010, 0x2400, 0x0102, flags80 0 0 0 0 0, [(0x2010, 0x3F)]⟩ := by decide

/-- 48_i8080.md R442, its example -/
theorem test_i80Lxi :
    ends80 [] (step (at8080 0x00 0x0000 0x0000 0x0000 0x0000 0x0100 (flags80 0 0 0 0 0) [0x31, 0x00, 0x24] [])) =
      some ⟨0x00, 0x0000, 0x0000, 0x0000, 0x2400, 0x0103, flags80 0 0 0 0 0, []⟩ := by decide

/-- 48_i8080.md R443, its example -/
theorem test_i80Lda :
    ends80 [] (step (at8080 0x00 0x0000 0x0000 0x0000 0x2400 0x0100 (flags80 0 0 0 0 0) [0x3A, 0x34, 0x12] [(0x1234, 0x99)])) =
      some ⟨0x99, 0x0000, 0x0000, 0x0000, 0x2400, 0x0103, flags80 0 0 0 0 0, []⟩ := by decide

/-- 48_i8080.md R444, its example -/
theorem test_i80Sta :
    ends80 [0x3000] (step (at8080 0x01 0x0000 0x0000 0x0000 0x2400 0x0100 (flags80 0 0 0 0 0) [0x32, 0x00, 0x30] [])) =
      some ⟨0x01, 0x0000, 0x0000, 0x0000, 0x2400, 0x0103, flags80 0 0 0 0 0, [(0x3000, 0x01)]⟩ := by decide

/-- 95_test_vectors.md V-8T3 (48_i8080.md R445) -/
theorem test_i80Lhld_wraps :
    ends80 [] (step (at8080 0x00 0x0000 0x0000 0x0000 0x2400 0x0200 (flags80 0 0 0 0 0) [0x2A, 0xFF, 0xFF] [(0x0000, 0x12), (0xFFFF, 0x34)])) =
      some ⟨0x00, 0x0000, 0x0000, 0x1234, 0x2400, 0x0203, flags80 0 0 0 0 0, []⟩ := by decide

/-- 48_i8080.md R446, its example -/
theorem test_i80Shld :
    ends80 [0x3000, 0x3001] (step (at8080 0x00 0x0000 0x0000 0xABCD 0x2400 0x0100 (flags80 0 0 0 0 0) [0x22, 0x00, 0x30] [])) =
      some ⟨0x00, 0x0000, 0x0000, 0xABCD, 0x2400, 0x0103, flags80 0 0 0 0 0, [(0x3000, 0xCD), (0x3001, 0xAB)]⟩ := by decide

/-- 48_i8080.md R447, its example -/
theorem test_i80Ldax :
    ends80 [] (step (at8080 0x00 0x0000 0x2000 0x0000 0x2400 0x0100 (flags80 0 0 0 0 0) [0x1A] [(0x2000, 0x7E)])) =
      some ⟨0x7E, 0x0000, 0x2000, 0x0000, 0x2400, 0x0101, flags80 0 0 0 0 0, []⟩ := by decide

/-- 48_i8080.md R448, its example -/
theorem test_i80Stax :
    ends80 [0x2001] (step (at8080 0x3C 0x2001 0x0000 0x0000 0x2400 0x0100 (flags80 0 0 0 0 0) [0x02] [])) =
      some ⟨0x3C, 0x2001, 0x0000, 0x0000, 0x2400, 0x0101, flags80 0 0 0 0 0, [(0x2001, 0x3C)]⟩ := by decide

/-- 95_test_vectors.md V-8T4 (48_i8080.md R449) -/
theorem test_i80Xchg :
    ends80 [] (step (at8080 0x00 0x0000 0x1111 0x2222 0x2400 0x0100 (flags80 0 0 0 0 0) [0xEB] [])) =
      some ⟨0x00, 0x0000, 0x2222, 0x1111, 0x2400, 0x0101, flags80 0 0 0 0 0, []⟩ := by decide

/-! ### 8080: arithmetic -/

/-- 95_test_vectors.md V-8T5 (48_i8080.md R450) -/
theorem test_i80Add :
    ends80 [] (step (at8080 0x2E 0x6C00 0x0000 0x0000 0x2400 0x0100 (flags80 0 0 0 0 0) [0x80] [])) =
      some ⟨0x9A, 0x6C00, 0x0000, 0x0000, 0x2400, 0x0101, flags80 1 0 1 1 0, []⟩ := by decide

/-- 95_test_vectors.md V-8T7 (48_i8080.md R451) -/
theorem test_i80Adc :
    ends80 [] (step (at8080 0x42 0x003D 0x0000 0x0000 0x2400 0x0100 (flags80 0 0 0 0 1) [0x89] [])) =
      some ⟨0x80, 0x003D, 0x0000, 0x0000, 0x2400, 0x0101, flags80 1 0 1 0 0, []⟩ := by decide

/-- 48_i8080.md R452, its example -/
theorem test_i80Adi :
    ends80 [] (step (at8080 0x14 0x0000 0x0000 0x0000 0x2400 0x0100 (flags80 0 0 0 0 0) [0xC6, 0x42] [])) =
      some ⟨0x56, 0x0000, 0x0000, 0x0000, 0x2400, 0x0102, flags80 0 0 0 1 0, []⟩ := by decide

/-- 48_i8080.md R453, its example -/
theorem test_i80Aci :
    ends80 [] (step (at8080 0xFF 0x0000 0x0000 0x0000 0x2400 0x0100 (flags80 0 0 0 0 1) [0xCE, 0x00] [])) =
      some ⟨0x00, 0x0000, 0x0000, 0x0000, 0x2400, 0x0102, flags80 0 1 1 1 1, []⟩ := by decide

/-- 95_test_vectors.md V-8T8 (48_i8080.md R454) -/
theorem test_i80Sub :
    ends80 [] (step (at8080 0x3E 0x0000 0x0000 0x0000 0x2400 0x0100 (flags80 0 0 0 0 0) [0x97] [])) =
      some ⟨0x00, 0x0000, 0x0000, 0x0000, 0x2400, 0x0101, flags80 0 1 1 1 0, []⟩ := by decide

/-- 95_test_vectors.md V-8T9 (48_i8080.md R455) -/
theorem test_i80Sbb :
    ends80 [] (step (at8080 0x04 0x0000 0x0000 0x0002 0x2400 0x0100 (flags80 0 0 0 0 1) [0x9D] [])) =
      some ⟨0x01, 0x0000, 0x0000, 0x0002, 0x2400, 0x0101, flags80 0 0 1 0 0, []⟩ := by decide

/-- 95_test_vectors.md V-8T10 (48_i8080.md R456) -/
theorem test_i80Sui :
    ends80 [] (step (at8080 0x00 0x0000 0x0000 0x0000 0x2400 0x0100 (flags80 0 0 0 0 0) [0xD6, 0x01] [])) =
      some ⟨0xFF, 0x0000, 0x0000, 0x0000, 0x2400, 0x0102, flags80 1 0 0 1 1, []⟩ := by decide

/-- 48_i8080.md R457, its example -/
theorem test_i80Sbi :
    ends80 [] (step (at8080 0x00 0x0000 0x0000 0x0000 0x2400 0x0100 (flags80 0 0 0 0 1) [0xDE, 0x01] [])) =
      some ⟨0xFE, 0x0000, 0x0000, 0x0000, 0x2400, 0x0102, flags80 1 0 0 0 1, []⟩ := by decide

/-- 95_test_vectors.md V-8T11 (48_i8080.md R458) -/
theorem test_i80Inr :
    ends80 [] (step (at8080 0xFF 0x0000 0x0000 0x0000 0x2400 0x0100 (flags80 0 0 0 0 1) [0x3C] [])) =
      some ⟨0x00, 0x0000, 0x0000, 0x0000, 0x2400, 0x0101, flags80 0 1 1 1 1, []⟩ := by decide

/-- 95_test_vectors.md V-8T12 (48_i8080.md R459) -/
theorem test_i80Dcr_memory :
    ends80 [0x3A7C] (step (at8080 0x00 0x0000 0x0000 0x3A7C 0x2400 0x0100 (flags80 0 0 0 0 0) [0x35] [(0x3A7C, 0x40)])) =
      some ⟨0x00, 0x0000, 0x0000, 0x3A7C, 0x2400, 0x0101, flags80 0 0 0 1 0, [(0x3A7C, 0x3F)]⟩ := by decide

/-- 95_test_vectors.md V-8T13 (48_i8080.md R459) -/
theorem test_i80Dcr :
    ends80 [] (step (at8080 0x00 0x0100 0x0000 0x0000 0x2400 0x0100 (flags80 0 0 0 0 0) [0x05] [])) =
      some ⟨0x00, 0x0000, 0x0000, 0x0000, 0x2400, 0x0101, flags80 0 1 1 1 0, []⟩ := by decide

/-- 48_i8080.md R460, its example -/
theorem test_i80Inx :
    ends80 [] (step (at8080 0x00 0x0000 0x38FF 0x0000 0x2400 0x0100 (flags80 0 0 0 0 0) [0x13] [])) =
      some ⟨0x00, 0x0000, 0x3900, 0x0000, 0x2400, 0x0101, flags80 0 0 0 0 0, []⟩ := by decide

/-- 48_i8080.md R461, its example -/
theorem test_i80Dcx :
    ends80 [] (step (at8080 0x00 0x0000 0x0000 0x9800 0x2400 0x0100 (flags80 0 0 0 0 0) [0x2B] [])) =
      some ⟨0x00, 0x0000, 0x0000, 0x97FF, 0x2400, 0x0101, flags80 0 0 0 0 0, []⟩ := by decide

/-- 95_test_vectors.md V-8T14 (48_i8080.md R462) -/
theorem test_i80Dad :
    ends80 [] (step (at8080 0x00 0x339F 0x0000 0xA17B 0x2400 0x0100 (flags80 0 0 0 0 0) [0x09] [])) =
      some ⟨0x00, 0x339F, 0x0000, 0xD51A, 0x2400, 0x0101, flags80 0 0 0 0 0, []⟩ := by decide

/-- 95_test_vectors.md V-8T15 (48_i8080.md R462) -/
theorem test_i80Dad_carry :
    ends80 [] (step (at8080 0x00 0x0000 0x0000 0x8001 0x2400 0x0100 (flags80 0 0 0 0 0) [0x29] [])) =
      some ⟨0x00, 0x0000, 0x0000, 0x0002, 0x2400, 0x0101, flags80 0 0 0 0 1, []⟩ := by decide

/-- 95_test_vectors.md V-8T16 (48_i8080.md R463) -/
theorem test_i80Daa_carry :
    ends80 [] (step (at8080 0x9B 0x0000 0x0000 0x0000 0x2400 0x0100 (flags80 0 0 0 0 0) [0x27] [])) =
      some ⟨0x01, 0x0000, 0x0000, 0x0000, 0x2400, 0x0101, flags80 0 0 1 0 1, []⟩ := by decide

/-- 95_test_vectors.md V-8T17 (48_i8080.md R463) -/
theorem test_i80Daa_half_carry :
    ends80 [] (step (at8080 0x15 0x0000 0x0000 0x0000 0x2400 0x0100 (flags80 0 0 1 0 0) [0x27] [])) =
      some ⟨0x1B, 0x0000, 0x0000, 0x0000, 0x2400, 0x0101, flags80 0 0 0 1 0, []⟩ := by decide

/-! ### 8080: logic, compare, rotate -/

/-- 95_test_vectors.md V-8T18 (48_i8080.md R464) -/
theorem test_i80Ana :
    ends80 [] (step (at8080 0xFC 0x000F 0x0000 0x0000 0x2400 0x0100 (flags80 0 0 0 0 0) [0xA1] [])) =
      some ⟨0x0C, 0x000F, 0x0000, 0x0000, 0x2400, 0x0101, flags80 0 0 1 1 0, []⟩ := by decide

/-- 48_i8080.md R465, its example -/
theorem test_i80Ani :
    ends80 [] (step (at8080 0x3A 0x0000 0x0000 0x0000 0x2400 0x0100 (flags80 0 0 0 0 0) [0xE6, 0x0F] [])) =
      some ⟨0x0A, 0x0000, 0x0000, 0x0000, 0x2400, 0x0102, flags80 0 0 1 1 0, []⟩ := by decide

/-- 48_i8080.md R466, its example -/
theorem test_i80Xra :
    ends80 [] (step (at8080 0xFF 0x0F00 0x0000 0x0000 0x2400 0x0100 (flags80 0 0 1 0 1) [0xA8] [])) =
      some ⟨0xF0, 0x0F00, 0x0000, 0x0000, 0x2400, 0x0101, flags80 1 0 0 1 0, []⟩ := by decide

/-- 48_i8080.md R467, its example -/
theorem test_i80Xri :
    ends80 [] (step (at8080 0x3B 0x0000 0x0000 0x0000 0x2400 0x0100 (flags80 0 0 0 0 0) [0xEE, 0x81] [])) =
      some ⟨0xBA, 0x0000, 0x0000, 0x0000, 0x2400, 0x0102, flags80 1 0 0 0 0, []⟩ := by decide

/-- 48_i8080.md R468, its example -/
theorem test_i80Ora :
    ends80 [] (step (at8080 0x33 0x000F 0x0000 0x0000 0x2400 0x0100 (flags80 0 0 0 0 0) [0xB1] [])) =
      some ⟨0x3F, 0x000F, 0x0000, 0x0000, 0x2400, 0x0101, flags80 0 0 0 1 0, []⟩ := by decide

/-- 48_i8080.md R469, its example -/
theorem test_i80Ori :
    ends80 [] (step (at8080 0xB5 0x0000 0x0000 0x0000 0x2400 0x0100 (flags80 0 0 0 0 0) [0xF6, 0x0F] [])) =
      some ⟨0xBF, 0x0000, 0x0000, 0x0000, 0x2400, 0x0102, flags80 1 0 0 0 0, []⟩ := by decide

/-- 95_test_vectors.md V-8T20 (48_i8080.md R470) -/
theorem test_i80Cmp :
    ends80 [] (step (at8080 0x02 0x0000 0x0005 0x0000 0x2400 0x0100 (flags80 0 0 0 0 0) [0xBB] [])) =
      some ⟨0x02, 0x0000, 0x0005, 0x0000, 0x2400, 0x0101, flags80 1 0 0 0 1, []⟩ := by decide

/-- 48_i8080.md R471, its example -/
theorem test_i80Cpi :
    ends80 [] (step (at8080 0x4A 0x0000 0x0000 0x0000 0x2400 0x0100 (flags80 0 0 0 0 0) [0xFE, 0x40] [])) =
      some ⟨0x4A, 0x0000, 0x0000, 0x0000, 0x2400, 0x0102, flags80 0 0 1 1 0, []⟩ := by decide

/-- 95_test_vectors.md V-8T21 (48_i8080.md R472) -/
theorem test_i80Rlc :
    ends80 [] (step (at8080 0xF2 0x0000 0x0000 0x0000 0x2400 0x0100 (flags80 0 0 0 0 0) [0x07] [])) =
      some ⟨0xE5, 0x0000, 0x0000, 0x0000, 0x2400, 0x0101, flags80 0 0 0 0 1, []⟩ := by decide

/-- 48_i8080.md R473, its example -/
theorem test_i80Rrc :
    ends80 [] (step (at8080 0xF2 0x0000 0x0000 0x0000 0x2400 0x0100 (flags80 0 0 0 0 0) [0x0F] [])) =
      some ⟨0x79, 0x0000, 0x0000, 0x0000, 0x2400, 0x0101, flags80 0 0 0 0 0, []⟩ := by decide

/-- 48_i8080.md R474, its example -/
theorem test_i80Ral :
    ends80 [] (step (at8080 0xB5 0x0000 0x0000 0x0000 0x2400 0x0100 (flags80 0 0 0 0 0) [0x17] [])) =
      some ⟨0x6A, 0x0000, 0x0000, 0x0000, 0x2400, 0x0101, flags80 0 0 0 0 1, []⟩ := by decide

/-- 95_test_vectors.md V-8T22 (48_i8080.md R475) -/
theorem test_i80Rar :
    ends80 [] (step (at8080 0x6A 0x0000 0x0000 0x0000 0x2400 0x0100 (flags80 0 0 0 0 1) [0x1F] [])) =
      some ⟨0xB5, 0x0000, 0x0000, 0x0000, 0x2400, 0x0101, flags80 0 0 0 0 0, []⟩ := by decide

/-- 48_i8080.md R476, its example -/
theorem test_i80Cma :
    ends80 [] (step (at8080 0x51 0x0000 0x0000 0x0000 0x2400 0x0100 (flags80 0 0 0 0 0) [0x2F] [])) =
      some ⟨0xAE, 0x0000, 0x0000, 0x0000, 0x2400, 0x0101, flags80 0 0 0 0 0, []⟩ := by decide

/-- 48_i8080.md R477, its example -/
theorem test_i80Cmc :
    ends80 [] (step (at8080 0x00 0x0000 0x0000 0x0000 0x2400 0x0100 (flags80 0 0 0 0 1) [0x3F] [])) =
      some ⟨0x00, 0x0000, 0x0000, 0x0000, 0x2400, 0x0101, flags80 0 0 0 0 0, []⟩ := by decide

/-- 48_i8080.md R478, its example -/
theorem test_i80Stc :
    ends80 [] (step (at8080 0x00 0x0000 0x0000 0x0000 0x2400 0x0100 (flags80 0 0 0 0 0) [0x37] [])) =
      some ⟨0x00, 0x0000, 0x0000, 0x0000, 0x2400, 0x0101, flags80 0 0 0 0 1, []⟩ := by decide

/-! ### 8080: control -/

/-- 49_i8080_control.md R500, its example -/
theorem test_i80Jmp :
    ends80 [] (step (at8080 0x00 0x0000 0x0000 0x0000 0x2400 0x0200 (flags80 0 0 0 0 0) [0xC3, 0x00, 0x01] [])) =
      some ⟨0x00, 0x0000, 0x0000, 0x0000, 0x2400, 0x0100, flags80 0 0 0 0 0, []⟩ := by decide

/-- 95_test_vectors.md V-8C1 (49_i8080_control.md R501) -/
theorem test_i80Jz_not_taken :
    ends80 [] (step (at8080 0x00 0x0000 0x0000 0x0000 0x2400 0x0100 (flags80 0 0 0 0 0) [0xCA, 0x00, 0x02] [])) =
      some ⟨0x00, 0x0000, 0x0000, 0x0000, 0x2400, 0x0103, flags80 0 0 0 0 0, []⟩ := by decide

/-- 49_i8080_control.md R501, its example -/
theorem test_i80Jz_taken :
    ends80 [] (step (at8080 0x00 0x0000 0x0000 0x0000 0x2400 0x0100 (flags80 0 1 0 0 0) [0xCA, 0x00, 0x02] [])) =
      some ⟨0x00, 0x0000, 0x0000, 0x0000, 0x2400, 0x0200, flags80 0 1 0 0 0, []⟩ := by decide

/-- 49_i8080_control.md R501 (condition codes of 48_i8080.md R423) -/
theorem test_i80Jnz_taken :
    ends80 [] (step (at8080 0x00 0x0000 0x0000 0x0000 0x2400 0x0100 (flags80 0 0 0 0 0) [0xC2, 0x34, 0x12] [])) =
      some ⟨0x00, 0x0000, 0x0000, 0x0000, 0x2400, 0x1234, flags80 0 0 0 0 0, []⟩ := by decide

/-- 49_i8080_control.md R501 (condition codes of 48_i8080.md R423) -/
theorem test_i80Jnc_taken :
    ends80 [] (step (at8080 0x00 0x0000 0x0000 0x0000 0x2400 0x0100 (flags80 0 0 0 0 0) [0xD2, 0x34, 0x12] [])) =
      some ⟨0x00, 0x0000, 0x0000, 0x0000, 0x2400, 0x1234, flags80 0 0 0 0 0, []⟩ := by decide

/-- 49_i8080_control.md R501 (condition codes of 48_i8080.md R423) -/
theorem test_i80Jc_taken :
    ends80 [] (step (at8080 0x00 0x0000 0x0000 0x0000 0x2400 0x0100 (flags80 0 0 0 0 1) [0xDA, 0x34, 0x12] [])) =
      some ⟨0x00, 0x0000, 0x0000, 0x0000, 0x2400, 0x1234, flags80 0 0 0 0 1, []⟩ := by decide

/-- 49_i8080_control.md R501 (condition codes of 48_i8080.md R423) -/
theorem test_i80Jpo_taken :
    ends80 [] (step (at8080 0x00 0x0000 0x0000 0x0000 0x2400 0x0100 (flags80 0 0 0 0 0) [0xE2, 0x34, 0x12] [])) =
      some ⟨0x00, 0x0000, 0x0000, 0x0000, 0x2400, 0x1234, flags80 0 0 0 0 0, []⟩ := by decide

/-- 49_i8080_control.md R501 (condition codes of 48_i8080.md R423) -/
theorem test_i80Jpe_taken :
    ends80 [] (step (at8080 0x00 0x0000 0x0000 0x0000 0x2400 0x0100 (flags80 0 0 0 1 0) [0xEA, 0x34, 0x12] [])) =
      some ⟨0x00, 0x0000, 0x0000, 0x0000, 0x2400, 0x1234, flags80 0 0 0 1 0, []⟩ := by decide

/-- 49_i8080_control.md R501 (condition codes of 48_i8080.md R423) -/
theorem test_i80Jp_taken :
    ends80 [] (step (at8080 0x00 0x0000 0x0000 0x0000 0x2400 0x0100 (flags80 0 0 0 0 0) [0xF2, 0x34, 0x12] [])) =
      some ⟨0x00, 0x0000, 0x0000, 0x0000, 0x2400, 0x1234, flags80 0 0 0 0 0, []⟩ := by decide

/-- 49_i8080_control.md R501 (condition codes of 48_i8080.md R423) -/
theorem test_i80Jm_taken :
    ends80 [] (step (at8080 0x00 0x0000 0x0000 0x0000 0x2400 0x0100 (flags80 1 0 0 0 0) [0xFA, 0x34, 0x12] [])) =
      some ⟨0x00, 0x0000, 0x0000, 0x0000, 0x2400, 0x1234, flags80 1 0 0 0 0, []⟩ := by decide

/-- 95_test_vectors.md V-8C2 (49_i8080_control.md R502) -/
theorem test_i80Call :
    ends80 [0x23FF, 0x23FE] (step (at8080 0x00 0x0000 0x0000 0x0000 0x2400 0x0100 (flags80 0 0 0 0 0) [0xCD, 0x00, 0x10] [])) =
      some ⟨0x00, 0x0000, 0x0000, 0x0000, 0x23FE, 0x1000, flags80 0 0 0 0 0, [(0x23FF, 0x01), (0x23FE, 0x03)]⟩ := by decide

/-- 95_test_vectors.md V-8C3 (49_i8080_control.md R502) -/
theorem test_i80Call_stack_wraps :
    ends80 [0x0000, 0xFFFF] (step (at8080 0x00 0x0000 0x0000 0x0000 0x0001 0x0100 (flags80 0 0 0 0 0) [0xCD, 0x00, 0x10] [])) =
      some ⟨0x00, 0x0000, 0x0000, 0x0000, 0xFFFF, 0x1000, flags80 0 0 0 0 0, [(0x0000, 0x01), (0xFFFF, 0x03)]⟩ := by decide

/-- 95_test_vectors.md V-8C4 (49_i8080_control.md R503) -/
theorem test_i80Cc_not_taken :
    ends80 [] (step (at8080 0x00 0x0000 0x0000 0x0000 0x2400 0x0100 (flags80 0 0 0 0 0) [0xDC, 0x00, 0x10] [])) =
      some ⟨0x00, 0x0000, 0x0000, 0x0000, 0x2400, 0x0103, flags80 0 0 0 0 0, []⟩ := by decide

/-- 49_i8080_control.md R503 (condition codes of 48_i8080.md R423) -/
theorem test_i80Cnz_taken :
    ends80 [0x23FF, 0x23FE] (step (at8080 0x00 0x0000 0x0000 0x0000 0x2400 0x0100 (flags80 0 0 0 0 0) [0xC4, 0x00, 0x10] [])) =
      some ⟨0x00, 0x0000, 0x0000, 0x0000, 0x23FE, 0x1000, flags80 0 0 0 0 0, [(0x23FF, 0x01), (0x23FE, 0x03)]⟩ := by decide

/-- 49_i8080_control.md R503 (condition codes of 48_i8080.md R423) -/
theorem test_i80Cz_taken :
    ends80 [0x23FF, 0x23FE] (step (at8080 0x00 0x0000 0x0000 0x0000 0x2400 0x0100 (flags80 0 1 0 0 0) [0xCC, 0x00, 0x10] [])) =
      some ⟨0x00, 0x0000, 0x0000, 0x0000, 0x23FE, 0x1000, flags80 0 1 0 0 0, [(0x23FF, 0x01), (0x23FE, 0x03)]⟩ := by decide

/-- 49_i8080_control.md R503 (condition codes of 48_i8080.md R423) -/
theorem test_i80Cnc_taken :
    ends80 [0x23FF, 0x23FE] (step (at8080 0x00 0x0000 0x0000 0x0000 0x2400 0x0100 (flags80 0 0 0 0 0) [0xD4, 0x00, 0x10] [])) =
      some ⟨0x00, 0x0000, 0x0000, 0x0000, 0x23FE, 0x1000, flags80 0 0 0 0 0, [(0x23FF, 0x01), (0x23FE, 0x03)]⟩ := by decide

/-- 49_i8080_control.md R503 (condition codes of 48_i8080.md R423) -/
theorem test_i80Cc_taken :
    ends80 [0x23FF, 0x23FE] (step (at8080 0x00 0x0000 0x0000 0x0000 0x2400 0x0100 (flags80 0 0 0 0 1) [0xDC, 0x00, 0x10] [])) =
      some ⟨0x00, 0x0000, 0x0000, 0x0000, 0x23FE, 0x1000, flags80 0 0 0 0 1, [(0x23FF, 0x01), (0x23FE, 0x03)]⟩ := by decide

/-- 49_i8080_control.md R503 (condition codes of 48_i8080.md R423) -/
theorem test_i80Cpo_taken :
    ends80 [0x23FF, 0x23FE] (step (at8080 0x00 0x0000 0x0000 0x0000 0x2400 0x0100 (flags80 0 0 0 0 0) [0xE4, 0x00, 0x10] [])) =
      some ⟨0x00, 0x0000, 0x0000, 0x0000, 0x23FE, 0x1000, flags80 0 0 0 0 0, [(0x23FF, 0x01), (0x23FE, 0x03)]⟩ := by decide

/-- 49_i8080_control.md R503 (condition codes of 48_i8080.md R423) -/
theorem test_i80Cpe_taken :
    ends80 [0x23FF, 0x23FE] (step (at8080 0x00 0x0000 0x0000 0x0000 0x2400 0x0100 (flags80 0 0 0 1 0) [0xEC, 0x00, 0x10] [])) =
      some ⟨0x00, 0x0000, 0x0000, 0x0000, 0x23FE, 0x1000, flags80 0 0 0 1 0, [(0x23FF, 0x01), (0x23FE, 0x03)]⟩ := by decide

/-- 49_i8080_control.md R503 (condition codes of 48_i8080.md R423) -/
theorem test_i80Cp_taken :
    ends80 [0x23FF, 0x23FE] (step (at8080 0x00 0x0000 0x0000 0x0000 0x2400 0x0100 (flags80 0 0 0 0 0) [0xF4, 0x00, 0x10] [])) =
      some ⟨0x00, 0x0000, 0x0000, 0x0000, 0x23FE, 0x1000, flags80 0 0 0 0 0, [(0x23FF, 0x01), (0x23FE, 0x03)]⟩ := by decide

/-- 49_i8080_control.md R503 (condition codes of 48_i8080.md R423) -/
theorem test_i80Cm_taken :
    ends80 [0x23FF, 0x23FE] (step (at8080 0x00 0x0000 0x0000 0x0000 0x2400 0x0100 (flags80 1 0 0 0 0) [0xFC, 0x00, 0x10] [])) =
      some ⟨0x00, 0x0000, 0x0000, 0x0000, 0x23FE, 0x1000, flags80 1 0 0 0 0, [(0x23FF, 0x01), (0x23FE, 0x03)]⟩ := by decide

/-- 49_i8080_control.md R504, its example -/
theorem test_i80Ret :
    ends80 [] (step (at8080 0x00 0x0000 0x0000 0x0000 0x23FE 0x1000 (flags80 0 0 0 0 0) [0xC9] [(0x23FE, 0x03), (0x23FF, 0x01)])) =
      some ⟨0x00, 0x0000, 0x0000, 0x0000, 0x2400, 0x0103, flags80 0 0 0 0 0, []⟩ := by decide

/-- 95_test_vectors.md V-8C5 (49_i8080_control.md R505) -/
theorem test_i80Rm_taken :
    ends80 [] (step (at8080 0x00 0x0000 0x0000 0x0000 0x2400 0x0100 (flags80 1 0 0 0 0) [0xF8] [(0x2400, 0x34), (0x2401, 0x12)])) =
      some ⟨0x00, 0x0000, 0x0000, 0x0000, 0x2402, 0x1234, flags80 1 0 0 0 0, []⟩ := by decide

/-- 49_i8080_control.md R505 (condition codes of 48_i8080.md R423) -/
theorem test_i80Rnz_taken :
    ends80 [] (step (at8080 0x00 0x0000 0x0000 0x0000 0x2400 0x0100 (flags80 0 0 0 0 0) [0xC0] [(0x2400, 0x34), (0x2401, 0x12)])) =
      some ⟨0x00, 0x0000, 0x0000, 0x0000, 0x2402, 0x1234, flags80 0 0 0 0 0, []⟩ := by decide

/-- 49_i8080_control.md R505 (condition codes of 48_i8080.md R423) -/
theorem test_i80Rz_taken :
    ends80 [] (step (at8080 0x00 0x0000 0x0000 0x0000 0x2400 0x0100 (flags80 0 1 0 0 0) [0xC8] [(0x2400, 0x34), (0x2401, 0x12)])) =
      some ⟨0x00, 0x0000, 0x0000, 0x0000, 0x2402, 0x1234, flags80 0 1 0 0 0, []⟩ := by decide

/-- 49_i8080_control.md R505 (condition codes of 48_i8080.md R423) -/
theorem test_i80Rnc_taken :
    ends80 [] (step (at8080 0x00 0x0000 0x0000 0x0000 0x2400 0x0100 (flags80 0 0 0 0 0) [0xD0] [(0x2400, 0x34), (0x2401, 0x12)])) =
      some ⟨0x00, 0x0000, 0x0000, 0x0000, 0x2402, 0x1234, flags80 0 0 0 0 0, []⟩ := by decide

/-- 49_i8080_control.md R505 (condition codes of 48_i8080.md R423) -/
theorem test_i80Rc_taken :
    ends80 [] (step (at8080 0x00 0x0000 0x0000 0x0000 0x2400 0x0100 (flags80 0 0 0 0 1) [0xD8] [(0x2400, 0x34), (0x2401, 0x12)])) =
      some ⟨0x00, 0x0000, 0x0000, 0x0000, 0x2402, 0x1234, flags80 0 0 0 0 1, []⟩ := by decide

/-- 49_i8080_control.md R505 (condition codes of 48_i8080.md R423) -/
theorem test_i80Rpo_taken :
    ends80 [] (step (at8080 0x00 0x0000 0x0000 0x0000 0x2400 0x0100 (flags80 0 0 0 0 0) [0xE0] [(0x2400, 0x34), (0x2401, 0x12)])) =
      some ⟨0x00, 0x0000, 0x0000, 0x0000, 0x2402, 0x1234, flags80 0 0 0 0 0, []⟩ := by decide

/-- 49_i8080_control.md R505 (condition codes of 48_i8080.md R423) -/
theorem test_i80Rpe_taken :
    ends80 [] (step (at8080 0x00 0x0000 0x0000 0x0000 0x2400 0x0100 (flags80 0 0 0 1 0) [0xE8] [(0x2400, 0x34), (0x2401, 0x12)])) =
      some ⟨0x00, 0x0000, 0x0000, 0x0000, 0x2402, 0x1234, flags80 0 0 0 1 0, []⟩ := by decide

/-- 49_i8080_control.md R505 (condition codes of 48_i8080.md R423) -/
theorem test_i80Rp_taken :
    ends80 [] (step (at8080 0x00 0x0000 0x0000 0x0000 0x2400 0x0100 (flags80 0 0 0 0 0) [0xF0] [(0x2400, 0x34), (0x2401, 0x12)])) =
      some ⟨0x00, 0x0000, 0x0000, 0x0000, 0x2402, 0x1234, flags80 0 0 0 0 0, []⟩ := by decide

/-- 95_test_vectors.md V-8C6 (49_i8080_control.md R506) -/
theorem test_i80Rst :
    ends80 [0x23FF, 0x23FE] (step (at8080 0x00 0x0000 0x0000 0x0000 0x2400 0x0200 (flags80 0 0 0 0 0) [0xFF] [])) =
      some ⟨0x00, 0x0000, 0x0000, 0x0000, 0x23FE, 0x0038, flags80 0 0 0 0 0, [(0x23FF, 0x02), (0x23FE, 0x01)]⟩ := by decide

/-- 49_i8080_control.md R507, its example -/
theorem test_i80Pchl :
    ends80 [] (step (at8080 0x00 0x0000 0x0000 0x413E 0x2400 0x0100 (flags80 0 0 0 0 0) [0xE9] [])) =
      some ⟨0x00, 0x0000, 0x0000, 0x413E, 0x2400, 0x413E, flags80 0 0 0 0 0, []⟩ := by decide

/-! ### 8080: stack, ports, no operation -/

/-- 95_test_vectors.md V-8C7 (49_i8080_control.md R508) -/
theorem test_i80Push_psw :
    ends80 [0x5029, 0x5028] (step (at8080 0x1F 0x0000 0x0000 0x0000 0x502A 0x0100 (flags80 1 0 0 1 1) [0xF5] [])) =
      some ⟨0x1F, 0x0000, 0x0000, 0x0000, 0x5028, 0x0101, flags80 1 0 0 1 1, [(0x5029, 0x1F), (0x5028, 0x87)]⟩ := by decide

/-- 49_i8080_control.md R509, its example -/
theorem test_i80Pop :
    ends80 [] (step (at8080 0x00 0x0000 0x0000 0x0000 0x1239 0x0100 (flags80 0 0 0 0 0) [0xE1] [(0x1239, 0x3D), (0x123A, 0x93)])) =
      some ⟨0x00, 0x0000, 0x0000, 0x933D, 0x123B, 0x0101, flags80 0 0 0 0 0, []⟩ := by decide

/-- 95_test_vectors.md V-8C8 (49_i8080_control.md R509) -/
theorem test_i80Pop_psw :
    ends80 [] (step (at8080 0x00 0x0000 0x0000 0x0000 0x2400 0x0100 (flags80 0 0 0 0 0) [0xF1] [(0x2400, 0xFF), (0x2401, 0x00)])) =
      some ⟨0x00, 0x0000, 0x0000, 0x0000, 0x2402, 0x0101, flags80 1 1 1 1 1, []⟩ := by decide

/-- 95_test_vectors.md V-8C9 (49_i8080_control.md R510) -/
theorem test_i80Xthl :
    ends80 [0x10AD, 0x10AE] (step (at8080 0x00 0x0000 0x0000 0x0B3C 0x10AD 0x0100 (flags80 0 0 0 0 0) [0xE3] [(0x10AD, 0xF0), (0x10AE, 0x0D)])) =
      some ⟨0x00, 0x0000, 0x0000, 0x0DF0, 0x10AD, 0x0101, flags80 0 0 0 0 0, [(0x10AD, 0x3C), (0x10AE, 0x0B)]⟩ := by decide

/-- 49_i8080_control.md R511, its example -/
theorem test_i80Sphl :
    ends80 [] (step (at8080 0x00 0x0000 0x0000 0x506C 0x2400 0x0100 (flags80 0 0 0 0 0) [0xF9] [])) =
      some ⟨0x00, 0x0000, 0x0000, 0x506C, 0x506C, 0x0101, flags80 0 0 0 0 0, []⟩ := by decide

/-- 49_i8080_control.md R517, its example -/
theorem test_i80Nop :
    ends80 [] (step (at8080 0x00 0x0000 0x0000 0x0000 0x2400 0x0100 (flags80 0 0 0 0 0) [0x00] [])) =
      some ⟨0x00, 0x0000, 0x0000, 0x0000, 0x2400, 0x0101, flags80 0 0 0 0 0, []⟩ := by decide
/-- 95_test_vectors.md V-8C10 (49_i8080_control.md R512): the host answers 0x42. -/
theorem test_i80In : leaves (fun t => decide (t.i80.A = 0x42) && decide (t.i80.PC = 0x0102) && decide (t.io.inQ = []))
    (step { at8080 0x00 0x0000 0x0000 0x0000 0x2400 0x0100 (flags80 0 0 0 0 0) [0xDB, 0x10] [] with
      io := { inQ := [0x42], inCount := 0, outs := [] } }) = true := by decide

/-- 49_i8080_control.md R513, its example. -/
theorem test_i80Out : leaves (fun t => decide (t.io.outs = [(0xFE, 0x07)]))
    (step (at8080 0x07 0x0000 0x0000 0x0000 0x2400 0x0100 (flags80 0 0 0 0 0) [0xD3, 0xFE] [])) = true := by decide

/-- 95_test_vectors.md V-8C11 (49_i8080_control.md R516). -/
theorem test_i80Hlt : leaves (fun t => t.i80.halted && decide (t.i80.PC = 0x0011))
    (step (at8080 0x00 0x0000 0x0000 0x0000 0x2400 0x0010 (flags80 0 0 0 0 0) [0x76] [])) = true := by decide

/-- 95_test_vectors.md V-8E1, step 1 (49_i8080_control.md R514). -/
theorem test_i80Ei : leaves (fun t => t.i80.INTE && t.i80.eiPending && decide (t.i80.PC = 0x0101))
    (step (at8080 0x00 0x0000 0x0000 0x0000 0x2400 0x0100 (flags80 0 0 0 0 0) [0xFB, 0x00, 0x00] [])) = true := by decide

/-- An 8080 at 0x0102 with RST 7 requested: INTE, eiPending and halted as given. -/
def requested (inte pending halt : Bool) (code : List Byte) : State :=
  let s := at8080 0x00 0x0000 0x0000 0x0000 0x2400 0x0102 (flags80 0 0 0 0 0) code []
  { s with i80 := { s.i80 with intrRequested := true, intrOpcode := 0xFF, INTE := inte, eiPending := pending, halted := halt } }

/-- 95_test_vectors.md V-8E2, step 2 (R515): DI right after EI cancels it. -/
theorem test_i80Di : leaves (fun t => !t.i80.INTE && !t.i80.eiPending && decide (t.i80.PC = 0x0103))
    (step (requested true true false [0xF3])) = true := by decide

/-- 95_test_vectors.md V-8E1, step 3, and V-8E3, step 3 (R518): the acceptance pushes 0x0102, from a running or a halted core. -/
theorem test_i80_interrupt :
    ends80 [0x23FF, 0x23FE] (step (requested true false false [0x00])) =
      some ⟨0x00, 0x0000, 0x0000, 0x0000, 0x23FE, 0x0038, flags80 0 0 0 0 0, [(0x23FF, 0x01), (0x23FE, 0x02)]⟩ ∧
    leaves (fun t => decide (t.i80.PC = 0x0038) && !t.i80.halted && !t.i80.INTE) (step (requested true false true [0x00])) = true := by
  decide

/-- 95_test_vectors.md V-8E4, step 3 (R516): with INTE clear a halted core stays halted. -/
theorem test_i80_halted : leaves (fun t => t.i80.halted && decide (t.i80.PC = 0x0102)) (step (requested false false true [0x00])) = true := by
  decide

/-- 20_memory.md R50: the written byte is read back, writing the unlisted byte removes the cell. -/
theorem test_memory :
    ((Memory.write [] 0x1234 0x56).write 0x0010 0x78) = [(0x0010, 0x78), (0x1234, 0x56)] ∧
    (Memory.write [(0x0010, 0x78)] 0x0010 0x00) = [] := by decide

/-! ### Witnesses: states and operands that meet the hypotheses of the statements -/

/-- A boundary of the 6502 in binary mode, the carry clear. -/
def start : State := at06 0x12 0x34 0x56 0xFD (flags 0 0 0 0 0 0) [0xBD, 0xFF, 0x12] []

/-- A boundary in decimal mode with the other flags set. -/
def startDecimal : State := at06 0x99 0xFF 0xFF 0x00 (flags 1 1 1 1 1 1) [0xBD, 0xFF, 0x12] []

theorem ready_at6502 (pc : Addr) (a x y s : Byte) (p : Flags) (code : List Byte) (cells : List (Addr × Byte)) :
    Ready (at6502 pc a x y s p code cells) :=
  { phase := rfl, resN := rfl, resHeld := rfl, rdy := rfl, callerQ := rfl, sync := rfl, rw := rfl, jammed := rfl, intent := rfl }

theorem ready_start : Ready start := ready_at6502 _ _ _ _ _ _ _ _

theorem ready_startDecimal : Ready startDecimal := ready_at6502 _ _ _ _ _ _ _ _

theorem binary_start : ¬ isDecimal start := fun h => absurd h.2 (by decide)

theorem decimal_startDecimal : isDecimal startDecimal := ⟨by decide, rfl⟩

/-- Each load in the last mode of its list; `absx` crosses a page at `start` and not at reset, where X is 0. -/
theorem witness_LoadRegister : Ready start ∧ (Instr.lda .izy).wf = true ∧ (Instr.ldx .absy).wf = true ∧
    (Instr.ldy .absx).wf = true ∧ (Instr.lax .absy).wf = true ∧ crosses .absx start = true ∧ crosses .absx State.reset = false :=
  ⟨ready_start, by decide⟩

/-- TransferRegister, ShiftAccumulator, CountRegister, JumpAbsoluteIndirect, JumpSubroutine, ReturnSubroutine,
ReturnInterrupt, PushAndPull, FlagInstruction, UnstableImmediate: a boundary, at two extremes of S and of the flags. -/
theorem witness_boundary : Ready State.reset ∧ Ready start ∧ Ready startDecimal :=
  ⟨{ phase := rfl, resN := rfl, resHeld := rfl, rdy := rfl, callerQ := rfl, sync := rfl, rw := rfl, jammed := rfl,
     intent := rfl }, ready_start, ready_startDecimal⟩

theorem witness_StoreRegister : Ready start ∧ (Instr.sta .izy).wf = true ∧ (Instr.stx .zpy).wf = true ∧
    (Instr.sty .abs).wf = true ∧ (Instr.sax .zpy).wf = true := ⟨ready_start, by decide⟩

theorem witness_AddWithCarry : (Ready start ∧ (Instr.adc .izy).wf = true ∧ ¬ isDecimal start) ∧
    (Ready startDecimal ∧ (Instr.adc .imm).wf = true ∧ isDecimal startDecimal) :=
  ⟨⟨ready_start, by decide, binary_start⟩, ready_startDecimal, by decide, decimal_startDecimal⟩

theorem witness_SubtractWithCarry :
    (Ready start ∧ (Instr.sbc .imm).wf = true ∧ ¬ isDecimal start ∧ (Instr.sbcDup = .sbc .imm ∧ Instr.sbcDup.wf = true ∨
      Instr.sbcDup = .sbcDup ∧ Mode.imm = .imm)) ∧ (Ready startDecimal ∧ (Instr.sbc .izy).wf = true ∧ isDecimal startDecimal) :=
  ⟨⟨ready_start, by decide, binary_start, .inr ⟨rfl, rfl⟩⟩, ready_startDecimal, by decide, decimal_startDecimal⟩

theorem witness_DecimalArithmetic : IsBcd 0x99 ∧ IsBcd 0x00 ∧ IsBcd 0x09 ∧ IsBcd 0x90 := by unfold IsBcd; decide

theorem witness_LogicAccumulator : Ready start ∧ (Instr.and .izy).wf = true ∧ (Instr.ora .izx).wf = true ∧
    (Instr.eor .imm).wf = true := ⟨ready_start, by decide⟩

theorem witness_CompareAndBit : Ready start ∧ (Instr.cmp .izy).wf = true ∧ (Instr.cpx .abs).wf = true ∧
    (Instr.cpy .imm).wf = true ∧ (Instr.bit .zp).wf = true := ⟨ready_start, by decide⟩

theorem witness_ModifyMemory : Ready start ∧ Mode.absx ≠ .acc ∧ (Instr.asl .absx).wf = true ∧ (Instr.lsr .absx).wf = true ∧
    (Instr.rol .absx).wf = true ∧ (Instr.ror .absx).wf = true ∧ (Instr.inc .absx).wf = true ∧ (Instr.dec .absx).wf = true :=
  ⟨ready_start, by decide⟩

/-- ConditionalBranch: with every flag clear BPL, BVC, BCC and BNE are taken and the others not, with every flag set the other
way round. -/
theorem witness_ConditionalBranch : (Ready start ∧ start.P = flags 0 0 0 0 0 0) ∧
    (Ready startDecimal ∧ startDecimal.P = flags 1 1 1 1 1 1) := ⟨⟨ready_start, rfl⟩, ready_startDecimal, rfl⟩

/-- SoftwareBreak: without an NMI, and with one recognized by step 4 (an edge at the first sample, or a latched one). -/
theorem witness_SoftwareBreak :
    (Ready start ∧ nmiByStep4 start = false) ∧
    (Ready { start with nmiLatch := 0x0400 } ∧ nmiByStep4 { start with nmiLatch := 0x0400 } = true) ∧
    nmiByStep4 { start with nmiLatch := 0x0800 } = false :=
  ⟨⟨ready_start, by decide⟩, ⟨{ ready_start with }, by decide +kernel⟩, by decide +kernel⟩

theorem witness_UndocumentedNop : Ready start ∧ (Instr.nopU .impl 5).wf = true ∧ (Instr.nopU .absx 5).wf = true ∧
    (Instr.nopU .abs 0).wf = true := ⟨ready_start, by decide⟩

theorem witness_CombinedModify : Ready start ∧ (Instr.slo .izy).wf = true ∧ (Instr.rla .absy).wf = true ∧
    (Instr.sre .izx).wf = true ∧ (Instr.dcp .absx).wf = true := ⟨ready_start, by decide⟩

theorem witness_CombinedArithmetic :
    (Ready start ∧ ¬ isDecimal start ∧ (Instr.rra .izy).wf = true ∧ (Instr.isc .absy).wf = true) ∧
    (Ready startDecimal ∧ isDecimal startDecimal ∧ (Instr.rra .zp).wf = true ∧ (Instr.isc .absx).wf = true) :=
  ⟨⟨ready_start, binary_start, by decide⟩, ready_startDecimal, decimal_startDecimal, by decide⟩

theorem witness_ImmediateCombined : (Ready start ∧ ¬ isDecimal start) ∧ (Ready startDecimal ∧ isDecimal startDecimal) :=
  ⟨⟨ready_start, binary_start⟩, ready_startDecimal, decimal_startDecimal⟩

/-- UnstableStore: SHA in both modes, with and without a page crossing. -/
theorem witness_UnstableStore : Ready start ∧ (Instr.sha .absy).wf = true ∧ (Instr.sha .izy).wf = true ∧
    crosses .absy start = true ∧ crosses .absy State.reset = false := ⟨ready_start, by decide⟩

/-- JamStops, first clause: a boundary and any of the twelve opcodes. -/
theorem witness_JamStops_enter : Ready start ∧ (Instr.jam 11).wf = true := ⟨ready_start, by decide⟩

/-- The engine jammed by opcode 0xF2, at its step 1, its cycle no opcode fetch. -/
def jammedAt : State :=
  { start with jammed := true, IR := 0xF2, T := 1, pins := { start.pins with sync := false } }

theorem witness_JamStops_stay : Quiet jammedAt ∧ jammedAt.proc ≠ .i8080 ∧ jammedAt.pins.sync = false ∧ jammedAt.jammed = true ∧
    decode6502 jammedAt.IR = .jam 11 ∧ jammedAt.T = 1 :=
  ⟨{ phase := rfl, resN := rfl, resHeld := rfl, rdy := rfl, callerQ := rfl }, by decide⟩

theorem hijacked_start (i : Intent) (h : i ≠ .none) : Hijacked { start with intent := i } i :=
  { phase := rfl, resN := rfl, resHeld := rfl, rdy := rfl, callerQ := rfl, sync := rfl, rw := rfl, jammed := rfl, intent := rfl,
    taken := h }

theorem witness_InterruptEntry :
    (Hijacked { start with intent := .irq } .irq ∧ Intent.irq ≠ .reset ∧ start.proc ≠ .i8080) ∧
    (Hijacked { start with intent := .nmi } .nmi ∧ Intent.nmi ≠ .reset) :=
  ⟨⟨hijacked_start .irq (by decide), by decide⟩, hijacked_start .nmi (by decide), by decide⟩

/-- InterruptEntry, the clauses on Reset: a boundary hijacked by Reset, and one at which a pulse can come. -/
theorem witness_InterruptEntry_reset :
    Hijacked { start with intent := .reset, rstCnt := 2 } .reset ∧ start.proc ≠ .i8080 ∧
    Quiet start ∧ start.pins.sync = true ∧ start.pins.rw = true ∧ start.jammed = false :=
  ⟨{ phase := rfl, resN := rfl, resHeld := rfl, rdy := rfl, callerQ := rfl, sync := rfl, rw := rfl, jammed := rfl, intent := rfl,
     taken := by decide }, by decide, ready_start.toQuiet, rfl, rfl, rfl⟩

theorem witness_ResetSequence : Processor.mos6502 ≠ .i8080 ∧ Processor.mos6502NoDecimal ≠ .i8080 := by decide

/-- What a caller does that calls `set_reset` with these levels before a cycle and answers its read with 0x55. -/
def calling (levels : List Bool) : CallerInput :=
  { resetCalls := levels, irqN := true, nmiN := true, rdy := false, busWrites := [], readByte := some 0x55 }

/-- ResetLine, the queue's head: a pulse, its last call of level true. -/
theorem witness_ResetLine_queue :
    let s := { start with callerQ := [calling [false, true], calling []] }
    s.callerQ = calling [false, true] :: [calling []] ∧ (calling [false, true]).resetCalls = [false] ++ [true] := by decide

/-- ResetLine, the line low in the middle of an instruction: as it was, and as the caller's last call leaves it. -/
theorem witness_ResetLine_low :
    (let s := { jammedAt with pins := { jammedAt.pins with resN := false } };
      s.proc ≠ .i8080 ∧ s.phase = true ∧ (callerActs s).pins.resN = false) ∧
    (let s := { start with callerQ := [calling [true, false], calling [true]] };
      s.proc ≠ .i8080 ∧ s.phase = true ∧ (callerActs s).pins.resN = false) := by decide

/-- ResetLine, the line high again after it was held low: as it was, and by the caller's last call. -/
theorem witness_ResetLine_release :
    (let s := { start with resHeld := true, intent := .reset, rstCnt := 2 };
      s.proc ≠ .i8080 ∧ s.phase = true ∧ s.resHeld = true ∧ s.jammed = false ∧ (callerActs s).callerQ = [] ∧
        (callerActs s).pins.resN = true ∧ (callerActs s).pins.rdy = false) ∧
    (let s := { start with
        resHeld := true, intent := .reset, pins := { start.pins with resN := false }, callerQ := [calling [true]] };
      s.proc ≠ .i8080 ∧ s.phase = true ∧ s.resHeld = true ∧ s.jammed = false ∧ (callerActs s).callerQ = [] ∧
        (callerActs s).pins.resN = true ∧ (callerActs s).pins.rdy = false) := by decide

/-- ReadyStall, first and second clause: the ready line asserted at an opcode fetch. -/
theorem witness_ReadyStall :
    let s := { start with pins := { start.pins with rdy := true } }
    s.proc ≠ .i8080 ∧ s.phase = true ∧ s.callerQ = [] ∧ s.pins.resN = true ∧ s.resHeld = false ∧ s.pins.rdy = true ∧
      s.pins.rw = true ∧ s.dout = none ∧ (s.pins.sync = false → unstableWriteStep s.IR s.T = false) := by decide

/-- ReadyStall, first and second clause at an opcode fetch whose IR and T name an unstable store's write step (log entry 13). -/
theorem witness_ReadyStall_fetch :
    let s := { start with IR := 0x9E, T := 3, pins := { start.pins with rdy := true } }
    s.proc ≠ .i8080 ∧ s.phase = true ∧ s.callerQ = [] ∧ s.pins.resN = true ∧ s.resHeld = false ∧ s.pins.rdy = true ∧
      s.pins.rw = true ∧ s.dout = none ∧ s.pins.sync = true ∧ unstableWriteStep s.IR s.T = true ∧
      (s.pins.sync = false → unstableWriteStep s.IR s.T = false) := by decide

/-- ReadyStall, third clause: the ready line asserted in the cycle before SHX's write. -/
theorem witness_ReadyStall_refused :
    let s := { start with IR := 0x9E, T := 3, pins := { start.pins with rdy := true, sync := false } }
    s.proc ≠ .i8080 ∧ s.phase = true ∧ s.callerQ = [] ∧ s.pins.resN = true ∧ s.resHeld = false ∧ s.pins.rdy = true ∧
      s.pins.rw = true ∧ s.pins.sync = false ∧ unstableWriteStep s.IR s.T = true := by decide

/-- InterruptSampling: the first and the last latch bit that is shifted; ArbitrationPriority: the first and the last bit. -/
theorem witness_InterruptSampling : 0 < 15 ∧ 14 < 15 ∧ 0 < 16 ∧ 15 < 16 := by decide

/-- ArbitrationPriority, one state for each clause: Reset with both requests; NMI and IRQ; IRQ alone; an NMI one shift too
young. -/
theorem witness_ArbitrationPriority :
    (∃ s : State, s.intent = .reset ∧ s.nmiLatch.getLsbD 2 = true ∧ s.irqLatch.getLsbD 1 = true) ∧
    (∃ s : State, s.intent ≠ .reset ∧ ∃ j, 2 ≤ j ∧ j < 16 ∧ s.nmiLatch.getLsbD j = true) ∧
    (∃ s : State, s.intent ≠ .reset ∧ (¬ ∃ j, 2 ≤ j ∧ j < 16 ∧ s.nmiLatch.getLsbD j = true) ∧ s.irqLatch.getLsbD 1 = true) ∧
    (∃ s : State, s.intent ≠ .reset ∧ (¬ ∃ j, 2 ≤ j ∧ j < 16 ∧ s.nmiLatch.getLsbD j = true) ∧ ¬ s.irqLatch.getLsbD 1 = true) := by
  have none : ∀ j, ¬ (2 ≤ j ∧ j < 16 ∧ (0x0003 : BitVec 16).getLsbD j = true) := fun j h => by
    have : ∀ j < 16, 2 ≤ j → (0x0003 : BitVec 16).getLsbD j = false := by decide
    rw [this j h.2.1 h.1] at h
    exact absurd h.2.2 (by decide)
  exact ⟨⟨{ start with intent := .reset, nmiLatch := 4, irqLatch := 2 }, by decide⟩,
    ⟨{ start with nmiLatch := 0x8000, irqLatch := 2 }, by decide, 15, by decide +kernel⟩,
    ⟨{ start with nmiLatch := 3, irqLatch := 2 }, by decide, fun ⟨j, h⟩ => none j h, by decide +kernel⟩,
    ⟨{ start with nmiLatch := 3, irqLatch := 1 }, by decide, fun ⟨j, h⟩ => none j h, by decide +kernel⟩⟩

/-- MaskLatency: the IRQ line low, with I set and with I clear. -/
theorem witness_MaskLatency :
    let irq (s : State) : State := { s with pins := { s.pins with irqN := false } }
    (Ready (irq startDecimal) ∧ (irq startDecimal).pins.irqN = false ∧ (irq startDecimal).P.I = true) ∧
    (Ready (irq start) ∧ (irq start).pins.irqN = false ∧ (irq start).P.I = false ∧ (irq start).nmiLatch = 0) :=
  ⟨⟨{ phase := rfl, resN := rfl, resHeld := rfl, rdy := rfl, callerQ := rfl, sync := rfl, rw := rfl, jammed := rfl, intent := rfl },
      rfl, rfl⟩,
    { phase := rfl, resN := rfl, resHeld := rfl, rdy := rfl, callerQ := rfl, sync := rfl, rw := rfl, jammed := rfl, intent := rfl },
    rfl, rfl, rfl⟩

/-- ClockDivider: a count of 0 with the phase low, at construction, and with the phase high, at reset. -/
theorem witness_ClockDivider :
    ((State.constructed .mos6502NoDecimal PowerOn.zero []).divider.cnt = 0 ∧
      (State.constructed .mos6502NoDecimal PowerOn.zero []).phase = false) ∧
    (State.reset.divider.cnt = 0 ∧ State.reset.phase = true) := by decide

theorem witness_I80Move : ¬ (Reg8.m = .m ∧ Reg8.a = .m) ∧ ¬ (Reg8.b = .m ∧ Reg8.m = .m) := by decide

theorem witness_I80DecimalAdjust : IsBcd { I8080.reset with A := 0x99 }.A ∧ IsBcd 0x99 := by unfold IsBcd; decide

/-- I80PortsAndControl: a queued byte, and none. -/
theorem witness_I80PortsAndControl :
    (let s := { start with io := { inQ := [0x42], inCount := 0, outs := [] } };
      s.io.inQ = 0x42 :: []) ∧ start.io.inQ = [] := ⟨rfl, rfl⟩

/-- I80Frame: CALL, which stores, at SP = 0x0001. -/
theorem witness_I80Frame : (Instr.i80Call 0 0x1000).isFor .i8080 = true ∧
    ∃ t, exec (.i80Call 0 0x1000) (at8080 0x00 0x0000 0x0000 0x0000 0x0001 0x0103 (flags80 0 0 0 0 0) [] []) = .next t :=
  ⟨rfl, _, rfl⟩

/-- I80StepRule, one state for each clause: an interrupt accepted; a halted core; an instruction right after EI; nothing queued,
and a queue of two host inputs, with and without a reset call. -/
theorem witness_I80StepRule :
    (let c := (hostActs (requested true false false [0x00])).i80;
      c.intrRequested = true ∧ c.INTE = true ∧ c.eiPending = false) ∧
    (let c := (hostActs (requested false false true [0x00])).i80;
      c.INTE = false ∧ c.halted = true) ∧
    (let c := (hostActs (requested true true false [0x00])).i80;
      c.eiPending = true ∧ c.halted = false) ∧
    (let h (reset : Bool) : HostInput :=
        { resetCall := reset, intrRequested := true, intrOpcode := 0xC7, intrLo := 0, intrHi := 0 };
      let s (reset : Bool) : State := { requested true false true [0x00] with hostQ := [h reset, h false] };
      (requested true false true [0x00]).hostQ = [] ∧ (s true).proc = .i8080 ∧ (s true).hostQ = h true :: [h false] ∧
        (s false).hostQ = h false :: [h false] ∧ (hostActs (s false)).i80.halted = true ∧
        (hostActs (s true)).i80.halted = false) := by decide

/-- EncodeDecode: well-formed instructions of each set with their operand bytes, and bytes that decode. -/
theorem witness_EncodeDecode : (Instr.jam 11).wf = true ∧ ([] : List Byte).length = (Instr.jam 11).operandBytes ∧
    Instr.jsr.wf = true ∧ [(0x00 : Byte), 0xC0].length = Instr.jsr.operandBytes ∧
    (Instr.i80Jmp true 0xFFFF).wf = true ∧ ([] : List Byte).length = (Instr.i80Jmp true 0xFFFF).operandBytes ∧
    decode .mos6502NoDecimal [0xF2] = .instr (.jam 11) [] ∧ decode .mos6502 [0x20, 0x00, 0xC0, 0xEA] = .instr .jsr [0xEA] ∧
    decode .i8080 [0xCB, 0xFF, 0xFF, 0x00] = .instr (.i80Jmp true 0xFFFF) [0x00] := by decide

/-- InstructionLength, one for each clause with hypotheses: a JAM; the shortest and the longest instruction; a list that ends
inside an operand; LDA absolute,X at a boundary. -/
theorem witness_InstructionLength :
    decode6502 0xF2 = .jam 11 ∧
    (([] : List Byte).length + 1 = length6502 0xF2 ∧ [(0x34 : Byte), 0x12].length + 1 = length6502 0x9B) ∧
    [(0x34 : Byte)].length + 1 < length6502 0x9B ∧
    Ready start ∧ opcode6502 (.lda .absx) = some 0xBD ∧ .lda .absx ∉ controlFlow ∧ ∀ k, Instr.lda .absx ≠ .jam k :=
  ⟨by decide, by decide, by decide, ready_start, by decide, by decide, by decide⟩

/-- StepRunsDecoded, both clauses. -/
theorem witness_StepRunsDecoded :
    (start.proc ≠ .i8080 ∧ start.pins.sync = true ∧ start.pins.data = start.mem.read start.PC ∧
      decode start.proc (bytesAt start.mem start.PC) = .instr (.lda .absx) []) ∧
    (let s := requested false false false [0x3E, 0x55];
      s.proc = .i8080 ∧ s.hostQ = [] ∧ (s.i80.intrRequested && s.i80.INTE && !s.i80.eiPending) = false ∧ s.i80.halted = false ∧
        decode s.proc (bytesAt s.mem s.i80.PC) = .instr (.i80Mvi .a 0x55) [0x00]) := by decide

theorem inv_reset : Inv State.reset :=
  { mem := rfl, rstCnt := by decide, dout := rfl, sync := fun _ => rfl, pend := .inl rfl, legal := .inl rfl }

theorem witness_ExecIsDispatcher : Inv State.reset ∧ State.reset.proc ≠ .i8080 := ⟨inv_reset, by decide⟩

theorem witness_InvariantKept : Inv State.reset ∧ ∃ t, step State.reset = .next t := ⟨inv_reset, _, rfl⟩

theorem witness_InvariantAtReset : Memory.wf [] = true ∧ Memory.wf [(0, 1), (65535, 255)] = true := by decide

/-- StepNeverFaults: a state with `Inv` whose step is refused. -/
theorem witness_StepNeverFaults :
    let s := { start with IR := 0x9E, T := 3, pins := { start.pins with rdy := true, sync := false } }
    Inv s ∧ step s = .refused .unstableStoreStalled :=
  ⟨{ mem := by decide, rstCnt := by decide +kernel, dout := rfl, sync := fun h => rfl,
     pend := .inr (.inr ⟨rfl, rfl, rfl, rfl⟩), legal := .inr (.inr (by decide)) }, rfl⟩

theorem witness_MemoryReadsBack : Memory.wf [(0, 1), (65535, 255)] = true ∧ (0xFFFF : Addr) ≠ 0x0000 := by decide

end Sys2Proof.Tests
end

section
/-! The packed flag byte of the 6502 (10_state.md R30 to R32): bit by bit, from the bits of `bitAt`. -/

namespace Sys2Proof.Machine

/-- The only bit that `bitAt b k` can have is bit `k`, and it is `b`. -/
theorem getLsbD_bitAt (b : Bool) (k i : Nat) :
    (bitAt b k).getLsbD i = (decide (i < 8) && (decide (k = i) && b)) := by
  cases b with
  | false => simp [bitAt, bitNat]
  | true => simp only [bitAt, bitNat, if_true, one_mul, BitVec.getLsbD_ofNat, Nat.testBit_two_pow, Bool.and_true]

/-- A bit of a packed byte is the disjunction of the eight fields, each at its own position (R31). -/
theorem getLsbD_pack (p : Flags) (b : Bool) (i : Nat) :
    (pack p b).getLsbD i =
      (decide (i < 8) && (decide (7 = i) && p.N || decide (6 = i) && p.V || decide (5 = i) || decide (4 = i) && b ||
        decide (3 = i) && p.D || decide (2 = i) && p.I || decide (1 = i) && p.Z || decide (0 = i) && p.C)) := by
  simp only [pack, BitVec.getLsbD_or, getLsbD_bitAt, Bool.and_true, Bool.and_or_distrib_left]

/-- The break bit and bit 5 are not read, so unpacking undoes packing whatever the break bit is (R32). -/
theorem unpack_pack (p : Flags) (b : Bool) : unpack (pack p b) = p := by
  simp [unpack, getLsbD_pack, -BitVec.getLsbD_eq_getElem]

/-- Settles O34: the bits of a packed byte are `getLsbD_pack` at each position, the round trip is `unpack_pack`. -/
theorem packedFlags : Obligations.PackedFlags := by
  refine ⟨fun b => rfl, fun p b => ⟨unpack_pack p b, ?_⟩⟩
  simp [getLsbD_pack, -BitVec.getLsbD_eq_getElem]

end Sys2Proof.Machine
end

section
/-! Loads, stores and transfers (42_load_store.md R200 to R212; 47_illegal.md R377, R378): a mnemonic's table of modes, the
classes' completions for a mnemonic with a table, and the registers that each hook leaves. -/

namespace Sys2Proof.Machine

/-! ### The table of modes of a mnemonic -/

theorem exists_pick {m : Mode} {l : List (Mode × Byte)} (h : m ∈ l.map Prod.fst) : ∃ op, pick m l = some op := by
  induction l with
  | nil => cases h
  | cons p l ih =>
    obtain ⟨m', op⟩ := p
    by_cases e : m = m'
    · exact ⟨op, if_pos e⟩
    · obtain ⟨op', h'⟩ := ih (by simpa [e] using h)
      exact ⟨op', (if_neg e).trans h'⟩

/-- `l` is the table of modes and opcodes of a 6502 mnemonic: for the encoder, for well-formedness and for the decoder. -/
structure ModeTable (w : Mode → Instr) (l : List (Mode × Byte)) : Prop where
  encodes : ∀ m, opcode6502 (w m) = pick m l
  modes : ∀ m, (w m).wf = (l.map Prod.fst).contains m
  decodes : ∀ p ∈ l, decode6502 p.2 = w p.1

namespace ModeTable

variable {w : Mode → Instr} {l : List (Mode × Byte)} {s : State} {m : Mode} {a : Arch}

theorem mem_of_wf (T : ModeTable w l) (hw : (w m).wf = true) : m ∈ l.map Prod.fst :=
  List.contains_iff_mem.mp ((T.modes m).symm.trans hw)

theorem hasOpcodes (T : ModeTable w l) : HasOpcodes w l := ⟨T.decodes, fun _ => T.mem_of_wf⟩

theorem exists_opcode (T : ModeTable w l) (hw : (w m).wf = true) : ∃ op, opcode6502 (w m) = some op := by
  obtain ⟨op, h⟩ := exists_pick (T.mem_of_wf hw)
  exact ⟨op, (T.encodes m).trans h⟩

/-- Every well-formed form of a mnemonic of the read class completes. -/
theorem read_completes {hook : Byte → State → State} (T : ModeTable w l) (hl : l.map Prod.fst ⊆ readModes) (r : Ready s)
    (hw : (w m).wf = true) (he : exec (w m) s = runInstr (w m) (readSeq m hook) s) (hx : ∀ d x, RegsOnly x (hook d x))
    (ha : ∀ v : View, v.regs = { arch s with PC := pcAfter m s } → arch (hook (operandOf m s) (low s v)) = a) :
    Completes (w m) s a s.mem (readBus m s) := by
  obtain ⟨op, hop⟩ := T.exists_opcode hw
  exact Machine.read_completes hop r (hl (T.mem_of_wf hw)) he hx ha

/-- Every well-formed form of a mnemonic of the write class that stores a value of the registers completes: it stores the
value at the address of its mode and changes no register but PC (R204). -/
theorem store_completes {value : State → Byte} {b : Byte} (T : ModeTable w l) (hl : l.map Prod.fst ⊆ writeModes) (r : Ready s)
    (hw : (w m).wf = true) (he : exec (w m) s = runInstr (w m) (writeSeq m (storeValue value) id) s)
    (hv : ∀ u : View, u.regs = { arch s with PC := pcAfter m s } → value (low s u) = b) :
    CompletesStoring (w m) s { arch s with PC := pcAfter m s } [(effAddr m s, b)] (writeBus m s (effAddr m s) b) := by
  obtain ⟨op, hop⟩ := T.exists_opcode hw
  exact write_completes (ad := View.AD) (vl := fun u => value (low s u)) hop r (hl (T.mem_of_wf hw)) he
    (fun _ => rfl) (fun _ => rfl) (fun u hu => ⟨hu.AD, hv u hu.regs⟩) (fun _ h => h)

end ModeTable

/-! ### The registers after a load or transfer (R200) -/

theorem arch_loadA (v : Byte) (x : State) : arch (loadA v x) = { arch x with A := v, P := nz v (arch x).P } := rfl

theorem arch_loadX (v : Byte) (x : State) : arch (loadX v x) = { arch x with X := v, P := nz v (arch x).P } := rfl

theorem arch_loadY (v : Byte) (x : State) : arch (loadY v x) = { arch x with Y := v, P := nz v (arch x).P } := rfl

theorem arch_loadAX (v : Byte) (x : State) : arch (loadAX v x) = { arch x with A := v, X := v, P := nz v (arch x).P } := rfl

theorem arch_deferS (v : Byte) (x : State) : arch (deferS v x) = { arch x with S := v } := rfl

theorem regsOnly_loadA (v : Byte) (x : State) : RegsOnly x (loadA v x) := rfl

theorem regsOnly_loadX (v : Byte) (x : State) : RegsOnly x (loadX v x) := rfl

theorem regsOnly_loadY (v : Byte) (x : State) : RegsOnly x (loadY v x) := rfl

theorem regsOnly_loadAX (v : Byte) (x : State) : RegsOnly x (loadAX v x) := rfl

theorem regsOnly_deferS (v : Byte) (x : State) : RegsOnly x (deferS v x) := rfl

/-- A transfer completes: the committed source that its hook reads is the register at the boundary (R207 to R212; log
entry 14). -/
theorem transfer_completes {i : Instr} {op : Byte} {s : State} {src : State → Byte} {put : Byte → State → State} {b : Byte}
    {a : Arch} (hop : opcode6502 i = some op) (r : Ready s) (he : exec i s = runInstr i (implSeq fun x => put (src x) x) s)
    (hx : ∀ v x, RegsOnly x (put v x)) (hs : ∀ u : View, u.regs = { arch s with PC := s.PC + 1 } → src (low s u) = b)
    (ha : ∀ x, arch x = { arch s with PC := s.PC + 1 } → arch (put b x) = a) :
    Completes i s a s.mem [rd s.mem (s.PC + 1)] :=
  impl_completes hop r he (fun x => hx (src x) x) fun u hu => by
    rw [hs u hu]; exact ha _ ((arch_low s u).trans hu)

/-! ### The obligations -/

/-- Settles O1: each load is of the read class, and its hook leaves the operand and its N and Z. -/
theorem loadRegister : Obligations.LoadRegister := by
  intro s m r v after
  have lda : ModeTable .lda _ := ⟨fun _ => rfl, fun _ => rfl, by decide⟩
  have ldx : ModeTable .ldx _ := ⟨fun _ => rfl, fun _ => rfl, by decide⟩
  have ldy : ModeTable .ldy _ := ⟨fun _ => rfl, fun _ => rfl, by decide⟩
  have lax : ModeTable .lax _ := ⟨fun _ => rfl, fun _ => rfl, by decide⟩
  refine ⟨lda.hasOpcodes, ldx.hasOpcodes, ldy.hasOpcodes, lax.hasOpcodes, fun h => ?_, fun h => ?_, fun h => ?_, fun h => ?_⟩
  · exact lda.read_completes (by decide) r h rfl regsOnly_loadA fun u hu => by rw [arch_loadA, arch_low, hu]; rfl
  · exact ldx.read_completes (by decide) r h rfl regsOnly_loadX fun u hu => by rw [arch_loadX, arch_low, hu]; rfl
  · exact ldy.read_completes (by decide) r h rfl regsOnly_loadY fun u hu => by rw [arch_loadY, arch_low, hu]; rfl
  · exact lax.read_completes (by decide) r h rfl regsOnly_loadAX fun u hu => by rw [arch_loadAX, arch_low, hu]; rfl

/-- Settles O2: each transfer loads or, for TXS, defers the register at the boundary, and only the loads write N and Z. -/
theorem transferRegister : Obligations.TransferRegister := by
  intro s r done
  refine ⟨⟨rfl, ?tax⟩, ⟨rfl, ?tay⟩, ⟨rfl, ?txa⟩, ⟨rfl, ?tya⟩, ⟨rfl, ?tsx⟩, ⟨rfl, ?txs⟩⟩
  case tax =>
    exact transfer_completes (src := State.A) rfl r rfl regsOnly_loadX (fun _ hu => congrArg Arch.A hu)
      fun x hx => by rw [arch_loadX, hx]; rfl
  case tay =>
    exact transfer_completes (src := State.A) rfl r rfl regsOnly_loadY (fun _ hu => congrArg Arch.A hu)
      fun x hx => by rw [arch_loadY, hx]; rfl
  case txa =>
    exact transfer_completes (src := State.X) rfl r rfl regsOnly_loadA (fun _ hu => congrArg Arch.X hu)
      fun x hx => by rw [arch_loadA, hx]; rfl
  case tya =>
    exact transfer_completes (src := State.Y) rfl r rfl regsOnly_loadA (fun _ hu => congrArg Arch.Y hu)
      fun x hx => by rw [arch_loadA, hx]; rfl
  case tsx =>
    exact transfer_completes (src := State.S) rfl r rfl regsOnly_loadX (fun _ hu => congrArg Arch.S hu)
      fun x hx => by rw [arch_loadX, hx]; rfl
  case txs =>
    exact transfer_completes (src := State.X) rfl r rfl regsOnly_deferS (fun _ hu => congrArg Arch.X hu)
      fun x hx => by rw [arch_deferS, hx]; rfl

/-- Settles O3: each store is of the write class, and its value comes from registers that the address steps keep. -/
theorem storeRegister : Obligations.StoreRegister := by
  intro s m r done
  have sta : ModeTable .sta _ := ⟨fun _ => rfl, fun _ => rfl, by decide⟩
  have stx : ModeTable .stx _ := ⟨fun _ => rfl, fun _ => rfl, by decide⟩
  have sty : ModeTable .sty _ := ⟨fun _ => rfl, fun _ => rfl, by decide⟩
  have sax : ModeTable .sax _ := ⟨fun _ => rfl, fun _ => rfl, by decide⟩
  refine ⟨sta.hasOpcodes, stx.hasOpcodes, sty.hasOpcodes, sax.hasOpcodes, fun h => ?_, fun h => ?_, fun h => ?_, fun h => ?_⟩
  · exact sta.store_completes (by decide) r h rfl fun u hu => congrArg Arch.A hu
  · exact stx.store_completes (by decide) r h rfl fun u hu => congrArg Arch.X hu
  · exact sty.store_completes (by decide) r h rfl fun u hu => congrArg Arch.Y hu
  · exact sax.store_completes (by decide) r h rfl fun u hu => congrArg (fun a : Arch => a.A &&& a.X) hu

end Sys2Proof.Machine
end

section
/-! Logic and compare (43_alu.md R234, R235, R242 to R248): the registers that each hook leaves, and the completion of a mnemonic
of each kind. -/

namespace Sys2Proof.Machine

theorem arch_logicA (r : Byte) (x : State) : arch (logicA r x) = { arch x with A := r, P := nz r (arch x).P } := rfl

theorem arch_setP (p : Flags) (x : State) : arch (setP p x) = { arch x with P := p } := rfl

theorem regsOnly_logicA (r : Byte) (x : State) : RegsOnly x (logicA r x) := rfl

theorem regsOnly_setP (p : Flags) (x : State) : RegsOnly x (setP p x) := rfl

namespace ModeTable

variable {w : Mode → Instr} {l : List (Mode × Byte)} {s : State} {m : Mode} {b : Byte}

/-- A mnemonic that puts `f` of A and the operand into A completes: the A that its hook reads is that of the boundary, since the
address steps keep it (R235). -/
theorem logic_completes {f : Byte → Byte → Byte} (T : ModeTable w l) (hl : l.map Prod.fst ⊆ readModes) (r : Ready s)
    (hw : (w m).wf = true) (he : exec (w m) s = runInstr (w m) (readSeq m fun v x => logicA (f x.A v) x) s) :
    Completes (w m) s
      { arch s with A := f (regA s) (operandOf m s), P := nz (f (regA s) (operandOf m s)) s.P, PC := pcAfter m s }
      s.mem (readBus m s) := by
  refine T.read_completes hl r hw he (fun v x => regsOnly_logicA (f x.A v) x) fun u hu => ?_
  have hA : (low s u).A = regA s := congrArg Arch.A hu
  rw [arch_logicA, arch_low, hA, hu]
  rfl

/-- A mnemonic that writes only flags, from a register and the operand, completes and changes no register but PC. -/
theorem flags_completes {flags : Byte → Byte → Flags → Flags} {reg : State → Byte} (T : ModeTable w l)
    (hl : l.map Prod.fst ⊆ readModes) (r : Ready s) (hw : (w m).wf = true)
    (he : exec (w m) s = runInstr (w m) (readSeq m fun v x => setP (flags (reg x) v x.P) x) s)
    (hreg : ∀ u : View, u.regs = { arch s with PC := pcAfter m s } → reg (low s u) = b) :
    Completes (w m) s { arch s with P := flags b (operandOf m s) s.P, PC := pcAfter m s } s.mem (readBus m s) := by
  refine T.read_completes hl r hw he (fun v x => regsOnly_setP (flags (reg x) v x.P) x) fun u hu => ?_
  have hP : (low s u).P = s.P := congrArg Arch.P hu
  rw [arch_setP, arch_low, hreg u hu, hP, hu]

/-- A compare completes with the flags of the subtraction (R234). -/
theorem compare_completes {reg : State → Byte} (T : ModeTable w l) (hl : l.map Prod.fst ⊆ readModes) (r : Ready s)
    (hw : (w m).wf = true) (he : exec (w m) s = runInstr (w m) (readSeq m fun v x => compareWith (reg x) v x) s)
    (hreg : ∀ u : View, u.regs = { arch s with PC := pcAfter m s } → reg (low s u) = b) :
    Completes (w m) s { arch s with P := cmpFlags b (operandOf m s) s.P, PC := pcAfter m s } s.mem (readBus m s) := by
  rw [← setCmp_eq]
  exact T.flags_completes hl r hw he hreg

end ModeTable

/-! ### The obligations -/

/-- Settles O7: each mnemonic is of the read class and puts its bitwise operation of A and the operand into A. -/
theorem logicAccumulator : Obligations.LogicAccumulator := by
  intro s m r done
  have and : ModeTable .and _ := ⟨fun _ => rfl, fun _ => rfl, by decide⟩
  have ora : ModeTable .ora _ := ⟨fun _ => rfl, fun _ => rfl, by decide⟩
  have eor : ModeTable .eor _ := ⟨fun _ => rfl, fun _ => rfl, by decide⟩
  refine ⟨and.hasOpcodes, ora.hasOpcodes, eor.hasOpcodes, fun h => ?_, fun h => ?_, fun h => ?_⟩
  · exact and.logic_completes (f := (· &&& ·)) (by decide) r h rfl
  · exact ora.logic_completes (f := (· ||| ·)) (by decide) r h rfl
  · exact eor.logic_completes (f := (· ^^^ ·)) (by decide) r h rfl

/-- Settles O8: each mnemonic is of the read class, and its hook writes flags only, from a register that the address steps
keep. -/
theorem compareAndBit : Obligations.CompareAndBit := by
  intro s m r v done
  have cmp : ModeTable .cmp _ := ⟨fun _ => rfl, fun _ => rfl, by decide⟩
  have cpx : ModeTable .cpx _ := ⟨fun _ => rfl, fun _ => rfl, by decide⟩
  have cpy : ModeTable .cpy _ := ⟨fun _ => rfl, fun _ => rfl, by decide⟩
  have bit : ModeTable .bit _ := ⟨fun _ => rfl, fun _ => rfl, by decide⟩
  refine ⟨cmp.hasOpcodes, cpx.hasOpcodes, cpy.hasOpcodes, bit.hasOpcodes, fun h => ?_, fun h => ?_, fun h => ?_, fun h => ?_⟩
  · exact cmp.compare_completes (by decide) r h rfl fun u hu => congrArg Arch.A hu
  · exact cpx.compare_completes (by decide) r h rfl fun u hu => congrArg Arch.X hu
  · exact cpy.compare_completes (by decide) r h rfl fun u hu => congrArg Arch.Y hu
  · exact bit.flags_completes (flags := setBit) (by decide) r h rfl fun u hu => congrArg Arch.A hu

end Sys2Proof.Machine
end

section
/-! Read-modify-write and counting (41_addressing.md R168; 44_rmw.md R270 to R280): the completion of a mnemonic of each kind,
from what its hook makes of the operand or of the index register. -/

namespace Sys2Proof.Machine

/-- Outside the accumulator form a shift is of the read-modify-write class (R271). -/
theorem shiftSeq_of_ne_acc {m : Mode} (f : Byte → Flags → Byte × Bool) (hm : m ≠ .acc) :
    shiftSeq m f = rmwSeq m (modifyShift f) noFinish := by
  cases m with
  | acc => exact absurd rfl hm
  | impl | imm | zp | zpx | zpy | abs | absx | absy | izx | izy | rel | ind => rfl

theorem arch_noFinish (v : Byte) (x : State) : arch (noFinish v x) = arch x := rfl

theorem regsOnly_noFinish (v : Byte) (x : State) : RegsOnly x (noFinish v x) := rfl

theorem setNZ_eq_nz (v : Byte) (p : Flags) : setNZ v p = nz v p := rfl

namespace ModeTable

variable {w : Mode → Instr} {l : List (Mode × Byte)} {s : State} {m : Mode} {b : Byte}

/-- Every well-formed memory form of a mnemonic without a `finish` hook completes: the operand is written back, then the byte that
`modify` makes of it, and only the flags change (R168). -/
theorem modify_completes {modify : Byte → Flags → Byte × Flags} {p : Flags} (T : ModeTable w l)
    (hl : l.map Prod.fst ⊆ .acc :: rmwModes) (r : Ready s) (hm : m ≠ .acc) (hw : (w m).wf = true)
    (he : exec (w m) s = runInstr (w m) (rmwSeq m modify noFinish) s) (hf : modify (operandOf m s) s.P = (b, p)) :
    CompletesStoring (w m) s { arch s with P := p, PC := pcAfter m s }
      [(effAddr m s, operandOf m s), (effAddr m s, b)] (rmwBus m s b) := by
  obtain ⟨op, hop⟩ := T.exists_opcode hw
  have hmem : m ∈ rmwModes := List.mem_of_ne_of_mem hm (hl (T.mem_of_wf hw))
  have done := rmw_completes hop r hmem he regsOnly_noFinish fun u hu => by rw [arch_noFinish, arch_low, hu]
  rwa [hf] at done

/-- A shift or rotate in memory completes: C is the bit that `f` shifts out, N and Z come from the byte it leaves (R270). -/
theorem shift_completes {f : Byte → Flags → Byte × Bool} {c : Bool} (T : ModeTable w l)
    (hl : l.map Prod.fst ⊆ .acc :: rmwModes) (r : Ready s) (hm : m ≠ .acc) (hw : (w m).wf = true)
    (he : exec (w m) s = runInstr (w m) (shiftSeq m f) s) (hf : f (operandOf m s) s.P = (b, c)) :
    CompletesStoring (w m) s { arch s with P := nz b { s.P with C := c }, PC := pcAfter m s }
      [(effAddr m s, operandOf m s), (effAddr m s, b)] (rmwBus m s b) := by
  rw [shiftSeq_of_ne_acc f hm] at he
  refine T.modify_completes hl r hm hw he ?_
  rw [modifyShift, hf, setNZ_eq_nz, setC]

end ModeTable

variable {i : Instr} {op : Byte} {s : State}

/-- An instruction that counts X completes: it counts the X of the boundary (R277, R279; log entry 14). -/
theorem countX_completes {f : Byte → Byte} (hop : opcode6502 i = some op) (r : Ready s)
    (he : exec i s = runInstr i (implSeq fun x => loadX (f x.X) x) s) :
    Completes i s { arch s with X := f (regX s), P := nz (f (regX s)) s.P, PC := s.PC + 1 } s.mem [rd s.mem (s.PC + 1)] :=
  transfer_completes (src := fun x => f x.X) hop r he regsOnly_loadX (fun _ hu => congrArg (fun a : Arch => f a.X) hu)
    fun x hx => by rw [arch_loadX, hx]; rfl

/-- An instruction that counts Y completes: it counts the Y of the boundary (R278, R280; log entry 14). -/
theorem countY_completes {f : Byte → Byte} (hop : opcode6502 i = some op) (r : Ready s)
    (he : exec i s = runInstr i (implSeq fun x => loadY (f x.Y) x) s) :
    Completes i s { arch s with Y := f (regY s), P := nz (f (regY s)) s.P, PC := s.PC + 1 } s.mem [rd s.mem (s.PC + 1)] :=
  transfer_completes (src := fun x => f x.Y) hop r he regsOnly_loadY (fun _ hu => congrArg (fun a : Arch => f a.Y) hu)
    fun x hx => by rw [arch_loadY, hx]; rfl

/-! ### The obligations -/

/-- Settles O10: each mnemonic is of the read-modify-write class in its memory forms, and its hook's result and carry are the
arithmetic of the statement. -/
theorem modifyMemory : Obligations.ModifyMemory := by
  intro s m r hm v done
  have asl : ModeTable .asl _ := ⟨fun _ => rfl, fun _ => rfl, by decide⟩
  have lsr : ModeTable .lsr _ := ⟨fun _ => rfl, fun _ => rfl, by decide⟩
  have rol : ModeTable .rol _ := ⟨fun _ => rfl, fun _ => rfl, by decide⟩
  have ror : ModeTable .ror _ := ⟨fun _ => rfl, fun _ => rfl, by decide⟩
  have inc : ModeTable .inc _ := ⟨fun _ => rfl, fun _ => rfl, by decide⟩
  have dec : ModeTable .dec _ := ⟨fun _ => rfl, fun _ => rfl, by decide⟩
  refine ⟨inc.hasOpcodes, dec.hasOpcodes, fun h => ?asl, fun h => ?lsr, fun h => ?rol, fun h => ?ror, fun h => ?inc,
    fun h => ?dec⟩
  case asl => exact asl.shift_completes (by decide) r hm h rfl (asl_eq v)
  case lsr => exact lsr.shift_completes (by decide) r hm h rfl rfl
  case rol => exact rol.shift_completes (by decide) r hm h rfl (rol_eq v s.P.C)
  case ror => exact ror.shift_completes (by decide) r hm h rfl (ror_eq v s.P.C)
  case inc => exact inc.modify_completes (by decide) r hm h rfl rfl
  case dec => exact dec.modify_completes (by decide) r hm h rfl rfl

/-- Settles O11: each instruction loads the index register with the next or the previous byte of its own. -/
theorem countRegister : Obligations.CountRegister := by
  intro s r done
  refine ⟨⟨rfl, ?inx⟩, ⟨rfl, ?iny⟩, ⟨rfl, ?dex⟩, ⟨rfl, ?dey⟩⟩
  case inx => exact countX_completes (f := (· + 1)) rfl r rfl
  case iny => exact countY_completes (f := (· + 1)) rfl r rfl
  case dex => exact countX_completes (f := (· - 1)) rfl r rfl
  case dey => exact countY_completes (f := (· - 1)) rfl r rfl

end Sys2Proof.Machine
end

section
/-! Branches, jumps, the subroutine call and its return (45_control.md R300 to R317): the completion of a branch by its condition,
and what the sequences of `Laws/ControlRuns.lean` give for each instruction. -/

namespace Sys2Proof.Machine

/-- An instruction whose meaning is a run that retires completes. -/
theorem completes_of_retires {i : Instr} {μ : Micro} {s : State} {a : Arch} {m : Memory} {bus : List BusCycle}
    (he : exec i s = runInstr i μ s) (h : ∃ t, runInstr i μ s = .next t ∧ Retires s t a m bus) : Completes i s a m bus := by
  obtain ⟨t, ht, hr⟩ := h
  exact ⟨t, he.trans ht, hr⟩

/-- A branch completes at the target where its condition on the flags holds, at the next instruction otherwise (R300). -/
theorem branch_completes {i : Instr} {op : Byte} {s : State} {cond : Flags → Bool} (hop : opcode6502 i = some op) (r : Ready s)
    (he : exec i s = runInstr i (branchSeq cond) s) :
    Completes i s { arch s with PC := if cond s.P then s.PC + 2 + sext16 (op1 s) else s.PC + 2 } s.mem
      (branchBus (cond s.P) s) :=
  completes_of_retires he (branch_retires hop r)

/-- JSR's pushes in order: the high byte at S, the low byte below it (R305). -/
theorem jsrMem_eq_writeAll (s : State) :
    jsrMem s = writeAll s.mem [(stk (regS s), hi (s.PC + 2)), (stk (regS s - 1), lo (s.PC + 2))] := rfl

/-! ### The obligations -/

/-- Settles O12: each instruction is the branch sequence with its own condition on one flag. -/
theorem conditionalBranch : Obligations.ConditionalBranch := by
  intro s r done
  refine ⟨⟨rfl, ?bpl⟩, ⟨rfl, ?bmi⟩, ⟨rfl, ?bvc⟩, ⟨rfl, ?bvs⟩, ⟨rfl, ?bcc⟩, ⟨rfl, ?bcs⟩, ⟨rfl, ?bne⟩, ⟨rfl, ?beq⟩⟩
  case bpl => exact branch_completes (cond := fun p => !p.N) rfl r rfl
  case bmi => exact branch_completes (cond := Flags.N) rfl r rfl
  case bvc => exact branch_completes (cond := fun p => !p.V) rfl r rfl
  case bvs => exact branch_completes (cond := Flags.V) rfl r rfl
  case bcc => exact branch_completes (cond := fun p => !p.C) rfl r rfl
  case bcs => exact branch_completes (cond := Flags.C) rfl r rfl
  case bne => exact branch_completes (cond := fun p => !p.Z) rfl r rfl
  case beq => exact branch_completes (cond := Flags.Z) rfl r rfl

/-- Settles O13: the pointer's second address `samePageNext` is the one of the statement. -/
theorem jumpAbsoluteIndirect : Obligations.JumpAbsoluteIndirect := by
  intro s r p q
  refine ⟨rfl, rfl, ?abs, ?ind⟩
  case abs => exact completes_of_retires rfl (jmpAbs_retires rfl r)
  case ind => exact completes_of_retires rfl (jmpInd_retires rfl r)

/-- Settles O14: the two pushes are the writes of `jsrMem`, the memory from which the target's high byte is read. -/
theorem jumpSubroutine : Obligations.JumpSubroutine := by
  intro s r ws m
  obtain ⟨t, ht, hr⟩ := jsr_retires (i := .jsr) rfl r
  rw [jsrMem_eq_writeAll] at hr
  exact ⟨rfl, storing ⟨t, ht, hr⟩⟩

/-- Settles O15: the address pulled is `stackedPC`. -/
theorem returnSubroutine : Obligations.ReturnSubroutine := by
  intro s r pulled
  exact ⟨rfl, completes_of_retires rfl (rts_retires rfl r)⟩

end Sys2Proof.Machine
end

section
/-! Stack instructions, flag instructions and NOP (46_stack_flags.md R340 to R351): the completion of a push, of a pull and of a
flag instruction, from the byte it pushes, what its hook makes of the byte it pulls, and what it makes of the flags. -/

namespace Sys2Proof.Machine

variable {i : Instr} {op : Byte} {s : State}

/-- A push completes: the value that its step computes is the one the registers of the boundary give (R340, R341). -/
theorem push_completes {value : State → Byte} {b : Byte} (hop : opcode6502 i = some op) (r : Ready s)
    (he : exec i s = runInstr i (pushSeq value) s)
    (hv : ∀ u : View, u.regs = { arch s with PC := s.PC + 1 } → value (low s u) = b) :
    CompletesStoring i s { arch s with S := regS s - 1, PC := s.PC + 1 } [(stk (regS s), b)]
      [rd s.mem (s.PC + 1), wr (stk (regS s)) b] :=
  storing (completes_of_retires he (push_retires hop r hv))

/-- A pull completes, from its hook's effect on the registers for the byte above S (R342, R343). -/
theorem pull_completes {hook : Byte → State → State} {a : Arch} (hop : opcode6502 i = some op) (r : Ready s)
    (he : exec i s = runInstr i (pullSeq hook) s) (hx : ∀ d x, RegsOnly x (hook d x))
    (ha : ∀ x, arch x = { arch s with S := regS s + 1, PC := s.PC + 1 } →
      arch (hook (s.mem.read (stk (regS s + 1))) x) = a) :
    Completes i s a s.mem [rd s.mem (s.PC + 1), rd s.mem (stk (regS s)), rd s.mem (stk (regS s + 1))] := by
  obtain ⟨w, t, ht, hw, hr⟩ := pull_retires hop r hx
  rw [ha _ ((arch_low s w).trans hw)] at hr
  exact ⟨t, he.trans ht, hr⟩

/-- An implied instruction that writes `f` of the flags completes and changes no register but PC (R344 to R350). -/
theorem setFlags_completes {f : Flags → Flags} (hop : opcode6502 i = some op) (r : Ready s)
    (he : exec i s = runInstr i (implSeq fun x => setP (f x.P) x) s) :
    Completes i s { arch s with P := f s.P, PC := s.PC + 1 } s.mem [rd s.mem (s.PC + 1)] := by
  refine impl_completes hop r he (fun x => regsOnly_setP (f x.P) x) fun u hu => ?_
  have hP : (low s u).P = s.P := congrArg Arch.P hu
  rw [arch_setP, arch_low, hP, hu]

/-! ### The obligations -/

/-- Settles O18: each push stores a value of the boundary's registers at S; PLA's hook is a load of A, PLP's unpacks the byte. -/
theorem pushAndPull : Obligations.PushAndPull := by
  intro s r b pushed pulled
  refine ⟨⟨rfl, ?pha⟩, ⟨rfl, ?php⟩, ⟨rfl, ?pla⟩, ⟨rfl, ?plp⟩⟩
  case pha => exact push_completes rfl r rfl fun u hu => congrArg Arch.A hu
  case php =>
    refine push_completes rfl r rfl fun u hu => ?_
    have hP : (low s u).P = s.P := congrArg Arch.P hu
    rw [hP]
  case pla => exact pull_completes (hook := loadA) rfl r rfl regsOnly_loadA fun x hx => by rw [arch_loadA, hx]; rfl
  case plp =>
    exact pull_completes (hook := fun v x => setP (unpack v) x) rfl r rfl (fun v x => regsOnly_setP (unpack v) x)
      fun x hx => by rw [arch_setP, hx]; rfl

/-- Settles O19: each flag instruction writes one flag with a constant, and NOP's hook is the identity. -/
theorem flagInstruction : Obligations.FlagInstruction := by
  intro s r done
  refine ⟨⟨rfl, ?clc⟩, ⟨rfl, ?sec⟩, ⟨rfl, ?cli⟩, ⟨rfl, ?sei⟩, ⟨rfl, ?cld⟩, ⟨rfl, ?sed⟩, ⟨rfl, ?clv⟩, ⟨rfl, ?nop⟩⟩
  case clc => exact setFlags_completes (f := fun p => { p with C := false }) rfl r rfl
  case sec => exact setFlags_completes (f := fun p => { p with C := true }) rfl r rfl
  case cli => exact setFlags_completes (f := fun p => { p with I := false }) rfl r rfl
  case sei => exact setFlags_completes (f := fun p => { p with I := true }) rfl r rfl
  case cld => exact setFlags_completes (f := fun p => { p with D := false }) rfl r rfl
  case sed => exact setFlags_completes (f := fun p => { p with D := true }) rfl r rfl
  case clv => exact setFlags_completes (f := fun p => { p with V := false }) rfl r rfl
  case nop => exact impl_completes (hook := id) rfl r rfl (fun _ => rfl) fun _ hu => hu

end Sys2Proof.Machine
end

section
/-! Combined read-modify-write operations (47_illegal.md R370 to R373, R375): the completion of a mnemonic of the class with both
hooks, and of one whose `finish` hook combines the result with A. -/

namespace Sys2Proof.Machine

namespace ModeTable

variable {w : Mode → Instr} {l : List (Mode × Byte)} {s : State} {m : Mode} {b : Byte}

/-- Every well-formed form of a mnemonic of the read-modify-write class completes: the operand is written back, then the byte that
`modify` makes of it, and `finish` acts on that byte with the flags of `modify` in place (R168, R172). -/
theorem rmw_completes {modify : Byte → Flags → Byte × Flags} {finish : Byte → State → State} {p : Flags} {a : Arch}
    (T : ModeTable w l) (hl : l.map Prod.fst ⊆ rmwModes) (r : Ready s) (hw : (w m).wf = true)
    (he : exec (w m) s = runInstr (w m) (rmwSeq m modify finish) s) (hx : ∀ d x, RegsOnly x (finish d x))
    (hf : modify (operandOf m s) s.P = (b, p))
    (ha : ∀ u : View, u.regs = { arch s with P := p, PC := pcAfter m s } → arch (finish b (low s u)) = a) :
    CompletesStoring (w m) s a [(effAddr m s, operandOf m s), (effAddr m s, b)] (rmwBus m s b) := by
  obtain ⟨op, hop⟩ := T.exists_opcode hw
  have done := Machine.rmw_completes (a := a) hop r (hl (T.mem_of_wf hw)) he hx (by rwa [hf])
  rwa [hf] at done

/-- A shift combined with a bitwise operation `g` on A completes: C is the bit that `f` shifts out, A is `g` of the boundary's A and
the shifted byte, N and Z come from that A (R371 to R373). -/
theorem shiftLogic_completes {f : Byte → Flags → Byte × Bool} {g : Byte → Byte → Byte} {c : Bool} (T : ModeTable w l)
    (hl : l.map Prod.fst ⊆ rmwModes) (r : Ready s) (hw : (w m).wf = true)
    (he : exec (w m) s = runInstr (w m) (rmwSeq m (modifyCarry f) fun v x => logicA (g x.A v) x) s)
    (hf : f (operandOf m s) s.P = (b, c)) :
    CompletesStoring (w m) s
      { arch s with A := g (regA s) b, P := nz (g (regA s) b) { s.P with C := c }, PC := pcAfter m s }
      [(effAddr m s, operandOf m s), (effAddr m s, b)] (rmwBus m s b) := by
  have hmodify : modifyCarry f (operandOf m s) s.P = (b, setC c s.P) := by rw [modifyCarry, hf]
  refine T.rmw_completes hl r hw he (fun v x => regsOnly_logicA (g x.A v) x) hmodify fun u hu => ?_
  have hA : (low s u).A = regA s := congrArg Arch.A hu
  rw [arch_logicA, arch_low, hA, hu, setC]

/-- A modification that leaves the flags alone, combined with a compare of A, completes: only the flags change, and they are those
of comparing A with the modified byte (R375). -/
theorem modifyCompare_completes {modify : Byte → Flags → Byte × Flags} (T : ModeTable w l) (hl : l.map Prod.fst ⊆ rmwModes)
    (r : Ready s) (hw : (w m).wf = true)
    (he : exec (w m) s = runInstr (w m) (rmwSeq m modify fun v x => compareWith x.A v x) s)
    (hf : modify (operandOf m s) s.P = (b, s.P)) :
    CompletesStoring (w m) s { arch s with P := cmpFlags (regA s) b s.P, PC := pcAfter m s }
      [(effAddr m s, operandOf m s), (effAddr m s, b)] (rmwBus m s b) := by
  refine T.rmw_completes hl r hw he (fun v x => regsOnly_setP (setCmp x.A v x.P) x) hf fun u hu => ?_
  have hA : (low s u).A = regA s := congrArg Arch.A hu
  have hP : (low s u).P = s.P := congrArg Arch.P hu
  rw [compareWith, arch_setP, arch_low, hA, hP, hu, setCmp_eq]

end ModeTable

/-! ### The obligations -/

/-- Settles O21: SLO, RLA and SRE are a shift combined with a bitwise operation on A, the shift's result and carry being the
arithmetic of the statement; DCP is a decrement combined with a compare of A. -/
theorem combinedModify : Obligations.CombinedModify := by
  intro s m r v done l rl sr
  have slo : ModeTable .slo _ := ⟨fun _ => rfl, fun _ => rfl, by decide⟩
  have rla : ModeTable .rla _ := ⟨fun _ => rfl, fun _ => rfl, by decide⟩
  have sre : ModeTable .sre _ := ⟨fun _ => rfl, fun _ => rfl, by decide⟩
  have dcp : ModeTable .dcp _ := ⟨fun _ => rfl, fun _ => rfl, by decide⟩
  refine ⟨slo.hasOpcodes, rla.hasOpcodes, sre.hasOpcodes, dcp.hasOpcodes, fun h => ?slo, fun h => ?rla, fun h => ?sre,
    fun h => ?dcp⟩
  case slo => exact slo.shiftLogic_completes (g := (· ||| ·)) (by decide) r h rfl (asl_eq v)
  case rla => exact rla.shiftLogic_completes (g := (· &&& ·)) (by decide) r h rfl (rol_eq v s.P.C)
  case sre => exact sre.shiftLogic_completes (g := (· ^^^ ·)) (by decide) r h rfl rfl
  case dcp => exact dcp.modifyCompare_completes (by decide) r h rfl rfl

end Sys2Proof.Machine
end

section
/-! The 8080's pair arithmetic and rotates (48_i8080.md R460 to R462, R472 to R478): what DCX and DAD leave for any pair, and the
rotates' bit insertions as the library's rotations and the arithmetic of `Laws/Arith.lean`. -/

namespace Sys2Proof.Machine

/-! ### Pairs (R460 to R462) -/

/-- A 16-bit sum exceeds 0xFFFF exactly when it wraps below its second addend. -/
theorem sum_carries_iff (a b : Addr) : a.toNat + b.toNat > 0xFFFF ↔ (a + b).toNat < b.toNat := by
  rw [BitVec.toNat_add]
  have ha := a.isLt
  have hb := b.isLt
  omega

theorem exec_i80Inx (rp : RegPair) (s : State) : exec (.i80Inx rp) s = .next (setI80Pair rp (i80Pair rp s + 1) s) := rfl

theorem exec_i80Dcx (rp : RegPair) (s : State) : exec (.i80Dcx rp) s = .next (setI80Pair rp (i80Pair rp s + -1) s) :=
  congrArg (fun v => Host.Outcome.next (setI80Pair rp v s)) (BitVec.sub_eq_add_neg (i80Pair rp s) 1)

theorem exec_i80Dad (rp : RegPair) (s : State) :
    exec (.i80Dad rp) s = .next (withI80 s { s.i80 with
      H := hi (regHL s + i80Pair rp s), L := lo (regHL s + i80Pair rp s),
      fCY := decide ((regHL s + i80Pair rp s).toNat < (i80Pair rp s).toNat) }) := by
  rw [← decide_eq_decide.mpr (sum_carries_iff (regHL s) (i80Pair rp s))]
  rfl

/-! ### Rotates (R472, R473) -/

/-- The bit that leaves at the left is the byte shifted right by seven. -/
theorem bitAt_msb (v : Byte) : bitAt (v.getLsbD 7) 0 = v >>> 7 := by
  apply BitVec.eq_of_getLsbD_eq
  intro i hlt
  rw [getLsbD_bitAt, BitVec.getLsbD_ushiftRight]
  obtain rfl | h := Nat.eq_zero_or_pos i
  · simp
  · simp [BitVec.getLsbD_of_ge v (7 + i) (by omega), h.ne]

/-- The bit that leaves at the right is the byte shifted left by seven. -/
theorem bitAt_lsb (v : Byte) : bitAt (v.getLsbD 0) 7 = v <<< 7 := by
  apply BitVec.eq_of_getLsbD_eq
  intro i hlt
  rw [getLsbD_bitAt, BitVec.getLsbD_shiftLeft]
  obtain rfl | h := Nat.eq_or_lt_of_le (Nat.le_of_lt_succ hlt)
  · simp
  · simp [h, h.ne']

/-- RLC's result is the library's rotation (R472). -/
theorem rotateLeft_one_eq (v : Byte) : (v <<< 1) ||| bitAt (v.getLsbD 7) 0 = v.rotateLeft 1 := by
  rw [bitAt_msb]
  rfl

/-- RRC's result is the library's rotation (R473). -/
theorem rotateRight_one_eq (v : Byte) : (v >>> 1) ||| bitAt (v.getLsbD 0) 7 = v.rotateRight 1 := by
  rw [bitAt_lsb]
  rfl

/-! ### The obligations -/

/-- Settles O40: DCX adds the negated one, and DAD's carry is that the sum wraps below the addend. -/
theorem i80Pairs : Obligations.I80Pairs := by
  intro s c set count dad
  refine ⟨fun b1 b2 => ⟨rfl, rfl, rfl, rfl, rfl, rfl, rfl, rfl, rfl, rfl, rfl, rfl⟩, ?inx, ?dcx, ?dad⟩
  case inx => exact ⟨exec_i80Inx .bc s, exec_i80Inx .de s, exec_i80Inx .hl s, exec_i80Inx .sp s⟩
  case dcx => exact ⟨exec_i80Dcx .bc s, exec_i80Dcx .de s, exec_i80Dcx .hl s, exec_i80Dcx .sp s⟩
  case dad => exact ⟨exec_i80Dad .bc s, exec_i80Dad .de s, exec_i80Dad .hl s, exec_i80Dad .sp s⟩

/-- Settles O43: RLC and RRC are rotations of the byte, RAL and RAR have the results of the 6502's `rol`
and `ror`. -/
theorem i80Rotate : Obligations.I80Rotate := by
  intro s c a rot
  have writes {r r' : Byte} (k : Bool) (h : r = r') : Host.Outcome.next (rotateI80 r k s) = rot r' k := congrArg (rot · k) h
  refine ⟨fun b1 b2 => ⟨rfl, rfl, rfl, rfl, rfl, rfl, rfl⟩, ?rlc, ?rrc, ?ral, ?rar, ?cma, ?cmc, ?stc⟩
  case rlc => exact writes _ (rotateLeft_one_eq a)
  case rrc => exact writes _ (rotateRight_one_eq a)
  case ral => exact writes _ (congrArg Prod.fst (rol_eq a c.fCY))
  case rar => exact writes _ (congrArg Prod.fst (ror_eq a c.fCY))
  case cma => exact writes c.fCY (BitVec.allOnes_sub_eq_not a).symm
  case cmc => rfl
  case stc => rfl

end Sys2Proof.Machine
end

section
/-! The arbitration (60_exceptions.md R525 to R527): the bits of its two masks, an NMI's recognition as a set bit, and the priority
as one lemma over the requests. -/

namespace Sys2Proof.Machine

/-! ### The masks of R525 and R527, bit by bit -/

theorem getLsbD_low2 : ∀ k < 16, (0x3 : BitVec 16).getLsbD k = decide (k < 2) := by decide

theorem getLsbD_high14 : ∀ k < 16, (0xFFFC : BitVec 16).getLsbD k = decide (2 ≤ k) := by decide

/-- The mask of R527 keeps a latch's low two bits. -/
theorem getLsbD_and_low2 (l : BitVec 16) {k : Nat} (hk : k < 16) :
    (l &&& 0x3).getLsbD k = (decide (k < 2) && l.getLsbD k) := by
  rw [BitVec.getLsbD_and, getLsbD_low2 k hk, Bool.and_comm]

/-- The mask of R525 keeps the bits that the mask of R527 loses. -/
theorem getLsbD_and_high14 (l : BitVec 16) {k : Nat} (hk : k < 16) :
    (l &&& 0xFFFC).getLsbD k = true ↔ 2 ≤ k ∧ l.getLsbD k = true := by
  rw [BitVec.getLsbD_and, getLsbD_high14 k hk, Bool.and_comm, Bool.and_eq_true, decide_eq_true_eq]

theorem ne_zero_iff_exists_getLsbD (l : BitVec 16) : l ≠ 0 ↔ ∃ j, j < 16 ∧ l.getLsbD j = true := by
  constructor
  · contrapose!
    intro unset
    exact BitVec.eq_of_getLsbD_eq fun j hj => by simpa using unset j hj
  · rintro ⟨j, -, hj⟩ rfl
    simp at hj

/-! ### Recognition and priority (R525, R526) -/

/-- An NMI is recognized where its edge has gone through two shifts (R525). -/
theorem nmiRecognized_iff (s : State) : nmiRecognized s = true ↔ ∃ j, 2 ≤ j ∧ j < 16 ∧ s.nmiLatch.getLsbD j = true := by
  rw [nmiRecognized, decide_eq_true_eq, ne_zero_iff_exists_getLsbD]
  exact exists_congr fun j => (and_congr_right fun hj => getLsbD_and_high14 s.nmiLatch hj).trans and_left_comm

theorem arbitrated_reset (nmi irq : Bool) : arbitrated .reset nmi irq = .reset := rfl

/-- Where no Reset is armed, the intent before the arbitration does not matter. -/
theorem arbitrated_of_ne_reset {i : Intent} (h : i ≠ .reset) (nmi irq : Bool) :
    arbitrated i nmi irq = if nmi then .nmi else if irq then .irq else .none := by
  cases i with
  | reset => exact absurd rfl h
  | none | irq | nmi => rfl

/-! ### The obligation -/

/-- Settles O32: the priority is `arbitrated_of_ne_reset` at each pair of requests, the masking `getLsbD_and_low2` of either latch. -/
theorem arbitrationPriority : Obligations.ArbitrationPriority := by
  intro s k hk t nmi irq
  have selects (h : s.intent ≠ .reset) : t.intent = if nmiRecognized s then .nmi else if irqRecognized s then .irq else .none :=
    arbitrated_of_ne_reset h _ _
  have noNmi (h : ¬ nmi) : ¬ nmiRecognized s = true := mt (nmiRecognized_iff s).mp h
  refine ⟨?reset, ?nmi, ?irq, ?none, getLsbD_and_low2 _ hk, getLsbD_and_low2 _ hk, rfl⟩
  case reset =>
    intro h
    rw [arbitrate_intent, h, arbitrated_reset]
  case nmi =>
    intro h hn
    rw [selects h, if_pos ((nmiRecognized_iff s).mpr hn)]
  case irq =>
    intro h hn hi
    rw [selects h, if_neg (noNmi hn)]
    exact if_pos hi
  case none =>
    intro h hn hi
    rw [selects h, if_neg (noNmi hn)]
    exact if_neg hi

end Sys2Proof.Machine
end

section
/-! Encoding and decoding in both directions (30_encoding.md R80, R84, R88, R92; 48_i8080.md R431, R433, R434): decoding with bytes
after the instruction, and what the bytes that decode are. -/

namespace Sys2Proof.Laws.Encoding

open Sys2Proof Sys2Proof.Machine

/-- The family `Encoding` as one lemma over the term. -/
theorem statement (i : Instr) : Statement i :=
  match i with
  | .lda m => lda m | .ldx m => ldx m | .ldy m => ldy m | .sta m => sta m | .stx m => stx m | .sty m => sty m
  | .tax => tax | .tay => tay | .txa => txa | .tya => tya | .tsx => tsx | .txs => txs | .adc m => adc m
  | .sbc m => sbc m | .and m => and m | .ora m => ora m | .eor m => eor m | .cmp m => cmp m | .cpx m => cpx m
  | .cpy m => cpy m | .bit m => bit m | .asl m => asl m | .lsr m => lsr m | .rol m => rol m | .ror m => ror m
  | .inc m => inc m | .dec m => dec m | .inx => inx | .iny => iny | .dex => dex | .dey => dey | .bpl => bpl
  | .bmi => bmi | .bvc => bvc | .bvs => bvs | .bcc => bcc | .bcs => bcs | .bne => bne | .beq => beq | .jmp m => jmp m
  | .jsr => jsr | .rts => rts | .rti => rti | .brk => brk | .pha => pha | .php => php | .pla => pla | .plp => plp
  | .clc => clc | .sec => sec | .cli => cli | .sei => sei | .cld => cld | .sed => sed | .clv => clv | .nop => nop
  | .slo m => slo m | .rla m => rla m | .sre m => sre m | .rra m => rra m | .dcp m => dcp m | .isc m => isc m
  | .sax m => sax m | .lax m => lax m | .anc dup => anc dup | .alr => alr | .arr => arr | .sbx => sbx
  | .sbcDup => sbcDup | .las => las | .nopU m k => nopU m k | .ane => ane | .lxa => lxa | .sha m => sha m
  | .shx => shx | .shy => shy | .tas => tas | .jam k => jam k | .i80Mov d s => i80Mov d s | .i80Mvi d v => i80Mvi d v
  | .i80Lxi rp v => i80Lxi rp v | .i80Lda a => i80Lda a | .i80Sta a => i80Sta a | .i80Lhld a => i80Lhld a
  | .i80Shld a => i80Shld a | .i80Ldax p => i80Ldax p | .i80Stax p => i80Stax p | .i80Xchg => i80Xchg
  | .i80Add s => i80Add s | .i80Adc s => i80Adc s | .i80Adi v => i80Adi v | .i80Aci v => i80Aci v
  | .i80Sub s => i80Sub s | .i80Sbb s => i80Sbb s | .i80Sui v => i80Sui v | .i80Sbi v => i80Sbi v
  | .i80Inr d => i80Inr d | .i80Dcr d => i80Dcr d | .i80Inx rp => i80Inx rp | .i80Dcx rp => i80Dcx rp
  | .i80Dad rp => i80Dad rp | .i80Daa => i80Daa | .i80Ana s => i80Ana s | .i80Ani v => i80Ani v
  | .i80Xra s => i80Xra s | .i80Xri v => i80Xri v | .i80Ora s => i80Ora s | .i80Ori v => i80Ori v
  | .i80Cmp s => i80Cmp s | .i80Cpi v => i80Cpi v | .i80Rlc => i80Rlc | .i80Rrc => i80Rrc | .i80Ral => i80Ral
  | .i80Rar => i80Rar | .i80Cma => i80Cma | .i80Cmc => i80Cmc | .i80Stc => i80Stc | .i80Jmp dup a => i80Jmp dup a
  | .i80Jnz a => i80Jnz a | .i80Jz a => i80Jz a | .i80Jnc a => i80Jnc a | .i80Jc a => i80Jc a | .i80Jpo a => i80Jpo a
  | .i80Jpe a => i80Jpe a | .i80Jp a => i80Jp a | .i80Jm a => i80Jm a | .i80Call k a => i80Call k a
  | .i80Cnz a => i80Cnz a | .i80Cz a => i80Cz a | .i80Cnc a => i80Cnc a | .i80Cc a => i80Cc a | .i80Cpo a => i80Cpo a
  | .i80Cpe a => i80Cpe a | .i80Cp a => i80Cp a | .i80Cm a => i80Cm a | .i80Ret dup => i80Ret dup | .i80Rnz => i80Rnz
  | .i80Rz => i80Rz | .i80Rnc => i80Rnc | .i80Rc => i80Rc | .i80Rpo => i80Rpo | .i80Rpe => i80Rpe | .i80Rp => i80Rp
  | .i80Rm => i80Rm | .i80Rst n => i80Rst n | .i80Pchl => i80Pchl | .i80Push p => i80Push p | .i80Pop p => i80Pop p
  | .i80Xthl => i80Xthl | .i80Sphl => i80Sphl | .i80In p => i80In p | .i80Out p => i80Out p | .i80Ei => i80Ei
  | .i80Di => i80Di | .i80Hlt => i80Hlt | .i80Nop k => i80Nop k

end Sys2Proof.Laws.Encoding

namespace Sys2Proof

open Sys2Proof.Machine

/-! ### Bytes after the instruction -/

theorem decodeBytes8080_one {op : Byte} (h : length8080 op = 1) (rest : List Byte) :
    decodeBytes8080 (op :: rest) = .instr (decode8080 op 0 0) rest := by
  match rest with
  | [] | [_] | _ :: _ :: _ => exact if_pos h

theorem decodeBytes8080_two {op b1 : Byte} (h : length8080 op = 2) (rest : List Byte) :
    decodeBytes8080 (op :: b1 :: rest) = .instr (decode8080 op b1 0) rest := by
  have h1 : ¬ length8080 op = 1 := by rw [h]; decide
  match rest with
  | [] | _ :: _ => exact (if_neg h1).trans (if_pos h)

theorem decodeBytes8080_three {op b1 b2 : Byte} (h1 : ¬ length8080 op = 1) (h2 : ¬ length8080 op = 2) (rest : List Byte) :
    decodeBytes8080 (op :: b1 :: b2 :: rest) = .instr (decode8080 op b1 b2) rest :=
  (if_neg h1).trans (if_neg h2)

theorem decodeBytes8080_append {bytes rest : List Byte} {i : Instr} (after : List Byte)
    (h : decodeBytes8080 bytes = .instr i rest) : decodeBytes8080 (bytes ++ after) = .instr i (rest ++ after) := by
  match bytes with
  | [] => cases h
  | [op] | [op, b1] | op :: b1 :: b2 :: tail =>
    simp only [decodeBytes8080] at h
    split_ifs at h <;> cases h <;> simp [decodeBytes8080_one, decodeBytes8080_two, decodeBytes8080_three, *]

theorem decode_append {p : Processor} {bytes rest : List Byte} {i : Instr} (after : List Byte)
    (h : decode p bytes = .instr i rest) : decode p (bytes ++ after) = .instr i (rest ++ after) := by
  cases p with
  | i8080 => exact decodeBytes8080_append after h
  | mos6502 | mos6502NoDecimal =>
    obtain ⟨op, operands, rfl, hlen, rfl⟩ := decodeBytes6502_eq_instr h
    rw [List.append_assoc]
    exact decodeBytes6502_append (rest ++ after) hlen

/-! ### The 8080: the bytes that an opcode reads -/

/-- `decode8080` with the 16-bit operand given as one value. -/
def decodeWith (op d8 : Byte) (d16 : Addr) : Instr :=
  match (field76 op).toNat with
  | 0 => decodeClass0 op d8 d16
  | 1 => decodeClass1 op
  | 2 => decodeClass2 op
  | _ => decodeClass3 op d8 d16

theorem decode8080_eq_decodeWith (op b1 b2 : Byte) : decode8080 op b1 b2 = decodeWith op b1 (operand16 b1 b2) := rfl

/-- The opcode with as many operand bytes as its length says (48_i8080.md R431). -/
def bytes8080 (op d8 : Byte) (d16 : Addr) : List Byte :=
  if length8080 op = 1 then [op] else if length8080 op = 2 then [op, d8] else with16 op d16

theorem with16_operand16 (op l h : Byte) : with16 op (operand16 l h) = [op, l, h] :=
  congrArg₂ (fun x y => [op, x, y]) (lo_cat h l) (hi_cat h l)

/-- What the rules of 48_i8080.md and 49_i8080_control.md say of the term an opcode decodes to. -/
structure Encodes8080 (i : Instr) (bytes : List Byte) : Prop where
  wf : i.wf = true
  opcode : opcode6502 i = none
  mode : i.mode = none
  bytes : encode8080 i = some bytes

theorem bitVec3_cases : ∀ x : BitVec 3, x = 0 ∨ x = 1 ∨ x = 2 ∨ x = 3 ∨ x = 4 ∨ x = 5 ∨ x = 6 ∨ x = 7 := by decide

theorem bitVec2_cases : ∀ x : BitVec 2, x = 0 ∨ x = 1 ∨ x = 2 ∨ x = 3 := by decide

/-- A byte is made of its three fields (48_i8080.md R431). -/
theorem opFields_eq (op : Byte) : opFields (field76 op) (field53 op) (field20 op) = op :=
  have all : ∀ n : Fin (2 ^ 8), let b : Byte := BitVec.ofFin n
      opFields (field76 b) (field53 b) (field20 b) = b := by decide +kernel
  all op.toFin

theorem decodeWith_encodes (op d8 : Byte) (d16 : Addr) : Encodes8080 (decodeWith op d8 d16) (bytes8080 op d8 d16) := by
  rw [← opFields_eq op]
  rcases bitVec2_cases (field76 op) with hc | hc | hc | hc <;>
    rcases bitVec3_cases (field53 op) with hy | hy | hy | hy | hy | hy | hy | hy <;>
    rcases bitVec3_cases (field20 op) with hz | hz | hz | hz | hz | hz | hz | hz <;>
    rw [hc, hy, hz] <;> exact ⟨rfl, rfl, rfl, rfl⟩

theorem decodeBytes8080_eq_instr {bytes rest : List Byte} {i : Instr} (h : decodeBytes8080 bytes = .instr i rest) :
    ∃ op b1 b2, i = decode8080 op b1 b2 ∧ bytes = bytes8080 op b1 (operand16 b1 b2) ++ rest := by
  match bytes with
  | [] => cases h
  | [op] | [op, b1] | op :: b1 :: b2 :: tail =>
    simp only [decodeBytes8080] at h
    split_ifs at h <;> cases h <;> exact ⟨_, _, _, rfl, by simp [bytes8080, with16_operand16, *]⟩

/-! ### The 6502: every opcode's term -/

theorem decode6502_wf_all : ∀ n : Fin (2 ^ 8), (decode6502 (BitVec.ofFin n)).wf = true := by decide +kernel

theorem decode6502_wf (op : Byte) : (decode6502 op).wf = true := decode6502_wf_all op.toFin

/-! ### The obligation -/

/-- What decodes is well-formed, of the processor's set, and encoded by the bytes it was decoded from. -/
theorem encode_of_decode {p : Processor} {bytes rest : List Byte} {i : Instr} (h : decode p bytes = .instr i rest) :
    i.wf = true ∧ i.isFor p = true ∧ ∃ used operands, encode i = some used ∧ operands.length = i.operandBytes ∧
      used ++ operands ++ rest = bytes := by
  cases p with
  | mos6502 | mos6502NoDecimal =>
    obtain ⟨op, operands, rfl, hlen, rfl⟩ := decodeBytes6502_eq_instr h
    have hop := opcode_decode op
    exact ⟨decode6502_wf op, by simp [Instr.isFor, hop], [op], operands, by simp [encode, hop], hlen, rfl⟩
  | i8080 =>
    obtain ⟨op, b1, b2, rfl, rfl⟩ := decodeBytes8080_eq_instr h
    obtain ⟨wf, opcode, mode, bytes⟩ := decodeWith_encodes op b1 (operand16 b1 b2)
    rw [decode8080_eq_decodeWith]
    exact ⟨wf, by simp [Instr.isFor, bytes], _, [], by simpa [encode, opcode] using bytes,
      by simp [Instr.operandBytes, mode], by rw [List.append_nil]⟩

/-- Settles O51: one way the family `Encoding` with bytes appended, the other way `encode_of_decode`. -/
theorem encodeDecode : Obligations.EncodeDecode := by
  refine ⟨fun i wf => ?_, fun _ _ _ _ => encode_of_decode⟩
  obtain ⟨p, bytes, hfor, henc, hdec⟩ := Laws.Encoding.statement i wf
  exact ⟨p, bytes, hfor, henc, fun operands rest hlen => decode_append rest (hdec operands hlen)⟩

end Sys2Proof
end

section
/-! What an 8080 instruction can do (48_i8080.md R420, R427 to R429): it answers a next state that differs from the first in the
core's registers, the ports and the bytes it stores to, said once for every instruction. -/

namespace Sys2Proof.Machine

variable {i : Instr} {s : State}

theorem addr_sub_one_one (a : Addr) : a - 1 - 1 = a - 2 := by rw [BitVec.sub_sub]; rfl

/-- The host's request and the supplied bytes are the same (49_i8080_control.md R518). -/
structure SameRequest (c k : I8080) : Prop where
  intrRequested : k.intrRequested = c.intrRequested
  intrOpcode : k.intrOpcode = c.intrOpcode
  intrLo : k.intrLo = c.intrLo
  intrHi : k.intrHi = c.intrHi

/-- An instruction answers the state with the core `c`, the ports `io` and the writes `ws` made. -/
structure Answers80 (i : Instr) (s : State) (c : I8080) (io : Ports) (ws : List (Addr × Byte)) : Prop where
  next : exec i s = .next { s with mem := writeAll s.mem ws, i80 := c, io := io }
  stored : ws.map Prod.fst = stored80 i s
  request : SameRequest s.i80 c

theorem push16_eq (v : Addr) (s : State) : push16 v s = { s with
    mem := writeAll s.mem [(s.i80.SP - 1, hi v), (s.i80.SP - 2, lo v)], i80 := { s.i80 with SP := s.i80.SP - 2 } } := by
  have pushed : push16 v s = memWrite (s.i80.SP - 1 - 1) (lo v) (memWrite (s.i80.SP - 1) (hi v)
      (withI80 s { s.i80 with SP := s.i80.SP - 1 - 1 })) := rfl
  rw [pushed, addr_sub_one_one]
  rfl

/-- An instruction that only sets the registers, and may set the ports. -/
theorem answers_registers {c : I8080} {io : Ports} (he : exec i s = .next { s with i80 := c, io := io }) (hs : stored80 i s = [])
    (hr : SameRequest s.i80 c) : ∃ c io ws, Answers80 i s c io ws := ⟨c, io, [], he, hs.symm, hr⟩

theorem answers_jumpIf {c : Bool} {a : Addr} (he : exec i s = .next (jumpIf c a s)) (hs : stored80 i s = []) :
    ∃ c io ws, Answers80 i s c io ws := by
  cases c with
  | false | true => exact answers_registers he hs ⟨rfl, rfl, rfl, rfl⟩

theorem answers_returnIf {c : Bool} (he : exec i s = .next (returnIf c s)) (hs : stored80 i s = []) :
    ∃ c io ws, Answers80 i s c io ws := by
  cases c with
  | false | true => exact answers_registers he hs ⟨rfl, rfl, rfl, rfl⟩

theorem answers_callIf {c : Bool} {a : Addr} (he : exec i s = .next (callIf c a s))
    (hs : stored80 i s = if c then [s.i80.SP - 1, s.i80.SP - 2] else []) : ∃ c io ws, Answers80 i s c io ws := by
  cases c with
  | false => exact answers_registers he hs ⟨rfl, rfl, rfl, rfl⟩
  | true =>
    rw [callIf, if_pos rfl, callTo, push16_eq] at he
    exact ⟨_, _, _, he, hs.symm, ⟨rfl, rfl, rfl, rfl⟩⟩

/-- Every instruction of the 8080 answers a next state, and stores where `stored80` says. -/
theorem answers80 (h : i.isFor .i8080 = true) (s : State) : ∃ c io ws, Answers80 i s c io ws := by
  cases i with
  | i80Mov d r =>
    cases d with
    | m =>
      refine ⟨s.i80, s.io, [(regHL s, i80Reg r s)], ?_, rfl, ⟨rfl, rfl, rfl, rfl⟩⟩
      cases r with
      | m => exact absurd h Bool.false_ne_true
      | b | c | d | e | h | l | a => rfl
    | b | c | d | e | h | l | a => exact answers_registers rfl rfl ⟨rfl, rfl, rfl, rfl⟩
  | i80Mvi d v =>
    cases d with
    | m => exact ⟨_, _, [(regHL s, v)], rfl, rfl, ⟨rfl, rfl, rfl, rfl⟩⟩
    | b | c | d | e | h | l | a => exact answers_registers rfl rfl ⟨rfl, rfl, rfl, rfl⟩
  | i80Inr d =>
    cases d with
    | m => exact ⟨_, _, [(regHL s, _)], rfl, rfl, ⟨rfl, rfl, rfl, rfl⟩⟩
    | b | c | d | e | h | l | a => exact answers_registers rfl rfl ⟨rfl, rfl, rfl, rfl⟩
  | i80Dcr d =>
    cases d with
    | m => exact ⟨_, _, [(regHL s, _)], rfl, rfl, ⟨rfl, rfl, rfl, rfl⟩⟩
    | b | c | d | e | h | l | a => exact answers_registers rfl rfl ⟨rfl, rfl, rfl, rfl⟩
  | i80Lxi rp v | i80Inx rp | i80Dcx rp => cases rp with | bc | de | hl | sp => exact answers_registers rfl rfl ⟨rfl, rfl, rfl, rfl⟩
  | i80Pop p => cases p with | bc | de | hl | psw => exact answers_registers rfl rfl ⟨rfl, rfl, rfl, rfl⟩
  | i80Sta a => exact ⟨_, _, [(a, _)], rfl, rfl, ⟨rfl, rfl, rfl, rfl⟩⟩
  | i80Shld a => exact ⟨_, _, [(a, _), (a + 1, _)], rfl, rfl, ⟨rfl, rfl, rfl, rfl⟩⟩
  | i80Stax p => exact ⟨_, _, [(i80Index p s, _)], rfl, rfl, ⟨rfl, rfl, rfl, rfl⟩⟩
  | i80Xthl => exact ⟨_, _, [(s.i80.SP, _), (s.i80.SP + 1, _)], rfl, rfl, ⟨rfl, rfl, rfl, rfl⟩⟩
  | i80Push p => exact ⟨_, _, _, congrArg Host.Outcome.next (push16_eq _ s), rfl, ⟨rfl, rfl, rfl, rfl⟩⟩
  | i80Call k a | i80Rst n => exact answers_callIf (c := true) rfl rfl
  | i80Cnz a | i80Cz a | i80Cnc a | i80Cc a | i80Cpo a | i80Cpe a | i80Cp a | i80Cm a => exact answers_callIf rfl rfl
  | i80Jnz a | i80Jz a | i80Jnc a | i80Jc a | i80Jpo a | i80Jpe a | i80Jp a | i80Jm a => exact answers_jumpIf rfl rfl
  | i80Rnz | i80Rz | i80Rnc | i80Rc | i80Rpo | i80Rpe | i80Rp | i80Rm => exact answers_returnIf rfl rfl
  | i80Lda _ | i80Lhld _ | i80Ldax _ | i80Xchg | i80Add _ | i80Adc _ | i80Adi _ | i80Aci _ | i80Sub _ | i80Sbb _ | i80Sui _
  | i80Sbi _ | i80Dad _ | i80Daa | i80Ana _ | i80Ani _ | i80Xra _ | i80Xri _ | i80Ora _ | i80Ori _ | i80Cmp _ | i80Cpi _
  | i80Rlc | i80Rrc | i80Ral | i80Rar | i80Cma | i80Cmc | i80Stc | i80Jmp _ _ | i80Ret _ | i80Pchl | i80Sphl | i80In _
  | i80Out _ | i80Ei | i80Di | i80Hlt | i80Nop _ => exact answers_registers rfl rfl ⟨rfl, rfl, rfl, rfl⟩
  | _ => exact absurd h Bool.false_ne_true

/-- Writes keep the canonical form. -/
theorem writeAll_wf (ws : List (Addr × Byte)) {m : Memory} (h : m.wf = true) : (writeAll m ws).wf = true := by
  induction ws generalizing m with
  | nil => exact h
  | cons w ws ih => exact ih (write_wf m w.1 w.2 h)

/-! ### The obligation -/

/-- Settles O49: what is answered is one of the states of `answers80`, and writes leave every other byte as it was. -/
theorem i80Frame : Obligations.I80Frame := by
  intro i s t h ht
  obtain ⟨c, io, ws, next, stored, request⟩ := answers80 h s
  cases next.symm.trans ht
  refine ⟨⟨rfl, request.1, request.2, request.3, request.4⟩, fun b hb => ?_⟩
  exact writeAll_frame ws s.mem b (stored ▸ hb)

end Sys2Proof.Machine
end

section
/-! What one step of any microcode column can do (40_engine.md R120, R125): it goes on inside the instruction, with one bus cycle
issued and no write-back deferred, or it ends it with the next opcode fetch; and no column leaves its own table. -/

namespace Sys2Proof.Machine

/-! ### The two kinds of steps -/

/-- `t` differs from `x` at most in PC, S, P, the microcode's latches, the pins, the output latch and what a break sequence
sets. -/
def Inside (x t : State) : Prop :=
  { t with
    PC := x.PC, S := x.S, P := x.P, AD := x.AD, TMP := x.TMP, pins := x.pins, dout := x.dout, rstCnt := x.rstCnt
    nmiLatch := x.nmiLatch, intent := x.intent, jammed := x.jammed } = x

/-- The step goes on inside the instruction: it issues a read, or a write with its output value pending, and the reset counter does
not rise. -/
structure Continues (x t : State) : Prop where
  inside : Inside x t
  rstCnt : t.rstCnt ≤ x.rstCnt
  sync : t.pins.sync = x.pins.sync
  cycle : t.dout = x.dout ∧ t.pins.rw = true ∨ t.dout.isSome = true ∧ t.pins.rw = false

/-- The step ends the instruction: it changes registers and issues the opcode fetch. -/
def Ends (x t : State) : Prop := ∃ y, RegsOnly x y ∧ FetchesFrom y t

theorem Continues.ofAD {x t : State} {a : Addr} (h : Continues { x with AD := a } t) : Continues x t := by
  have inside := congrArg (fun y : State => { y with AD := x.AD }) h.inside
  exact ⟨inside, h.rstCnt, h.sync, h.cycle⟩

/-- The step counter that an advance leaves (40_engine.md R121). -/
def Advance.after (a : Advance) (n : Nat) : Nat :=
  match a with
  | .next => n + 1
  | .skip => n + 2
  | .hold => n

/-- Step `n` from `x`, in a table up to `last`: it has an entry, which ends the instruction or goes on to another step of the
table. -/
def StepIn (last n : Nat) (x : State) (r : Option (State × Advance)) : Prop :=
  ∃ t a, r = some (t, a) ∧ (Ends x t ∨ Continues x t ∧ a.after n ≤ last)

/-- A column whose table has the steps up to `last`. -/
def Column (μ : Micro) (last : Nat) : Prop := ∀ n ≤ last, ∀ x, StepIn last n x (μ n x)

namespace StepIn

variable {last n : Nat} {x y t : State}

theorem goesOn (h : Continues x t) (hn : n + 1 ≤ last := by decide) : StepIn last n x (go t) := ⟨t, .next, rfl, .inr ⟨h, hn⟩⟩

/-- A read: its facts are definitional for every step of the model that issues one. -/
theorem reads (inside : Inside x t := by rfl) (rstCnt : t.rstCnt = x.rstCnt := by rfl) (sync : t.pins.sync = x.pins.sync := by rfl)
    (dout : t.dout = x.dout := by rfl) (rw : t.pins.rw = true := by rfl) (hn : n + 1 ≤ last := by decide) :
    StepIn last n x (go t) :=
  goesOn ⟨inside, rstCnt.le, sync, .inl ⟨dout, rw⟩⟩ hn

/-- A write, likewise. -/
theorem writes (inside : Inside x t := by rfl) (rstCnt : t.rstCnt = x.rstCnt := by rfl) (sync : t.pins.sync = x.pins.sync := by rfl)
    (dout : t.dout.isSome = true := by rfl) (rw : t.pins.rw = false := by rfl) (hn : n + 1 ≤ last := by decide) :
    StepIn last n x (go t) :=
  goesOn ⟨inside, rstCnt.le, sync, .inr ⟨dout, rw⟩⟩ hn

/-- The indexing step of a read, which skips the next one where no page is crossed. -/
theorem readsUnfixed {base : Addr} {i : Byte} {c : Bool} (hn : n + 2 ≤ last := by decide) :
    StepIn last n x (some (readUnfixed base i x, if c then .next else .skip)) := by
  have h : Continues x (readUnfixed base i x) := ⟨rfl, le_rfl, rfl, .inl ⟨rfl, rfl⟩⟩
  cases c with
  | true => exact ⟨_, .next, rfl, .inr ⟨h, Nat.le_of_succ_le hn⟩⟩
  | false => exact ⟨_, .skip, rfl, .inr ⟨h, hn⟩⟩

theorem ends (h : RegsOnly x y) : StepIn last n x (go (fetchNext y)) := ⟨_, .next, rfl, .inl ⟨y, h, ⟨rfl⟩⟩⟩

end StepIn

section
variable {m : Mode} {exec store fin : State → State} {hook : Byte → State → State} {modify : Byte → Flags → Byte × Flags}
  {value : State → Byte} {cond : Flags → Bool}

/-! ### Implied and immediate (41_addressing.md R161, R162) -/

theorem column_implSeq (hx : ∀ x, RegsOnly x (exec x)) : Column (implSeq exec) 1
  | 0, _, _ => .reads
  | 1, _, x => .ends (hx x)
  | n + 2, h, _ => absurd h (by omega)

theorem column_immSeq (hx : ∀ d x, RegsOnly x (hook d x)) : Column (immSeq hook) 1
  | 0, _, _ => .reads
  | 1, _, x => .ends (hx _ x)
  | n + 2, h, _ => absurd h (by omega)

/-! ### The read class -/

theorem column_zpRead (hx : ∀ d x, RegsOnly x (hook d x)) : Column (zpRead hook) 2
  | 0, _, _ | 1, _, _ => .reads
  | 2, _, x => .ends (hx _ x)
  | n + 3, h, _ => absurd h (by omega)

theorem column_zpIndexedRead (hx : ∀ d x, RegsOnly x (hook d x)) : Column (zpIndexedRead m hook) 3
  | 0, _, _ | 1, _, _ | 2, _, _ => .reads
  | 3, _, x => .ends (hx _ x)
  | n + 4, h, _ => absurd h (by omega)

theorem column_absRead (hx : ∀ d x, RegsOnly x (hook d x)) : Column (absRead hook) 3
  | 0, _, _ | 1, _, _ | 2, _, _ => .reads
  | 3, _, x => .ends (hx _ x)
  | n + 4, h, _ => absurd h (by omega)

theorem column_absIndexedRead (hx : ∀ d x, RegsOnly x (hook d x)) : Column (absIndexedRead m hook) 4
  | 0, _, _ | 1, _, _ | 3, _, _ => .reads
  | 2, _, _ => .readsUnfixed
  | 4, _, x => .ends (hx _ x)
  | n + 5, h, _ => absurd h (by omega)

theorem column_izxRead (hx : ∀ d x, RegsOnly x (hook d x)) : Column (izxRead hook) 5
  | 0, _, _ | 1, _, _ | 2, _, _ | 3, _, _ | 4, _, _ => .reads
  | 5, _, x => .ends (hx _ x)
  | n + 6, h, _ => absurd h (by omega)

theorem column_izyRead (hx : ∀ d x, RegsOnly x (hook d x)) : Column (izyRead hook) 5
  | 0, _, _ | 1, _, _ | 2, _, _ | 4, _, _ => .reads
  | 3, _, _ => .readsUnfixed
  | 5, _, x => .ends (hx _ x)
  | n + 6, h, _ => absurd h (by omega)

theorem column_readSeq (hm : m ∈ readModes) (hx : ∀ d x, RegsOnly x (hook d x)) : Column (readSeq m hook) (readLast m) := by
  cases m with
  | imm => exact column_immSeq hx
  | zp => exact column_zpRead hx
  | zpx | zpy => exact column_zpIndexedRead hx
  | abs => exact column_absRead hx
  | absx | absy => exact column_absIndexedRead hx
  | izx => exact column_izxRead hx
  | izy => exact column_izyRead hx
  | impl | acc | rel | ind => exact absurd hm (by decide)

/-! ### The write class -/

theorem column_zpWrite (hst : ∀ x, Continues x (store x)) (hx : ∀ x, RegsOnly x (fin x)) : Column (zpWrite store fin) 2
  | 0, _, _ => .reads
  | 1, _, _ => .goesOn (hst _).ofAD
  | 2, _, x => .ends (hx x)
  | n + 3, h, _ => absurd h (by omega)

theorem column_zpIndexedWrite (hst : ∀ x, Continues x (store x)) (hx : ∀ x, RegsOnly x (fin x)) :
    Column (zpIndexedWrite m store fin) 3
  | 0, _, _ | 1, _, _ => .reads
  | 2, _, _ => .goesOn (hst _).ofAD
  | 3, _, x => .ends (hx x)
  | n + 4, h, _ => absurd h (by omega)

theorem column_absWrite (hst : ∀ x, Continues x (store x)) (hx : ∀ x, RegsOnly x (fin x)) : Column (absWrite store fin) 3
  | 0, _, _ | 1, _, _ => .reads
  | 2, _, _ => .goesOn (hst _).ofAD
  | 3, _, x => .ends (hx x)
  | n + 4, h, _ => absurd h (by omega)

theorem column_absIndexedWrite (hst : ∀ x, Continues x (store x)) (hx : ∀ x, RegsOnly x (fin x)) :
    Column (absIndexedWrite m store fin) 4
  | 0, _, _ | 1, _, _ | 2, _, _ => .reads
  | 3, _, x => .goesOn (hst x)
  | 4, _, x => .ends (hx x)
  | n + 5, h, _ => absurd h (by omega)

theorem column_izxWrite (hst : ∀ x, Continues x (store x)) (hx : ∀ x, RegsOnly x (fin x)) : Column (izxWrite store fin) 5
  | 0, _, _ | 1, _, _ | 2, _, _ | 3, _, _ => .reads
  | 4, _, _ => .goesOn (hst _).ofAD
  | 5, _, x => .ends (hx x)
  | n + 6, h, _ => absurd h (by omega)

theorem column_izyWrite (hst : ∀ x, Continues x (store x)) (hx : ∀ x, RegsOnly x (fin x)) : Column (izyWrite store fin) 5
  | 0, _, _ | 1, _, _ | 2, _, _ | 3, _, _ => .reads
  | 4, _, x => .goesOn (hst x)
  | 5, _, x => .ends (hx x)
  | n + 6, h, _ => absurd h (by omega)

theorem column_writeSeq (hm : m ∈ writeModes) (hst : ∀ x, Continues x (store x)) (hx : ∀ x, RegsOnly x (fin x)) :
    Column (writeSeq m store fin) (writeLast m) := by
  cases m with
  | zp => exact column_zpWrite hst hx
  | zpx | zpy => exact column_zpIndexedWrite hst hx
  | abs => exact column_absWrite hst hx
  | absx | absy => exact column_absIndexedWrite hst hx
  | izx => exact column_izxWrite hst hx
  | izy => exact column_izyWrite hst hx
  | imm | impl | acc | rel | ind => exact absurd hm (by decide)

theorem continues_storeValue (x : State) : Continues x (storeValue value x) := ⟨rfl, le_rfl, rfl, .inr ⟨rfl, rfl⟩⟩

theorem continues_storeUnstable (reg i : State → Byte) (x : State) : Continues x (storeUnstable reg i x) :=
  ⟨rfl, le_rfl, rfl, .inr ⟨rfl, rfl⟩⟩

/-! ### The read-modify-write class -/

theorem column_zpRmw (hx : ∀ d x, RegsOnly x (hook d x)) : Column (zpRmw modify hook) 4
  | 0, _, _ | 1, _, _ => .reads
  | 2, _, _ | 3, _, _ => .writes
  | 4, _, x => .ends (hx _ x)
  | n + 5, h, _ => absurd h (by omega)

theorem column_zpIndexedRmw (hx : ∀ d x, RegsOnly x (hook d x)) : Column (zpIndexedRmw m modify hook) 5
  | 0, _, _ | 1, _, _ | 2, _, _ => .reads
  | 3, _, _ | 4, _, _ => .writes
  | 5, _, x => .ends (hx _ x)
  | n + 6, h, _ => absurd h (by omega)

theorem column_absRmw (hx : ∀ d x, RegsOnly x (hook d x)) : Column (absRmw modify hook) 5
  | 0, _, _ | 1, _, _ | 2, _, _ => .reads
  | 3, _, _ | 4, _, _ => .writes
  | 5, _, x => .ends (hx _ x)
  | n + 6, h, _ => absurd h (by omega)

theorem column_absIndexedRmw (hx : ∀ d x, RegsOnly x (hook d x)) : Column (absIndexedRmw m modify hook) 6
  | 0, _, _ | 1, _, _ | 2, _, _ | 3, _, _ => .reads
  | 4, _, _ | 5, _, _ => .writes
  | 6, _, x => .ends (hx _ x)
  | n + 7, h, _ => absurd h (by omega)

theorem column_izxRmw (hx : ∀ d x, RegsOnly x (hook d x)) : Column (izxRmw modify hook) 7
  | 0, _, _ | 1, _, _ | 2, _, _ | 3, _, _ | 4, _, _ => .reads
  | 5, _, _ | 6, _, _ => .writes
  | 7, _, x => .ends (hx _ x)
  | n + 8, h, _ => absurd h (by omega)

theorem column_izyRmw (hx : ∀ d x, RegsOnly x (hook d x)) : Column (izyRmw modify hook) 7
  | 0, _, _ | 1, _, _ | 2, _, _ | 3, _, _ | 4, _, _ => .reads
  | 5, _, _ | 6, _, _ => .writes
  | 7, _, x => .ends (hx _ x)
  | n + 8, h, _ => absurd h (by omega)

theorem column_rmwSeq (hm : m ∈ rmwModes) (hx : ∀ d x, RegsOnly x (hook d x)) :
    Column (rmwSeq m modify hook) (rmwLast m) := by
  cases m with
  | zp => exact column_zpRmw hx
  | zpx => exact column_zpIndexedRmw hx
  | abs => exact column_absRmw hx
  | absx | absy => exact column_absIndexedRmw hx
  | izx => exact column_izxRmw hx
  | izy => exact column_izyRmw hx
  | impl | acc | imm | zpy | rel | ind => exact absurd hm (by decide)

/-! ### Control (45_control.md R300 to R309; 47_illegal.md R395) and the stack (46_stack_flags.md R340 to R343) -/

theorem column_branchSeq : Column (branchSeq cond) 3
  | 0, _, _ => .reads
  | 1, _, x => by
    show StepIn 3 1 x (if cond x.P then _ else _)
    split
    · exact .reads
    · exact .ends rfl
  | 2, _, x => by
    show StepIn 3 2 x (if hi x.AD = hi x.PC then _ else _)
    split
    · exact ⟨_, .next, rfl, .inl ⟨x, rfl, ⟨rfl⟩⟩⟩
    · exact .reads
  | 3, _, _ => .ends rfl
  | n + 4, h, _ => absurd h (by omega)

theorem column_jmpAbs : Column jmpAbs 2
  | 0, _, _ | 1, _, _ => .reads
  | 2, _, _ => .ends rfl
  | n + 3, h, _ => absurd h (by omega)

theorem column_jmpInd : Column jmpInd 4
  | 0, _, _ | 1, _, _ | 2, _, _ | 3, _, _ => .reads
  | 4, _, _ => .ends rfl
  | n + 5, h, _ => absurd h (by omega)

theorem column_jsr : Column microJsr 5
  | 0, _, _ | 1, _, _ | 4, _, _ => .reads
  | 2, _, _ | 3, _, _ => .writes
  | 5, _, _ => .ends rfl
  | n + 6, h, _ => absurd h (by omega)

theorem column_rts : Column microRts 5
  | 0, _, _ | 1, _, _ | 2, _, _ | 3, _, _ | 4, _, _ => .reads
  | 5, _, _ => .ends rfl
  | n + 6, h, _ => absurd h (by omega)

theorem column_returnSequence : Column returnSequence 5
  | 0, _, _ | 1, _, _ | 2, _, _ | 3, _, _ | 4, _, _ => .reads
  | 5, _, _ => .ends rfl
  | n + 6, h, _ => absurd h (by omega)

theorem column_pushSeq : Column (pushSeq value) 2
  | 0, _, _ => .reads
  | 1, _, _ => .writes
  | 2, _, _ => .ends rfl
  | n + 3, h, _ => absurd h (by omega)

theorem column_pullSeq (hx : ∀ d x, RegsOnly x (hook d x)) : Column (pullSeq hook) 3
  | 0, _, _ | 1, _, _ | 2, _, _ => .reads
  | 3, _, x => .ends (hx _ x)
  | n + 4, h, _ => absurd h (by omega)

theorem column_jam : Column microJam 1
  | 0, _, _ => .reads
  | 1, _, _ => ⟨_, .hold, rfl, .inr ⟨⟨rfl, le_rfl, rfl, .inl ⟨rfl, rfl⟩⟩, le_rfl⟩⟩
  | n + 2, h, _ => absurd h (by omega)

/-! ### Taking an exception (45_control.md R309) -/

theorem continues_breakPush (v : Byte) (x : State) : Continues x (breakPush v x) := by
  unfold breakPush
  cases x.intent with
  | reset => exact ⟨rfl, le_rfl, rfl, .inl ⟨rfl, rfl⟩⟩
  | none | irq | nmi => exact ⟨rfl, le_rfl, rfl, .inr ⟨rfl, rfl⟩⟩

theorem Continues.countReset {x t : State} (h : Continues x t) : Continues x (countReset t) := by
  unfold Machine.countReset
  cases t.intent with
  | reset => exact ⟨h.inside, (Nat.sub_le _ _).trans h.rstCnt, h.sync, h.cycle⟩
  | none | irq | nmi => exact h

theorem vectorTake_eq (x : State) : ∃ l i, vectorTake x = { x with nmiLatch := l, intent := i } := by
  unfold vectorTake
  cases x.intent with
  | reset | nmi => exact ⟨_, _, rfl⟩
  | none | irq =>
    cases nmiRecognized x with
    | false | true => exact ⟨_, _, rfl⟩

theorem column_breakSequence : Column breakSequence 6
  | 0, _, x => by
    show StepIn 6 0 x (go (match x.intent with | .none => readOperand x | .irq | .nmi | .reset => busRead x.PC x))
    cases x.intent with
    | none | irq | nmi | reset => exact .reads
  | 1, _, x | 2, _, x | 3, _, x => .goesOn (continues_breakPush _ x)
  | 4, _, x => by
    refine .goesOn (Continues.countReset ?_)
    obtain ⟨l, i, h⟩ := vectorTake_eq x
    rw [h]
    exact ⟨rfl, le_rfl, rfl, .inl ⟨rfl, rfl⟩⟩
  | 5, _, _ => .goesOn (Continues.countReset ⟨rfl, le_rfl, rfl, .inl ⟨rfl, rfl⟩⟩)
  | 6, _, x => ⟨_, .next, rfl, .inl ⟨{ x with PC := cat x.pins.data x.TMP }, rfl, ⟨rfl⟩⟩⟩
  | n + 7, h, _ => absurd h (by omega)

end

end Sys2Proof.Machine
end

section
/-! The dispatcher's table (40_engine.md R125): the class that the microcode of each instruction without control flow belongs to, and
that each of the 256 columns has exactly the steps up to `lastStep`. -/

namespace Sys2Proof.Machine

theorem mem_of_contains {m : Mode} {l l' : List Mode} (hl : l ⊆ l') (h : l.contains m = true) : m ∈ l' :=
  hl (List.contains_iff_mem.mp h)

theorem regsOnly_ancHook (v : Byte) (x : State) : RegsOnly x (ancHook v x) := rfl

theorem regsOnly_alrHook (v : Byte) (x : State) : RegsOnly x (alrHook v x) := rfl

theorem regsOnly_arrHook (v : Byte) (x : State) : RegsOnly x (arrHook v x) :=
  RegsOnly.deferA (RegsOnly.setP (rfl : RegsOnly x x))

theorem regsOnly_sbxHook (v : Byte) (x : State) : RegsOnly x (sbxHook v x) := rfl

theorem regsOnly_addToA (v : Byte) (x : State) : RegsOnly x (addToA v x) := rfl

theorem regsOnly_subFromA (v : Byte) (x : State) : RegsOnly x (subFromA v x) := rfl

theorem regsOnly_lasHook (v : Byte) (x : State) : RegsOnly x (lasHook v x) :=
  (RegsOnly.setP (rfl : RegsOnly x x)).deferS.deferX.deferA

/-! ### A term with an opcode is well-formed -/

theorem contains_of_pick {m : Mode} {op : Byte} {l : List (Mode × Byte)} (h : pick m l = some op) :
    (l.map Prod.fst).contains m = true := by
  induction l with
  | nil => exact absurd h.symm (Option.some_ne_none _)
  | cons p l ih =>
    obtain ⟨m', op'⟩ := p
    rw [List.map_cons, List.contains_cons, Bool.or_eq_true]
    by_cases e : m = m'
    · exact .inl (beq_iff_eq.mpr e)
    · exact .inr (ih ((if_neg e).symm.trans h))

theorem wf_of_opcode {i : Instr} {op : Byte} (h : opcode6502 i = some op) : i.wf = true := by
  cases i with
  | lda m | ldx m | ldy m | sta m | stx m | sty m | adc m | sbc m | and m | ora m | eor m | cmp m | cpx m | cpy m | bit m
  | asl m | lsr m | rol m | ror m | inc m | dec m | jmp m | slo m | rla m | sre m | rra m | dcp m | isc m | sax m | lax m
  | sha m => exact contains_of_pick h
  | nopU m k =>
    have length : (nopUOpcodes m).length = nopUCount m := by cases m <;> rfl
    obtain ⟨hk, -⟩ := List.getElem?_eq_some_iff.mp (h : (nopUOpcodes m)[k.val]? = some op)
    exact decide_eq_true (length ▸ hk)
  | i80Mov _ _ => exact absurd h.symm (Option.some_ne_none _)
  | _ => rfl

/-! ### The class of each instruction's microcode -/

/-- A hook of a class leaves PC and all that is no register. -/
structure Hook (x y : State) : Prop where
  regs : RegsOnly x y
  PC : y.PC = x.PC

/-- The microcode of an instruction without control flow: a class, the mode that gives the instruction's length, and the last
step. -/
inductive Form : Micro → Mode → Nat → Prop
  | impl {m : Mode} {exec : State → State} (hm : m.operandBytes = 0) (hx : ∀ x, Hook x (exec x)) : Form (implSeq exec) m 1
  | read {m : Mode} {hook : Byte → State → State} (hm : m ∈ readModes) (hx : ∀ d x, Hook x (hook d x)) :
    Form (readSeq m hook) m (readLast m)
  | write {m : Mode} {store fin : State → State} {ad : State → Addr} {vl : State → Byte} (hm : m ∈ writeModes)
    (hst : ∀ x, store x = busWrite (ad x) (vl x) { x with AD := ad x }) (hx : ∀ x, Hook x (fin x)) :
    Form (writeSeq m store fin) m (writeLast m)
  | rmw {m : Mode} {modify : Byte → Flags → Byte × Flags} {hook : Byte → State → State} (hm : m ∈ rmwModes)
    (hx : ∀ d x, Hook x (hook d x)) : Form (rmwSeq m modify hook) m (rmwLast m)
  | push {value : State → Byte} (hv : ∀ x y : State, x.A = y.A → x.P = y.P → value x = value y) : Form (pushSeq value) .impl 2
  | pull {hook : Byte → State → State} (hx : ∀ d x, Hook x (hook d x)) : Form (pullSeq hook) .impl 3

/-- The columns of the classes. -/
theorem Form.column {μ : Micro} {m : Mode} {last : Nat} (h : Form μ m last) : Column μ last := by
  cases h with
  | impl _ hx => exact column_implSeq fun x => (hx x).regs
  | read hm hx => exact column_readSeq hm fun d x => (hx d x).regs
  | write hm hst hx =>
    exact column_writeSeq hm (fun x => hst x ▸ ⟨rfl, le_rfl, rfl, .inr ⟨rfl, rfl⟩⟩) fun x => (hx x).regs
  | rmw hm hx => exact column_rmwSeq hm fun d x => (hx d x).regs
  | push _ => exact column_pushSeq
  | pull hx => exact column_pullSeq fun d x => (hx d x).regs

theorem form_shiftSeq {m : Mode} (h : shiftModes.contains m = true) (f : Byte → Flags → Byte × Bool) :
    Form (shiftSeq m f) m (if m = .acc then 1 else rmwLast m) := by
  by_cases hm : m = .acc
  · subst hm
    exact .impl rfl fun _ => ⟨rfl, rfl⟩
  · rw [shiftSeq_of_ne_acc f hm, if_neg hm]
    have hl : shiftModes ⊆ .acc :: rmwModes := by decide
    exact .rmw (List.mem_of_ne_of_mem hm (mem_of_contains hl h)) fun _ _ => ⟨rfl, rfl⟩

theorem microNopU_of_ne_impl {m : Mode} (hm : m ≠ .impl) : microNopU m = readSeq m fun _ x => x := by
  cases m with
  | impl => exact absurd rfl hm
  | acc | imm | zp | zpx | zpy | abs | absx | absy | izx | izy | rel | ind => rfl

theorem mode_of_nopU {m : Mode} {k : Fin 6} (h : (Instr.nopU m k).wf = true) (hm : m ≠ .impl) : m ∈ readModes := by
  have count : k.val < nopUCount m := of_decide_eq_true h
  cases m with
  | imm | zp | zpx | zpy | abs | absx | absy | izx | izy => decide
  | impl => exact absurd rfl hm
  | acc | rel | ind => exact absurd count (Nat.not_lt_zero _)

theorem form_nopU {m : Mode} {k : Fin 6} (h : (Instr.nopU m k).wf = true) :
    Form (microNopU m) m (if m = .impl then 1 else readLast m) := by
  by_cases hm : m = .impl
  · subst hm
    exact .impl rfl fun _ => ⟨rfl, rfl⟩
  · rw [microNopU_of_ne_impl hm, if_neg hm]
    exact .read (mode_of_nopU h hm) fun _ _ => ⟨rfl, rfl⟩

/-- The class of every 6502 instruction whose sequence does not set PC. -/
theorem form_microOf {i : Instr} {op : Byte} (hop : opcode6502 i = some op) (hc : i ∉ controlFlow) (hj : ∀ k, i ≠ .jam k) :
    ∃ m, i.mode = some m ∧ Form (microOf i) m (lastStep i) := by
  have h := wf_of_opcode hop
  cases i with
  | lda m => exact ⟨m, rfl, .read (mem_of_contains (by decide) h) fun d x => ⟨regsOnly_loadA d x, rfl⟩⟩
  | ldx m => exact ⟨m, rfl, .read (mem_of_contains (by decide) h) fun d x => ⟨regsOnly_loadX d x, rfl⟩⟩
  | ldy m => exact ⟨m, rfl, .read (mem_of_contains (by decide) h) fun d x => ⟨regsOnly_loadY d x, rfl⟩⟩
  | lax m => exact ⟨m, rfl, .read (mem_of_contains (by decide) h) fun d x => ⟨regsOnly_loadAX d x, rfl⟩⟩
  | and m | ora m | eor m => exact ⟨m, rfl, .read (mem_of_contains (by decide) h) fun _ x => ⟨regsOnly_logicA _ x, rfl⟩⟩
  | adc m => exact ⟨m, rfl, .read (mem_of_contains (by decide) h) fun d x => ⟨regsOnly_addToA d x, rfl⟩⟩
  | sbc m => exact ⟨m, rfl, .read (mem_of_contains (by decide) h) fun d x => ⟨regsOnly_subFromA d x, rfl⟩⟩
  | cmp m | cpx m | cpy m | bit m =>
    exact ⟨m, rfl, .read (mem_of_contains (by decide) h) fun _ x => ⟨regsOnly_setP _ x, rfl⟩⟩
  | sta m | stx m | sty m | sax m =>
    have hm : m ∈ writeModes := mem_of_contains (by decide) h
    exact ⟨m, rfl, .write hm (ad := State.AD) (fun _ => rfl) fun _ => ⟨rfl, rfl⟩⟩
  | sha m =>
    have hm : m ∈ writeModes := mem_of_contains (by decide) h
    exact ⟨m, rfl, .write hm (fun _ => rfl) fun _ => ⟨rfl, rfl⟩⟩
  | shx => exact ⟨_, rfl, .write (m := .absy) (by decide) (fun _ => rfl) fun _ => ⟨rfl, rfl⟩⟩
  | shy => exact ⟨_, rfl, .write (m := .absx) (by decide) (fun _ => rfl) fun _ => ⟨rfl, rfl⟩⟩
  | tas => exact ⟨_, rfl, .write (m := .absy) (by decide) (fun _ => rfl) fun x => ⟨regsOnly_deferS _ x, rfl⟩⟩
  | asl m | lsr m | rol m | ror m => exact ⟨m, rfl, form_shiftSeq h _⟩
  | inc m | dec m => exact ⟨m, rfl, .rmw (mem_of_contains (by decide) h) fun d x => ⟨regsOnly_noFinish d x, rfl⟩⟩
  | slo m | rla m | sre m => exact ⟨m, rfl, .rmw (mem_of_contains (by decide) h) fun _ x => ⟨regsOnly_logicA _ x, rfl⟩⟩
  | rra m => exact ⟨m, rfl, .rmw (mem_of_contains (by decide) h) fun d x => ⟨regsOnly_addToA d x, rfl⟩⟩
  | dcp m => exact ⟨m, rfl, .rmw (mem_of_contains (by decide) h) fun _ x => ⟨regsOnly_setP _ x, rfl⟩⟩
  | isc m => exact ⟨m, rfl, .rmw (mem_of_contains (by decide) h) fun d x => ⟨regsOnly_subFromA d x, rfl⟩⟩
  | las => exact ⟨_, rfl, .read (m := .absy) (by decide) fun d x => ⟨regsOnly_lasHook d x, rfl⟩⟩
  | nopU m k => exact ⟨m, rfl, form_nopU h⟩
  | tax | tsx | inx | dex => exact ⟨_, rfl, .impl rfl fun x => ⟨regsOnly_loadX _ x, rfl⟩⟩
  | tay | iny | dey => exact ⟨_, rfl, .impl rfl fun x => ⟨regsOnly_loadY _ x, rfl⟩⟩
  | txa | tya => exact ⟨_, rfl, .impl rfl fun x => ⟨regsOnly_loadA _ x, rfl⟩⟩
  | txs => exact ⟨_, rfl, .impl rfl fun x => ⟨regsOnly_deferS _ x, rfl⟩⟩
  | clc | sec | cli | sei | cld | sed | clv => exact ⟨_, rfl, .impl rfl fun x => ⟨regsOnly_setP _ x, rfl⟩⟩
  | nop => exact ⟨_, rfl, .impl rfl fun _ => ⟨rfl, rfl⟩⟩
  | anc _ => exact ⟨_, rfl, .read (m := .imm) (by decide) fun d x => ⟨regsOnly_ancHook d x, rfl⟩⟩
  | alr => exact ⟨_, rfl, .read (m := .imm) (by decide) fun d x => ⟨regsOnly_alrHook d x, rfl⟩⟩
  | arr => exact ⟨_, rfl, .read (m := .imm) (by decide) fun d x => ⟨regsOnly_arrHook d x, rfl⟩⟩
  | sbx => exact ⟨_, rfl, .read (m := .imm) (by decide) fun d x => ⟨regsOnly_sbxHook d x, rfl⟩⟩
  | sbcDup => exact ⟨_, rfl, .read (m := .imm) (by decide) fun d x => ⟨regsOnly_subFromA d x, rfl⟩⟩
  | ane => exact ⟨_, rfl, .read (m := .imm) (by decide) fun _ x => ⟨regsOnly_logicA _ x, rfl⟩⟩
  | lxa => exact ⟨_, rfl, .read (m := .imm) (by decide) fun _ x => ⟨regsOnly_loadAX _ x, rfl⟩⟩
  | pha => exact ⟨_, rfl, .push fun _ _ hA _ => hA⟩
  | php => exact ⟨_, rfl, .push fun _ _ _ hP => congrArg (pack · true) hP⟩
  | pla => exact ⟨_, rfl, .pull fun d x => ⟨regsOnly_loadA d x, rfl⟩⟩
  | plp => exact ⟨_, rfl, .pull fun _ x => ⟨regsOnly_setP _ x, rfl⟩⟩
  | jmp m =>
    have hm : m ∈ [Mode.abs, .ind] := List.contains_iff_mem.mp h
    simp only [List.mem_cons, List.not_mem_nil, or_false] at hm
    rcases hm with rfl | rfl <;> exact absurd (by decide) hc
  | bpl | bmi | bvc | bvs | bcc | bcs | bne | beq | jsr | rts | rti | brk => exact absurd (by decide) hc
  | jam k => exact absurd rfl (hj k)
  | _ => exact absurd hop.symm (Option.some_ne_none _)

/-! ### The columns -/

/-- The column of every instruction that sets PC (45_control.md R300 to R317). -/
theorem column_controlFlow {i : Instr} (hc : i ∈ controlFlow) : Column (microOf i) (lastStep i) := by
  simp only [controlFlow, List.mem_cons, List.not_mem_nil, or_false] at hc
  rcases hc with rfl | rfl | rfl | rfl | rfl | rfl | rfl | rfl | rfl | rfl | rfl | rfl | rfl | rfl
  · exact column_branchSeq (cond := fun p => !p.N)
  · exact column_branchSeq (cond := fun p => p.N)
  · exact column_branchSeq (cond := fun p => !p.V)
  · exact column_branchSeq (cond := fun p => p.V)
  · exact column_branchSeq (cond := fun p => !p.C)
  · exact column_branchSeq (cond := fun p => p.C)
  · exact column_branchSeq (cond := fun p => !p.Z)
  · exact column_branchSeq (cond := fun p => p.Z)
  · exact column_jmpAbs
  · exact column_jmpInd
  · exact column_jsr
  · exact column_rts
  · exact column_returnSequence
  · exact column_breakSequence

/-- The column of every 6502 instruction. -/
theorem column_microOf {i : Instr} {op : Byte} (hop : opcode6502 i = some op) : Column (microOf i) (lastStep i) := by
  by_cases hc : i ∈ controlFlow
  · exact column_controlFlow hc
  · by_cases hj : ∃ k, i = .jam k
    · obtain ⟨k, rfl⟩ := hj
      exact column_jam
    · obtain ⟨m, -, form⟩ := form_microOf hop hc fun k hk => hj ⟨k, hk⟩
      exact form.column

/-- The dispatcher is total over the 256 opcodes and the steps of their tables (R125). -/
theorem column_dispatcher (op : Byte) : Column (dispatcher op) (lastStep (decode6502 op)) :=
  column_microOf (opcode_decode op)

end Sys2Proof.Machine
end

section
/-! A bus cycle from any state with the invariant (40_engine.md R114 to R125): whatever dispatcher has the columns that the cycle
can reach, the cycle answers the same, which is the refused stall or a state with the invariant. -/

namespace Sys2Proof.Machine

/-! ### What an engine function may answer -/

/-- The outcome is the refused stall (47_illegal.md R392), or a next state with the property. -/
inductive Goes (Q : State → Prop) : Outcome → Prop
  | refused : Goes Q (.refused .unstableStoreStalled)
  | next {t : State} (h : Q t) : Goes Q (.next t)

/-- The dispatcher has the whole table's columns of an opcode and of a hijack (60_exceptions.md R528). -/
structure Serves (D : Dispatcher) (op : Byte) : Prop where
  own : D op = dispatcher op
  brk : D 0x00 = dispatcher 0x00

/-- The opcode is the one a state goes on with, or that of a hijack. -/
def OpOf (s : State) (op : Byte) : Prop := op = currentOp s ∨ op = 0x00

/-- An engine function answers alike on all dispatchers that serve the opcode, with a next state of the property if any. -/
def Answers (f : Dispatcher → Outcome) (op : Byte) (Q : State → Prop) : Prop :=
  ∃ o, Goes Q o ∧ ∀ D, Serves D op → f D = o

theorem Serves.of_opOf {D : Dispatcher} {s : State} {op : Byte} (h : Serves D (currentOp s)) (ho : OpOf s op) : Serves D op := by
  rcases ho with rfl | rfl
  · exact h
  · exact ⟨h.brk, h.brk⟩

/-- The part of the dispatcher that `exec` runs serves the instruction's opcode. -/
theorem own_serves (op : Byte) : Serves (ownDispatcher op (microOf (decode6502 op))) op :=
  ⟨own_self op _, (own_brk (current_micro op)).trans microOf_zero.symm⟩

theorem dispatcher_serves (op : Byte) : Serves dispatcher op := ⟨rfl, rfl⟩

/-! ### Operations that keep the invariant -/

section
variable {s : State}

theorem Inv.lowered (h : Inv s) : Inv (Machine.lowered s) := ⟨h.mem, h.rstCnt, h.dout, h.sync, h.pend, h.legal⟩

theorem Inv.clearTrace (h : Inv s) : Inv (Machine.clearTrace s) := ⟨h.mem, h.rstCnt, h.dout, h.sync, h.pend, h.legal⟩

theorem Inv.setReset (h : Inv s) (level : Bool) : Inv (Machine.setReset level s) := by
  refine ⟨h.mem, ?_, h.dout, h.sync, h.pend, h.legal⟩
  show (if _ then 2 else s.rstCnt) ≤ 2
  split
  · exact le_rfl
  · exact h.rstCnt

theorem Inv.callResets (ls : List Bool) : ∀ {s : State}, Inv s → Inv (Machine.callResets ls s) := by
  induction ls with
  | nil => exact id
  | cons l ls ih => exact fun h => ih (h.setReset l)

/-- What the caller does before a cycle keeps the invariant. -/
theorem Inv.callerActs (h : Inv s) : Inv (Machine.callerActs s) := by
  unfold Machine.callerActs
  split
  · exact h
  · rename_i c rest _
    have r := h.callResets c.resetCalls
    exact ⟨writeCells_wf _ _ r.mem, r.rstCnt, r.dout, r.sync, r.pend, r.legal⟩

/-- What the platform and the rising half make of a cycle keeps the invariant. -/
theorem Inv.endCycleWith (h : Inv s) (b : Option Byte) : Inv (Machine.endCycleWith b s) := by
  refine ⟨?_, h.rstCnt, h.dout, h.sync, h.pend, h.legal⟩
  show (if s.pins.rw then s.mem else _).wf = true
  split
  · exact h.mem
  · exact write_wf _ _ _ h.mem

theorem Inv.performWrite (h : Inv s) : Inv (Machine.performWrite s) := by
  unfold Machine.performWrite
  split
  · exact h
  · exact ⟨write_wf _ _ _ h.mem, h.rstCnt, h.dout, h.sync, h.pend, h.legal⟩

theorem currentOp_callerActs (s : State) : currentOp (callerActs s) = currentOp s := by
  obtain ⟨i, rc, rn, iq, nm, rd, m, cq, hu⟩ := callerActs_eq s
  rw [hu]
  rfl

theorem proc_callerActs (s : State) : (callerActs s).proc = s.proc := by
  obtain ⟨i, rc, rn, iq, nm, rd, m, cq, hu⟩ := callerActs_eq s
  rw [hu]

theorem phase_callerActs (s : State) : (callerActs s).phase = s.phase := by
  obtain ⟨i, rc, rn, iq, nm, rd, m, cq, hu⟩ := callerActs_eq s
  rw [hu]

theorem divider_callerActs (s : State) : (callerActs s).divider = s.divider := by
  obtain ⟨i, rc, rn, iq, nm, rd, m, cq, hu⟩ := callerActs_eq s
  rw [hu]

end

/-! ### The dispatch -/

/-- What `prepare` leaves for the dispatch of a step. -/
structure Dispatchable (x : State) : Prop where
  mem : x.mem.wf = true
  rstCnt : x.rstCnt ≤ 2
  rw : x.pins.rw = true
  sync : x.pins.sync = false
  dout : x.dout = none
  pend : x.pendA = none ∧ x.pendX = none ∧ x.pendY = none ∧ x.pendS = none
  legal : x.T ≤ lastStep (decode6502 x.IR)

/-- A stage of a cycle has gone on from `s` to `t`: what it keeps, and which opcode a run can go on with. -/
structure Onward (s t : State) : Prop where
  inv : Inv t
  proc : t.proc = s.proc
  op : stops t = false → OpOf s (currentOp t)

/-- A stage at the falling phase, which keeps the clock. -/
structure Lowered (s t : State) : Prop extends Onward s t where
  phase : t.phase = s.phase
  divider : t.divider = s.divider

/-- The stages before the dispatch change no more of a state than this. -/
theorem prepare_eq (s : State) : ∃ (pins : Pins) (IR : Byte) (PC : Addr) (T : Nat), prepare s = { commit s with
    irqLatch := shiftIn s.irqLatch (irqSample (commit s)), nmiLatch := shiftIn s.nmiLatch (nmiEdge s), nmiPrev := s.pins.nmiN
    dout := none, pins := { pins with rw := true, sync := false }, IR := IR, PC := PC, T := T } ∧
    (s.pins.sync = true ∧ T = 0 ∧ IR = (if s.intent = .none then s.pins.data else 0x00) ∨
      s.pins.sync = false ∧ T = s.T ∧ IR = s.IR) := by
  unfold prepare loadIfSync
  cases h : s.pins.sync with
  | true =>
    rw [if_pos (by exact h)]
    exact ⟨s.pins, _, _, _, rfl, .inl ⟨rfl, rfl, rfl⟩⟩
  | false =>
    have e : latchShiftAndSample (commit s) =
        { latchShiftAndSample (commit s) with pins := { s.pins with sync := false } } := by rw [← h]; rfl
    rw [if_neg (by rw [show (latchShiftAndSample (commit s)).pins.sync = s.pins.sync from rfl, h]; decide), e]
    exact ⟨s.pins, _, _, _, rfl, .inr ⟨rfl, rfl, rfl⟩⟩

theorem dispatchable_prepare {s : State} (hm : s.mem.wf = true) (hr : s.rstCnt ≤ 2)
    (hl : s.pins.sync = true ∨ s.T ≤ lastStep (decode6502 s.IR)) : Dispatchable (prepare s) := by
  obtain ⟨pins, IR, PC, T, he, ho⟩ := prepare_eq s
  rw [he]
  refine ⟨hm, hr, rfl, rfl, rfl, ⟨rfl, rfl, rfl, rfl⟩, ?_⟩
  rcases ho with ⟨-, rfl, -⟩ | ⟨hs, rfl, rfl⟩
  · exact Nat.zero_le _
  · exact hl.resolve_left (by rw [hs]; decide)

theorem opOf_prepare (s : State) : OpOf s (prepare s).IR := by
  obtain ⟨pins, IR, PC, T, he, ho⟩ := prepare_eq s
  rw [he]
  unfold OpOf currentOp
  rcases ho with ⟨hs, -, rfl⟩ | ⟨hs, -, rfl⟩
  · rw [hs, if_pos rfl]
    split
    · exact .inl rfl
    · exact .inr rfl
  · rw [hs, if_neg Bool.false_ne_true]
    exact .inl rfl

theorem lowered_prepare (s : State) : (prepare s).proc = s.proc ∧ (prepare s).phase = s.phase ∧ (prepare s).divider = s.divider := by
  obtain ⟨pins, IR, PC, T, he, -⟩ := prepare_eq s
  rw [he]
  exact ⟨rfl, rfl, rfl⟩

/-- A step that ends its instruction leaves the opcode fetch, which is a read. -/
theorem Ends.lowered {x t : State} (d : Dispatchable x) (h : Ends x t) (a : Advance) : Lowered x (advanceStep a t) := by
  obtain ⟨y, hy, hf⟩ := h
  have e : ∀ {α : Type} (f : State → α), f _ = f x := fun f => congrArg f hy
  have wf : y.mem.wf = true := (congrArg Memory.wf (e State.mem)).trans d.mem
  have rstCnt : y.rstCnt ≤ 2 := (e State.rstCnt).trans_le d.rstCnt
  have dout : y.dout.isSome = false := congrArg Option.isSome ((e State.dout).trans d.dout)
  have proc : y.proc = x.proc := e State.proc
  have phase : y.phase = x.phase := e State.phase
  have divider : y.divider = x.divider := e State.divider
  rw [hf.eq]
  cases a with
  | next | skip | hold =>
    exact ⟨⟨⟨wf, rstCnt, dout, fun _ => rfl, .inl rfl, .inl rfl⟩, proc, fun hs => absurd hs.symm Bool.false_ne_true⟩, phase, divider⟩

/-- A step that goes on inside its instruction leaves another step of the table to be dispatched. -/
theorem Continues.lowered {x t : State} (d : Dispatchable x) (h : Continues x t) {a : Advance}
    (ha : a.after x.T ≤ lastStep (decode6502 x.IR)) : Lowered x (advanceStep a t) := by
  have e : ∀ {α : Type} (f : State → α), f _ = f x := fun f => congrArg f h.inside
  have wf : t.mem.wf = true := (congrArg Memory.wf (e State.mem)).trans d.mem
  have dout : t.dout.isSome = !t.pins.rw := by
    rcases h.cycle with ⟨hd, hr⟩ | ⟨hd, hr⟩
    · rw [hd, hr, d.dout]; rfl
    · rw [hd, hr]; rfl
  have sync : t.pins.sync = false := h.sync.trans d.sync
  obtain ⟨pA, pX, pY, pS⟩ := d.pend
  have pend : t.pendA = none ∧ t.pendX = none ∧ t.pendY = none ∧ t.pendS = none :=
    ⟨(e State.pendA).trans pA, (e State.pendX).trans pX, (e State.pendY).trans pY, (e State.pendS).trans pS⟩
  have IR : t.IR = x.IR := e State.IR
  have T : t.T = x.T := e State.T
  have notFetch : t.pins.sync = true → t.pins.rw = true := fun hs => absurd (sync.symm.trans hs) Bool.false_ne_true
  have op : OpOf x t.IR := .inl (by rw [IR, currentOp, d.sync]; rfl)
  rw [← IR, ← T] at ha
  have cur : currentOp t = t.IR := by rw [currentOp, sync]; rfl
  cases a with
  | next | skip | hold =>
    exact ⟨⟨⟨wf, h.rstCnt.trans d.rstCnt, dout, notFetch, .inr (.inr pend), .inr (.inr ha)⟩, e State.proc,
      fun _ => cur.symm ▸ op⟩, e State.phase, e State.divider⟩

/-- A step of the table is dispatched alike by whatever serves its opcode. -/
theorem dispatch_goes {x : State} (d : Dispatchable x) :
    ∃ t, Lowered x t ∧ ∀ D : Dispatcher, D x.IR = dispatcher x.IR → dispatchStep D x = .next t := by
  obtain ⟨t, a, hd, ht⟩ := column_dispatcher x.IR x.T d.legal x
  refine ⟨advanceStep a t, ?_, fun D hD => by rw [dispatchStep, hD, hd]⟩
  rcases ht with he | ⟨hc, ha⟩
  · exact he.lowered d a
  · exact hc.lowered d ha

/-! ### The falling phase (40_engine.md R114) -/

section
variable {s : State}

/-- The dispatch that ends a falling phase, after the stages before it, from a state whose step is in the table. -/
theorem prepare_answers {u : State} (hm : u.mem.wf = true) (hr : u.rstCnt ≤ 2)
    (hl : u.pins.sync = true ∨ u.T ≤ lastStep (decode6502 u.IR)) (op : OpOf s (prepare u).IR)
    (clock : u.proc = s.proc ∧ u.phase = s.phase ∧ u.divider = s.divider) :
    Answers (fun D => dispatchStep D (prepare u)) (currentOp s) (Lowered s) := by
  have d := dispatchable_prepare hm hr hl
  obtain ⟨t, ht, hD⟩ := dispatch_goes d
  obtain ⟨proc, phase, divider⟩ := lowered_prepare u
  obtain ⟨proc', phase', divider'⟩ := clock
  have cur : currentOp (prepare u) = (prepare u).IR := by rw [currentOp, d.sync]; rfl
  refine ⟨.next t, .next ⟨⟨ht.inv, ht.proc.trans (proc.trans proc'), fun hs => ?_⟩, ht.phase.trans (phase.trans phase'),
    ht.divider.trans (divider.trans divider')⟩, fun D hs => hD D (hs.of_opOf op).own⟩
  rcases ht.op hs with h | h
  · rw [h, cur]; exact op
  · exact .inr h

theorem Inv.resetHeldCycle (h : Inv s) : Lowered s (Machine.resetHeldCycle s) :=
  ⟨⟨⟨h.mem, h.rstCnt, rfl, fun _ => rfl, .inr (.inl rfl), .inr (.inl rfl)⟩, rfl, fun hs => by
    have : stops (Machine.resetHeldCycle s) = true := by simp [stops, Machine.resetHeldCycle]
    rw [this] at hs; cases hs⟩, rfl, rfl⟩

/-- A stalled cycle is refused or changes the latches only (40_engine.md R122). -/
theorem stallCycle_goes (h : Inv s) : Goes (Lowered s) (stallCycle s) := by
  unfold stallCycle
  split
  · exact .refused
  · exact .next ⟨⟨⟨h.mem, h.rstCnt, h.dout, h.sync, h.pend, h.legal⟩, rfl, fun _ => .inl rfl⟩, rfl, rfl⟩

/-- A falling phase answers alike on all dispatchers that serve the current opcode. -/
theorem onLow_answers (h : Inv s) : Answers (fun D => onLow D s) (currentOp s) (Lowered s) := by
  unfold onLow
  cases hres : s.pins.resN with
  | false => exact ⟨_, .next h.resetHeldCycle, fun _ _ => rfl⟩
  | true =>
    cases hheld : s.resHeld with
    | true => exact prepare_answers (u := resetRelease s) h.mem le_rfl (.inl rfl) (.inr rfl) ⟨rfl, rfl, rfl⟩
    | false =>
      by_cases hst : (s.pins.rdy && s.pins.rw) = true
      · refine ⟨stallCycle s, stallCycle_goes h, fun _ _ => ?_⟩
        exact if_pos hst
      · have legal := h.legal.imp_right fun hl => hl.resolve_left (by rw [hheld]; exact Bool.false_ne_true)
        obtain ⟨o, ho, hD⟩ := prepare_answers h.mem h.rstCnt legal (opOf_prepare s) ⟨rfl, rfl, rfl⟩
        exact ⟨o, ho, fun D hs => (if_neg hst).trans (hD D hs)⟩

/-! ### One bus cycle and a run of them -/

/-- A bus cycle at whose end the phase is high. -/
structure Cycled (s t : State) : Prop extends Onward s t where
  phase : t.phase = true

theorem sync_of_stops {t : State} (h : stops t = false) : t.pins.sync = false := by
  unfold stops at h
  cases hs : t.pins.sync with
  | false => rfl
  | true => rw [hs] at h; exact h

/-- A bus cycle answers alike on all dispatchers that serve the current opcode. -/
theorem systemCycle_answers (h : Inv s) (hph : s.phase = true) :
    Answers (fun D => systemCycle D s) (currentOp s) (Cycled s) := by
  obtain ⟨o, ho, hD⟩ := onLow_answers h.callerActs.lowered
  have cur : currentOp (lowered (callerActs s)) = currentOp s := currentOp_callerActs s
  have proc : (lowered (callerActs s)).proc = s.proc := proc_callerActs s
  rw [cur] at hD
  cases ho with
  | refused =>
    refine ⟨_, .refused, fun D hs => ?_⟩
    show systemCycle D s = _
    rw [systemCycle, clockTo_low D _ ((phase_callerActs s).trans hph), show onLow D _ = _ from hD D hs]
    rfl
  | @next t ht =>
    have divider : t.divider = lowDivider s.proc s.divider := by
      rw [ht.divider, ← proc_callerActs s, ← divider_callerActs s]; rfl
    refine ⟨_, .next ⟨⟨ht.inv.endCycleWith (outsideByte s), ht.proc.trans proc, fun hs => ?_⟩, rfl⟩, fun D hs =>
      systemCycle_of_onLow hph (hD D hs) (ht.proc.trans proc) ht.phase divider⟩
    have hs : stops t = false := hs
    have op := ht.op hs
    rw [OpOf, cur] at op
    have noFetch := sync_of_stops hs
    have e : currentOp (endCycleWith (outsideByte s) t) = currentOp t := by
      rw [currentOp, currentOp, noFetch]
      exact congrArg (fun b : Bool => if b then _ else t.IR) noFetch
    rw [OpOf, e]
    exact op

/-- A run of bus cycles answers alike on all dispatchers that serve the current opcode. -/
theorem runCycles_answers (n : Nat) : ∀ {s : State}, Inv s → s.phase = true →
    Answers (fun D => runCycles D n s) (currentOp s) Inv := by
  induction n with
  | zero => exact fun h _ => ⟨_, .next h, fun _ _ => rfl⟩
  | succ n ih =>
    intro s h hph
    obtain ⟨o, ho, hD⟩ := systemCycle_answers h hph
    have run (D : Dispatcher) (hs : Serves D (currentOp s)) : runCycles D (n + 1) s = andThen o fun t =>
        if stops t then .next t else runCycles D n t :=
      congrArg (andThen · fun t => if stops t then .next t else runCycles D n t) (hD D hs)
    cases ho with
    | refused => exact ⟨_, .refused, run⟩
    | @next t ht =>
      by_cases hst : stops t = true
      · exact ⟨_, .next ht.inv, fun D hs => (run D hs).trans (if_pos hst)⟩
      · obtain ⟨o, ho, hD⟩ := ih ht.inv ht.phase
        have op := ht.op (Bool.eq_false_iff.mpr hst)
        exact ⟨o, ho, fun D hs => (run D hs).trans ((if_neg hst).trans (hD D (hs.of_opOf op)))⟩

/-- A rising phase drives the pending output value, whatever the dispatcher and wherever the divider stands. -/
theorem clockTo_rises (hph : s.phase = false) :
    ∃ d, ∀ D, clockTo D true s = .next (onHigh { s with phase := true, divider := d }) := by
  unfold clockTo
  cases hp : s.proc with
  | mos6502 | i8080 =>
    refine ⟨s.divider, fun D => ?_⟩
    simp only [setPhase, hph, Bool.true_eq_false, if_false, if_true]
    rw [hp]
  | mos6502NoDecimal =>
    have hc := s.divider.cnt.isLt
    obtain ⟨n, hn⟩ : ∃ n, 12 - s.divider.cnt.val = n + 1 := ⟨11 - s.divider.cnt.val, by omega⟩
    refine ⟨{ cnt := 0, m2 := s.divider.m2 || decide (s.divider.cnt.val < Config.m2LeadCount) }, fun D => ?_⟩
    simp only [hph, hn, Bool.true_eq_false, if_false]
    rw [masterEdges_run D n s (by omega)]
    simp only [setPhase, hph, Bool.not_false, Bool.true_and, Bool.true_eq_false, if_false, if_true, andThen_next, fallM2]
    rw [hp]

theorem Inv.onHigh (h : Inv s) (d : Divider) : Inv (Machine.onHigh { s with phase := true, divider := d }) :=
  ⟨h.mem, h.rstCnt, h.dout, h.sync, h.pend, h.legal⟩

/-- No output value is pending in an opcode fetch, so that the rising phase keeps the opcode on the data pins. -/
theorem currentOp_onHigh (h : Inv s) (d : Divider) : currentOp (onHigh { s with phase := true, divider := d }) = currentOp s := by
  show (if s.pins.sync then s.dout.getD s.pins.data else s.IR) = if s.pins.sync then s.pins.data else s.IR
  by_cases hs : s.pins.sync = true
  · have noOut : s.dout = none := by
      have := h.dout
      rw [h.sync hs] at this
      exact Option.isSome_eq_false_iff.mp this |> Option.isNone_iff_eq_none.mp
    rw [noOut]
    rfl
  · rw [if_neg hs, if_neg hs]

theorem performWrite_currentOp (s : State) : currentOp (performWrite s) = currentOp s ∧ (performWrite s).phase = s.phase := by
  unfold performWrite
  split
  · exact ⟨rfl, rfl⟩
  · exact ⟨rfl, rfl⟩

/-- The priming call (20_memory.md R55) answers a next state whatever the dispatcher. -/
theorem primed_next (h : Inv s) : ∃ t, Inv t ∧ t.phase = true ∧ currentOp t = currentOp s ∧ ∀ D, primed D s = .next t := by
  unfold primed
  cases hph : s.phase with
  | true => exact ⟨s, h, hph, rfl, fun _ => rfl⟩
  | false =>
    obtain ⟨d, hd⟩ := clockTo_rises hph
    obtain ⟨cur, phase⟩ := performWrite_currentOp (onHigh { s with phase := true, divider := d })
    refine ⟨_, (h.onHigh d).performWrite, phase, cur.trans (currentOp_onHigh h d), fun D => ?_⟩
    rw [if_neg Bool.false_ne_true, hd D]
    rfl

/-- What `step` makes of a state, on a dispatcher. -/
def runStep (D : Dispatcher) (s : State) : Outcome := andThen (primed D (clearTrace s)) (runCycles D longestRun)

theorem runStep_answers (h : Inv s) : Answers (fun D => runStep D s) (currentOp s) Inv := by
  obtain ⟨t, ht, hph, cur, hp⟩ := primed_next h.clearTrace
  obtain ⟨o, ho, hD⟩ := runCycles_answers longestRun ht hph
  rw [cur] at hD
  refine ⟨o, ho, fun D hs => ?_⟩
  show andThen (primed D (clearTrace s)) _ = _
  rw [hp D]
  exact hD D hs

/-- A step of a 6502-family processor is the run of the whole dispatcher, and what it answers. -/
theorem step_goes (h : Inv s) (hp : s.proc ≠ .i8080) : step s = runStep dispatcher s ∧ Goes Inv (step s) := by
  obtain ⟨o, ho, hD⟩ := runStep_answers h
  have own : step s = runStep (ownDispatcher (currentOp s) (microOf (decode6502 (currentOp s)))) s := by
    rw [step_eq_run hp, runInstr, opcode_decode]
    show andThen (primed _ (clearTrace (supplyOpcode (currentOp s) s))) _ = _
    rw [supply_current]
    rfl
  have run : step s = o := own.trans (hD _ (own_serves _))
  exact ⟨run.trans (hD _ (dispatcher_serves _)).symm, run ▸ ho⟩

end

/-! ### A step of the 8080 (48_i8080.md R437) -/

section
variable {s : State}

theorem isFor_decode8080 (op b1 b2 : Byte) : (decode8080 op b1 b2).isFor .i8080 = true := by
  rw [decode8080_eq_decodeWith]
  exact congrArg Option.isSome (decodeWith_encodes op b1 (operand16 b1 b2)).bytes

/-- A decoded instruction answers a state that differs in the core, the ports and writes made to memory. -/
theorem exec_decode8080 (op b1 b2 : Byte) (s : State) : ∃ c io ws, exec (decode8080 op b1 b2) s = .next { s with
    mem := writeAll s.mem ws, i80 := c, io := io } := by
  obtain ⟨c, io, ws, h⟩ := answers80 (isFor_decode8080 op b1 b2) s
  exact ⟨c, io, ws, h.next⟩

theorem step8080_eq (s : State) : step8080 s =
    if intrAccepted (hostActs s) then acceptInterrupt (hostActs s)
    else if (hostActs s).i80.halted then .next (hostActs s)
    else exec (current8080 (hostActs s)) (fetched8080 (hostActs s)) := rfl

/-- A step of the 8080 answers a state that differs from the one the host left in the core, the ports and writes made to
memory. -/
theorem step8080_next (s : State) : ∃ c io ws, step8080 s = .next { hostActs s with
    mem := writeAll s.mem ws, i80 := c, io := io } := by
  have mem : (hostActs s).mem = s.mem := by
    unfold hostActs
    split
    · rfl
    · split <;> rfl
  rw [← mem]
  rw [step8080_eq]
  split
  · exact exec_decode8080 _ _ _ (acknowledged (hostActs s))
  · split
    · exact ⟨(hostActs s).i80, (hostActs s).io, [], rfl⟩
    · exact exec_decode8080 _ _ _ (fetched8080 (hostActs s))

theorem hostActs_engine (s : State) : { hostActs s with mem := s.mem, i80 := s.i80, io := s.io, hostQ := s.hostQ } = s := by
  unfold hostActs
  split
  · rfl
  · split <;> rfl

/-- Every field that the invariant speaks of but memory belongs to the 6502-family engine. -/
theorem Inv.of_engine {t : State} (h : Inv s) (he : { t with mem := s.mem, i80 := s.i80, io := s.io, hostQ := s.hostQ } = s)
    (hm : t.mem.wf = true) : Inv t := by
  have e : ∀ {α : Type} (f : State → α), f _ = f s := fun f => congrArg f he
  have IR : t.IR = s.IR := e State.IR
  have pins : t.pins = s.pins := e State.pins
  have dout : t.dout = s.dout := e State.dout
  have rstCnt : t.rstCnt = s.rstCnt := e State.rstCnt
  have resHeld : t.resHeld = s.resHeld := e State.resHeld
  have T : t.T = s.T := e State.T
  have pend : t.pendA = s.pendA ∧ t.pendX = s.pendX ∧ t.pendY = s.pendY ∧ t.pendS = s.pendS :=
    ⟨e State.pendA, e State.pendX, e State.pendY, e State.pendS⟩
  obtain ⟨pA, pX, pY, pS⟩ := pend
  exact ⟨hm, rstCnt ▸ h.rstCnt, by rw [dout, pins]; exact h.dout, by rw [pins]; exact h.sync,
    by rw [pins, resHeld, pA, pX, pY, pS]; exact h.pend, by rw [pins, resHeld, T, IR]; exact h.legal⟩

theorem step8080_goes (h : Inv s) : ∃ t, step8080 s = .next t ∧ Inv t := by
  obtain ⟨c, io, ws, e⟩ := step8080_next s
  exact ⟨_, e, h.of_engine (hostActs_engine s) (writeAll_wf ws h.mem)⟩

theorem step_of_i8080 (hp : s.proc = .i8080) : step s = step8080 s := by
  unfold step
  rw [hp]

/-- What a step answers from a state with the invariant. -/
theorem step_cases (h : Inv s) : (∃ t, step s = .next t ∧ Inv t) ∨ s.proc ≠ .i8080 ∧ step s = .refused .unstableStoreStalled := by
  by_cases hp : s.proc = .i8080
  · rw [step_of_i8080 hp]
    exact .inl (step8080_goes h)
  · have g := (step_goes h hp).2
    generalize step s = o at g
    cases g with
    | refused => exact .inr ⟨hp, rfl⟩
    | next ht => exact .inl ⟨_, rfl, ht⟩

end

/-! ### The obligations -/

/-- Settles O54: the own column and that of a hijack are all that a run can reach. -/
theorem execIsDispatcher : Obligations.ExecIsDispatcher := fun _ h hp => (step_goes h hp).1

/-- Settles O55: every stage of a cycle and every 8080 instruction keeps `Inv`. -/
theorem invariantKept : Obligations.InvariantKept := by
  intro s t h ht
  rcases step_cases h with ⟨u, hu, inv⟩ | ⟨-, hr⟩
  · cases hu.symm.trans ht
    exact inv
  · cases hr.symm.trans ht

/-- Settles O57: what a step answers is a next state or the refused stall. -/
theorem stepNeverFaults : Obligations.StepNeverFaults := by
  intro s h
  rcases step_cases h with ⟨t, ht, -⟩ | ⟨hp, hr⟩
  · exact ⟨fun r hf => (by cases ht.symm.trans hf), fun r hf => (by cases ht.symm.trans hf)⟩
  · refine ⟨fun r hf => (by cases hr.symm.trans hf), fun r hf => ?_⟩
    cases hr.symm.trans hf
    exact ⟨rfl, hp⟩

end Sys2Proof.Machine
end

section
/-! The 8080's arithmetic and logic (48_i8080.md R424, R438, R450 to R471): its flag computations as the formulas of Safety.lean, and
what each operation on the state leaves. -/

namespace Sys2Proof.Machine

/-! ### Digits and flags -/

theorem toNat_lowDigit (v : Byte) : (v &&& 0x0F).toNat = v.toNat % 16 := Nat.and_two_pow_sub_one_eq_mod v.toNat 4

theorem toNat_not_lowDigit (v : Byte) : (~~~v &&& 0x0F).toNat = 15 - v.toNat % 16 := by
  have := v.isLt
  rw [toNat_lowDigit, BitVec.toNat_not]
  omega

theorem lowDigit_full_iff (v : Byte) : v &&& 0x0F = 0x0F ↔ v.toNat % 16 = 15 := by
  rw [← toNat_lowDigit, ← BitVec.toNat_inj]
  rfl

/-- The parity of a count of eight bits is the exclusive or of them (R424). -/
theorem parity_eq (v : Byte) : parity v = evenParity v := by
  have count : ∀ b0 b1 b2 b3 b4 b5 b6 b7 : Bool,
      (([b0, b1, b2, b3, b4, b5, b6, b7].countP id) % 2 == 0) = !(b0 ^^ b1 ^^ b2 ^^ b3 ^^ b4 ^^ b5 ^^ b6 ^^ b7) := by decide
  exact (congrArg (· % 2 == 0) (List.countP_map (p := id) (f := fun k => v.getLsbD k) (l := List.range 8)).symm).trans
    (count _ _ _ _ _ _ _ _)

theorem setSZP_eq (v : Byte) (k : I8080) : setSZP v k = szp v k := by rw [setSZP, szp, parity_eq]

theorem add8_eq (a v : Byte) (c : Bool) : add8 a v c = a + v + carryByte c := ofNat_addByte a v c

theorem add8Flags_eq (a v : Byte) (c : Bool) (k : I8080) : add8Flags a v c k = addFlags80 a v c k := by
  rw [add8Flags, addFlags80, setSZP_eq, add8_eq, toNat_lowDigit, toNat_lowDigit]

theorem sub8_eq (a v : Byte) (b : Bool) : sub8 a v b = a - v - carryByte b := by
  rw [sub8, ofNat_addByte, addByte_not, subByte, Bool.not_not]

theorem sub8Flags_eq (a v : Byte) (b : Bool) (k : I8080) : sub8Flags a v b k = subFlags80 a v b k := by
  have hv := v.isLt
  have not_toNat : (~~~v).toNat = 255 - v.toNat := BitVec.toNat_not
  have complement : bitNat b + bitNat (!b) = 1 := by cases b <;> rfl
  have borrow : a.toNat + (255 - v.toNat) + bitNat (!b) ≤ 0xFF ↔ a.toNat < v.toNat + bitNat b := by omega
  have half : a.toNat % 16 + (15 - v.toNat % 16) + bitNat (!b) > 0x0F ↔ v.toNat % 16 + bitNat b ≤ a.toNat % 16 := by omega
  rw [sub8Flags, subFlags80, setSZP_eq, sub8_eq, toNat_lowDigit, toNat_not_lowDigit, not_toNat, decide_eq_decide.mpr borrow,
    decide_eq_decide.mpr half]

theorem inrFlags_eq (v : Byte) (k : I8080) : inrFlags v k = { szp (v + 1) k with fAC := decide (v.toNat % 16 = 15) } := by
  rw [inrFlags, setSZP_eq, decide_eq_decide.mpr (lowDigit_full_iff v)]

theorem dcrFlags_eq (v : Byte) (k : I8080) : dcrFlags v k = { szp (v - 1) k with fAC := decide (v.toNat % 16 ≠ 0) } := by
  have hv := v.isLt
  have pred : (v - 1).toNat = (255 + v.toNat) % 256 := BitVec.toNat_sub v 1
  have borrow : ¬ (v - 1) &&& 0x0F = 0x0F ↔ v.toNat % 16 ≠ 0 := by
    rw [lowDigit_full_iff, pred]
    omega
  rw [dcrFlags, setSZP_eq, decide_eq_decide.mpr borrow]

/-! ### What each operation leaves -/

section
variable (v : Byte) (c : Bool) (s : State)

theorem addI80_eq : addI80 v c s = { s with i80 := { addFlags80 s.i80.A v c s.i80 with A := s.i80.A + v + carryByte c } } := by
  rw [addI80, add8Flags_eq, add8_eq]
  rfl

theorem subI80_eq : subI80 v c s = { s with i80 := { subFlags80 s.i80.A v c s.i80 with A := s.i80.A - v - carryByte c } } := by
  rw [subI80, sub8Flags_eq, sub8_eq]
  rfl

theorem cmpI80_eq : cmpI80 v s = { s with i80 := subFlags80 s.i80.A v false s.i80 } := by
  rw [cmpI80, sub8Flags_eq]
  rfl

theorem andI80_eq : andI80 v s = { s with i80 := { szp (s.i80.A &&& v) s.i80 with
    A := s.i80.A &&& v, fAC := s.i80.A.getLsbD 3 || v.getLsbD 3, fCY := false } } := by
  rw [andI80, andFlags, setSZP_eq, BitVec.getLsbD_or]
  rfl

theorem logicI80_eq : logicI80 v s = { s with i80 := { szp v s.i80 with A := v, fAC := false, fCY := false } } := by
  rw [logicI80, logicFlags, setSZP_eq]
  rfl

end

/-! ### The obligations -/

/-- Settles O38: each instruction is one of the three operations on A. -/
theorem i80AddSubtract : Obligations.I80AddSubtract := by
  intro s r v c x add sub
  have added (y : Byte) (k : Bool) : Host.Outcome.next (addI80 y k s) = add y k := congrArg _ (addI80_eq y k s)
  have subtracted (y : Byte) (k : Bool) : Host.Outcome.next (subI80 y k s) = sub y k := congrArg _ (subI80_eq y k s)
  exact ⟨added x false, added x c.fCY, added v false, added v c.fCY, subtracted x false, subtracted x c.fCY, subtracted v false,
    subtracted v c.fCY, congrArg _ (cmpI80_eq x s), congrArg _ (cmpI80_eq v s)⟩

/-- Settles O39: the flags of the old value, over the operand already written. -/
theorem i80CountByte : Obligations.I80CountByte := by
  intro s d v up down
  exact ⟨congrArg (fun k => Host.Outcome.next (withI80 up k)) (inrFlags_eq v up.i80),
    congrArg (fun k => Host.Outcome.next (withI80 down k)) (dcrFlags_eq v down.i80)⟩

/-- Settles O42: each instruction is one of the two operations on A. -/
theorem i80Logic : Obligations.I80Logic := by
  intro s r v c x and put
  have conjoined (y : Byte) : Host.Outcome.next (andI80 y s) = and y := congrArg _ (andI80_eq y s)
  have result (y : Byte) : Host.Outcome.next (logicI80 y s) = put y := congrArg _ (logicI80_eq y s)
  exact ⟨conjoined x, conjoined v, result (c.A ^^^ x), result (c.A ^^^ v), result (c.A ||| x), result (c.A ||| v)⟩

end Sys2Proof.Machine
end

section
/-! Decimal arithmetic (43_alu.md R231, R233; 48_i8080.md R463): the formulas of both cores on bytes of two decimal digits. -/

namespace Sys2Proof.Machine

theorem toNat_highDigit (v : Byte) : (v &&& 0xF0).toNat = 16 * (v.toNat / 16) := by
  have : ∀ n : Fin (2 ^ 8), ((BitVec.ofFin n : Byte) &&& 0xF0).toNat = 16 * (n.val / 16) := by decide +kernel
  exact this v.toFin

theorem bitNat_add_not (c : Bool) : bitNat c + bitNat (!c) = 1 := by cases c <;> rfl

theorem add_noCarry (a : Byte) : a + carryByte false = a := BitVec.add_zero a

/-! ### The 6502's decimal addition and subtraction -/

/-- A byte whose digits are those of a number below 100. -/
theorem bcd_of_toNat {b : Byte} {n : Nat} (hn : n < 100) (h : b.toNat = 16 * (n / 10) + n % 10) : IsBcd b ∧ bcdValue b = n := by
  rw [IsBcd, bcdValue, h]
  omega

/-- The sum that `adcDec` takes the byte of, from the sum `h` of the high digits and the sum `l` of the low digits and the carry
(R231). -/
def decSum (h l : Nat) : Nat :=
  let al := if l ≥ 0x0A then (l + 0x06) % 16 + 0x10 else l
  let s0 := 16 * h + al
  if s0 ≥ 0xA0 then s0 + 0x60 else s0

theorem decSum_digits : ∀ h < 19, ∀ l < 20,
    decSum h l % 256 = 16 * ((10 * h + l) % 100 / 10) + (10 * h + l) % 100 % 10 ∧ (decSum h l ≥ 0x100 ↔ 100 ≤ 10 * h + l) := by
  decide +kernel

/-- The difference that `sbcDec` takes the byte of, from the difference `h` of the high digits and the difference `l` of the low
digits less the borrow (R233). -/
def decDiff (h l : Int) : Int :=
  let al := if l < 0 then (l - 0x06) % 16 - 0x10 else l
  let s0 := 16 * h + al
  if s0 < 0 then s0 - 0x60 else s0

theorem decDiff_digits : ∀ h : Nat, h < 19 → ∀ l : Nat, l < 20 →
    (decDiff ((h : Int) - 9) ((l : Int) - 10) % 256).toNat = 16 * ((10 * h + l) % 100 / 10) + (10 * h + l) % 100 % 10 := by
  decide +kernel

section
variable {a m : Byte} (c : Bool)

theorem adcDec_eq : (adcDec a m c).r = BitVec.ofNat 8 (decSum (a.toNat / 16 + m.toNat / 16) (a.toNat % 16 + m.toNat % 16 + bitNat c)) ∧
    (adcDec a m c).C = decide (decSum (a.toNat / 16 + m.toNat / 16) (a.toNat % 16 + m.toNat % 16 + bitNat c) ≥ 0x100) := by
  unfold adcDec decSum
  rw [toNat_lowDigit, toNat_lowDigit, toNat_highDigit, toNat_highDigit, Nat.mul_add]
  exact ⟨rfl, rfl⟩

theorem sbcDec_r : (sbcDec a m c).r =
    BitVec.ofInt 8 (decDiff ((a.toNat / 16 : Nat) - (m.toNat / 16 : Nat)) ((a.toNat % 16 : Nat) - (m.toNat % 16 : Nat) + bitNat c - 1)) := by
  unfold sbcDec decDiff
  rw [toNat_lowDigit, toNat_lowDigit, toNat_highDigit, toNat_highDigit, Int.mul_sub]
  rfl

theorem sbcDec_C : (sbcDec a m c).C = decide (m.toNat + bitNat (!c) ≤ a.toNat) :=
  congrArg Flags.C (setAlu_sbcBin a m c ⟨false, false, false, false, false, false⟩)

variable (ha : IsBcd a) (hm : IsBcd m)
include ha hm

/-- The decimal digits of a sum of two bytes of decimal digits. -/
theorem adcDec_digits : IsBcd (adcDec a m c).r ∧ bcdValue (adcDec a m c).r = (bcdValue a + bcdValue m + bitNat c) % 100 ∧
    (adcDec a m c).C = decide (100 ≤ bcdValue a + bcdValue m + bitNat c) := by
  obtain ⟨la, ua⟩ := ha
  obtain ⟨lm, um⟩ := hm
  have carry := bitNat_add_not c
  obtain ⟨hr, hC⟩ := adcDec_eq (a := a) (m := m) c
  obtain ⟨digits, out⟩ := decSum_digits (a.toNat / 16 + m.toNat / 16) (by omega) (a.toNat % 16 + m.toNat % 16 + bitNat c) (by omega)
  have value : 10 * (a.toNat / 16 + m.toNat / 16) + (a.toNat % 16 + m.toNat % 16 + bitNat c) = bcdValue a + bcdValue m + bitNat c := by
    rw [bcdValue, bcdValue]
    omega
  rw [value] at digits out
  rw [hr, hC, decide_eq_decide.mpr out, ← and_assoc]
  exact ⟨bcd_of_toNat (Nat.mod_lt _ (by decide)) digits, rfl⟩

/-- The decimal digits of a difference of two bytes of decimal digits. -/
theorem sbcDec_digits : IsBcd (sbcDec a m c).r ∧
    bcdValue (sbcDec a m c).r = (bcdValue a + 100 - bcdValue m - bitNat (!c)) % 100 ∧
    (sbcDec a m c).C = decide (bcdValue m + bitNat (!c) ≤ bcdValue a) := by
  obtain ⟨la, ua⟩ := ha
  obtain ⟨lm, um⟩ := hm
  have carry := bitNat_add_not c
  have digits := decDiff_digits (a.toNat / 16 + 9 - m.toNat / 16) (by omega) (a.toNat % 16 + 9 + bitNat c - m.toNat % 16) (by omega)
  have value : 10 * (a.toNat / 16 + 9 - m.toNat / 16) + (a.toNat % 16 + 9 + bitNat c - m.toNat % 16) =
      bcdValue a + 100 - bcdValue m - bitNat (!c) := by
    rw [bcdValue, bcdValue]
    omega
  have high : ((a.toNat / 16 + 9 - m.toNat / 16 : Nat) : Int) - 9 = (a.toNat / 16 : Nat) - (m.toNat / 16 : Nat) := by omega
  have low : ((a.toNat % 16 + 9 + bitNat c - m.toNat % 16 : Nat) : Int) - 10 =
      (a.toNat % 16 : Nat) - (m.toNat % 16 : Nat) + bitNat c - 1 := by omega
  have out : m.toNat + bitNat (!c) ≤ a.toNat ↔ bcdValue m + bitNat (!c) ≤ bcdValue a := by
    rw [bcdValue, bcdValue]
    omega
  rw [value, high, low] at digits
  rw [sbcDec_r, sbcDec_C, decide_eq_decide.mpr out, ← and_assoc]
  exact ⟨bcd_of_toNat (Nat.mod_lt _ (by decide)) ((BitVec.toNat_ofInt _).trans digits), rfl⟩

end

/-- Settles O6: the digits of a sum and of a difference. -/
theorem decimalArithmetic : Obligations.DecimalArithmetic :=
  fun _ _ c ha hm => ⟨adcDec_digits c ha hm, sbcDec_digits c ha hm⟩

/-! ### The 8080's decimal adjustment -/

/-- DAA corrects the low digit (R463). -/
def daaLow (a : Byte) (ac : Bool) : Bool := ac || decide (9 < a.toNat % 16)

/-- DAA corrects the high digit (R463). -/
def daaHigh (a : Byte) (cy : Bool) : Bool :=
  cy || decide (9 < a.toNat / 16) || (decide (9 ≤ a.toNat / 16) && decide (9 < a.toNat % 16))

/-- The byte that DAA adds. -/
def daaAdds (low high : Bool) : Byte := (if low then 0x06 else 0x00) + (if high then 0x60 else 0x00)

theorem daaCorrection_eq (a : Byte) (ac cy : Bool) :
    daaCorrection a ac cy = (daaAdds (daaLow a ac) (daaHigh a cy), daaHigh a cy) := by
  unfold daaCorrection
  rw [toNat_lowDigit]
  show (if daaHigh a cy then ((if daaLow a ac then (0x06 : Byte) else 0x00) ||| 0x60, true) else ((if daaLow a ac then 0x06 else 0x00), cy)) = _
  cases hh : daaHigh a cy with
  | true => cases daaLow a ac <;> rfl
  | false =>
    have : cy = false := by
      cases cy with
      | false => rfl
      | true => exact absurd hh.symm Bool.false_ne_true
    rw [this]
    cases daaLow a ac <;> rfl

theorem exec_i80Daa (s : State) : exec .i80Daa s = .next { s with
    i80 := { addFlags80 s.i80.A (daaAdds (daaLow s.i80.A s.i80.fAC) (daaHigh s.i80.A s.i80.fCY)) false s.i80 with
      A := s.i80.A + daaAdds (daaLow s.i80.A s.i80.fAC) (daaHigh s.i80.A s.i80.fCY)
      fCY := daaHigh s.i80.A s.i80.fCY } } := by
  show Host.Outcome.next (withI80 (addI80 (daaCorrection s.i80.A s.i80.fAC s.i80.fCY).1 false s) _) = _
  rw [daaCorrection_eq, addI80_eq, add_noCarry]
  rfl

/-- The digits of a binary sum with DAA's corrections, from the sums `h` and `l` of the high and the low digits. -/
theorem adjusted_digits : ∀ h < 19, ∀ l < 19,
    (16 * h + l + (6 * bitNat (decide (9 < l)) + 96 * bitNat (decide (100 ≤ 10 * h + l)))) % 256 =
      16 * ((10 * h + l) % 100 / 10) + (10 * h + l) % 100 % 10 := by
  decide +kernel

section
variable {a v : Byte} (ha : IsBcd a) (hv : IsBcd v)
include ha hv

theorem daaLow_digits : daaLow (a + v) (decide (15 < a.toNat % 16 + v.toNat % 16)) = decide (9 < a.toNat % 16 + v.toNat % 16) := by
  obtain ⟨la, ua⟩ := ha
  obtain ⟨lv, uv⟩ := hv
  rw [daaLow, ← Bool.decide_or, BitVec.toNat_add]
  exact decide_eq_decide.mpr (by omega)

theorem daaHigh_digits : daaHigh (a + v) (decide (255 < a.toNat + v.toNat)) = decide (100 ≤ bcdValue a + bcdValue v) := by
  obtain ⟨la, ua⟩ := ha
  obtain ⟨lv, uv⟩ := hv
  rw [daaHigh, ← Bool.decide_or, ← Bool.decide_and, ← Bool.decide_or, BitVec.toNat_add, bcdValue, bcdValue]
  exact decide_eq_decide.mpr (by omega)

theorem daa_digits :
    let r := a + v + daaAdds (decide (9 < a.toNat % 16 + v.toNat % 16)) (decide (100 ≤ bcdValue a + bcdValue v))
    IsBcd r ∧ bcdValue r = (bcdValue a + bcdValue v) % 100 := by
  intro r
  obtain ⟨la, ua⟩ := ha
  obtain ⟨lv, uv⟩ := hv
  refine bcd_of_toNat (Nat.mod_lt _ (by decide)) ?_
  have value : bcdValue a + bcdValue v = 10 * (a.toNat / 16 + v.toNat / 16) + (a.toNat % 16 + v.toNat % 16) := by
    rw [bcdValue, bcdValue]
    omega
  have adds : ∀ low high : Bool, (daaAdds low high).toNat = 6 * bitNat low + 96 * bitNat high := by decide
  have sum : r.toNat = (16 * (a.toNat / 16 + v.toNat / 16) + (a.toNat % 16 + v.toNat % 16) +
      (6 * bitNat (decide (9 < a.toNat % 16 + v.toNat % 16)) + 96 * bitNat (decide (100 ≤ bcdValue a + bcdValue v)))) % 256 := by
    rw [show r.toNat = ((a.toNat + v.toNat) % 256 + (daaAdds _ _).toNat) % 256 from rfl, adds]
    omega
  rw [sum, value]
  exact adjusted_digits (a.toNat / 16 + v.toNat / 16) (by omega) (a.toNat % 16 + v.toNat % 16) (by omega)

end

/-- Settles O41: `daaCorrection_eq`, and on the flags of a sum of decimal digits `daa_digits`. -/
theorem i80DecimalAdjust : Obligations.I80DecimalAdjust := by
  refine ⟨exec_i80Daa, fun s v ha hv => ?_⟩
  have added := addI80_eq v false s
  rw [add_noCarry] at added
  refine ⟨_, _, congrArg Host.Outcome.next added, exec_i80Daa _, ?_⟩
  have low := daaLow_digits ha hv
  have high := daaHigh_digits ha hv
  obtain ⟨digits, value⟩ := daa_digits ha hv
  rw [← low, ← high] at digits value
  exact ⟨digits, value, high⟩

end Sys2Proof.Machine
end

section
/-! The 8080's data transfer, control, stack, ports and step (48_i8080.md R437, R440 to R449; 49_i8080_control.md R500 to R519): what
each operation on the state leaves, and the step by its cases. -/

namespace Sys2Proof.Machine

variable {s : State}

theorem next_congr {t u : State} (h : t = u) : (.next t : Outcome) = .next u := congrArg _ h

/-! ### Control and stack -/

theorem jumpIf_eq (c : Bool) (a : Addr) (s : State) :
    jumpIf c a s = { s with i80 := { s.i80 with PC := if c then a else s.i80.PC } } := by
  cases c with
  | false | true => rfl

theorem returnIf_eq (c : Bool) (s : State) : returnIf c s = if c then { s with i80 := { s.i80 with
    SP := s.i80.SP + 2, PC := cat (s.mem.read (s.i80.SP + 1)) (s.mem.read s.i80.SP) } } else s := rfl

theorem callTo_eq (a : Addr) (s : State) : callTo a s = { s with
    mem := (s.mem.write (s.i80.SP - 1) (hi s.i80.PC)).write (s.i80.SP - 2) (lo s.i80.PC)
    i80 := { s.i80 with SP := s.i80.SP - 2, PC := a } } := by
  rw [callTo, push16_eq]
  rfl

theorem push_pair (h l : Byte) (s : State) : push16 (cat h l) s = { s with
    mem := (s.mem.write (s.i80.SP - 1) h).write (s.i80.SP - 2) l, i80 := { s.i80 with SP := s.i80.SP - 2 } } := by
  rw [push16_eq, hi_cat, lo_cat]
  rfl

theorem pop16_hi_lo (s : State) : hi (pop16 s) = s.mem.read (s.i80.SP + 1) ∧ lo (pop16 s) = s.mem.read s.i80.SP :=
  ⟨hi_cat _ _, lo_cat _ _⟩

/-- A bit of the flag byte of PSW is the disjunction of its fields, each at its own position (R421). -/
theorem getLsbD_packF (c : I8080) (i : Nat) : (packF c).getLsbD i =
    (decide (i < 8) && (decide (7 = i) && c.fS || decide (6 = i) && c.fZ || decide (4 = i) && c.fAC || decide (2 = i) && c.fP ||
      decide (1 = i) || decide (0 = i) && c.fCY)) := by
  simp only [packF, BitVec.getLsbD_or, getLsbD_bitAt, Bool.and_true, Bool.and_or_distrib_left]

/-! ### The obligations on instructions -/

/-- Settles O36: each form of the operand is one case of the register file. -/
theorem i80Move : Obligations.I80Move := by
  intro s v a c hl set
  refine ⟨⟨rfl, rfl, rfl, rfl, rfl, rfl, rfl, rfl⟩, ⟨rfl, rfl, rfl, rfl, rfl, rfl, rfl, rfl⟩, fun d r h => ?_, rfl, rfl, rfl, rfl, rfl⟩
  exact if_neg h

/-- Settles O37: each meaning is its own formula. -/
theorem i80LoadStore : Obligations.I80LoadStore :=
  fun _ _ => ⟨rfl, rfl, rfl, rfl, rfl, rfl, rfl, rfl, rfl⟩

/-- Settles O44: every jump is `jumpIf` on its condition. -/
theorem i80Jump : Obligations.I80Jump := by
  intro s a c goes
  have jumps (k : Bool) := next_congr (jumpIf_eq k a s)
  exact ⟨fun _ => jumps true, jumps _, jumps _, jumps _, jumps _, jumps _, jumps _, jumps _, jumps _, rfl⟩

/-- Settles O45: every call is `callTo`, under its condition. -/
theorem i80Call : Obligations.I80Call := by
  intro s a c enters calls
  have entered (b : Addr) := next_congr (callTo_eq b s)
  have called {i : Instr} (k : Bool) (h : exec i s = .next (callIf k a s)) : calls i k := by
    cases k with
    | false => exact h
    | true => exact h.trans (entered a)
  exact ⟨fun _ => entered a, fun n => entered _, called _ rfl, called _ rfl, called _ rfl, called _ rfl, called _ rfl, called _ rfl,
    called _ rfl, called _ rfl⟩

/-- Settles O46: every return is `returnIf` on its condition. -/
theorem i80Return : Obligations.I80Return :=
  fun s => ⟨fun _ => next_congr (returnIf_eq true s), rfl, rfl, rfl, rfl, rfl, rfl, rfl, rfl⟩

/-- Settles O47: a push and a pop of a pair, and the bits of `packF`. -/
theorem i80Stack : Obligations.I80Stack := by
  intro s c pushes l h pops
  have pushed (x y : Byte) := next_congr (push_pair x y s)
  obtain ⟨high, low⟩ := pop16_hi_lo s
  have popped (f : Byte → Byte → I8080) : (.next (withI80 s { f (hi (pop16 s)) (lo (pop16 s)) with SP := c.SP + 2 }) : Outcome) =
      .next { s with i80 := { f h l with SP := c.SP + 2 } } := by
    rw [high, low]
    rfl
  refine ⟨pushed _ _, pushed _ _, pushed _ _, ⟨packF c, pushed _ _, ?_⟩, popped fun x y => { c with B := x, C := y },
    popped fun x y => { c with D := x, E := y }, popped fun x y => { c with H := x, L := y },
    popped fun x y => { unpackF y c with A := x }, rfl, rfl⟩
  simp [getLsbD_packF, -BitVec.getLsbD_eq_getElem]

/-- Settles O48: IN by whether the host has queued a byte. -/
theorem i80PortsAndControl : Obligations.I80PortsAndControl := by
  intro s p c set
  refine ⟨fun v q h => ?_, fun h => ?_, rfl, rfl, rfl, rfl, fun _ => rfl⟩
  · show (.next (withI80 (portInDone s) { (portInDone s).i80 with A := portIn p s }) : Outcome) = _
    rw [portInDone, portIn, h]
    rfl
  · show (.next (withI80 (portInDone s) { (portInDone s).i80 with A := portIn p s }) : Outcome) = _
    rw [portInDone, portIn, h]
    rfl

/-- Settles O52: each word by evaluation of the decoder. -/
theorem decodeWords : Obligations.DecodeWords := by
  refine ⟨?_, ?_, ?_, ?_, ?_, ?_, ?_, ?_, ?_, ?_, ?_, ?_, ?_, ?_, ?_, ?_, ?_, ?_, ?_, ?_⟩ <;> rfl

/-! ### The step (R437) -/

/-- No interrupt is accepted where one of its three conditions fails. -/
theorem intrAccepted_eq_false {t : State} (h : t.i80.intrRequested = false ∨ t.i80.INTE = false ∨ t.i80.eiPending = true) :
    intrAccepted t = false := by
  unfold intrAccepted
  rcases h with h | h | h
  · rw [h]; rfl
  · rw [h, Bool.and_false]; rfl
  · rw [h]; exact Bool.and_false _

theorem hostActs_nil (h : s.hostQ = []) : hostActs s = s := by
  unfold hostActs
  rw [h]

theorem step8080_running (refused : intrAccepted (hostActs s) = false) (running : (hostActs s).i80.halted = false) :
    step8080 s = exec (current8080 (hostActs s)) (fetched8080 (hostActs s)) := by
  rw [step8080_eq, refused, if_neg Bool.false_ne_true, running, if_neg Bool.false_ne_true]

/-- Settles O50: the host's call by the head of its queue, the step by acceptance and by the halted bit. -/
theorem i80StepRule : Obligations.I80StepRule := by
  intro s hp
  refine ⟨hostActs_nil, fun h rest hq => ?_, fun requested enabled notPending => ?_, fun refused halted => ?_, fun refused running => ?_⟩
  · unfold hostActs
    rw [hq]
    cases hr : h.resetCall with
    | false | true => simp only [hr]; rfl
  · have accepted : intrAccepted (hostActs s) = true := by rw [intrAccepted, requested, enabled, notPending]; rfl
    rw [step_of_i8080 hp, step8080_eq, if_pos accepted]
    rfl
  · rw [step_of_i8080 hp, step8080_eq, intrAccepted_eq_false refused, if_neg Bool.false_ne_true, if_pos halted]
  · exact (step_of_i8080 hp).trans (step8080_running (intrAccepted_eq_false refused) running)

/-! ### The instruction that a step runs (40_engine.md R117; 48_i8080.md R431, R437) -/

theorem step_of_ne_i8080 (h : s.proc ≠ .i8080) : step s = step6502 s := by
  unfold step
  cases hp : s.proc with
  | mos6502 | mos6502NoDecimal => rfl
  | i8080 => exact absurd hp h

theorem length8080_cases (op : Byte) : length8080 op = 1 ∨ length8080 op = 2 ∨ length8080 op = 3 := by
  have all : ∀ n : Fin (2 ^ 8), let k := length8080 (BitVec.ofFin n); k = 1 ∨ k = 2 ∨ k = 3 := by decide +kernel
  exact all op.toFin

/-- An opcode with the operand bytes it reads decodes to what it decodes to with any bytes after them. -/
theorem decodeBytes8080_bytes8080 (op b1 b2 : Byte) :
    decodeBytes8080 (bytes8080 op b1 (operand16 b1 b2)) = .instr (decode8080 op b1 b2) [] := by
  obtain ⟨wf, opcode, mode, bytes⟩ := decodeWith_encodes op b1 (operand16 b1 b2)
  rw [← decode8080_eq_decodeWith] at wf opcode mode bytes
  obtain ⟨p, used, hfor, henc, hdec⟩ := encodeDecode.1 _ wf
  have hused : some (bytes8080 op b1 (operand16 b1 b2)) = some used := by
    rw [← henc, encode, opcode, bytes]
  cases p with
  | mos6502 | mos6502NoDecimal =>
    rw [Instr.isFor, opcode] at hfor
    exact absurd hfor Bool.false_ne_true
  | i8080 =>
    have := hdec [] [] (by rw [Instr.operandBytes, mode]; rfl)
    rw [List.append_nil, List.append_nil, ← Option.some.inj hused] at this
    exact this

/-- Three bytes decode to the instruction of all three, and leave what its length leaves. -/
theorem decodeBytes8080_three_bytes (b0 b1 b2 : Byte) :
    ∃ rest, decodeBytes8080 [b0, b1, b2] = .instr (decode8080 b0 b1 b2) rest ∧ 3 - rest.length = length8080 b0 := by
  have read := fun rest => decodeBytes8080_append rest (decodeBytes8080_bytes8080 b0 b1 b2)
  unfold bytes8080 at read
  rw [with16_operand16] at read
  rcases length8080_cases b0 with h | h | h <;> rw [h] at read ⊢
  · exact ⟨[b1, b2], read [b1, b2], rfl⟩
  · exact ⟨[b2], read [b2], rfl⟩
  · exact ⟨[], read [], rfl⟩

/-- Settles O53: the decoder's answer on the bytes at PC is the term that the step runs. -/
theorem stepRunsDecoded : Obligations.StepRunsDecoded := by
  intro s i rest
  refine ⟨fun hp fetches data hd => ?_, fun hp host refused running hd => ?_⟩
  · have hd : decodeBytes6502 (bytesAt s.mem s.PC) = .instr i rest := by
      cases hproc : s.proc with
      | mos6502 | mos6502NoDecimal => rw [hproc] at hd; exact hd
      | i8080 => exact absurd hproc hp
    obtain ⟨op, operands, rfl, -, bytes⟩ := decodeBytes6502_eq_instr hd
    have first : s.mem.read s.PC = op := (List.cons.inj bytes).1
    rw [step_of_ne_i8080 hp, step6502, current6502, if_pos fetches, data, first]
  · rw [hp] at hd
    obtain ⟨left, decoded, length⟩ := decodeBytes8080_three_bytes (s.mem.read s.i80.PC) (s.mem.read (s.i80.PC + 1)) (s.mem.read (s.i80.PC + 2))
    obtain ⟨rfl, rfl⟩ := Decoded.instr.inj (decoded.symm.trans hd)
    have acts := hostActs_nil host
    rw [step_of_i8080 hp, step8080_running (by rw [acts]; exact refused) (by rw [acts]; exact running), acts, length]
    rfl

end Sys2Proof.Machine
end

section
/-! The 6502's arithmetic and undocumented operations (43_alu.md R230 to R241; 44_rmw.md R270 to R274; 47_illegal.md R374 to R392):
the registers that each hook leaves, and the completions that follow. -/

namespace Sys2Proof.Machine

variable {s : State} {i : Instr} {op : Byte} {m : Mode}

/-! ### The decimal gate (43_alu.md R236) -/

theorem decimal_of_isDecimal (h : isDecimal s) : decimal s = true := by
  obtain ⟨hp, hD⟩ := h
  rw [decimal, decimalEnabled, hD, Bool.and_true]
  exact bne_iff_ne.mpr hp

theorem decimal_of_not_isDecimal (h : ¬ isDecimal s) : decimal s = false := by
  by_contra hd
  rw [Bool.not_eq_false, decimal, Bool.and_eq_true] at hd
  obtain ⟨enabled, hD⟩ := hd
  exact h ⟨bne_iff_ne.mp enabled, hD⟩

/-- In both modes the flags of a subtraction are those of the binary one (R233). -/
theorem setAlu_sbcGated (d : Bool) (a m : Byte) (c : Bool) (p : Flags) : setAlu (sbcGated d a m c) p = subFlags a m c p := by
  rw [← setAlu_sbcBin]
  cases d with
  | false | true => rfl

/-! ### The registers after an addition, a subtraction and a shift of A -/

section
variable {u : View} {p : Flags} {pc : Addr} (hu : u.regs = { arch s with P := p, PC := pc }) (hD : p.D = s.P.D) (v : Byte)
include hu hD

/-- A last step that adds sees the A of the boundary, and the gate of the boundary. -/
theorem arch_addToA : arch (addToA v (low s u)) = { arch s with
    A := (adcGated (decimal s) (regA s) v p.C).r, P := setAlu (adcGated (decimal s) (regA s) v p.C) p, PC := pc } := by
  have hA : u.A = regA s := congrArg Arch.A hu
  have hP : u.P = p := congrArg Arch.P hu
  have gate : decimal (low s u) = decimal s := by
    show (decimalEnabled s && u.P.D) = (decimalEnabled s && s.P.D)
    rw [hP, hD]
  show { u.regs with A := (adcGated (decimal (low s u)) u.A v u.P.C).r, P := setAlu (adcGated (decimal (low s u)) u.A v u.P.C) u.P } = _
  rw [gate, hA, hP, hu]

/-- A last step that subtracts, likewise. -/
theorem arch_subFromA : arch (subFromA v (low s u)) = { arch s with
    A := (sbcGated (decimal s) (regA s) v p.C).r, P := subFlags (regA s) v p.C p, PC := pc } := by
  have hA : u.A = regA s := congrArg Arch.A hu
  have hP : u.P = p := congrArg Arch.P hu
  have gate : decimal (low s u) = decimal s := by
    show (decimalEnabled s && u.P.D) = (decimalEnabled s && s.P.D)
    rw [hP, hD]
  show { u.regs with A := (sbcGated (decimal (low s u)) u.A v u.P.C).r, P := setAlu (sbcGated (decimal (low s u)) u.A v u.P.C) u.P } = _
  rw [setAlu_sbcGated, gate, hA, hP, hu]

end

theorem arch_shiftA (f : Byte → Flags → Byte × Bool) (x : State) : arch (shiftA f x) = { arch x with
    A := (f x.A x.P).1, P := { nz (f x.A x.P).1 (arch x).P with C := (f x.A x.P).2 } } := rfl

theorem regsOnly_shiftA (f : Byte → Flags → Byte × Bool) (x : State) : RegsOnly x (shiftA f x) := rfl

/-- A shift of the accumulator completes with the byte and the bit that `f` makes of the boundary's A (R270 to R274). -/
theorem shiftA_completes {f : Byte → Flags → Byte × Bool} {b : Byte} {c : Bool} (hop : opcode6502 i = some op) (r : Ready s)
    (he : exec i s = runInstr i (implSeq (shiftA f)) s) (hf : f (regA s) s.P = (b, c)) :
    Completes i s { arch s with A := b, P := { nz b s.P with C := c }, PC := s.PC + 1 } s.mem [rd s.mem (s.PC + 1)] := by
  refine impl_completes hop r he (regsOnly_shiftA f) fun u hu => ?_
  have hA : (low s u).A = regA s := congrArg Arch.A hu
  have hP : (low s u).P = s.P := congrArg Arch.P hu
  rw [arch_shiftA, hA, hP, hf, arch_low, hu]
  rfl

/-- A subtraction of the operand from A completes, by the gate (R241). -/
theorem subtract_completes (hop : opcode6502 i = some op) (r : Ready s) (hm : m ∈ readModes)
    (he : exec i s = runInstr i (readSeq m subFromA) s) :
    Completes i s { arch s with
      A := (sbcGated (decimal s) (regA s) (operandOf m s) s.P.C).r
      P := subFlags (regA s) (operandOf m s) s.P.C s.P, PC := pcAfter m s } s.mem (readBus m s) :=
  read_completes hop r hm he regsOnly_subFromA fun _ hu => arch_subFromA hu rfl _

/-! ### The obligations of arithmetic -/

/-- Settles O4: by the gate the hook is the binary or the decimal addition. -/
theorem addWithCarry : Obligations.AddWithCarry := by
  intro s m r h v x
  have adc : ModeTable .adc _ := ⟨fun _ => rfl, fun _ => rfl, by decide⟩
  have added := adc.read_completes (by decide) r h rfl regsOnly_addToA fun u hu => arch_addToA hu rfl v
  refine ⟨fun hd => ?_, fun hd => ?_⟩
  · rw [decimal_of_not_isDecimal hd, show adcGated false = adcBin from rfl, adcBin_r, setAlu_adcBin] at added
    exact added
  · rw [decimal_of_isDecimal hd] at added
    exact added

/-- Settles O5: by the gate the result is that of the binary or of the decimal subtraction, the flags are always the binary ones. -/
theorem subtractWithCarry : Obligations.SubtractWithCarry := by
  intro s m r v after i hi
  have sbc : ModeTable .sbc _ := ⟨fun _ => rfl, fun _ => rfl, by decide⟩
  have subtracted : Completes i s (after (sbcGated (decimal s) (regA s) v s.P.C).r) s.mem (readBus m s) := by
    rcases hi with ⟨rfl, h⟩ | ⟨rfl, rfl⟩
    · obtain ⟨op, hop⟩ := sbc.exists_opcode h
      have modes : ∀ x ∈ aluModes, x ∈ readModes := by decide
      exact subtract_completes hop r (modes m (List.contains_iff_mem.mp h)) rfl
    · exact subtract_completes (i := .sbcDup) rfl r (by decide) rfl
  refine ⟨fun hd => ?_, fun hd => ?_⟩
  · rw [decimal_of_not_isDecimal hd, show sbcGated false = sbcBin from rfl, sbcBin_r] at subtracted
    exact subtracted
  · rw [decimal_of_isDecimal hd] at subtracted
    exact subtracted

/-- Settles O9: each instruction is a shift of A by its own function. -/
theorem shiftAccumulator : Obligations.ShiftAccumulator := by
  intro s r a done
  refine ⟨?asl, ?lsr, ?rol, ?ror⟩
  case asl => exact shiftA_completes (f := fun v _ => asl v) rfl r rfl (asl_eq a)
  case lsr => exact shiftA_completes (f := fun v _ => lsr v) rfl r rfl rfl
  case rol => exact shiftA_completes (f := fun v p => rol v p.C) rfl r rfl (rol_eq a s.P.C)
  case ror => exact shiftA_completes (f := fun v p => ror v p.C) rfl r rfl (ror_eq a s.P.C)

/-- Settles O22: RRA's addition sees the carry of its rotate, ISC's subtraction the incremented byte. -/
theorem combinedArithmetic : Obligations.CombinedArithmetic := by
  intro s m r v done q x
  have rra : ModeTable .rra _ := ⟨fun _ => rfl, fun _ => rfl, by decide⟩
  have isc : ModeTable .isc _ := ⟨fun _ => rfl, fun _ => rfl, by decide⟩
  have rotate : modifyCarry (fun w p => ror w p.C) v s.P = (q, setC (v.getLsbD 0) s.P) := by rw [modifyCarry, ror_eq]
  have added (h : (Instr.rra m).wf = true) :=
    rra.rmw_completes (by decide) r h rfl regsOnly_addToA rotate fun u hu => arch_addToA hu rfl q
  have subtracted (h : (Instr.isc m).wf = true) :=
    isc.rmw_completes (p := s.P) (by decide) r h rfl regsOnly_subFromA rfl fun u hu => arch_subFromA hu rfl (v + 1)
  refine ⟨fun hd h => ?_, fun hd h => ?_, fun hd h => ?_, fun hd h => ?_⟩
  · have done := added h
    rw [decimal_of_not_isDecimal hd, show adcGated false = adcBin from rfl, adcBin_r, setAlu_adcBin] at done
    exact done
  · have done := added h
    rw [decimal_of_isDecimal hd] at done
    exact done
  · have done := subtracted h
    rw [decimal_of_not_isDecimal hd, show sbcGated false = sbcBin from rfl, sbcBin_r] at done
    exact done
  · have done := subtracted h
    rw [decimal_of_isDecimal hd] at done
    exact done

/-! ### Returning from an exception, and BRK (45_control.md R308, R309) -/

/-- Settles O16: the sequence of RTI. -/
theorem returnInterrupt : Obligations.ReturnInterrupt := fun _ r => completes_of_retires rfl (rti_retires rfl r)

/-- Settles O17: the entry of BRK, whose three pushes are the writes. -/
theorem softwareBreak : Obligations.SoftwareBreak := by
  intro s r v ws m
  obtain ⟨t, ht, hr, -⟩ := brk_retires r
  exact storing ⟨t, ht, hr⟩

/-! ### Undocumented NOPs (47_illegal.md R385) -/

/-- A well-formed term that is not of the 8080 has an opcode. -/
theorem exists_opcode (h : i.wf = true) (h80 : encode8080 i = none) : ∃ op, opcode6502 i = some op := by
  obtain ⟨p, -, hfor, -⟩ := encodeDecode.1 i h
  cases p with
  | mos6502 | mos6502NoDecimal => exact Option.isSome_iff_exists.mp hfor
  | i8080 =>
    rw [Instr.isFor, h80] at hfor
    exact absurd hfor Bool.false_ne_true

/-- Settles O20: the implied form is an empty hook in two cycles, the others are of the read class with an empty hook. -/
theorem undocumentedNop : Obligations.UndocumentedNop := by
  intro s m k r h
  obtain ⟨op, hop⟩ := exists_opcode h rfl
  by_cases hm : m = .impl
  · subst hm
    exact impl_completes (hook := id) hop r rfl (fun _ => rfl) fun _ hu => hu
  · have run : exec (.nopU m k) s = runInstr (.nopU m k) (readSeq m fun _ x => x) s := by
      rw [← microNopU_of_ne_impl hm]
      rfl
    rw [if_neg hm]
    exact read_completes hop r (mode_of_nopU h hm) run (fun _ _ => rfl) fun _ hu => hu

/-! ### Immediate combined operations and LAS (47_illegal.md R379 to R387) -/

theorem arch_ancHook (v : Byte) (x : State) : arch (ancHook v x) = { arch x with
    A := x.A &&& v, P := { nz (x.A &&& v) (arch x).P with C := (x.A &&& v).getLsbD 7 } } := rfl

theorem arch_alrHook (v : Byte) (x : State) : arch (alrHook v x) = { arch x with
    A := (x.A &&& v) >>> 1, P := { nz ((x.A &&& v) >>> 1) (arch x).P with C := (x.A &&& v).getLsbD 0 } } := rfl

theorem arch_sbxHook (v : Byte) (x : State) : arch (sbxHook v x) = { arch x with
    X := (x.A &&& x.X) - v
    P := { nz ((x.A &&& x.X) - v) (arch x).P with C := decide (v.toNat ≤ (x.A &&& x.X).toNat) } } := rfl

theorem arch_lasHook (v : Byte) (x : State) : arch (lasHook v x) = { arch x with
    A := v &&& x.S, X := v &&& x.S, S := v &&& x.S, P := nz (v &&& x.S) (arch x).P } := rfl

theorem arch_arrHook (v : Byte) (x : State) : arch (arrHook v x) = { arch x with
    A := (arrResult (decimal x) x.A v x.P).1, P := (arrResult (decimal x) x.A v x.P).2 } := rfl

/-- An instruction of the immediate mode, from its hook's effect on the registers (R162). -/
theorem immediate_completes {hook : Byte → State → State} {a : Arch} (hop : opcode6502 i = some op) (r : Ready s)
    (he : exec i s = runInstr i (immSeq hook) s) (hx : ∀ d x, RegsOnly x (hook d x))
    (ha : ∀ u : View, u.regs = { arch s with PC := pcAfter .imm s } → arch (hook (operandOf .imm s) (low s u)) = a) :
    Completes i s a s.mem (readBus .imm s) := read_completes (m := .imm) hop r (by decide) he hx ha

/-- ARR's rotate (R381). -/
theorem arr_rotate (t : Byte) (c : Bool) : (t >>> 1) ||| bitAt c 7 = (t >>> 1) + (if c then 0x80 else 0x00) :=
  congrArg Prod.fst (ror_eq t c)

theorem arrResult_binary (a m : Byte) (p : Flags) :
    let r := ((a &&& m) >>> 1) + (if p.C then 0x80 else 0x00)
    arrResult false a m p = (r, { nz r p with C := r.getLsbD 6, V := r.getLsbD 6 ^^ r.getLsbD 5 }) := by
  intro r
  simp only [arrResult, arr_rotate]
  rfl

theorem arrResult_decimal (a m : Byte) (p : Flags) :
    let t := a &&& m
    let r := (t >>> 1) + (if p.C then 0x80 else 0x00)
    let r1 := if 5 < t.toNat % 16 + t.toNat % 16 % 2 then (r &&& 0xF0) ||| ((r + 6) &&& 0x0F) else r
    let cy := decide (5 < t.toNat / 16 + t.toNat / 16 % 2)
    arrResult true a m p = (if cy then r1 + 0x60 else r1,
      { p with N := p.C, Z := decide (r = 0x00), V := t.getLsbD 6 ^^ r.getLsbD 6, C := cy }) := by
  intro t r r1 cy
  simp only [arrResult, arr_rotate, toNat_lowDigit]
  rfl

/-- Settles O23: each hook's result for the boundary's registers and the operand. -/
theorem immediateCombined : Obligations.ImmediateCombined := by
  intro s r v t c q x l done
  have arrDone : done .arr { arch s with
      A := (arrResult (decimal s) (regA s) v s.P).1, P := (arrResult (decimal s) (regA s) v s.P).2 } :=
    immediate_completes rfl r rfl regsOnly_arrHook fun u hu => by
      have hA : (low s u).A = regA s := congrArg Arch.A hu
      have hP : (low s u).P = s.P := congrArg Arch.P hu
      have gate : decimal (low s u) = decimal s := congrArg (fun p : Flags => decimalEnabled s && p.D) hP
      rw [arch_arrHook, gate, hA, hP, arch_low, hu]
  refine ⟨fun d => ?anc, ?alr, fun hd => ?binary, fun hd => ?decimal, ?sbx, ?las⟩
  case anc =>
    exact immediate_completes rfl r rfl regsOnly_ancHook fun u hu => by
      rw [arch_ancHook, show (low s u).A = regA s from congrArg Arch.A hu, arch_low, hu]
      rfl
  case alr =>
    exact immediate_completes rfl r rfl regsOnly_alrHook fun u hu => by
      rw [arch_alrHook, show (low s u).A = regA s from congrArg Arch.A hu, arch_low, hu]
      rfl
  case binary =>
    rw [decimal_of_not_isDecimal hd, arrResult_binary] at arrDone
    exact arrDone
  case decimal =>
    rw [decimal_of_isDecimal hd, arrResult_decimal] at arrDone
    exact arrDone
  case sbx =>
    exact immediate_completes rfl r rfl regsOnly_sbxHook fun u hu => by
      rw [arch_sbxHook, show (low s u).A = regA s from congrArg Arch.A hu, show (low s u).X = regX s from congrArg Arch.X hu,
        arch_low, hu]
      rfl
  case las =>
    exact read_completes (m := .absy) rfl r (by decide) rfl regsOnly_lasHook fun u hu => by
      rw [arch_lasHook, show (low s u).S = regS s from congrArg Arch.S hu, arch_low, hu]
      rfl

/-- Settles O24: both results from the boundary's registers, the constants left open. -/
theorem unstableImmediate : Obligations.UnstableImmediate := by
  intro s r a l
  refine ⟨?ane, ?lxa⟩
  case ane =>
    exact immediate_completes rfl r rfl (fun _ x => regsOnly_logicA _ x) fun u hu => by
      rw [arch_logicA, show (low s u).A = regA s from congrArg Arch.A hu, show (low s u).X = regX s from congrArg Arch.X hu,
        arch_low, hu]
      rfl
  case lxa =>
    exact immediate_completes rfl r rfl (fun _ x => regsOnly_loadAX _ x) fun u hu => by
      rw [arch_loadAX, show (low s u).A = regA s from congrArg Arch.A hu, arch_low, hu]
      rfl

/-! ### The unstable stores (47_illegal.md R388 to R392) -/

/-- The modes of the unstable stores, which index a 16-bit address. -/
def indexedModes : List Mode := [.absx, .absy, .izy]

theorem effAddr_indexed (hm : m ∈ indexedModes) (s : State) : effAddr m s = indexAbs (baseAddr m s) (indexAt m s) := by
  simp only [indexedModes, List.mem_cons, List.not_mem_nil, or_false] at hm
  rcases hm with rfl | rfl | rfl <;> rfl

theorem crosses_indexed (hm : m ∈ indexedModes) (s : State) : crosses m s = decide (hi (effAddr m s) ≠ hi (baseAddr m s)) := by
  rw [effAddr_indexed hm]
  simp only [indexedModes, List.mem_cons, List.not_mem_nil, or_false] at hm
  rcases hm with rfl | rfl | rfl <;> rfl

/-- An unstable store completes: the unindexed address is what the write step subtracts out of the indexed one (log entry 12), and
the page crossing is the difference of their high bytes. -/
theorem unstable_completes {reg index : State → Byte} {fin : State → State} {b : Byte} {a : Arch} (hop : opcode6502 i = some op)
    (r : Ready s) (hm : m ∈ indexedModes) (he : exec i s = runInstr i (writeSeq m (storeUnstable reg index) fin) s)
    (hx : ∀ x, RegsOnly x (fin x)) (hreg : ∀ u : View, u.regs = { arch s with PC := pcAfter m s } → reg (low s u) = b)
    (hindex : ∀ u : View, u.regs = { arch s with PC := pcAfter m s } → index (low s u) = indexAt m s)
    (ha : ∀ u : View, u.regs = { arch s with PC := pcAfter m s } → arch (fin (low s u)) = a) :
    let v := b &&& (hi (baseAddr m s) + 1)
    let ea := if crosses m s then cat v (lo (effAddr m s)) else effAddr m s
    CompletesStoring i s a [(ea, v)] (writeBus m s ea v) := by
  intro v ea
  have modes : ∀ x ∈ indexedModes, x ∈ writeModes := by decide
  refine write_completes (ad := fun u => unstableAddr (unstableValue (reg (low s u)) (u.AD - zext16 (index (low s u))))
      (u.AD - zext16 (index (low s u))) u.AD) (vl := fun u => unstableValue (reg (low s u)) (u.AD - zext16 (index (low s u))))
    hop r (modes m hm) he (fun _ => rfl) hx (fun u hu => ?_) ha
  have base : u.AD - zext16 (index (low s u)) = baseAddr m s := by
    rw [hu.AD, hindex u hu.regs, effAddr_indexed hm, indexAbs_sub]
  rw [base, hu.AD, hreg u hu.regs]
  refine ⟨?_, rfl⟩
  rw [unstableAddr]
  show _ = if crosses m s then _ else _
  rw [crosses_indexed hm]
  simp only [decide_eq_true_eq]
  rfl

/-- Settles O25: each store names its register, and TAS defers S as well. -/
theorem unstableStore : Obligations.UnstableStore := by
  intro s m r done
  refine ⟨fun h => ?sha, ?shx, ?shy, ?tas⟩
  case sha =>
    obtain ⟨op, hop⟩ := exists_opcode h rfl
    have modes : ∀ x ∈ [Mode.absy, .izy], x ∈ indexedModes := by decide
    have hm : m ∈ [Mode.absy, .izy] := List.contains_iff_mem.mp h
    have index : ∀ u : View, u.regs = { arch s with PC := pcAfter m s } → (low s u).Y = indexAt m s := fun u hu => by
      simp only [List.mem_cons, List.not_mem_nil, or_false] at hm
      rcases hm with rfl | rfl <;> exact congrArg Arch.Y hu
    exact unstable_completes hop r (modes m hm) rfl (fun _ => rfl) (fun _ hu => congrArg (fun a : Arch => a.A &&& a.X) hu) index
      fun _ hu => hu
  case shx =>
    exact unstable_completes (m := .absy) rfl r (by decide) rfl (fun _ => rfl) (fun _ hu => congrArg Arch.X hu)
      (fun _ hu => congrArg Arch.Y hu) fun _ hu => hu
  case shy =>
    exact unstable_completes (m := .absx) rfl r (by decide) rfl (fun _ => rfl) (fun _ hu => congrArg Arch.Y hu)
      (fun _ hu => congrArg Arch.X hu) fun _ hu => hu
  case tas =>
    exact unstable_completes (m := .absy) rfl r (by decide) rfl (fun x => regsOnly_deferS (x.A &&& x.X) x)
      (fun _ hu => congrArg (fun a : Arch => a.A &&& a.X) hu) (fun _ hu => congrArg Arch.Y hu) fun u hu => by
        rw [arch_deferS, arch_low, show (low s u).A &&& (low s u).X = _ from congrArg (fun a : Arch => a.A &&& a.X) hu, hu]
        rfl

end Sys2Proof.Machine
end

section
/-! Memory (20_memory.md R50, R53), the interrupt latches (60_exceptions.md R523 to R527), the clock divider (R560), the values at
reset (10_state.md R40) and the length of an instruction (30_encoding.md R80 to R84). -/

namespace Sys2Proof.Machine

variable {s : State}

/-! ### Memories that read alike -/

theorem lookup_below {l : Memory} : ∀ {n : Nat}, Memory.wfFrom n l = true → ∀ a < n, Memory.lookup l a = unlistedByte := by
  induction l with
  | nil => exact fun _ _ _ => rfl
  | cons c l ih =>
    obtain ⟨k, v⟩ := c
    intro n h a ha
    simp only [Memory.wfFrom, Bool.and_eq_true, decide_eq_true_eq] at h
    obtain ⟨⟨⟨hk, -⟩, -⟩, hl⟩ := h
    rw [Memory.lookup, if_neg (by omega)]
    exact ih hl a (by omega)

/-- Two lists in the canonical form that hold the same byte at every address are equal. -/
theorem eq_of_lookup_eq {l : Memory} : ∀ {n : Nat} {m : Memory}, Memory.wfFrom n l = true → Memory.wfFrom n m = true →
    (∀ a < 65536, Memory.lookup l a = Memory.lookup m a) → l = m := by
  have head {k : Nat} {v : Byte} {l : Memory} : Memory.lookup ((k, v) :: l) k = v := if_pos rfl
  induction l with
  | nil =>
    intro n m _ hm alike
    cases m with
    | nil => rfl
    | cons d m =>
      obtain ⟨j, w⟩ := d
      simp only [Memory.wfFrom, Bool.and_eq_true, decide_eq_true_eq] at hm
      obtain ⟨⟨⟨-, hj⟩, hw⟩, -⟩ := hm
      exact absurd (head.symm.trans (alike j hj).symm) hw
  | cons c l ih =>
    obtain ⟨k, v⟩ := c
    intro n m hl hm alike
    simp only [Memory.wfFrom, Bool.and_eq_true, decide_eq_true_eq] at hl
    obtain ⟨⟨⟨-, hk⟩, hv⟩, hlt⟩ := hl
    cases m with
    | nil => exact absurd (head.symm.trans (alike k hk)) hv
    | cons d m =>
      obtain ⟨j, w⟩ := d
      simp only [Memory.wfFrom, Bool.and_eq_true, decide_eq_true_eq] at hm
      obtain ⟨⟨⟨-, hj⟩, hw⟩, hmt⟩ := hm
      rcases Nat.lt_trichotomy k j with hkj | rfl | hjk
      · have := alike k hk
        rw [head, Memory.lookup, if_neg (by omega), lookup_below hmt k (by omega)] at this
        exact absurd this hv
      · obtain rfl : v = w := head.symm.trans ((alike k hk).trans head)
        rw [ih hlt hmt fun a ha => ?_]
        rcases eq_or_ne k a with rfl | hka
        · rw [lookup_below hlt _ (by omega), lookup_below hmt _ (by omega)]
        · have := alike a ha
          rwa [Memory.lookup, Memory.lookup, if_neg hka, if_neg hka] at this
      · have := alike j hj
        rw [head, Memory.lookup, if_neg (by omega), lookup_below hlt j (by omega)] at this
        exact absurd this.symm hw

/-- Settles O59: the laws of `write` and `eq_of_lookup_eq`. -/
theorem memoryReadsBack : Obligations.MemoryReadsBack := by
  intro m a v h
  refine ⟨write_wf m a v h, read_write_self m a v h, fun b hb => read_write_other m a b v hb, fun n hn alike => ?_⟩
  refine eq_of_lookup_eq hn h fun b hb => ?_
  have := alike (BitVec.ofNat 16 b)
  rwa [Memory.read, Memory.read, BitVec.toNat_ofNat, Nat.mod_eq_of_lt hb] at this

/-! ### Sampling -/

theorem getLsbD_shiftIn_zero (l : BitVec 16) (b : Bool) : (shiftIn l b).getLsbD 0 = b := by
  cases b <;> simp [shiftIn, bitNat]

theorem getLsbD_shiftIn_succ (l : BitVec 16) (b : Bool) {k : Nat} (hk : k < 15) : (shiftIn l b).getLsbD (k + 1) = l.getLsbD k := by
  have : k + 1 < 16 := by omega
  cases b <;> simp [shiftIn, bitNat, this, -BitVec.getLsbD_eq_getElem]

/-- Settles O31: the bits of `shiftIn`; the second sample's edge needs the line high at the first. -/
theorem interruptSampling : Obligations.InterruptSampling := by
  intro s k hk t
  refine ⟨getLsbD_shiftIn_zero _ _, getLsbD_shiftIn_succ _ _ hk, getLsbD_shiftIn_zero _ _, getLsbD_shiftIn_succ _ _ hk, ?_, rfl⟩
  exact (getLsbD_shiftIn_zero _ _).trans (Bool.and_not_self s.pins.nmiN)

/-- The end of a flag instruction: the flags, and the arbitration on the latches of the boundary after two samples, of which the
first is under the boundary's I (R524 to R526). -/
theorem setFlags_arbitrates {i : Instr} {op : Byte} {f : Flags → Flags} (hop : opcode6502 i = some op) (r : Ready s)
    (he : exec i s = runInstr i (implSeq fun x => setP (f x.P) x) s) :
    ∃ t, exec i s = .next t ∧ t.P = f s.P ∧ t.intent = arbitrated .none
      (decide (shiftIn (shiftIn s.nmiLatch (nmiEdge s)) (s.pins.nmiN && !s.pins.nmiN) &&& 0xFFFC ≠ 0))
      ((shiftIn (shiftIn s.irqLatch (irqSample s)) (!s.pins.irqN && !s.P.I)).getLsbD 1) := by
  have hD := own_self op (implSeq fun x => setP (f x.P) x)
  have h := Reaches.first r hD (fun u => u) View.PC (fun _ => keeps) (fun _ => rfl)
  obtain ⟨t, ht, hr, hi⟩ := h.retire (y := setP (f s.P) (low s (View.enter s _))) r.toQuiet r.jammed rfl rfl hD rfl
    (fetchesFrom_fetchNext _) rfl
  exact ⟨t, he.trans ((runInstr_ready hop r.phase).trans ht), congrArg Arch.P hr.arch, hi⟩

/-- Settles O33: the sample that reaches bit 1 was taken under the I of the boundary. -/
theorem maskLatency : Obligations.MaskLatency := by
  intro s r low
  refine ⟨fun masked => ?_, fun clear latch => ?_⟩
  · obtain ⟨t, ht, hP, hi⟩ := setFlags_arbitrates (i := .cli) (f := fun p => { p with I := false }) rfl r rfl
    have notIrq : ∀ b : Bool, arbitrated .none b false ≠ .irq := by decide
    refine ⟨t, ht, by rw [hP], ?_⟩
    rw [hi, getLsbD_shiftIn_succ _ _ (by decide), getLsbD_shiftIn_zero, irqSample, masked, Bool.not_true, Bool.and_false]
    exact notIrq _
  · obtain ⟨t, ht, hP, hi⟩ := setFlags_arbitrates (i := .sei) (f := fun p => { p with I := true }) rfl r rfl
    refine ⟨t, ht, by rw [hP], ?_⟩
    have noNmi : ∀ a b : Bool, decide (shiftIn (shiftIn 0 a) b &&& 0xFFFC ≠ 0) = false := by decide
    rw [hi, getLsbD_shiftIn_succ _ _ (by decide), getLsbD_shiftIn_zero, irqSample, clear, low, latch, noNmi]
    rfl

/-! ### The clock divider -/

/-- Edges that do not fill the count change only the divider. -/
theorem masterEdges_count (D : Dispatcher) (n : Nat) : ∀ s : State, s.divider.cnt.val + n < 12 →
    ∃ d, masterEdges D n s = .next { s with divider := d } ∧ d.cnt.val = s.divider.cnt.val + n := by
  induction n with
  | zero => exact fun s _ => ⟨s.divider, rfl, rfl⟩
  | succ n ih =>
    intro s h
    have hc : s.divider.cnt.val + 1 < 12 := by omega
    obtain ⟨d, hd, hn⟩ := ih (countTo ⟨s.divider.cnt.val + 1, hc⟩ (s.divider.cnt.val + 1 == Config.m2LeadCount) s) (by
      show s.divider.cnt.val + 1 + n < 12
      omega)
    refine ⟨d, ?_, hn.trans (by show s.divider.cnt.val + 1 + n = _; omega)⟩
    rw [masterEdges, masterEdge, dif_pos hc, andThen_next, hd]
    rfl

/-- Settles O35: `masterEdges_count` below twelve, `masterEdges_run` at twelve. -/
theorem clockDivider : Obligations.ClockDivider := by
  intro D s hc
  have zero : s.divider.cnt.val = 0 := congrArg Fin.val hc
  have twelve := masterEdges_run D 11 s (by omega)
  refine ⟨fun n hn => ?_, fun phase => ?_, fun phase => ?_⟩
  · obtain ⟨d, hd, hcount⟩ := masterEdges_count D n s (by omega)
    exact ⟨d, hd, by omega⟩
  · have lead : s.divider.cnt.val < Config.m2LeadCount := by
      have := lead_pos
      omega
    rw [twelve, phase, decide_eq_true lead, Bool.not_false, Bool.and_true, Bool.or_true]
    exact andThen_id _
  · have same : ({ cnt := 0, m2 := s.divider.m2 || (false && decide (s.divider.cnt.val < Config.m2LeadCount)) } : Divider) = s.divider := by
      rw [Bool.false_and, Bool.or_false, ← hc]
    rw [twelve, show (!s.phase) = false by rw [phase]; rfl, same]
    rfl

/-! ### Reset and construction -/

/-- Settles O56: nothing is pending, and the first cycle is an opcode fetch. -/
theorem invariantAtReset : Obligations.InvariantAtReset :=
  ⟨⟨rfl, by decide, rfl, fun _ => rfl, .inl rfl, .inl rfl⟩, fun _ _ _ h => ⟨h, le_rfl, rfl, fun _ => rfl, .inl rfl, .inl rfl⟩⟩

/-- Settles O58: the first step from construction by evaluation, the rest by the definitions. -/
theorem resetState : Obligations.ResetState :=
  ⟨rfl, rfl, rfl, rfl, rfl, rfl, rfl, rfl, ⟨rfl, rfl, rfl, rfl, rfl, rfl⟩, rfl, rfl, rfl, rfl, rfl, rfl, rfl, rfl, rfl,
    fun _ _ _ => rfl, fun _ => rfl⟩

end Sys2Proof.Machine
end

section
/-! The length of an instruction (30_encoding.md R80, R81, R84) and how far its sequence moves PC. -/

namespace Sys2Proof.Machine

variable {s : State} {i : Instr} {op : Byte} {m : Mode}

/-- Every opcode has a mode (R92). -/
theorem mode_decode6502 (op : Byte) : ∃ m, (decode6502 op).mode = some m := by
  have h : ∀ op : Byte, (decode6502 op).mode.isSome = true := by decide +kernel
  exact Option.isSome_iff_exists.mp (h op)

theorem length_of_mode (m : Mode) : 1 + m.operandBytes =
    if m ∈ [Mode.impl, .acc] then 1 else if m ∈ [Mode.imm, .zp, .zpx, .zpy, .izx, .izy, .rel] then 2 else 3 := by
  cases m <;> rfl

/-- The 6502's map has one instruction at each opcode (R92). -/
theorem decode_of_opcode (hop : opcode6502 i = some op) : decode6502 op = i := by
  obtain ⟨p, bytes, -, henc, hdec⟩ := Laws.Encoding.statement i (wf_of_opcode hop)
  obtain rfl : bytes = [op] := by simpa [encode, hop] using henc.symm
  have h := hdec (List.replicate i.operandBytes 0) List.length_replicate
  cases p with
  | mos6502 | mos6502NoDecimal =>
    obtain ⟨op', operands, hi, -, hbytes⟩ := decodeBytes6502_eq_instr (bytes := op :: List.replicate i.operandBytes 0) h
    rw [hi, (List.cons.inj hbytes).1]
  | i8080 =>
    obtain ⟨op', b1, b2, hi, -⟩ := decodeBytes8080_eq_instr h
    obtain ⟨-, no6502, -⟩ := decodeWith_encodes op' b1 (operand16 b1 b2)
    rw [hi, decode8080_eq_decodeWith, no6502] at hop
    exact absurd hop.symm (Option.some_ne_none _)

/-- PC past an instruction is its length on. -/
theorem pcAfter_eq_length (hop : opcode6502 i = some op) (hi : i.mode = some m) :
    pcAfter m s = s.PC + BitVec.ofNat 16 (length6502 op) := by
  rw [length6502_eq, decode_of_opcode hop, Instr.operandBytes_of_mode hi, BitVec.ofNat_add, ← BitVec.add_assoc]
  rfl

/-- The run ends at an opcode fetch, with PC past an instruction of mode `m`. -/
def Advances (i : Instr) (μ : Micro) (m : Mode) (s : State) : Prop :=
  ∃ t, runInstr i μ s = .next t ∧ t.PC = pcAfter m s ∧ AtFetch t

/-- An end whose registers come from a hook, which leaves PC. -/
theorem Hook.advances {μ : Micro} {x y t : State} {mem : Memory} {bus : List BusCycle} (hx : Hook x y) (hPC : x.PC = pcAfter m s)
    (ht : runInstr i μ s = .next t) (hr : Retires s t (arch y) mem bus) : Advances i μ m s :=
  ⟨t, ht, (congrArg Arch.PC hr.arch).trans (hx.PC.trans hPC), hr.fetch⟩

/-- Every class of microcode leaves PC past the bytes of its mode. -/
theorem Form.advances {μ : Micro} {last : Nat} (h : Form μ m last) (hop : opcode6502 i = some op) (r : Ready s) :
    Advances i μ m s := by
  cases h with
  | impl hm hx =>
    obtain ⟨w, t, ht, hw, hr⟩ := impl_retires hop r fun x => (hx x).regs
    refine (hx (low s w)).advances (congrArg Arch.PC hw |>.trans ?_) ht hr
    rw [pcAfter, hm]
    exact (BitVec.add_zero _).symm
  | read hm hx =>
    obtain ⟨w, t, ht, hw, hr⟩ := read_retires hop r hm fun d x => (hx d x).regs
    exact (hx _ (low s w)).advances (congrArg Arch.PC hw) ht hr
  | write hm hst hx =>
    obtain ⟨u, w, t, ht, -, hw, hr⟩ := write_retires hop r hm (fun u => hst (low s u)) fun x => (hx x).regs
    exact (hx (low s w)).advances (congrArg Arch.PC hw) ht hr
  | rmw hm hx =>
    obtain ⟨w, t, ht, hw, hr⟩ := rmw_retires hop r hm fun d x => (hx d x).regs
    exact (hx _ (low s w)).advances (congrArg Arch.PC hw) ht hr
  | @push value hv =>
    obtain ⟨t, ht, hr⟩ := push_retires (b := value { s with A := regA s }) hop r fun u hu =>
      hv _ _ (congrArg Arch.A hu) (congrArg Arch.P hu)
    exact ⟨t, ht, (congrArg Arch.PC hr.arch).trans (BitVec.add_zero _).symm, hr.fetch⟩
  | pull hx =>
    obtain ⟨w, t, ht, hw, hr⟩ := pull_retires hop r fun d x => (hx d x).regs
    exact (hx _ (low s w)).advances ((congrArg Arch.PC hw).trans (BitVec.add_zero _).symm) ht hr

/-- Settles O60: the mode of each opcode, the laws of the decoder, and the classes of microcode. -/
theorem instructionLength : Obligations.InstructionLength := by
  refine ⟨fun op => ?_, fun op k h => ?_, fun p op operands rest hp h => ?_, fun p op tail hp h => ?_, fun s i op r hop hc hj => ?_⟩
  · obtain ⟨m, hm⟩ := mode_decode6502 op
    exact ⟨m, hm, by rw [length6502_eq, Instr.operandBytes_of_mode hm, length_of_mode]⟩
  · rw [length6502_eq, h]
    rfl
  · cases p with
    | i8080 => exact absurd rfl hp
    | mos6502 | mos6502NoDecimal => exact decodeBytes6502_append rest (by rw [length6502_eq] at h; omega)
  · cases p with
    | i8080 => exact absurd rfl hp
    | mos6502 | mos6502NoDecimal => exact decodeBytes6502_truncated h
  · obtain ⟨m, hi, form⟩ := form_microOf hop hc hj
    obtain ⟨t, ht, hPC, hf⟩ := form.advances hop r
    exact ⟨t, (exec_eq_run hop s).trans ht, hPC.trans (pcAfter_eq_length hop hi), hf⟩

end Sys2Proof.Machine
end

section
/-! JAM (47_illegal.md R395) and the hijacks (60_exceptions.md R528 to R533; 70_reset_and_hazards.md R580 to R586). -/

namespace Sys2Proof.Machine

variable {s : State} {op : Byte} {D : Dispatcher} {j : Intent}

/-! ### JAM -/

/-- A jammed core, at the step of JAM that repeats. -/
def JammedAt (k : Fin 12) (s : State) : Prop :=
  Quiet s ∧ s.pins.sync = false ∧ s.jammed = true ∧ decode6502 s.IR = .jam k ∧ s.T = 1

/-- Inside an instruction the stages before the dispatch load no opcode (40_engine.md R114). -/
theorem prepare_inside (h : s.pins.sync = false) : prepare s = defaultRead (latchShiftAndSample (commit s)) :=
  congrArg defaultRead (if_neg (Bool.eq_false_iff.mp h))

/-- JAM's two cycles from an instruction boundary: the second jams the core and holds the step. -/
theorem jam_enters (r : Ready s) (k : Fin 12) : ∃ t, exec (.jam k) s = .next t ∧ JammedAt k t ∧ t.intent = .none ∧
    t.proc = s.proc ∧ arch t = { arch s with PC := s.PC + 1 } ∧ t.mem = s.mem ∧
    t.trace = [rd s.mem (s.PC + 1), rd s.mem Config.jamAddr] := by
  obtain ⟨op, hop⟩ := exists_opcode (i := .jam k) rfl rfl
  have hD := own_self op microJam
  have h := Reaches.first r hD (fun u => u) View.PC (fun _ => keeps) (fun _ => rfl)
  have h2 := runCycles_high (n := 6) (v := (View.entry s op).readCycle s (s.PC + 1) 1) (D := ownDispatcher op microJam)
    (congrArg (fun μ : Micro => μ 1 (low s _)) hD) rfl rfl rfl
  exact ⟨_, ((runInstr_ready hop r.phase).trans h.run).trans h2, ⟨⟨rfl, rfl, rfl, rfl, rfl⟩, rfl, rfl, decode_of_opcode hop, rfl⟩,
    rfl, rfl, rfl, rfl, rfl⟩

/-- What a step makes of a jammed state. -/
def jamCycle (s : State) : State :=
  endCycle (busRead Config.jamAddr { defaultRead (latchShiftAndSample (commit (lowered (clearTrace s)))) with jammed := true })

theorem jammedAt_jamCycle {k : Fin 12} (h : JammedAt k s) : JammedAt k (jamCycle s) := by
  obtain ⟨q, sync, -, ir, step1⟩ := h
  exact ⟨⟨rfl, q.resN, q.resHeld, q.rdy, q.callerQ⟩, sync, rfl, ir, step1⟩

theorem trace_jamCycle (h : s.pins.sync = false) : (jamCycle s).trace = [rd s.mem Config.jamAddr] := by
  show [(⟨Config.jamAddr, true, s.pins.sync, s.mem.read Config.jamAddr⟩ : BusCycle)] = _
  rw [h]
  rfl

/-- One step of a jammed core. -/
theorem step_jammed {k : Fin 12} (hp : s.proc ≠ .i8080) (h : JammedAt k s) : step s = .next (jamCycle s) := by
  obtain ⟨q, sync, -, ir, step1⟩ := h
  have cur : currentOp s = s.IR := if_neg (Bool.eq_false_iff.mp sync)
  have inside := prepare_inside (s := lowered (clearTrace s)) sync
  have hd : ownDispatcher s.IR microJam s.IR s.T (prepare (lowered (clearTrace s))) =
      some (busRead Config.jamAddr { prepare (lowered (clearTrace s)) with jammed := true }, .hold) := by
    rw [own_self, step1]
    rfl
  have cycle := systemCycle_quiet (s := clearTrace s) ⟨q.phase, q.resN, q.resHeld, q.rdy, q.callerQ⟩
    (D := ownDispatcher s.IR microJam) (a := .hold)
    (t := busRead Config.jamAddr { defaultRead (latchShiftAndSample (commit (lowered (clearTrace s)))) with jammed := true })
    (by rw [inside] at hd ⊢; exact hd) rfl rfl rfl
  rw [step_eq_runCycles hp q.phase, cur, ir]
  show andThen (systemCycle (ownDispatcher s.IR microJam) (clearTrace s)) _ = _
  rw [cycle, andThen_next]
  exact if_pos (by simp [stops, endCycle, advanceStep, busRead])

theorem run_succ {M : Host.Core} {s t : M.State} (n : Nat) (h : M.step s = .next t) : M.run (n + 1) s = M.run n t := by
  rw [Host.Core.run, h]

/-- Settles O26: a jammed state steps to one like it. -/
theorem jamStops : Obligations.JamStops := by
  refine ⟨fun s k r => jam_enters r k, fun s k hp h => ?_, fun n => ?_⟩
  · have ⟨_, sync, _⟩ := h
    exact ⟨_, step_jammed hp h, jammedAt_jamCycle h, rfl, rfl, rfl, rfl, rfl, trace_jamCycle sync⟩
  · induction n with
    | zero => exact fun s k hp h => ⟨s, rfl, h, rfl, rfl, rfl, rfl, rfl⟩
    | succ n ih =>
      intro s k hp h
      obtain ⟨t, ht, hj, hi, hIR, hproc, harch, hm⟩ := ih (jamCycle s) k hp (jammedAt_jamCycle h)
      exact ⟨t, (run_succ (M := core) n (step_jammed hp h)).trans ht, hj, hi, hIR, hproc, harch, hm⟩

/-! ### Hijacks -/

theorem vectorOf_interrupt (hn : j ≠ .none) (hr : j ≠ .reset) :
    vectorOf j s = if j = .nmi ∨ nmiByStep4 s = true then 0xFFFA else 0xFFFE := by
  cases j with
  | none => exact absurd rfl hn
  | reset => exact absurd rfl hr
  | nmi => rfl
  | irq =>
    have : (Intent.irq = .nmi ∨ nmiByStep4 s = true) ↔ nmiByStep4 s = true := or_iff_right (by decide)
    simp only [this]
    rfl

/-- A step from a hijack pending, whatever was fetched. -/
theorem step_hijacked (r : Hijacked s j) (hp : s.proc ≠ .i8080) : ∃ t, step s = .next t ∧
    RetiresWith (if j = .reset then s.rstCnt - 2 else s.rstCnt) s t (breakArch j s) (pushedFrame j s) (breakBus j s) ∧
    t.intent ≠ .irq := by
  obtain ⟨t, ht, hr, hi⟩ := hijack_retires (opcode_decode _) r (current_micro _)
  exact ⟨t, (step_eq_run hp).trans ht, hr, hi⟩

/-- Settles O27: the break sequence under each intent; the pulse leaves the boundary hijacked by its definition. -/
theorem interruptEntry : Obligations.InterruptEntry := by
  refine ⟨fun s j r hj hp => ?_, fun s r hp => ?_, fun s q sync rw' jam => ?_⟩
  · obtain ⟨t, ht, hr, hi⟩ := step_hijacked r hp
    rw [if_neg hj] at hr
    rw [← vectorOf_interrupt r.taken hj]
    cases j with
    | none => exact absurd rfl r.taken
    | reset => exact absurd rfl hj
    | irq | nmi => exact ⟨t, ht, hr, fun b hb => hr.mem ▸ writeAll_frame _ s.mem b hb, hi⟩
  · obtain ⟨t, ht, hr, hi⟩ := step_hijacked r hp
    rw [if_pos rfl] at hr
    exact ⟨t, ht, hr, hi⟩
  · exact ⟨⟨⟨q.phase, rfl, q.resHeld, q.rdy, q.callerQ⟩, sync, rw', jam, rfl, by decide⟩, rfl, rfl, rfl⟩

/-! ### Construction -/

/-- The run of the reset sequence from a boundary hijacked by Reset. -/
theorem reset_runs (r : Hijacked s .reset) (hD : D 0x00 = breakSequence) :
    ∃ t, runCycles D longestRun (clearTrace (supplyOpcode op s)) = .next t ∧
      RetiresWith (s.rstCnt - 2) s t (breakArch .reset s) (pushedFrame .reset s) (breakBus .reset s) ∧
      (s.nmiLatch = 0 → nmiEdge s = false → t.intent = .none) := by
  obtain ⟨q, sync, rw', jam, int, taken⟩ := r
  have first : breakSequence 0 (low s (View.hijack s op)) = some (busRead s.PC (low s (View.hijack s op)), .next) := by
    show go (match s.intent with | .none => _ | .irq | .nmi | .reset => _) = _
    rw [int]
    rfl
  have h1 := Reaches.firstHijack (op := op) ⟨q, sync, rw', jam, int, taken⟩ hD (fun u => u) View.PC (fun _ => keeps) first
  have h1 : Reaches D s op 0x00 1 7 (View.breakFirst s op 0x00 .reset s.PC s.PC) := by
    rw [View.hijack, int] at h1
    exact h1
  obtain ⟨t, ht, hr, -, hi⟩ := break_reset h1 q jam hD
  exact ⟨t, ht, hr, hi⟩

/-- The constructed state after the priming call (20_memory.md R55). -/
def primedConstruction (p : Processor) (po : PowerOn) (mem : Memory) : State :=
  onHigh { State.constructed p po mem with phase := true, divider := highDivider p { cnt := 0, m2 := false } }

theorem hijacked_primedConstruction (p : Processor) (po : PowerOn) (mem : Memory) :
    Hijacked (primedConstruction p po mem) .reset :=
  ⟨⟨rfl, rfl, rfl, rfl, rfl⟩, rfl, rfl, rfl, rfl, by decide⟩

/-- Settles O28: the constructed state is hijacked by Reset with the counter 2 and no NMI edge in the latch. -/
theorem resetSequence : Obligations.ResetSequence := by
  intro p po mem hp
  obtain ⟨t, ht, hr, hi⟩ := reset_runs (op := po.data) (hijacked_primedConstruction p po mem) (own_brk (current_micro po.data))
  have rise := clockTo_high (ownDispatcher po.data (microOf (decode6502 po.data))) (State.constructed p po mem) rfl (.inl rfl)
  have run : step (State.constructed p po mem) = .next t := by
    rw [step_eq_run hp, runInstr, opcode_decode]
    show andThen (andThen (clockTo _ true (State.constructed p po mem)) _) _ = _
    rw [show currentOp (State.constructed p po mem) = po.data from rfl, rise]
    exact ht
  exact ⟨t, run, hr.arch, hr.mem, hr.rstCnt, hi rfl rfl, hr.rest.resHeld, hr.rest.jammed, hr.fetch, hr.trace⟩

end Sys2Proof.Machine
end

section
/-! The reset line (70_reset_and_hazards.md R581 to R586) and stalled cycles (40_engine.md R122, R124). -/

namespace Sys2Proof.Machine

variable {s u : State} {op : Byte} {D : Dispatcher}

/-! ### What the caller does before a cycle -/

theorem callerActs_cons {c : CallerInput} {rest : List CallerInput} (h : s.callerQ = c :: rest) :
    let r := c.resetCalls.foldl (fun x level => setReset level x) s
    callerActs s = { r with
      callerQ := rest, pins := { r.pins with irqN := c.irqN, nmiN := c.nmiN, rdy := c.rdy }
      mem := s.mem.writeCells c.busWrites } := by
  intro r
  obtain ⟨i, rc, rn, he⟩ := callResets_eq c.resetCalls s
  have mem : r.mem = s.mem := by
    show (c.resetCalls.foldl _ s).mem = _
    rw [← callResets_eq_foldl, he]
  unfold callerActs
  rw [h, ← mem]
  simp only [callResets_eq_foldl]
  rfl

theorem resN_callerActs {c : CallerInput} {rest : List CallerInput} {before : List Bool} {level : Bool}
    (h : s.callerQ = c :: rest) (hc : c.resetCalls = before ++ [level]) : (callerActs s).pins.resN = level := by
  have last := callResets_last before level s
  unfold callerActs
  rw [h]
  show (callResets c.resetCalls s).pins.resN = level
  rw [hc, last]

theorem lowDivider_callerActs (s : State) : lowDivider (callerActs s).proc (callerActs s).divider = lowDivider s.proc s.divider := by
  rw [proc_callerActs, divider_callerActs]

/-! ### A cycle with the reset line low -/

/-- The line suspends everything (R581), whatever the dispatcher. -/
theorem systemCycle_held (hph : s.phase = true) (low : (callerActs s).pins.resN = false) :
    systemCycle D (clearTrace s) =
      .next (endCycleWith (outsideByte s) (resetHeldCycle (lowered (clearTrace (callerActs s))))) := by
  have held : onLow D (lowered (callerActs (clearTrace s))) = .next (resetHeldCycle (lowered (clearTrace (callerActs s)))) := by
    rw [callerActs_clearTrace]
    exact if_pos (by simpa [lowered, clearTrace] using low)
  exact systemCycle_of_onLow (s := clearTrace s) hph held (proc_callerActs s) rfl (lowDivider_callerActs s)

theorem step_held (hp : s.proc ≠ .i8080) (hph : s.phase = true) (low : (callerActs s).pins.resN = false) :
    step s = .next (endCycleWith (outsideByte s) (resetHeldCycle (lowered (clearTrace (callerActs s))))) := by
  rw [step_eq_runCycles hp hph]
  show andThen (systemCycle _ (clearTrace s)) _ = _
  rw [systemCycle_held hph low, andThen_next]
  exact if_pos (by simp [stops, endCycleWith, resetHeldCycle])

/-! ### The release -/

/-- The line is high again in the cycle after a held one, with nothing else of the caller's. -/
structure Released (u : State) : Prop where
  resN : u.pins.resN = true
  rdy : u.pins.rdy = false
  callerQ : u.callerQ = []
  jammed : u.jammed = false

/-- The view after the first cycle of the reset sequence that a release begins (R583), whose read `b` may have answered. -/
def View.release (u : State) (b : Option Byte) : View :=
  { View.breakFirst (resetRelease u) 0x00 0x00 .reset u.PC u.PC with
    data := b.getD (u.mem.read u.PC), trace := [⟨u.PC, true, false, b.getD (u.mem.read u.PC)⟩] }

theorem endCycleWith_release (r : Released u) (b : Option Byte) :
    endCycleWith b (advanceStep .next (busRead u.PC (prepare (resetRelease (lowered (clearTrace u)))))) =
      high (resetRelease u) (View.release u b) := by
  obtain ⟨h1, h2, h3, h4⟩ := r
  obtain ⟨pr, A, X, Y, S, PC, P, ⟨ad, da, rw, sy, rn, iq, nm, rdy⟩, ph, IR, T, AD, TMP, SS, pA, pX, pY, pS, dt, rc, nl, il, np,
    it, rh, jm, dv, mem, cq, tr, i80, hq, io⟩ := u
  simp only at h1 h2 h3 h4
  subst h1 h2 h3 h4
  rfl

/-- The first cycle after a held one forces the break sequence (R583). -/
theorem systemCycle_release (hph : s.phase = true) (held : s.resHeld = true) (r : Released (callerActs s))
    (hD : D 0x00 = breakSequence) :
    systemCycle D (clearTrace s) = .next (high (resetRelease (callerActs s)) (View.release (callerActs s) (outsideByte s))) := by
  have heldActs : (callerActs s).resHeld = true := by
    obtain ⟨i, rc, rn, iq, nm, rd, m, cq, hu⟩ := callerActs_eq s
    rw [hu]
    exact held
  have forced : onLow D (lowered (callerActs (clearTrace s))) = .next (advanceStep .next
      (busRead (callerActs s).PC (prepare (resetRelease (lowered (clearTrace (callerActs s))))))) := by
    have high : ¬ (!(callerActs s).pins.resN) = true := by rw [r.resN]; decide
    rw [callerActs_clearTrace]
    refine (if_neg high).trans ((if_pos heldActs).trans ?_)
    show (match D 0x00 0 (prepare (resetRelease (lowered (clearTrace (callerActs s))))) with | some (t, a) => _ | none => _) = _
    rw [hD]
    rfl
  rw [← endCycleWith_release r]
  obtain ⟨proc, phase, divider⟩ := lowered_prepare (resetRelease (lowered (clearTrace (callerActs s))))
  exact systemCycle_of_onLow (s := clearTrace s) hph forced (proc.trans (proc_callerActs s)) phase
    (divider.trans (lowDivider_callerActs s))

/-- The step of a release is the reset sequence to its end. -/
theorem step_released (hp : s.proc ≠ .i8080) (hph : s.phase = true) (held : s.resHeld = true) (r : Released (callerActs s)) :
    let u := resetRelease (callerActs s)
    ∃ t, step s = .next t ∧ t.intent ≠ .irq ∧ RetiresWith 0 u t (breakArch .reset u) u.mem
      ([⟨u.PC, true, false, (outsideByte s).getD (u.mem.read u.PC)⟩] ++ frameBus .reset u ++ [rd u.mem 0xFFFC, rd u.mem 0xFFFD]) := by
  intro u
  have hD := own_brk (current_micro (currentOp s))
  have quiet : Quiet u := ⟨(phase_callerActs s).trans hph, r.resN, rfl, r.rdy, r.callerQ⟩
  have first : ReachesFrom (step s) (ownDispatcher (currentOp s) (microOf (decode6502 (currentOp s)))) u 0x00 1 7 (View.release (callerActs s) (outsideByte s)) := by
    refine ⟨?_, rfl, rfl⟩
    · rw [step_eq_runCycles hp hph]
      show andThen (systemCycle _ (clearTrace s)) _ = _
      rw [systemCycle_release hph held r hD]
      rfl
  obtain ⟨t, ht, hr, hi, -⟩ := break_reset first quiet r.jammed hD
  exact ⟨t, ht, hi, hr⟩

/-- Settles O29: `callerActs` by its clauses, one held cycle, and the sequence of a release. -/
theorem resetLine : Obligations.ResetLine := by
  refine ⟨fun s => ⟨rfl, ?_⟩, fun s h => callerActs_nil h, fun s c rest h => ⟨callerActs_cons h, fun _ _ hc => resN_callerActs h hc⟩,
    fun s hp hph => ?_, fun s hp hph held jam => ?_⟩
  · cases h : s.pins.resN with
    | false | true => simp [setReset, h]
  · intro u low
    have run := step_held hp hph low
    obtain ⟨i, rc, rn, iq, nm, rd, m, cq, hu⟩ := callerActs_eq s
    have hu : u = _ := hu
    have run : step s = .next (endCycleWith (outsideByte s) (resetHeldCycle (lowered (clearTrace u)))) := run
    clear_value u
    subst hu
    exact ⟨_, run, rfl, rfl, rfl, rfl, rfl, rfl, rfl, rfl, rfl, rfl, rfl, rfl, rfl, rfl, rfl, rfl, rfl, rfl, rfl, rfl, rfl, rfl, rfl,
      rfl, rfl, low, rfl, rfl, rfl⟩
  · intro u r pc hq high ready
    obtain ⟨i, rc, rn, iq, nm, rd', m, cq, hu⟩ := callerActs_eq s
    have hu : u = _ := hu
    have jammed : u.jammed = false := by rw [hu]; exact jam
    obtain ⟨t, ht, hi, hr⟩ := step_released hp hph held ⟨high, ready, hq, jammed⟩
    have regs : arch (resetRelease u) = arch s ∧ u.P = s.P ∧ u.PC = s.PC := by rw [hu]; exact ⟨rfl, rfl, rfl⟩
    obtain ⟨harch, hP, hPC⟩ := regs
    have hS : regS (resetRelease u) = regS s := congrArg Arch.S harch
    refine ⟨t, ht, hr.rstCnt, hr.rest.resHeld, hi, hr.fetch, hr.mem, ?_, ?_⟩
    · rw [hr.arch, breakArch, ← harch, ← hS, ← hP]
      rfl
    · rw [hr.trace, ← hPC, ← hS]
      rfl

end Sys2Proof.Machine
end

section
/-! Stalled cycles (40_engine.md R122, R124; 47_illegal.md R392). -/

namespace Sys2Proof.Machine

variable {s t u : State} {D : Dispatcher}

/-- The ready line is asserted at a read, and nothing else happens. -/
structure Stalled (s : State) : Prop where
  proc : s.proc ≠ .i8080
  phase : s.phase = true
  callerQ : s.callerQ = []
  resN : s.pins.resN = true
  resHeld : s.resHeld = false
  rdy : s.pins.rdy = true
  rw : s.pins.rw = true

/-- The stall is not that before the write of an unstable store (R392). -/
def Stable (s : State) : Prop := s.pins.sync = false → unstableWriteStep s.IR s.T = false

/-- What a stalled cycle makes of the latches. -/
def stallLatches (s : State) : State :=
  { s with
    irqLatch := shiftIn s.irqLatch (irqSample s)
    nmiLatch := if nmiEdge s then s.nmiLatch ||| 1 else s.nmiLatch
    nmiPrev := s.pins.nmiN }

theorem stallCycle_of_stable (h : Stable s) : stallCycle s = .next (stallLatches s) := by
  refine if_neg fun bad => ?_
  rw [Bool.and_eq_true, Bool.not_eq_true'] at bad
  obtain ⟨sync, unstable⟩ := bad
  exact absurd (h sync) (by rw [unstable]; decide)

theorem stallCycle_of_unstable (hs : s.pins.sync = false) (hu : unstableWriteStep s.IR s.T = true) :
    stallCycle s = .refused .unstableStoreStalled := if_pos (by rw [hs, hu]; rfl)

/-- The falling phase of a stalled cycle. -/
theorem onLow_stalled (h : Stalled s) : onLow D (lowered (callerActs (clearTrace s))) = stallCycle (lowered (clearTrace s)) := by
  have idle : callerActs (clearTrace s) = clearTrace s := callerActs_nil h.callerQ
  have high : ¬ (!(lowered (clearTrace s)).pins.resN) = true := by simp [lowered, clearTrace, h.resN]
  have released : ¬ (lowered (clearTrace s)).resHeld = true := by simp [lowered, clearTrace, h.resHeld]
  have ready : ((lowered (clearTrace s)).pins.rdy && (lowered (clearTrace s)).pins.rw) = true := by
    simp [lowered, clearTrace, h.rdy, h.rw]
  rw [idle, onLow, if_neg high, if_neg released, if_pos ready]

/-- What a step makes of a stalled state. -/
def stallStep (s : State) : State := endCycle (stallLatches (lowered (clearTrace s)))

/-- A step of a stalled core is one stalled cycle. -/
theorem step_stalled (h : Stalled s) (st : Stable s) : step s = .next (stallStep s) := by
  have outside : outsideByte (clearTrace s) = none := by
    unfold outsideByte
    rw [show (clearTrace s).callerQ = [] from h.callerQ]
  have fall (D : Dispatcher) := (onLow_stalled (D := D) h).trans (stallCycle_of_stable (s := lowered (clearTrace s)) st)
  rw [step_eq_runCycles h.proc h.phase]
  show andThen (systemCycle _ (clearTrace s)) _ = _
  rw [systemCycle_of_onLow (s := clearTrace s) h.phase (fall _) rfl rfl rfl, outside, andThen_next]
  exact if_pos (by simp [stops, endCycleWith, stallLatches, lowered, clearTrace, h.rdy])

/-- A stall before the write of an unstable store is refused. -/
theorem step_unstable (h : Stalled s) (hs : s.pins.sync = false) (hu : unstableWriteStep s.IR s.T = true) :
    step s = .refused .unstableStoreStalled := by
  have fall (D : Dispatcher) := (onLow_stalled (D := D) h).trans (stallCycle_of_unstable (s := lowered (clearTrace s)) hs hu)
  rw [step_eq_runCycles h.proc h.phase]
  show andThen (systemCycle _ (clearTrace s)) _ = _
  rw [systemCycle, clockTo_low _ _ ((phase_callerActs (clearTrace s)).trans h.phase), fall]
  rfl

/-! ### Any number of stalled steps -/

/-- `t` differs from `s` in the interrupt latches, the divider, the data pins and the trace only. -/
def SameCycle (s t : State) : Prop :=
  { t with
    irqLatch := s.irqLatch, nmiLatch := s.nmiLatch, nmiPrev := s.nmiPrev, divider := s.divider, trace := s.trace
    pins := { t.pins with data := s.pins.data } } = s

theorem SameCycle.trans (h : SameCycle s t) (h' : SameCycle t u) : SameCycle s u := by
  unfold SameCycle at h'
  unfold SameCycle
  rw [← h'] at h
  exact h

/-- A stalled step re-issues the read (R124). -/
theorem sameCycle_stallStep (h : Stalled s) : SameCycle s (stallStep s) := by
  obtain ⟨-, h2, -, -, -, -, h7⟩ := h
  obtain ⟨pr, A, X, Y, S, PC, P, ⟨ad, da, rw, sy, rn, iq, nm, rdy⟩, ph, IR, T, AD, TMP, SS, pA, pX, pY, pS, dt, rc, nl, il, np,
    it, rh, jm, dv, mem, cq, tr, i80, hq, io⟩ := s
  simp only at h2 h7
  subst h2 h7
  rfl

theorem SameCycle.stalled (e : SameCycle s t) (h : Stalled s) : Stalled t := by
  have f : ∀ {α : Type} (f : State → α), f _ = f s := fun f => congrArg f e
  exact ⟨fun hp => h.proc ((f State.proc).symm.trans hp), (f State.phase).trans h.phase, (f State.callerQ).trans h.callerQ,
    (f fun x => x.pins.resN).trans h.resN, (f State.resHeld).trans h.resHeld, (f fun x => x.pins.rdy).trans h.rdy,
    (f fun x => x.pins.rw).trans h.rw⟩

theorem SameCycle.stable (e : SameCycle s t) (h : Stable s) : Stable t := by
  have f : ∀ {α : Type} (f : State → α), f _ = f s := fun f => congrArg f e
  have sync : t.pins.sync = s.pins.sync := f fun x => x.pins.sync
  have IR : t.IR = s.IR := f State.IR
  have T : t.T = s.T := f State.T
  unfold Stable
  rw [sync, IR, T]
  exact h

theorem run_stalled (n : Nat) : ∀ {s : State}, Stalled s → Stable s →
    ∃ t, Host.Core.run core n s = .next t ∧ SameCycle s t := by
  induction n with
  | zero => exact fun {s} _ _ => ⟨s, rfl, rfl⟩
  | succ n ih =>
    intro s h st
    have e := sameCycle_stallStep h
    obtain ⟨t, ht, e'⟩ := ih (e.stalled h) (e.stable st)
    exact ⟨t, (run_succ (M := core) n (step_stalled h st)).trans ht, e.trans e'⟩

/-! ### The latches of one stalled step -/

theorem getLsbD_keepEdge (l : BitVec 16) (edge : Bool) : (if edge then l ||| 1 else l).getLsbD 0 = (l.getLsbD 0 || edge) := by
  cases edge with
  | false => simp
  | true => simp

theorem getLsbD_keepEdge_succ (l : BitVec 16) (edge : Bool) (k : Nat) :
    (if edge then l ||| 1 else l).getLsbD (k + 1) = l.getLsbD (k + 1) := by
  cases edge with
  | false => rfl
  | true => simp

/-- Settles O30: one stalled step keeps the cycle, and with it the hypotheses of the next. -/
theorem readyStall : Obligations.ReadyStall := by
  unfold Obligations.ReadyStall
  intro stalls
  have stalled {s : State} (h : stalls s) : Stalled s := by
    obtain ⟨h1, h2, h3, h4, h5, h6, h7⟩ := h
    exact ⟨h1, h2, h3, h4, h5, h6, h7⟩
  refine ⟨fun n s h _ st => ?_, fun s h hd st => ?_, fun s h hs hu => step_unstable (stalled h) hs hu⟩
  · obtain ⟨t, ht, e⟩ := run_stalled n (stalled h) st
    have f : ∀ {α : Type} (f : State → α), f _ = f s := fun f => congrArg f e
    exact ⟨t, ht, f fun x => x.pins.addr, f fun x => x.pins.rw, f fun x => x.pins.sync, f State.A, f State.X, f State.Y, f State.S,
      f State.PC, f State.P, f State.IR, f State.T, f State.pendA, f State.pendX, f State.pendY, f State.pendS, f State.intent,
      f State.mem⟩
  · refine ⟨_, step_stalled (stalled h) st, ?_, getLsbD_shiftIn_zero _ _, getLsbD_keepEdge _ _, rfl, fun k hk =>
      ⟨getLsbD_shiftIn_succ _ _ hk, getLsbD_keepEdge_succ _ _ k⟩⟩
    show [(⟨s.pins.addr, s.pins.rw, s.pins.sync, s.dout.getD (if s.pins.rw then s.mem.read s.pins.addr else s.pins.data)⟩ : BusCycle)] = _
    rw [hd, (stalled h).rw]
    rfl

end Sys2Proof.Machine
end
